-- ==== Sys2Proof/Word.lean ====
section
/-! DEFINITION. The word types of the register window and of shared memory (spec 00, 4.1). -/

namespace Sys2Proof

/-- A byte of shared memory. -/
abbrev Byte := BitVec 8

/-- A 16-bit field. -/
abbrev Half := BitVec 16

/-- A 32-bit register, stamp or address. -/
abbrev Word := BitVec 32

end Sys2Proof
end

