-- ==== Sys2Proof/Syntax.lean ====
section
/-! DEFINITION. The commands: one constructor per row of spec/opcode_table.json, with what comes from outside the part
as its operands. The parameters of a task stand in the walker's copy of its record (R169), not here. -/

namespace Sys2Proof

/-- The eight registers of the window (12.1). -/
inductive Reg where
  | control | status | setupAddress | chainPoke | noticeCount | attention | frameStamp | resetCause
deriving DecidableEq, Repr

/-- The two planes (05): plane 0 lies below, plane 1 above. -/
inductive PlaneId where
  | slide | menu
deriving DecidableEq, Repr

/-- The commands. `err` says that the burst completes with an error response from memory (R120); `elapsed` is how many
reference ticks have passed since time was last counted (log 1). -/
inductive Instr where
  | powerOnReset
  | resetPin
  /-- A Control write of `value`, whose SOFT RESET position is set (R194). -/
  | softReset (value : Word)
  /-- A Control write of `value`, in which START stands alone (R194). -/
  | start (value : Word)
  | startReadsComplete (err : Bool)
  | resumeReadsComplete (err : Bool)
  /-- A Control write of `value`, in which HALT stands alone (R194). -/
  | halt (value : Word)
  | haltComplete
  | attentionWrite (value : Word)
  | resetCauseWrite (value : Word)
  | chainPoke (value : Word)
  /-- A write of `bytes` bytes of a register; only a write of the whole word, 4 bytes, acts (R200). -/
  | registerWrite (reg : Reg) (bytes : Nat) (value : Word)
  | frameStart (elapsed : Nat)
  | syncLoss (elapsed : Nat)
  | offsetSwitch
  | compactConfirm
  | paletteApply
  | transitionEnd (plane : PlaneId)
  | operationBegin (plane : PlaneId)
  | jumpApply
  | activationEnd
  | digitWindowExpiry
  | pageTimeout
  | lineStart
  /-- The arbiter's next choice; `host` is what the host has written into shared memory since the last grant (log 4). -/
  | burstGrant (host : List Host.Cell)
  | lineFetchBurstComplete (err : Bool)
  /-- The stop sample of a key frame: its byte, marker and stop bit as sampled (R151, R152). -/
  | keyFrame (elapsed : Nat) (byte : Byte) (marker stop : Bool)
  | takeItem
  | recordReadComplete (err : Bool)
  | loadObject
  | loadHeaderReadComplete (err : Bool)
  | freeObject
  | compactHeap
  | loadPalette
  | paletteReadComplete (err : Bool)
  | stagePage
  | pageReadComplete (err : Bool)
  | discardPage
  | showPage
  | hidePlane
  | clearSchedule
  | setState
  | selectButton
  | injectKey
  | wait
  | waitMet
  | snapshot
  | stallHandover
  | linkReadComplete (err : Bool)
  | resultsBurstComplete (err : Bool)
  | outcomeBurstComplete (err : Bool)
  | decoderTakeLoad
  | decoderHeaderReadComplete (err : Bool)
  | decoderReadComplete (err : Bool)
  | decoderWriteComplete (err : Bool)
  | compactWaitEnd
  | compactScanStep
  | compactReadComplete (err : Bool)
  | compactWriteComplete (err : Bool)
  | noticeTake
  | contentsBurstComplete (err : Bool)
  | stateBurstComplete (err : Bool)
  | noticeLinkReadComplete (err : Bool)
  | resetPinRelease
  | startEdge
  /-- The middle of the start bit, with the line sampled 1 (R151). -/
  | falseStart (elapsed : Nat)
  | pixelClock
  | pageHeaderReadComplete (err : Bool)
deriving DecidableEq, Repr

end Sys2Proof
end

