-- ==== Sys2Proof/WellFormed.lean ====
section
/-! DEFINITION. Which commands are well formed: a Control write stands under the row whose command positions it sets
(R194; Control bits 0 START, 1 HALT, 2 SOFT RESET, 12.1), a register write covers 1 to 4 bytes (R200), and the host
writes only addresses of shared memory (00, 4.1). -/

namespace Sys2Proof

/-- The check of a command's operands. -/
def Instr.wellFormed : Instr → Bool
  | .softReset v => v.getLsbD 2
  | .start v => v.getLsbD 0 && !v.getLsbD 1 && !v.getLsbD 2
  | .halt v => v.getLsbD 1 && !v.getLsbD 0 && !v.getLsbD 2
  | .registerWrite _ n _ => decide (1 ≤ n ∧ n ≤ 4)
  | .burstGrant host => host.all fun c => decide (c.1 < 2 ^ 32)
  | .powerOnReset | .resetPin | .startReadsComplete _ | .resumeReadsComplete _ | .haltComplete | .attentionWrite _
  | .resetCauseWrite _ | .chainPoke _ | .frameStart _ | .syncLoss _ | .offsetSwitch | .compactConfirm | .paletteApply
  | .transitionEnd _ | .operationBegin _ | .jumpApply | .activationEnd | .digitWindowExpiry | .pageTimeout | .lineStart
  | .lineFetchBurstComplete _ | .keyFrame _ _ _ _ | .takeItem | .recordReadComplete _ | .loadObject
  | .loadHeaderReadComplete _ | .freeObject | .compactHeap | .loadPalette | .paletteReadComplete _ | .stagePage
  | .pageReadComplete _ | .discardPage | .showPage | .hidePlane | .clearSchedule | .setState | .selectButton | .injectKey
  | .wait | .waitMet | .snapshot | .stallHandover | .linkReadComplete _ | .resultsBurstComplete _
  | .outcomeBurstComplete _ | .decoderTakeLoad | .decoderHeaderReadComplete _ | .decoderReadComplete _
  | .decoderWriteComplete _ | .compactWaitEnd | .compactScanStep | .compactReadComplete _ | .compactWriteComplete _
  | .noticeTake | .contentsBurstComplete _ | .stateBurstComplete _ | .noticeLinkReadComplete _ | .resetPinRelease
  | .startEdge | .falseStart _ | .pixelClock | .pageHeaderReadComplete _ => true

end Sys2Proof
end

