-- ==== Sys2Proof/Config.lean ====
section
/-! DEFINITION. What the part fixes once (queue depths, limits) and the free value the spec leaves open. -/

namespace Sys2Proof.Config

/-- What memory holds in a byte of a write that met an error response (R120: "it is not known which bytes of the block
memory kept"), by the number of such bytes met before. No body: nothing can be proved of its value (log 7). -/
opaque freeByte : Nat → Byte

/-- What a byte of shared memory reads as that nothing has written (log 5). DESIGN CHOICE, unsafe. -/
def unlistedByte : Byte := 0

/-- Places in the load queue (R8). -/
def maxLoads : Nat := 4
/-- Places in the application list (R42). -/
def maxPaletteTasks : Nat := 16
/-- Places in a plane's schedule (R75). -/
def maxSchedule : Nat := 8
/-- Places in the key queue (R154). -/
def maxKeys : Nat := 8
/-- Places in the notice queue (R188). -/
def maxNotices : Nat := 8
/-- Line buffers of a plane (R101). -/
def lineBuffers : Nat := 4
/-- Spans drawn on one line of a plane (R99). -/
def maxSpansOnLine : Nat := 16
/-- Links followed in one direction search (R158). -/
def maxLinks : Nat := 24

end Sys2Proof.Config
end

