-- ==== Sys2Proof/Machine/State.lean ====
section
/-! DEFINITION. The state of the part as plain data, block by block, and the state right after a power-on reset. Each
structure names the section of spec/ that lists its fields; the defaults are the reset values of that chapter's table. -/

namespace Sys2Proof.Machine

/-! ### Shared memory and page slots -/

/-- Shared memory: (address, byte), addresses rising, no byte equal to what an unlisted address reads as (log 4, log 5). -/
abbrev Mem := List Host.Cell

/-- A page slot's number, 0 to 5 (03, 3.2). -/
abbrev SlotId := Fin 6

/-- A read of consecutive bytes, one burst at a time: the next byte wanted, how many are still wanted, those that came. -/
structure Gather where
  addr : Nat
  left : Nat
  got : List Byte := []
deriving DecidableEq, Repr, Inhabited

/-! ### Run control (11) -/

/-- The run states (12.1, Status bits 0-2). -/
inductive RunState where
  | stopped | starting | running | halting | halted
deriving DecidableEq, Repr, Inhabited

/-- The four requesters of the memory port (07, R116). -/
inductive Requester where
  | lineFetch | decoder | walker | compactor
deriving DecidableEq, Repr, Inhabited

/-- One value for each requester. -/
structure Four (α : Type) where
  lineFetch : α
  decoder : α
  walker : α
  compactor : α
deriving DecidableEq, Repr, Inhabited

/-- A requester's arbiter parameters r, d, L and C (R121). -/
structure ArbParams where
  r : Nat := 0
  d : Nat := 0
  limit : Nat := 0
  clip : Nat := 0
deriving DecidableEq, Repr, Inhabited

/-- The plane formats (11, field 7). -/
inductive PlaneFormat where
  | f1920x1080 | f1280x720 | f720x576 | f720x480
deriving DecidableEq, Repr, Inhabited

/-- The fixed section of the setup block as taken at a start (11, fields 1-8). -/
structure Fixed where
  chainBase : Nat
  chainSize : Nat
  heapBase : Nat
  heapSize : Nat
  firstTask : Word
  firstBlank : Word
  format : PlaneFormat
  interval : Nat
deriving DecidableEq, Repr, Inhabited

/-- The tunable section in force (11, fields 9-16). -/
structure Tunables where
  arb : Four ArbParams
  threshold : Nat
  attnMask : Word
  keyEnable : Bool
  keyAddr : Nat
  keyDiv : Nat
  digitWindow : Nat
deriving DecidableEq, Repr, Inhabited

/-- A read of the setup block under way (R195, R198). -/
structure SetupRead where
  resume : Bool
  gather : Gather
deriving DecidableEq, Repr, Inhabited

/-- The flags of Reset Cause (R199). -/
structure ResetCause where
  power : Bool := false
  pin : Bool := false
  soft : Bool := false
deriving DecidableEq, Repr, Inhabited

/-- Run control (11.4-11.7). `pinHeld`: the reset pin is asserted. -/
structure RunControl where
  state : RunState := .stopped
  refusal : Nat := 0
  attnEnable : Bool := false
  setupAddr : Word := 0
  cause : ResetCause := {}
  pinHeld : Bool := false
  fixed : Option Fixed := none
  tun : Option Tunables := none
  reading : Option SetupRead := none
deriving DecidableEq, Repr, Inhabited

/-- The five flags of the Attention register (R193). -/
structure Attention where
  notice : Bool := false
  noBlanks : Bool := false
  walkerFault : Bool := false
  syncLost : Bool := false
  blankFault : Bool := false
deriving DecidableEq, Repr, Inhabited

/-! ### Frame timer and sync watch (04) -/

/-- The frame timer (04, 4.1). The nominal interval stands in the fixed section. -/
structure Timer where
  stamp : Word := 0
  tick : Nat := 0
  firstFrame : Bool := false
  armed : Bool := false
  lost : Bool := false
  latch : Bool := false
  forced : Bool := false
deriving DecidableEq, Repr, Inhabited

/-! ### Tasks and retirements (10) -/

/-- What an owner keeps of a task: its record address, kind, flags and tag (R174). -/
structure TaskRef where
  addr : Word
  kind : Byte
  flags : Byte
  tag : Half
deriving DecidableEq, Repr, Inhabited

/-- The outcomes of a task, in code order 0 to 15 (12.2). -/
inductive TaskOutcome where
  | pending | done | doneShort | cancelled | badKind | badParameter | addressFault | idTaken | idReleasing | heapFull
  | decodeFault | slotBusy | notStaged | pageInvalid | notSelectable | memoryError
deriving DecidableEq, Repr, Inhabited

/-- A retirement (R178); `results` are the result bytes at record offsets (12.2). -/
structure Retirement where
  task : TaskRef
  outcome : TaskOutcome
  detail : Byte
  stamp : Word
  results : List (Nat × Byte)
deriving DecidableEq, Repr, Inhabited

/-- A fault capture: failing address, link holder, direction (R181, R184). -/
structure Capture where
  addr : Word
  holder : Option Word
  write : Bool
deriving DecidableEq, Repr, Inhabited

/-- The walker's copy of a task: the reference and the 48 parameter bytes (R169). -/
structure Task where
  ref : TaskRef
  params : List Byte
deriving DecidableEq, Repr, Inhabited

/-- Where a halted walker goes on (R186). -/
inductive ResumePoint where
  | link | record | handover | wait | parked
deriving DecidableEq, Repr, Inhabited

/-- The walker's states (10.2). -/
inductive WalkerState where
  | idle | reading | working | stalled | waiting | linking | parked | halted (rp : ResumePoint) | faulted
deriving DecidableEq, Repr, Inhabited

/-- A re-read of a link by the parked walker or at the notice anchor: none, requested and not yet granted, or granted,
with one more to come when a prompt has arrived since (R176, R190). -/
inductive Reread where
  | none | asked | granted (again : Bool)
deriving DecidableEq, Repr, Inhabited

/-- How far the task in hand stands: still to be judged, or a read it needs (R7, R43, R49). -/
inductive Job where
  | judge | loadHeader (g : Gather) | palette (g : Gather) | pageHeader (g : Gather) | pageRest (header : List Byte) (g : Gather)
deriving DecidableEq, Repr, Inhabited

/-- The walker (10). -/
structure Walker where
  st : WalkerState := .idle
  cur : Option Word := none
  holder : Option Word := none
  asked : Bool := false
  reread : Reread := .none
  task : Option Task := none
  job : Job := .judge
  capture : Option Capture := none
  retiring : List Retirement := []
deriving DecidableEq, Repr, Inhabited

/-! ### Notice writer (11.1, 11.2) -/

/-- Why a pending jump failed (R90). -/
inductive JumpFailure where
  | notHeld | notMenu | notReady | superseded
deriving DecidableEq, Repr, Inhabited

/-- A notice's kind with its body fields, in kind order 1 to 9 (R192). -/
inductive NoticeBody where
  | taskDone (addr : Word) (tag : Half) (kind : Byte) (outcome : TaskOutcome) (detail : Byte)
  | buttonAction (slot : SlotId) (button : Nat) (code : Half) (word : Word)
  | stateChanged (old new : Word) (slot : SlotId) (button : Nat)
  | pageJump (failure : Option JumpFailure) (target : SlotId) (before : Option SlotId) (button : Nat) (slot : SlotId)
  | keyPassed (code : Byte) (fromTask : Bool) (slot : Option SlotId)
  | pageTimeout (slot : SlotId) (selected : Option Nat) (word : Word)
  | frameFaults (stamp : Word) (underruns drops : Nat)
  | walkerFault (capture : Capture)
  | syncChange (regained : Bool) (stamp : Word)
deriving DecidableEq, Repr

/-- A notice as submitted: body and frame stamp (11.1). -/
structure Notice where
  body : NoticeBody
  stamp : Word
deriving DecidableEq, Repr

/-- The notice writer's place in its chain (11.1). -/
inductive Cursor where
  | none | blank (addr : Word) | anchor (addr : Word)
deriving DecidableEq, Repr, Inhabited

/-- How far a notice's writing stands: contents burst, state burst, link read (R189, R190). -/
inductive WritePhase where
  | contents | state | link
deriving DecidableEq, Repr, Inhabited

/-- The notice being written, with the number and lost field given to it (R189). -/
structure Writing where
  notice : Notice
  seq : Word
  lost : Nat
  phase : WritePhase
deriving DecidableEq, Repr

/-- The notice writer (11.1). -/
structure Notices where
  cursor : Cursor := .none
  queue : List Notice := []
  seq : Word := 0
  lost : Nat := 0
  writing : Option Writing := none
  reread : Reread := .none
deriving DecidableEq, Repr

/-! ### Memory port (07) -/

/-- Whom a burst serves, and what its completion needs to know. -/
inductive User where
  | line (plane : PlaneId) (line span : Nat)
  | decHeader | decCode | decPixels
  | compRead | compWrite
  | record | link | loadHeader | palette | pageHeader | pageRest
  | results (r : Retirement)
  | outcome (r : Retirement) (written : TaskOutcome) (detail : Byte)
  | contents | noticeState | noticeLink
  | setup (resume : Bool)
deriving DecidableEq, Repr, Inhabited

/-- A burst: its block's address and, for a write, the bytes the mask selects by offset in the block (R115). -/
structure Burst where
  user : User
  block : Nat
  sel : Option (List (Nat × Byte))
deriving DecidableEq, Repr, Inhabited

/-- The granted burst under way: the bytes a read returns, whether the port refused it (R118), and whether its bytes
are to be discarded (R116, R125). -/
structure Flight where
  burst : Burst
  data : List Byte
  refused : Bool
  dropped : Bool
deriving DecidableEq, Repr, Inhabited

/-- The memory port and its arbiter (07). -/
structure Port where
  lfReq : Option Burst := none
  decReq : Option Burst := none
  compReq : Option Burst := none
  walkerQ : List Burst := []
  flight : Option Flight := none
  accounts : Four Nat := ⟨0, 0, 0, 0⟩
  pointer : Requester := .lineFetch
deriving DecidableEq, Repr, Inhabited

/-- The counters of R126. -/
structure Stats where
  bursts : Four Word := ⟨0, 0, 0, 0⟩
  urgent : Word := 0
  overLimit : Word := 0
  frames : Word := 0
  underruns : Word := 0
  drops : Word := 0
  glitches : Word := 0
  framing : Word := 0
  keysDropped : Word := 0
  noticesLost : Word := 0
deriving DecidableEq, Repr, Inhabited

/-! ### Heap manager and decoder (01) -/

/-- The states of a directory entry (R5). RELEASING with or without data is told by `hasData`. -/
inductive ObjState where
  | empty | queued | loading | ready | faulted | releasing
deriving DecidableEq, Repr, Inhabited

/-- A moving object's destination and overlap flag (01, 1.2). -/
structure Moving where
  dest : Nat
  overlap : Bool
deriving DecidableEq, Repr, Inhabited

/-- An entry of the object directory (01, 1.2). -/
structure DirEntry where
  state : ObjState := .empty
  hasData : Bool := false
  width : Nat := 0
  height : Nat := 0
  offset : Nat := 0
  count : Nat := 0
  fault : Nat := 0
  short : Bool := false
  useCount : Nat := 0
  moving : Option Moving := none
  loadTask : Option Word := none
deriving DecidableEq, Repr, Inhabited

/-- A run of free granules (R2). -/
structure Extent where
  start : Nat
  len : Nat
deriving DecidableEq, Repr, Inhabited

/-- An accepted load. `held`: accepted after a COMPACT HEAP that has been handed over and has not ended (R9). -/
structure Load where
  id : Byte
  header : Word
  task : TaskRef
  held : Bool
deriving DecidableEq, Repr, Inhabited

/-- How far the current decode stands; `finish`: an end-of-object code has been read and pixels remain to be written. -/
inductive DecodeStage where
  | header | stream | finish (short : Bool)
deriving DecidableEq, Repr, Inhabited

/-- The decoder's current decode (R9, 1.4). `code`: bytes read and not consumed; `runs`: pixels decoded and not yet
written, as (count, index); `written`: granules requested for writing so far (log 10). -/
structure Decode where
  id : Byte
  header : Nat
  gather : Gather
  stage : DecodeStage := .header
  fill : Byte := 0
  width : Nat := 0
  height : Nat := 0
  codeLen : Nat := 0
  line : Nat := 0
  pos : Nat := 0
  consumed : Nat := 0
  code : List Byte := []
  runs : List (Nat × Byte) := []
  written : Nat := 0
deriving DecidableEq, Repr, Inhabited

/-- What the entry view holds of one entry (R22). -/
structure EntryView where
  drawable : Bool
  width : Nat
  height : Nat
  offset : Nat
  blocking : Bool
deriving DecidableEq, Repr, Inhabited

/-- The heap manager and its decoder (01). -/
structure Heap where
  dir : Vector DirEntry 256 := .replicate 256 {}
  extents : List Extent := []
  loads : List Load := []
  decode : Option Decode := none
  view : Option (Vector EntryView 256) := none
deriving DecidableEq, Repr

/-! ### Compactor (02) -/

/-- The compactor's phases (02, 2.1). -/
inductive CompactPhase where
  | idle | waiting | scanning | confirming | copying | switchPending | paused
deriving DecidableEq, Repr, Inhabited

/-- The current move (02, 2.1). -/
structure Move where
  id : Byte
  src : Nat
  dst : Nat
  count : Nat
  overlap : Bool
  copied : Nat
deriving DecidableEq, Repr, Inhabited

/-- The compactor (02, 2.1). `wasWaiting`: what a PAUSED compactor remembers (R39); `frameSeen`: a frame start has come
since an overlapping reservation (R32). -/
structure Compactor where
  phase : CompactPhase := .idle
  task : Option TaskRef := none
  low : Nat := 0
  move : Option Move := none
  moved : Nat := 0
  skipped : Nat := 0
  wasWaiting : Bool := false
  frameSeen : Bool := false
deriving DecidableEq, Repr, Inhabited

/-! ### Palette store and page store (03) -/

/-- A palette entry (3.1); the default is the reset entry of R41. -/
structure PalEntry where
  y : Byte := 16
  cb : Byte := 128
  cr : Byte := 128
  a : Byte := 0
deriving DecidableEq, Repr, Inhabited

/-- The palette store (3.1). A marked entry of a pending copy is `some` entry. -/
structure PaletteStore where
  applied : Vector (Vector PalEntry 256) 8 := .replicate 8 (.replicate 256 {})
  pend : Vector (Vector (Option PalEntry) 256) 8 := .replicate 8 (.replicate 256 none)
  list : List TaskRef := []
deriving DecidableEq, Repr

/-- A placement (3.3). -/
structure Placement where
  obj : Byte
  pal : Nat
  x : Int
  y : Int
  cropX : Nat
  cropY : Nat
  cropW : Nat
  cropH : Nat
deriving DecidableEq, Repr, Inhabited

/-- A button's action (3.3). -/
inductive Action where
  | none | notify (code : Half) | toggle (mask : Word) | jump (slot : SlotId)
deriving DecidableEq, Repr, Inhabited

/-- A button (3.3). A link is a button index, or 255 for none; a cycle is eight pairs of object id and hold. -/
structure Button where
  placement : Nat
  up : Nat
  down : Nat
  left : Nat
  right : Nat
  number : Nat
  auto : Bool
  mask : Word
  value : Word
  act1 : Action
  act2 : Action
  normal : List (Byte × Nat)
  selected : List (Byte × Nat)
  activated : List (Byte × Nat)
deriving DecidableEq, Repr, Inhabited

/-- The kinds of page (3.3). -/
inductive PageKind where
  | menu | slide
deriving DecidableEq, Repr, Inhabited

/-- A checked page definition (3.3). -/
structure PageDef where
  kind : PageKind
  dflt : Option Nat
  timeout : Nat
  placements : List Placement
  buttons : List Button
deriving DecidableEq, Repr, Inhabited

/-- A page slot (3.2): only a STAGED slot holds a definition, a named-id set and holds (R46). -/
inductive Slot where
  | free
  | staging
  | staged (page : PageDef) (named : List Byte) (holds : Nat)
deriving DecidableEq, Repr, Inhabited

/-! ### Plane controllers (05) -/

/-- A plane's state with the slot of each role and, in a transition, k and N (5.1, R73). -/
inductive Content where
  | empty
  | entering (inc : SlotId) (k n : Nat)
  | shown (page : SlotId)
  | crossing (inc out : SlotId) (k n : Nat)
  | leaving (out : SlotId) (k n : Nat)
deriving DecidableEq, Repr, Inhabited

/-- A schedule entry (R75): `page` is the slot of a SHOW, none for a HIDE; `blend` is N, none for a CUT. `later`: inserted
while its plane's work for the last frame start was outstanding, and so judged first at the next one (R85, log 3). -/
structure SchedEntry where
  page : Option SlotId
  blend : Option Nat
  due : Word
  task : TaskRef
  later : Bool := false
deriving DecidableEq, Repr, Inhabited

/-- A frame view (R74). -/
structure FrameView where
  frame : Word
  content : Content
  fade : Nat
  mark : Bool
deriving DecidableEq, Repr, Inhabited

/-- A pending jump (R88). -/
structure Jump where
  target : SlotId
  held : Bool
  button : Nat
  slot : SlotId
deriving DecidableEq, Repr, Inhabited

/-- A plane controller (R73). `mark`: the entry mark of the frame start under way (R74). -/
structure Plane where
  content : Content := .empty
  schedule : List SchedEntry := []
  view : Option FrameView := none
  mark : Bool := false
deriving DecidableEq, Repr, Inhabited

/-! ### Composer (06) -/

/-- The role of the page a span belongs to (6.2). -/
inductive SpanRole where
  | single | incoming | outgoing
deriving DecidableEq, Repr, Inhabited

/-- A span (6.2). -/
structure Span where
  role : SpanRole
  obj : Byte
  blank : Bool
  heapOff : Nat
  objW : Nat
  sx : Nat
  sy : Nat
  pal : Nat
  left : Nat
  top : Nat
  width : Nat
  height : Nat
deriving DecidableEq, Repr, Inhabited

/-- A span's row on one line (R102): its first heap byte, its number of bursts, how many have been granted, what came
of each that has completed (none after an error response, R105), and whether it underran (R104). -/
structure SpanFetch where
  span : Span
  base : Nat
  bursts : Nat
  granted : Nat := 0
  got : List (Option (List Byte)) := []
  under : Bool := false
deriving DecidableEq, Repr, Inhabited

/-- A line buffer in use (R101). `judged`: its line start has come (R104). -/
structure LineBuf where
  line : Nat
  spans : List SpanFetch
  judged : Bool := false
deriving DecidableEq, Repr, Inhabited

/-- A plane's span table, its line buffers in use in rising line order, and the lowest line not yet begun (6.1, R101). -/
structure Raster where
  spans : List Span := []
  bufs : List LineBuf := []
  next : Nat := 0
deriving DecidableEq, Repr, Inhabited

/-- A composed colour or output pixel (R107, R110). -/
structure Colour where
  a : Nat := 0
  y : Nat := 0
  cb : Int := 0
  cr : Int := 0
deriving DecidableEq, Repr, Inhabited

/-- The composer (6.1). `output`: the pixel last sent on the overlay pixel stream. The line and pixel counters, which chapter 6 gives
as 0 upward, neither wrap nor saturate: the model's choice (log 33). -/
structure Composer where
  slide : Raster := {}
  menu : Raster := {}
  marker : Option Word := none
  lastPlane : PlaneId := .menu
  lineStarted : Bool := false
  line : Nat := 0
  pixel : Nat := 0
  underruns : Nat := 0
  drops : Nat := 0
  output : Colour := {}
deriving DecidableEq, Repr, Inhabited

/-! ### Navigation unit and key line (08, 09) -/

/-- The visual states of a button (R139). -/
inductive VisState where
  | normal | selected | activating
deriving DecidableEq, Repr, Inhabited

/-- A button's live record: visual state, pair index, frames remaining, published flag (8.2). -/
structure ButtonRec where
  vis : VisState := .normal
  pair : Nat := 0
  left : Nat := 0
  pub : Bool := false
deriving DecidableEq, Repr, Inhabited

/-- What a button view gives of one button (R95). -/
structure ButtonView where
  visible : Bool
  vis : VisState
  pair : Nat
deriving DecidableEq, Repr, Inhabited

/-- The button view of one page (R137). -/
structure PageView where
  slot : SlotId
  buttons : List ButtonView
deriving DecidableEq, Repr, Inhabited

/-- An item of the key queue (9.2). A KEY with a task comes from an INJECT KEY (source TASK), one without from the line. -/
inductive KeyItem where
  | key (code : Byte) (task : Option TaskRef)
  | select (button : Nat) (activate : Bool) (task : TaskRef)
deriving DecidableEq, Repr, Inhabited

/-- A pending digit entry (9.4). -/
structure DigitEntry where
  digit : Nat
  left : Nat
  slot : SlotId
deriving DecidableEq, Repr, Inhabited

/-- The navigation unit (8.2, 9.2, 9.4, 9.6). Activity and the navigation slot are read from `judged` (R134). -/
structure Nav where
  word : Word := 0
  judged : Option FrameView := none
  selected : Option Nat := none
  buttons : Vector ButtonRec 24 := .replicate 24 {}
  activation : Option Nat := none
  live : Option PageView := none
  frozen : Option PageView := none
  queue : List KeyItem := []
  digit : Option DigitEntry := none
  timeout : Nat := 0
deriving DecidableEq, Repr

/-- The receive state (9.1): RECEIVING keeps the reference ticks since the start edge (log 18). -/
inductive Receive where
  | idle | receiving (ticks : Nat)
deriving DecidableEq, Repr, Inhabited

/-- The key line receiver (9.1). Its settings stand in the tunables, its error counter in the statistics. -/
structure KeyLine where
  recv : Receive := .idle
  listening : Bool := false
deriving DecidableEq, Repr, Inhabited

/-! ### Frame-start work (R64, log 3) -/

/-- Where a plane's frame-start work stands (R79): to begin, at a pending jump, at a transition whose k has reached N,
at the operations due, or done. -/
inductive PlaneStage where
  | idle | begin | jump | transEnd | ops
deriving DecidableEq, Repr, Inhabited

/-- Where the navigation unit's frame-start work stands (R138): awaiting the menu view, at an ACTIVATED cycle that has
ended, at a digit window run out, at a page timeout, or done. -/
inductive NavStage where
  | idle | await | actEnd | expiry | timeout
deriving DecidableEq, Repr, Inhabited

/-- The frame-start work outstanding: the heap manager's switch and entry view, the palette store's application, the
planes', the navigation unit's and the composer's. -/
structure FrameWork where
  heap : Bool := false
  palette : Bool := false
  slide : PlaneStage := .idle
  menu : PlaneStage := .idle
  nav : NavStage := .idle
  comp : Bool := false
deriving DecidableEq, Repr, Inhabited

/-! ### The whole -/

/-- The part, the shared memory at its port, and the commands waiting. -/
structure State where
  pending : List Instr := []
  mem : Mem := []
  free : Nat := 0
  run : RunControl := {}
  attention : Attention := {}
  timer : Timer := {}
  heap : Heap := {}
  compactor : Compactor := {}
  palette : PaletteStore := {}
  slots : Vector Slot 6 := .replicate 6 .free
  slide : Plane := {}
  menu : Plane := {}
  jump : Option Jump := none
  drawnViews : Option (FrameView × FrameView) := none
  composer : Composer := {}
  port : Port := {}
  stats : Stats := {}
  nav : Nav := {}
  keyline : KeyLine := {}
  walker : Walker := {}
  notices : Notices := {}
  work : FrameWork := {}
deriving DecidableEq, Repr

/-- No command stops the part with a fault: the spec's faults are state, outcomes and notices. -/
inductive Fault where
deriving DecidableEq, Repr

/-- Why the model gives a command no meaning. -/
inductive Refusal where
  /-- A command without a meaning yet, by its mnemonic: raised by exec's arms alone. Safe. -/
  | notModelled (mnemonic : String)
deriving DecidableEq, Repr

/-- What a command answers. -/
abbrev Out := Host.Outcome State Fault Refusal

/-- The part right after a power-on reset (R199): STOPPED, POWER set in Reset Cause, every block at its reset values. -/
def State.reset : State := { run := { cause := { power := true } } }

end Sys2Proof.Machine
end

