-- ==== Sys2Proof/Machine/Operands.lean ====
section
/-! DEFINITION. Byte order, the layouts of chapter 12 and the checks of the fields read from them: task parameters, the
setup block, object headers, page definitions, palette entries, and the bytes the part writes into records. -/

namespace Sys2Proof.Machine

/-! ### Byte order (00, 4.1: little-endian) -/

/-- The byte at an offset. -/
def byteAt (l : List Byte) (i : Nat) : Byte := l.getD i 0

/-- An 8-bit field. -/
def nat8 (l : List Byte) (i : Nat) : Nat := (byteAt l i).toNat

/-- A 16-bit field. -/
def nat16 (l : List Byte) (i : Nat) : Nat := nat8 l i + 256 * nat8 l (i + 1)

/-- A 32-bit field. -/
def nat32 (l : List Byte) (i : Nat) : Nat := nat16 l i + 65536 * nat16 l (i + 2)

/-- A 16-bit field as bits. -/
def half16 (l : List Byte) (i : Nat) : Half := BitVec.ofNat 16 (nat16 l i)

/-- A 32-bit field as bits. -/
def word32 (l : List Byte) (i : Nat) : Word := BitVec.ofNat 32 (nat32 l i)

/-- A signed 16-bit field, two's complement (12). -/
def int16 (l : List Byte) (i : Nat) : Int := if nat16 l i < 32768 then (nat16 l i : Int) else (nat16 l i : Int) - 65536

/-- The bytes of a 16-bit value. -/
def le16 (v : Half) : List Byte := [v.extractLsb' 0 8, v.extractLsb' 8 8]

/-- The bytes of a 32-bit value. -/
def le32 (v : Word) : List Byte := [v.extractLsb' 0 8, v.extractLsb' 8 8, v.extractLsb' 16 8, v.extractLsb' 24 8]

/-- Consecutive bytes as a write mask's selection from an offset. -/
def selFrom : Nat → List Byte → List (Nat × Byte)
  | _, [] => []
  | o, b :: bs => (o, b) :: selFrom (o + 1) bs

/-- A list padded with zeros, or cut, to `n` bytes. -/
def padTo (n : Nat) (l : List Byte) : List Byte := (l ++ List.replicate n 0).take n

/-! ### Ranges -/

/-- Every byte from `a` for `len` bytes lies in the region of `size` bytes at `base`. -/
def inRange (base size a len : Nat) : Bool := decide (base ≤ a ∧ a + len ≤ base + size)

/-- In the chain aperture. -/
def Fixed.inChain (f : Fixed) (a len : Nat) : Bool := inRange f.chainBase f.chainSize a len

/-- In the heap aperture. -/
def Fixed.inHeap (f : Fixed) (a len : Nat) : Bool := inRange f.heapBase f.heapSize a len

/-- A record address that may be followed: a nonzero multiple of 64 within the chain aperture (R175, R177, R190). -/
def Fixed.recordOk (f : Fixed) (a : Word) : Bool :=
  decide (a.toNat ≠ 0) && decide (a.toNat % 64 = 0) && f.inChain a.toNat 64

/-- Plane width by format (11, field 7). -/
def PlaneFormat.width : PlaneFormat → Nat
  | .f1920x1080 => 1920 | .f1280x720 => 1280 | .f720x576 => 720 | .f720x480 => 720

/-- Plane height by format (11, field 7). -/
def PlaneFormat.height : PlaneFormat → Nat
  | .f1920x1080 => 1080 | .f1280x720 => 720 | .f720x576 => 576 | .f720x480 => 480

/-! ### Gathering consecutive bytes from blocks (R115) -/

/-- The block that holds the next byte wanted. -/
def Gather.block (g : Gather) : Nat := g.addr / 64 * 64

/-- The gather after that block's 64 bytes have come: the bytes needed are used and the rest discarded. -/
def Gather.feed (g : Gather) (data : List Byte) : Gather :=
  let part := (data.drop (g.addr % 64)).take (min g.left (64 - g.addr % 64))
  { addr := g.addr + part.length, left := g.left - part.length, got := g.got ++ part }

/-! ### Task records and their parameters (12.2) -/

/-- The walker's copy of the task in the record at `a` whose block is `blk` (R169). -/
def taskOf (a : Word) (blk : List Byte) : Task :=
  { ref := { addr := a, kind := byteAt blk 4, flags := byteAt blk 5, tag := half16 blk 6 },
    params := (blk.drop 16).take 48 }

/-- The 8-bit parameter at a record offset. -/
def Task.p8 (t : Task) (off : Nat) : Nat := nat8 t.params (off - 16)
/-- The 16-bit parameter at a record offset. -/
def Task.p16 (t : Task) (off : Nat) : Nat := nat16 t.params (off - 16)
/-- The 32-bit parameter at a record offset. -/
def Task.p32 (t : Task) (off : Nat) : Word := word32 t.params (off - 16)
/-- A flag bit of the parameter byte at a record offset. -/
def Task.pbit (t : Task) (off bit : Nat) : Bool := (byteAt t.params (off - 16)).getLsbD bit

/-- Notify on done: flags bit 0 (10.1). -/
def TaskRef.notify (t : TaskRef) : Bool := t.flags.getLsbD 0

/-- The outcome codes of 12.2. -/
def TaskOutcome.code : TaskOutcome → Byte
  | .pending => 0 | .done => 1 | .doneShort => 2 | .cancelled => 3 | .badKind => 4 | .badParameter => 5
  | .addressFault => 6 | .idTaken => 7 | .idReleasing => 8 | .heapFull => 9 | .decodeFault => 10 | .slotBusy => 11
  | .notStaged => 12 | .pageInvalid => 13 | .notSelectable => 14 | .memoryError => 15

/-- The results burst of a retirement (R179, R202): detail, done stamp and result bytes. -/
def Retirement.resultsSel (r : Retirement) : List (Nat × Byte) :=
  (9, r.detail) :: (selFrom 12 (le32 r.stamp) ++ r.results)

/-- The outcome burst (R179, R202). -/
def outcomeSel (o : TaskOutcome) : List (Nat × Byte) := [(8, o.code)]

/-! ### Notice records (12.3) -/

/-- Kind codes 1 to 9 (R192). -/
def NoticeBody.code : NoticeBody → Nat
  | .taskDone .. => 1 | .buttonAction .. => 2 | .stateChanged .. => 3 | .pageJump .. => 4 | .keyPassed .. => 5
  | .pageTimeout .. => 6 | .frameFaults .. => 7 | .walkerFault .. => 8 | .syncChange .. => 9

/-- A slot, or 255 for none. -/
def slotByte (s : Option SlotId) : Byte := BitVec.ofNat 8 (s.elim 255 (·.val))

/-- Failure reasons 1 to 4, 0 for none (12.3). -/
def JumpFailure.code : JumpFailure → Byte
  | .notHeld => 1 | .notMenu => 2 | .notReady => 3 | .superseded => 4

/-- A body's bytes from record offset 16 (12.3); an absent link holder is written as 0 (log 13). -/
def NoticeBody.bytes : NoticeBody → List Byte
  | .taskDone a tag k o d => le32 a ++ le16 tag ++ [k, o.code, d]
  | .buttonAction s b c w => [slotByte (some s), BitVec.ofNat 8 b] ++ le16 c ++ le32 w
  | .stateChanged o n s b => le32 o ++ le32 n ++ [slotByte (some s), BitVec.ofNat 8 b]
  | .pageJump f t bf b s =>
    [if f.isNone then 1 else 2, slotByte (some t), slotByte bf, f.elim 0 JumpFailure.code, BitVec.ofNat 8 b, slotByte (some s)]
  | .keyPassed c t s => [c, if t then 2 else 1, slotByte s]
  | .pageTimeout s b w => [slotByte (some s), BitVec.ofNat 8 (b.getD 255), 0, 0] ++ le32 w
  | .frameFaults f u d => le32 f ++ le32 (BitVec.ofNat 32 u) ++ le32 (BitVec.ofNat 32 d)
  | .walkerFault c =>
    le32 c.addr ++ le32 (c.holder.getD 0) ++ [if c.holder.isSome then 1 else 0, if c.write then 2 else 1]
  | .syncChange r f => [if r then 2 else 1, 0, 0, 0] ++ le32 f

/-- The contents burst (R189, R202): bytes 5 to 63, the body's unlisted bytes 0. -/
def contentsSel (n : Notice) (seq : Word) (lost : Nat) : List (Nat × Byte) :=
  selFrom 5 (BitVec.ofNat 8 n.body.code :: (le16 (BitVec.ofNat 16 lost) ++ le32 seq ++ le32 n.stamp ++ padTo 48 n.body.bytes))

/-- The state burst: FILLED (R189, R202). -/
def stateSel : List (Nat × Byte) := [(4, 1)]

/-! ### The setup block (11.5, 12.4) -/

/-- The plane format codes (12.4). -/
def planeFormatOf : Nat → Option PlaneFormat
  | 0 => some .f1920x1080 | 1 => some .f1280x720 | 2 => some .f720x576 | 3 => some .f720x480 | _ => none

/-- Two regions share a byte; a region of no bytes shares none. -/
def overlaps (a la b lb : Nat) : Bool := decide (la ≠ 0 ∧ lb ≠ 0 ∧ a < b + lb ∧ b < a + la)

/-- Fields 1 to 8 with their checks, from the fixed section's 64 bytes. -/
def fixedChecks (b : List Byte) : List (Nat × Bool) :=
  let cb := nat32 b 0; let cs := nat32 b 4; let hb := nat32 b 8; let hs := nat32 b 12
  let ft := nat32 b 16; let fb := nat32 b 20; let i := nat32 b 28
  [ (1, decide (cb % 4096 = 0)),
    (2, decide (cs ≠ 0 ∧ cs % 4096 = 0 ∧ cb + cs ≤ 2 ^ 32)),
    (3, decide (hb % 4096 = 0) && !overlaps cb cs hb hs),
    (4, decide (hs % 65536 = 0 ∧ 1048576 ≤ hs ∧ hs ≤ 67108864 ∧ hb + hs ≤ 2 ^ 32)),
    (5, decide (ft % 64 = 0) && inRange cb cs ft 64),
    (6, decide (fb % 64 = 0) && inRange cb cs fb 64),
    (7, (planeFormatOf (nat8 b 24)).isSome),
    (8, decide (400000 ≤ i ∧ i ≤ 1200000)) ]

/-- The arbiter parameters of one requester at an offset of the tunable section's block. -/
def arbParamsAt (b : List Byte) (o : Nat) : ArbParams :=
  { r := nat8 b o, d := nat8 b (o + 1), limit := nat16 b (o + 2), clip := nat16 b (o + 4) }

/-- Fields 9 to 16 with their checks, from the tunable section's 64 bytes (setup block offsets less 64). -/
def tunableChecks (b : List Byte) : List (Nat × Bool) :=
  let arb (o : Nat) : Bool := decide ((arbParamsAt b o).limit ≤ (arbParamsAt b o).clip)
  let addr := nat8 b 41; let dv := nat16 b 42; let w := nat8 b 44
  [ (9, arb 0), (10, arb 8), (11, arb 16), (12, arb 24),
    (13, decide (nat8 b 32 = 2)),
    (14, true),
    (15, !(byteAt b 40).getLsbD 0 || decide (1 ≤ addr ∧ addr ≤ 127 ∧ 8 ≤ dv ∧ dv ≤ 4095)),
    (16, decide (1 ≤ w)) ]

/-- The number of the first field that fails (R195). -/
def firstFailure (l : List (Nat × Bool)) : Option Nat := (l.find? fun c => !c.2).map (·.1)

/-- The fixed section as taken. -/
def fixedOf (b : List Byte) : Fixed :=
  { chainBase := nat32 b 0, chainSize := nat32 b 4, heapBase := nat32 b 8, heapSize := nat32 b 12,
    firstTask := word32 b 16, firstBlank := word32 b 20,
    format := (planeFormatOf (nat8 b 24)).getD .f1920x1080, interval := nat32 b 28 }

/-- The tunable section as taken. -/
def tunablesOf (b : List Byte) : Tunables :=
  { arb := ⟨arbParamsAt b 0, arbParamsAt b 8, arbParamsAt b 16, arbParamsAt b 24⟩,
    threshold := nat8 b 32, attnMask := word32 b 36,
    keyEnable := (byteAt b 40).getLsbD 0, keyAddr := nat8 b 41, keyDiv := nat16 b 42, digitWindow := nat8 b 44 }

/-! ### Object headers (12.5) -/

/-- The code length field of an object header. -/
def headerCodeLen (b : List Byte) : Nat := nat32 b 8

/-- R10's requirements on an object header. -/
def headerValid (b : List Byte) : Bool :=
  decide (nat8 b 0 = 1 ∧ 1 ≤ nat16 b 2 ∧ nat16 b 2 ≤ 1920 ∧ 1 ≤ nat16 b 4 ∧ nat16 b 4 ≤ 1080 ∧ 1 ≤ headerCodeLen b)

/-- Granules of an object: ceil(width x height / 64) (R3). -/
def granulesFor (w h : Nat) : Nat := (w * h + 63) / 64

/-! ### Palette entries (12.5) -/

/-- The `n` entries of 4 bytes in a list of bytes. -/
def palEntries : Nat → List Byte → List PalEntry
  | 0, _ => []
  | n + 1, b => { y := byteAt b 0, cb := byteAt b 1, cr := byteAt b 2, a := byteAt b 3 } :: palEntries n (b.drop 4)

/-! ### Page definitions (3.3, 12.5) -/

/-- The length of a definition with `p` placements and `b` buttons (3.3). -/
def pageLength (p b : Nat) : Nat := 16 + 16 * p + 80 * b

/-- R50's checks of a page header. -/
def pageHeaderValid (h : List Byte) : Bool :=
  decide ((nat8 h 0 = 1 ∨ nat8 h 0 = 2) ∧ 1 ≤ nat8 h 1 ∧ nat8 h 1 ≤ 32 ∧ nat8 h 2 ≤ 24 ∧ (nat8 h 0 = 2 → nat8 h 2 = 0)
    ∧ (nat8 h 3 < nat8 h 2 ∨ nat8 h 3 = 255))

/-- The placement at an offset (12.5). -/
def placementAt (b : List Byte) (o : Nat) : Placement :=
  { obj := byteAt b o, pal := nat8 b (o + 1), x := int16 b (o + 2), y := int16 b (o + 4),
    cropX := nat16 b (o + 6), cropY := nat16 b (o + 8), cropW := nat16 b (o + 10), cropH := nat16 b (o + 12) }

/-- R51's check of a placement. -/
def placementValid (p : Placement) : Bool :=
  decide (p.pal ≤ 7 ∧ -4096 ≤ p.x ∧ p.x ≤ 4095 ∧ -4096 ≤ p.y ∧ p.y ≤ 4095)

/-- The action item at an offset; none when its kind is above 3 or a JUMP names no slot (R52, 12.5). -/
def actionAt (b : List Byte) (o : Nat) : Option Action :=
  match nat8 b o with
  | 0 => some .none
  | 1 => some (.notify (half16 b (o + 4)))
  | 2 => some (.toggle (word32 b (o + 4)))
  | 3 => if h : nat8 b (o + 4) < 6 then some (.jump ⟨nat8 b (o + 4), h⟩) else none
  | _ => none

/-- The eight pairs of a cycle at an offset. -/
def cycleAt (b : List Byte) (o : Nat) : List (Byte × Nat) :=
  (List.range 8).map fun j => (byteAt b (o + 2 * j), nat8 b (o + 2 * j + 1))

/-- The button at an offset; none when an action item is not accepted (R52). -/
def buttonAt (b : List Byte) (o : Nat) : Option Button :=
  match actionAt b (o + 16), actionAt b (o + 24) with
  | some a1, some a2 => some
      { placement := nat8 b o, up := nat8 b (o + 1), down := nat8 b (o + 2), left := nat8 b (o + 3), right := nat8 b (o + 4),
        number := nat8 b (o + 5), auto := (byteAt b (o + 6)).getLsbD 0, mask := word32 b (o + 8), value := word32 b (o + 12),
        act1 := a1, act2 := a2, normal := cycleAt b (o + 32), selected := cycleAt b (o + 48), activated := cycleAt b (o + 64) }
  | _, _ => none

/-- An action is a JUMP. -/
def Action.isJump : Action → Bool
  | .jump _ => true
  | .none | .notify _ | .toggle _ => false

/-- A neighbour link names a button or is 255. -/
def linkValid (buttons l : Nat) : Bool := decide (l < buttons ∨ l = 255)

/-- R52's checks of a button of a page of `p` placements and `b` buttons, after the earlier ones. -/
def buttonValid (p b : Nat) (earlier : List Button) (t : Button) : Bool :=
  decide (t.placement < p) && earlier.all (fun e => decide (e.placement ≠ t.placement))
    && linkValid b t.up && linkValid b t.down && linkValid b t.left && linkValid b t.right
    && (decide (t.number = 0) || (decide (t.number ≤ 99) && earlier.all (fun e => decide (e.number ≠ t.number))))
    && decide (t.value &&& ~~~t.mask = 0) && !(t.act1.isJump && t.act2.isJump)

/-- The placements in order with R51's checks; on the left, the item number that fails (R47). -/
def readPlacements (b : List Byte) : Nat → Nat → Sum Nat (List Placement)
  | 0, _ => .inr []
  | n + 1, i =>
    let p := placementAt b (16 + 16 * i)
    if placementValid p then
      match readPlacements b n (i + 1) with
      | .inl e => .inl e
      | .inr ps => .inr (p :: ps)
    else .inl (i + 1)

/-- The buttons in order with R52's checks; on the left, the item number that fails (R47). -/
def readButtons (b : List Byte) (p nb : Nat) : Nat → Nat → List Button → Sum Nat (List Button)
  | 0, _, acc => .inr acc
  | n + 1, j, acc =>
    match buttonAt b (16 + 16 * p + 80 * j) with
    | some t => if buttonValid p nb acc t then readButtons b p nb n (j + 1) (acc ++ [t]) else .inl (33 + j)
    | none => .inl (33 + j)

/-- The definition in a list of bytes whose header has passed R50; on the left, the item that fails. -/
def readPage (b : List Byte) : Sum Nat PageDef :=
  match readPlacements b (nat8 b 1) 0 with
  | .inl e => .inl e
  | .inr ps =>
    match readButtons b (nat8 b 1) (nat8 b 2) (nat8 b 2) 0 [] with
    | .inl e => .inl e
    | .inr bs => .inr
        { kind := if nat8 b 0 = 1 then .menu else .slide, dflt := if nat8 b 3 = 255 then none else some (nat8 b 3),
          timeout := nat16 b 4, placements := ps, buttons := bs }

/-- The pairs of a cycle before its first hold of 0 (3.3, R139). -/
def livePairs (c : List (Byte × Nat)) : List (Byte × Nat) := c.takeWhile fun p => decide (p.2 ≠ 0)

/-- The ids a button names: those of its three cycles (R6, R53). -/
def Button.ids (t : Button) : List Byte :=
  (livePairs t.normal ++ livePairs t.selected ++ livePairs t.activated).map (·.1)

/-- Items numbered from `i`. -/
def numbered : Nat → List (List Byte) → List (Nat × List Byte)
  | _, [] => []
  | i, x :: xs => (i, x) :: numbered (i + 1) xs

/-- The items of a definition that name ids, in item order (R47, R53). -/
def PageDef.items (d : PageDef) : List (Nat × List Byte) :=
  numbered 1 (d.placements.map fun p => [p.obj]) ++ numbered 33 (d.buttons.map Button.ids)

/-- A list with each value once. -/
def once : List Byte → List Byte → List Byte
  | acc, [] => acc
  | acc, x :: xs => if x ∈ acc then once acc xs else once (acc ++ [x]) xs

/-- The named-id set of a definition (R46, R6). -/
def PageDef.named (d : PageDef) : List Byte := once [] (d.items.flatMap (·.2))

end Sys2Proof.Machine
end

