-- ==== Sys2Proof/Machine/Flags.lean ====
section
/-! DEFINITION. The flags and the registers made of them: the bits of Control, Attention, Reset Cause and Status, the
attention line, and the value a read of each register returns (12.1). -/

namespace Sys2Proof.Machine

/-- Control bit 0, START. -/
def ctlStart (v : Word) : Bool := v.getLsbD 0
/-- Control bit 1, HALT. -/
def ctlHalt (v : Word) : Bool := v.getLsbD 1
/-- Control bit 2, SOFT RESET. -/
def ctlSoft (v : Word) : Bool := v.getLsbD 2
/-- Control bit 8, attention enable. -/
def ctlEnable (v : Word) : Bool := v.getLsbD 8

/-- A flag at a bit position. -/
def bitAt (b : Bool) (n : Nat) : Word := if b then BitVec.ofNat 32 (2 ^ n) else 0

/-- The Attention register as read: NOTICE 0, NO_BLANKS 1, WALKER_FAULT 2, SYNC_LOST 3, BLANK_FAULT 4. -/
def Attention.word (a : Attention) : Word :=
  bitAt a.notice 0 ||| bitAt a.noBlanks 1 ||| bitAt a.walkerFault 2 ||| bitAt a.syncLost 3 ||| bitAt a.blankFault 4

/-- One flag or more is set. -/
def Attention.any (a : Attention) : Bool := a.notice || a.noBlanks || a.walkerFault || a.syncLost || a.blankFault

/-- The Reset Cause register as read: POWER 0, PIN 1, SOFT 2. -/
def ResetCause.word (c : ResetCause) : Word := bitAt c.power 0 ||| bitAt c.pin 1 ||| bitAt c.soft 2

/-- Write-1-clear of Reset Cause (R199, R200). -/
def ResetCause.clear (c : ResetCause) (v : Word) : ResetCause :=
  { power := c.power && !v.getLsbD 0, pin := c.pin && !v.getLsbD 1, soft := c.soft && !v.getLsbD 2 }

/-- Write-1-clear of the four flags that clear on any write of 1 (R193); SYNC_LOST is cleared by R70's rule. -/
def Attention.clear (a : Attention) (v : Word) : Attention :=
  { a with notice := a.notice && !v.getLsbD 0, noBlanks := a.noBlanks && !v.getLsbD 1,
           walkerFault := a.walkerFault && !v.getLsbD 2, blankFault := a.blankFault && !v.getLsbD 4 }

/-- Run state codes of Status (12.1). -/
def RunState.code : RunState → Nat
  | .stopped => 0 | .starting => 1 | .running => 2 | .halting => 3 | .halted => 4

/-- The attention line is driven low (R193). -/
def State.attentionLow (s : State) : Bool := s.run.attnEnable && s.attention.any

/-- The Status register (R194, 12.1). -/
def State.statusWord (s : State) : Word :=
  BitVec.ofNat 32 s.run.state.code ||| BitVec.ofNat 32 (s.run.refusal * 256)
    ||| bitAt (decide (s.walker.st = .faulted)) 16
    ||| bitAt (match s.notices.cursor with | .anchor _ => true | .none | .blank _ => false) 17
    ||| BitVec.ofNat 32 (s.notices.queue.length * 1048576)

/-- A read of a register: a whole word; it changes nothing (R194, R200). -/
def State.readRegister (s : State) : Reg → Word
  | .control => bitAt s.run.attnEnable 8
  | .status => s.statusWord
  | .setupAddress => s.run.setupAddr
  | .chainPoke => s.walker.cur.getD 0
  | .noticeCount => s.notices.seq
  | .attention => s.attention.word
  | .frameStamp => s.timer.stamp
  | .resetCause => s.run.cause.word

/-- A read of one byte of a register returns that byte of the word (R200). -/
def State.readRegisterByte (s : State) (r : Reg) (i : Nat) : Byte := (s.readRegister r).extractLsb' (8 * i) 8

end Sys2Proof.Machine
end

