-- ==== Sys2Proof/Machine/Ops.lean ====
section
/-! DEFINITION. The named operations shared by the meanings: shared memory, one-of-four values, the directory, the page
slots and the planes by number, notices, asks at the WALKER requester, retirements, the walker's moves from task to task,
and the completion of a burst. -/

namespace Sys2Proof.Machine

/-! ### Shared memory -/

/-- The byte at an address; an unlisted address reads as `Config.unlistedByte` (log 5). -/
def memRead : Mem → Nat → Byte
  | [], _ => Config.unlistedByte
  | (x, y) :: m, a => if a = x then y else memRead m a

/-- One byte written, keeping the list sorted and free of unlisted values. -/
def memWrite : Mem → Nat → Byte → Mem
  | [], a, b => if b = Config.unlistedByte then [] else [(a, b)]
  | (x, y) :: m, a, b =>
    if a < x then (if b = Config.unlistedByte then (x, y) :: m else (a, b) :: (x, y) :: m)
    else if a = x then (if b = Config.unlistedByte then m else (a, b) :: m)
    else (x, y) :: memWrite m a b

/-- Every address listed lies above `lo`, addresses rise, and no byte listed is the unlisted one. -/
def memWfFrom : Nat → Mem → Bool
  | _, [] => true
  | lo, (x, y) :: m => decide (lo ≤ x) && decide (y ≠ Config.unlistedByte) && memWfFrom (x + 1) m

/-- The canonical form of a memory. -/
def Mem.wf (m : Mem) : Bool := memWfFrom 0 m

/-- `n` consecutive bytes. -/
def memBytes (m : Mem) : Nat → Nat → List Byte
  | _, 0 => []
  | a, n + 1 => memRead m a :: memBytes m (a + 1) n

/-- The bytes a write burst's mask selects, written into the block (R115). -/
def memWriteSel (m : Mem) (block : Nat) : List (Nat × Byte) → Mem
  | [] => m
  | (o, b) :: r => memWriteSel (memWrite m (block + o) b) block r

/-- What the host has written; an address past 2^32 is no address of shared memory. -/
def memHost (m : Mem) : List Host.Cell → Mem
  | [] => m
  | (a, b) :: r => memHost (if a < 2 ^ 32 then memWrite m a b else m) r

/-- The bytes of a write that met an error response: it is not known which of them memory kept (R120, log 7). -/
def memUnknown (m : Mem) (block : Nat) : Nat → List (Nat × Byte) → Mem
  | _, [] => m
  | n, (o, _) :: r => memUnknown (memWrite m (block + o) (Config.freeByte n)) block (n + 1) r

/-! ### One value for each requester -/

/-- The value of a requester. -/
def Four.get {α : Type} (f : Four α) : Requester → α
  | .lineFetch => f.lineFetch | .decoder => f.decoder | .walker => f.walker | .compactor => f.compactor

/-- The value of a requester changed. -/
def Four.upd {α : Type} (f : Four α) (r : Requester) (v : α) : Four α :=
  match r with
  | .lineFetch => { f with lineFetch := v } | .decoder => { f with decoder := v }
  | .walker => { f with walker := v } | .compactor => { f with compactor := v }

/-! ### Directory, page slots, planes -/

/-- The directory entry of an object id (1.2). -/
def State.entry (s : State) (i : Byte) : DirEntry := s.heap.dir.get i.toFin

/-- The directory entry of an object id replaced. -/
def State.setEntry (s : State) (i : Byte) (e : DirEntry) : State :=
  { s with heap := { s.heap with dir := s.heap.dir.set i.toNat e } }

/-- A page slot (3.2). -/
def State.slot (s : State) (i : SlotId) : Slot := s.slots.get i

/-- A page slot replaced. -/
def State.setSlot (s : State) (i : SlotId) (x : Slot) : State := { s with slots := s.slots.set i.val x }

/-- The hold count of a slot: 0 unless it is STAGED (R46). -/
def Slot.holds : Slot → Nat
  | .free | .staging => 0
  | .staged _ _ h => h

/-- The definition in a slot. -/
def Slot.page? : Slot → Option PageDef
  | .free | .staging => none
  | .staged d _ _ => some d

/-- The named-id set of a slot (R58): empty unless STAGED. -/
def Slot.named : Slot → List Byte
  | .free | .staging => []
  | .staged _ ids _ => ids

/-- The definition staged in a slot. -/
def State.page (s : State) (i : SlotId) : Option PageDef := (s.slot i).page?

/-- An add of a hold is accepted (R57). -/
def State.staged (s : State) (i : SlotId) : Bool :=
  match s.slot i with
  | .staged .. => true
  | .free | .staging => false

/-- Add a hold; nothing changes when it is refused (R57). -/
def State.addHold (s : State) (i : SlotId) : State :=
  match s.slot i with
  | .staged d ids h => s.setSlot i (.staged d ids (h + 1))
  | .free | .staging => s

/-- Release a hold (R57). -/
def State.releaseHold (s : State) (i : SlotId) : State :=
  match s.slot i with
  | .staged d ids h => s.setSlot i (.staged d ids (h - 1))
  | .free | .staging => s

/-- A plane. -/
def State.plane (s : State) : PlaneId → Plane
  | .slide => s.slide
  | .menu => s.menu

/-- A plane replaced. -/
def State.setPlane (s : State) : PlaneId → Plane → State
  | .slide, p => { s with slide := p }
  | .menu, p => { s with menu := p }

/-- Where a plane's frame-start work stands. -/
def State.stage (s : State) : PlaneId → PlaneStage
  | .slide => s.work.slide
  | .menu => s.work.menu

/-- A plane's stage replaced. -/
def State.setStage (s : State) : PlaneId → PlaneStage → State
  | .slide, g => { s with work := { s.work with slide := g } }
  | .menu, g => { s with work := { s.work with menu := g } }

/-! ### Run state and settings -/

/-- The part works: RUNNING, HALTING or HALTED. -/
def State.active (s : State) : Bool :=
  match s.run.state with
  | .running | .halting | .halted => true
  | .stopped | .starting => false

/-- Every byte of a range lies in the chain aperture. -/
def State.inChain (s : State) (a len : Nat) : Bool := s.run.fixed.elim false (·.inChain a len)

/-- A record address that may be followed (R175). -/
def State.recordOk (s : State) (a : Word) : Bool := s.run.fixed.elim false (·.recordOk a)

/-- The heap aperture's base. -/
def State.heapBase (s : State) : Nat := s.run.fixed.elim 0 (·.heapBase)

/-- Reference ticks of the nominal interval (R62). -/
def State.interval (s : State) : Nat := s.run.fixed.elim 0 (·.interval)

/-- The key line divider D. -/
def State.keyDiv (s : State) : Nat := s.run.tun.elim 0 (·.keyDiv)

/-- The receive state after `n` reference ticks: at the stop sample, 84 x D ticks after the start edge, the count stands
(R151, log 18). -/
def Receive.pass (div n : Nat) : Receive → Receive
  | .idle => .idle
  | .receiving t => .receiving (min (t + n) (84 * div))

/-! ### Notices (R188) -/

/-- A notice is submitted: it joins the queue, setting NO_BLANKS at the anchor, or is dropped and counted. -/
def State.submit (b : NoticeBody) (s : State) : State :=
  if s.notices.queue.length < Config.maxNotices then
    { s with
      notices := { s.notices with queue := s.notices.queue ++ [{ body := b, stamp := s.timer.stamp }] },
      attention := { s.attention with
        noBlanks := s.attention.noBlanks
          || (match s.notices.cursor with | .anchor _ => true | .none | .blank _ => false) } }
  else
    { s with
      notices := { s.notices with lost := min 65535 (s.notices.lost + 1) },
      stats := { s.stats with noticesLost := s.stats.noticesLost + 1 } }

/-! ### Time and the sync watch (R62, R66) -/

/-- Sync is lost (R66, R67). -/
def State.loseSync (s : State) : State :=
  State.submit (.syncChange false s.timer.stamp)
    { s with timer := { s.timer with lost := true, latch := true, forced := true },
             attention := { s.attention with syncLost := true } }

/-- The watch is armed and the sync condition IN_SYNC in a part that works (R66). -/
def State.watching (s : State) : Bool := s.active && s.timer.armed && !s.timer.lost

/-- `n` more reference ticks go past 3 x I, with the loss of R66 still to be taken. At 3 x I itself the order of the queue
decides whether the loss or a frame start is taken first (log 1). -/
def State.lossPassed (n : Nat) (s : State) : Bool := s.watching && decide (3 * s.interval < s.timer.tick + n)

/-- `n` reference ticks are counted: while the part works the tick count rises and stays at 3 x I (R62), and the receiver's
count rises (R151). -/
def State.countTicks (n : Nat) (s : State) : State :=
  if s.active then
    { s with
      timer := { s.timer with tick := min (s.timer.tick + n) (3 * s.interval) },
      keyline := { s.keyline with recv := s.keyline.recv.pass s.keyDiv n } }
  else s

/-- `n` reference ticks pass: a loss of sync that falls within them is taken, and they are counted (R62, R66). -/
def State.passTicks (n : Nat) (s : State) : State := (if s.lossPassed n then s.loseSync else s).countTicks n

/-! ### The WALKER requester (R182) -/

/-- A burst is asked for at the WALKER requester, behind those asked for before. -/
def State.ask (u : User) (block : Nat) (sel : Option (List (Nat × Byte))) (s : State) : State :=
  { s with port := { s.port with walkerQ := s.port.walkerQ ++ [{ user := u, block := block, sel := sel }] } }

/-- The results burst of a retirement is asked for (R179). -/
def State.askResults (r : Retirement) (s : State) : State :=
  s.ask (.results r) r.task.addr.toNat (some r.resultsSel)

/-- A retirement is submitted (R178): it joins the list, and is written at once when it stands first. -/
def State.retire (t : TaskRef) (o : TaskOutcome) (detail : Nat) (results : List (Nat × Byte)) (s : State) : State :=
  let r : Retirement := { task := t, outcome := o, detail := BitVec.ofNat 8 detail, stamp := s.timer.stamp, results := results }
  let s1 := { s with walker := { s.walker with retiring := s.walker.retiring ++ [r] } }
  match s.walker.retiring with
  | [] => s1.askResults r
  | _ :: _ => s1

/-- The read of the current record is requested once the retirement list is empty (R178). -/
def State.requestRecord (s : State) : State :=
  match s.walker.st, s.walker.asked, s.walker.retiring, s.walker.cur with
  | .reading, false, [], some a => ({ s with walker := { s.walker with asked := true } }).ask .record a.toNat none
  | _, _, _, _ => s

/-- The walker becomes READING at a record, reached from `holder` (R169, R175). -/
def State.toReading (a : Word) (holder : Option Word) (s : State) : State :=
  State.requestRecord
    { s with walker := { s.walker with st := .reading, cur := some a, holder := holder, asked := false, task := none, job := .judge } }

/-- The link of the current record is read (R175). -/
def State.askLink (s : State) : State := s.ask .link (s.walker.cur.getD 0).toNat none

/-- The task in hand has been dealt with: the walker becomes LINKING, or stops here when the part is HALTING (R173, R186). -/
def State.dealt (s : State) : State :=
  let w := { s.walker with task := none, job := .judge }
  match s.run.state with
  | .halting => { s with walker := { w with st := .halted .link } }
  | .stopped | .starting | .running | .halted => State.askLink { s with walker := { w with st := .linking } }

/-- The task in hand ends with an outcome: its retirement is submitted, then the walker goes on (R173). -/
def State.endTask (o : TaskOutcome) (detail : Nat) (results : List (Nat × Byte)) (s : State) : State :=
  match s.walker.task with
  | some t => (s.retire t.ref o detail results).dealt
  | none => s

/-- No room in the owner: STALLED, or halted at that boundary when the part is HALTING (R174, R186). -/
def State.stall (s : State) : State :=
  match s.run.state with
  | .halting => { s with walker := { s.walker with st := .halted .handover } }
  | .stopped | .starting | .running | .halted => { s with walker := { s.walker with st := .stalled } }

/-- The walker's fault capture is filled, WALKER_FAULT submitted and its flag set (R181, R184). -/
def State.walkerFault (c : Capture) (s : State) : State :=
  let s1 := { s with walker := { s.walker with capture := some c } }
  let s2 := s1.submit (.walkerFault c)
  { s2 with attention := { s2.attention with walkerFault := true } }

/-- A read fault makes the walker FAULTED (R184). -/
def State.readFault (addr : Word) (holder : Option Word) (s : State) : State :=
  let s1 := { s with walker := { s.walker with st := .faulted, task := none, job := .judge, asked := false, reread := .none } }
  s1.walkerFault { addr := addr, holder := holder, write := false }

/-- The parked walker is prompted to re-read its link (R176). -/
def State.promptWalker (s : State) : State :=
  match s.walker.st with
  | .parked =>
    match s.walker.reread with
    | .none => State.askLink { s with walker := { s.walker with reread := .asked } }
    | .asked => s
    | .granted _ => { s with walker := { s.walker with reread := .granted true } }
  | .idle | .reading | .working | .stalled | .waiting | .linking | .halted _ | .faulted => s

/-- The notice writer at its anchor is prompted to re-read the link (R190). -/
def State.promptAnchor (s : State) : State :=
  match s.notices.cursor with
  | .anchor a =>
    match s.notices.reread with
    | .none => State.ask .noticeLink a.toNat none { s with notices := { s.notices with reread := .asked } }
    | .asked => s
    | .granted _ => { s with notices := { s.notices with reread := .granted true } }
  | .none | .blank _ => s

/-! ### Completions (R115, R120) -/

/-- A burst has failed: memory's error response, or the port's refusal (R118). -/
def Flight.failed (f : Flight) (err : Bool) : Bool := f.refused || err

/-- The users whose bursts are writes (R17, R33, R179, R189). -/
def User.writes : User → Bool
  | .decPixels | .compWrite | .results _ | .outcome .. | .contents | .noticeState => true
  | .line .. | .decHeader | .decCode | .compRead | .record | .link | .loadHeader | .palette | .pageHeader | .pageRest
  | .noticeLink | .setup _ => false

/-- The burst under way has ended: the port is free; a write that memory answered with an error leaves bytes unknown. -/
def State.land (f : Flight) (err : Bool) (s : State) : State :=
  let s1 := { s with port := { s.port with flight := none } }
  match f.burst.sel, f.burst.user.writes && (err && !f.refused) with
  | some sel, true => { s1 with mem := memUnknown s.mem f.burst.block s.free sel, free := s.free + sel.length }
  | some _, false => s1
  | none, _ => s1

/-- The completion of a burst whose user `p` accepts: it lands, and its requester goes on by `k` unless its bytes are to
be discarded; an error response that ends such a discarded burst is not looked at (log 28). With no such burst under way
nothing happens (log 2). -/
def State.complete (p : User → Bool) (err : Bool) (k : Flight → State → State) (s : State) : State :=
  match s.port.flight with
  | some f => if p f.burst.user then (if f.dropped then s.land f err else k f (s.land f err)) else s
  | none => s

/-- The burst under way is not to be used by a requester that has given up (R116), whether it ends well or in an error
response (log 28). -/
def State.dropFlight (p : User → Bool) (s : State) : State :=
  match s.port.flight with
  | some f => if p f.burst.user then { s with port := { s.port with flight := some { f with dropped := true } } } else s
  | none => s

/-! ### Ownership (R170) -/

/-- The walker is on a record. -/
def State.walkerOn (s : State) (a : Word) : Bool := decide (s.walker.cur = some a)

/-- The records of tasks that the owners and the retirement list hold. -/
def State.ownedRecords (s : State) : List Word :=
  s.walker.task.toList.map (·.ref.addr) ++ s.walker.retiring.map (·.task.addr) ++ s.heap.loads.map (·.task.addr)
    ++ s.compactor.task.toList.map (·.addr) ++ s.palette.list.map (·.addr) ++ s.slide.schedule.map (·.task.addr)
    ++ s.menu.schedule.map (·.task.addr)
    ++ s.nav.queue.filterMap fun
        | .key _ t => t.map (·.addr)
        | .select _ _ t => some t.addr

/-- A task record is owned by the part (R170). -/
def State.owns (s : State) (a : Word) : Bool := decide (a ∈ s.ownedRecords)

end Sys2Proof.Machine
end

