-- ==== Sys2Proof/Machine/Heap.lean ====
section
/-! DEFINITION. The heap manager and the object decoder (01): the free extent table, the directory, LOAD OBJECT and
FREE OBJECT, and the decoding of a code stream into granules. -/

namespace Sys2Proof.Machine

/-! ### The free extent table (R2-R4) -/

/-- The first granule past an extent. -/
def Extent.stop (e : Extent) : Nat := e.start + e.len

/-- A run returned to the table: it takes its place and merges with the extent that ends at its start and the one that
starts at its end (R4). -/
def extInsert (e : Extent) : List Extent → List Extent
  | [] => [e]
  | x :: xs =>
    if e.stop < x.start then e :: x :: xs
    else if e.stop = x.start then { start := e.start, len := e.len + x.len } :: xs
    else if x.stop = e.start then extInsert { start := x.start, len := x.len + e.len } xs
    else x :: extInsert e xs

/-- `n` granules from `s` returned to the table; none when `n` is 0. -/
def extRelease (s n : Nat) (l : List Extent) : List Extent :=
  if n = 0 then l else extInsert { start := s, len := n } l

/-- First fit (R3): the low end of the first extent of at least `n` granules, and the table after it. -/
def extAlloc (n : Nat) : List Extent → Option (Nat × List Extent)
  | [] => none
  | x :: xs =>
    if n < x.len then some (x.start, { start := x.start + n, len := x.len - n } :: xs)
    else if n = x.len then some (x.start, xs)
    else
      match extAlloc n xs with
      | some (a, ys) => some (a, x :: ys)
      | none => none

/-- The length of the longest extent, 0 for an empty table (R37). -/
def extLongest : List Extent → Nat
  | [] => 0
  | x :: xs => max x.len (extLongest xs)

/-- The extent that starts at `low` loses `n` granules from its low end, or leaves the table (R31). -/
def extTakeLow (low n : Nat) : List Extent → List Extent
  | [] => []
  | x :: xs =>
    if x.start = low then (if n < x.len then { start := x.start + n, len := x.len - n } :: xs else xs)
    else x :: extTakeLow low n xs

/-- Granules returned to the heap (R4). -/
def State.freeGranules (start n : Nat) (s : State) : State :=
  { s with heap := { s.heap with extents := extRelease start n s.heap.extents } }

/-! ### Entries -/

/-- An entry become EMPTY (R18, R21): every field 0, the use count as it stood. -/
def DirEntry.emptied (e : DirEntry) : DirEntry := { useCount := e.useCount }

/-- An entry become FAULTED with a fault code: no region, no data, size 0; use count and short flag as they stood (R17). -/
def DirEntry.faultedWith (e : DirEntry) (code : Nat) : DirEntry :=
  { state := .faulted, fault := code, short := e.short, useCount := e.useCount }

/-- An entry become RELEASING without data (R11, R18, R36): no region; the other fields as they stood (log 12). -/
def DirEntry.releasingBare (e : DirEntry) : DirEntry :=
  { e with state := .releasing, hasData := false, offset := 0, count := 0, moving := none, loadTask := none }

/-- EMPTY when no page names the entry, RELEASING without data otherwise (R6, R11, R18). -/
def DirEntry.vacated (e : DirEntry) : DirEntry := if e.useCount = 0 then e.emptied else e.releasingBare

/-- HALTING reaches a compactor that stands at a boundary between moves (R39). -/
def Compactor.halted (c : Compactor) : Compactor :=
  match c.phase with
  | .waiting => { c with phase := .paused, wasWaiting := true }
  | .scanning => { c with phase := .paused, wasWaiting := false }
  | .idle | .confirming | .copying | .switchPending | .paused => c

/-- An entry holds a region at or above the low mark: the scan has not reached the heap end (R29). -/
def State.regionLeft (s : State) : Bool :=
  s.heap.dir.toList.any fun e => decide (0 < e.count ∧ s.compactor.low ≤ e.offset)

/-- A move has ended, and the compactor is SCANNING again. In HALTING it becomes PAUSED, but not at the heap end: there its next
scan step retires the compaction, and it becomes IDLE (R39; that it does so with that step is read from R29 and R37, log 29). -/
def State.scanAgain (s : State) : State :=
  let c : Compactor := { s.compactor with phase := .scanning, move := none, frameSeen := false }
  { s with compactor := if s.run.state = .halting ∧ s.regionLeft = true then c.halted else c }

/-- A burst of the compactor. -/
def User.ofCompactor : User → Bool
  | .compRead | .compWrite => true
  | _ => false

/-- A burst of the decoder. -/
def User.ofDecoder : User → Bool
  | .decHeader | .decCode | .decPixels => true
  | _ => false

/-- The granules of a move's destination that lie outside the object's region (R1): from D's start, this many. -/
def Move.outside (m : Move) : Nat := min m.count (m.src - m.dst)

/-- A move is abandoned (R35): no further access, D's granules outside R are free. An error response on a burst granted before
does not end the compaction (log 28). -/
def State.abandonMove (m : Move) (s : State) : State :=
  State.freeGranules m.dst m.outside (State.dropFlight User.ofCompactor { s with port := { s.port with compReq := none } })

/-- An entry gives up its region and becomes EMPTY (R4, R18, R21). Where the move in hand is of that entry, it is abandoned
before, and the compactor scans on after (R35). -/
def State.emptyEntry (i : Byte) (s : State) : State :=
  let e := s.entry i
  let vacated (x : State) : State := (State.freeGranules e.offset e.count x).setEntry i e.emptied
  match s.compactor.move with
  | some m => if m.id = i then (vacated (s.abandonMove m)).scanAgain else vacated s
  | none => vacated s

/-- One use-count increment (R6). -/
def State.incUse (s : State) (i : Byte) : State :=
  s.setEntry i { s.entry i with useCount := (s.entry i).useCount + 1 }

/-- One use-count decrement; a RELEASING entry that reaches 0 becomes EMPTY (R6, R21). -/
def State.decUse (s : State) (i : Byte) : State :=
  let e := s.entry i
  let s1 := s.setEntry i { e with useCount := e.useCount - 1 }
  if e.state = .releasing ∧ e.useCount - 1 = 0 then s1.emptyEntry i else s1

/-! ### The load queue (R8) -/

/-- A load leaves the queue. -/
def State.removeLoad (i : Byte) (s : State) : State :=
  { s with heap := { s.heap with loads := s.heap.loads.filter fun l => decide (l.id ≠ i) } }

/-- The load of an object id. -/
def State.loadOf (s : State) (i : Byte) : Option Load := s.heap.loads.find? fun l => decide (l.id = i)

/-- A load ends: it leaves the queue and its task retires. -/
def State.endLoad (i : Byte) (o : TaskOutcome) (detail : Nat) (s : State) : State :=
  match s.loadOf i with
  | some l => (s.removeLoad i).retire l.task o detail []
  | none => s

/-- The decoder becomes idle. -/
def State.decoderIdle (s : State) : State := { s with heap := { s.heap with decode := none } }

/-- FREE OBJECT cancels a load: it leaves the queue, retires CANCELLED, and a decoder at work on it abandons it (R19, R20).
The CANCELLED stands before the FREE OBJECT's own DONE, an order R19 leaves open (log 27). -/
def State.cancelLoad (i : Byte) (s : State) : State :=
  let s1 :=
    match s.heap.decode with
    | some d =>
      if d.id = i then
        State.dropFlight User.ofDecoder (State.decoderIdle { s with port := { s.port with decReq := none } })
      else s
    | none => s
  s1.endLoad i .cancelled 0

/-! ### LOAD OBJECT (R7) and FREE OBJECT (R18) -/

/-- R7 up to the header read. -/
def State.judgeLoad (t : Task) (s : State) : State :=
  if Config.maxLoads ≤ s.heap.loads.length then s.stall
  else if 255 < t.p16 16 then s.endTask .badParameter 0 []
  else
    match (s.entry (BitVec.ofNat 8 (t.p16 16))).state with
    | .ready | .queued | .loading => s.endTask .idTaken 0 []
    | .releasing => s.endTask .idReleasing 0 []
    | .empty | .faulted =>
      let a := (t.p32 20).toNat
      if s.inChain a 16 then
        let g : Gather := { addr := a, left := 16 }
        State.ask .loadHeader g.block none
          { s with walker := { s.walker with st := .working, job := .loadHeader g } }
      else s.endTask .addressFault 0 []

/-- A load is accepted: the entry becomes QUEUED, the load joins the tail, the walker moves on (R7). -/
def State.acceptLoad (t : Task) (s : State) : State :=
  let i : Byte := BitVec.ofNat 8 (t.p16 16)
  let s1 := s.setEntry i { s.entry i with state := .queued, fault := 0, short := false, loadTask := some t.ref.addr }
  State.dealt
    { s1 with heap := { s1.heap with
        loads := s1.heap.loads ++ [{ id := i, header := t.p32 20, task := t.ref, held := decide (s1.compactor.phase ≠ .idle) }] } }

/-- The walker's read of an object header goes on, or ends the judgement of R7. -/
def State.loadHeaderCame (t : Task) (g : Gather) (s : State) : State :=
  if 0 < g.left then State.ask .loadHeader g.block none { s with walker := { s.walker with job := .loadHeader g } }
  else if s.inChain (t.p32 20).toNat (16 + headerCodeLen g.got) then s.acceptLoad t
  else s.endTask .addressFault 0 []

/-- FREE OBJECT on the directory entry it names (R18-R20). -/
def State.freeEntry (i : Byte) (s : State) : State :=
  let e := s.entry i
  match e.state with
  | .empty | .releasing => s
  | .queued => (s.cancelLoad i).setEntry i e.vacated
  | .loading => (State.freeGranules e.offset e.count (s.cancelLoad i)).setEntry i e.vacated
  | .ready => if e.useCount = 0 then s.emptyEntry i else s.setEntry i { e with state := .releasing }
  | .faulted => s.setEntry i e.vacated

/-- FREE OBJECT (R18). A load it cancels has its retirement submitted before its own, which R19 leaves open (log 27). -/
def State.judgeFree (t : Task) (s : State) : State :=
  if 255 < t.p16 16 then s.endTask .badParameter 0 []
  else (s.freeEntry (BitVec.ofNat 8 (t.p16 16))).endTask .done 0 []

/-! ### The code stream (R12-R15) -/

/-- Pixels held in runs. -/
def runsTotal : List (Nat × Byte) → Nat
  | [] => 0
  | (n, _) :: r => n + runsTotal r

/-- The first `n` pixels of a list of runs, and the runs left. -/
def takeRuns : Nat → List (Nat × Byte) → List Byte × List (Nat × Byte)
  | _, [] => ([], [])
  | n, (c, v) :: r =>
    if n ≤ c then (List.replicate n v, (c - n, v) :: r)
    else
      let t := takeRuns (n - c) r
      (List.replicate c v ++ t.1, t.2)

/-- What one code comes to: pixels or an end of line; more bytes needed; a fault sub-code; the end of the object. -/
inductive CodeStep where
  | ran (d : Decode)
  | need
  | fault (code : Nat)
  | ended (d : Decode) (short : Bool)
deriving DecidableEq, Repr

/-- The decode after a run of `n` pixels that used `used` code bytes (R12). -/
def Decode.afterRun (d : Decode) (n used : Nat) (runs : List (Nat × Byte)) : Decode :=
  { d with
    line := if d.pos + n = d.width then d.line + 1 else d.line,
    pos := if d.pos + n = d.width then 0 else d.pos + n,
    consumed := d.consumed + used, code := d.code.drop used, runs := d.runs ++ runs }

/-- The next code of the stream, judged in the order of R15: EXCESS_LINES 4, BAD_CODE 2, LINE_OVERRUN 3, TRUNCATED 5. -/
def decodeOne (d : Decode) : CodeStep :=
  if d.codeLen ≤ d.consumed then .fault 5
  else
    match d.code with
    | [] => .need
    | c :: rest =>
      let m := c.toNat / 64
      let v := c.toNat % 64
      let used := d.consumed
      if m = 3 ∧ v = 1 then
        let here := d.line * d.width + d.pos
        let total := d.width * d.height
        .ended
          { d with
            line := d.height, pos := 0, consumed := used + 1, code := [],
            runs := d.runs ++ [(granulesFor d.width d.height * 64 - here, d.fill)] }
          (decide (here < total))
      else if d.height ≤ d.line then .fault 4
      else if m = 3 then
        if v = 0 then .ran (d.afterRun (d.width - d.pos) 1 [(d.width - d.pos, d.fill)]) else .fault 2
      else if m = 0 then
        if d.width < d.pos + (v + 1) then .fault 3
        else if d.codeLen < used + 1 + (v + 1) then .fault 5
        else if rest.length < v + 1 then .need
        else .ran (d.afterRun (v + 1) (v + 2) ((rest.take (v + 1)).map fun b => (1, b)))
      else if m = 1 then
        if d.width < d.pos + (v + 3) then .fault 3
        else if d.codeLen < used + 2 then .fault 5
        else
          match rest with
          | [] => .need
          | x :: _ => .ran (d.afterRun (v + 3) 2 [(v + 3, x)])
      else if d.codeLen < used + 2 then .fault 5
      else
        match rest with
        | [] => .need
        | b :: rest2 =>
          let n := v * 256 + b.toNat + 67
          if d.width < d.pos + n then .fault 3
          else if d.codeLen < used + 3 then .fault 5
          else
            match rest2 with
            | [] => .need
            | x :: _ => .ran (d.afterRun n 3 [(n, x)])

/-- The codes whose bytes have come, at most `fuel` of them. -/
def decodeLoop : Nat → Decode → Decode × CodeStep
  | 0, d => (d, .need)
  | n + 1, d =>
    match decodeOne d with
    | .ran d' => decodeLoop n d'
    | .need => (d, .need)
    | .fault c => (d, .fault c)
    | .ended d' short => (d', .ended d' short)

/-! ### The decoder (R9-R17) -/

/-- The decoder asks for a burst. -/
def State.decAsk (u : User) (block : Nat) (sel : Option (List (Nat × Byte))) (s : State) : State :=
  { s with port := { s.port with decReq := some { user := u, block := block, sel := sel } } }

/-- The current decode replaced. -/
def State.setDecode (d : Decode) (s : State) : State := { s with heap := { s.heap with decode := some d } }

/-- A load that ends FAULTED: its region, if it holds one, is released, the load leaves the queue, the task retires and
the decoder is idle (R10, R17). -/
def State.decodeFault (i : Byte) (code : Nat) (o : TaskOutcome) (s : State) : State :=
  let e := s.entry i
  ((State.freeGranules e.offset e.count s).setEntry i (e.faultedWith code)).decoderIdle.endLoad i o code

/-- A decode that completes (R16). -/
def State.decodeDone (i : Byte) (short : Bool) (s : State) : State :=
  (s.setEntry i { s.entry i with state := .ready, hasData := true, short := short, loadTask := none }).decoderIdle.endLoad i
    (if short then .doneShort else .done) 0

/-- The address of the next code byte to read (1.4: the stream follows the header directly). -/
def Decode.nextByte (d : Decode) : Nat := d.header + 16 + d.consumed + d.code.length

/-- What the decoder does next: write a whole granule, complete, or read on (log 10). -/
def State.decodeNext (d : Decode) (s : State) : State :=
  if 64 ≤ runsTotal d.runs then
    let t := takeRuns 64 d.runs
    State.decAsk .decPixels (s.heapBase + 64 * ((s.entry d.id).offset + d.written)) (some (selFrom 0 t.1))
      (s.setDecode { d with runs := t.2, written := d.written + 1 })
  else
    match d.stage with
    | .finish short => s.decodeDone d.id short
    | .header | .stream => State.decAsk .decCode (d.nextByte / 64 * 64) none (s.setDecode d)

/-- Code bytes that have come are decoded (R12-R15), with the decode at a fault, at its end, or going on. -/
def State.decodeBytes (d : Decode) (s : State) : State :=
  match decodeLoop (d.code.length + 1) d with
  | (_, .fault c) => s.decodeFault d.id c .decodeFault
  | (d', .ended _ short) => s.decodeNext { d' with stage := .finish short }
  | (d', .need) => s.decodeNext d'
  | (d', .ran _) => s.decodeNext d'

/-- A header that has come whole (R10, R11). -/
def State.decodeHeader (d : Decode) (h : List Byte) (s : State) : State :=
  if headerValid h then
    let w := nat16 h 2
    let ht := nat16 h 4
    match extAlloc (granulesFor w ht) s.heap.extents with
    | none =>
      (s.setEntry d.id (DirEntry.vacated { s.entry d.id with width := w, height := ht })).decoderIdle.endLoad d.id .heapFull 0
    | some (a, exts) =>
      let s1 := { s with heap := { s.heap with extents := exts } }
      s1.setEntry d.id { s.entry d.id with state := .loading, width := w, height := ht, offset := a, count := granulesFor w ht }
        |>.decodeNext { d with stage := .stream, fill := byteAt h 1, width := w, height := ht, codeLen := headerCodeLen h }
  else s.decodeFault d.id 1 .decodeFault

/-- The decoder may take the head load (R9). -/
def State.canTakeLoad (s : State) : Bool :=
  decide (s.heap.decode = none) && decide (s.run.state = .running)
    && (decide (s.compactor.phase = .idle) || decide (s.compactor.phase = .waiting))
    && (match s.heap.loads with
        | [] => false
        | l :: _ => !l.held)

/-- The decoder takes the head load and reads its header (R9, R10). -/
def State.takeLoad (s : State) : State :=
  match s.heap.loads with
  | l :: _ =>
    if s.canTakeLoad then
      let g : Gather := { addr := l.header.toNat, left := 16 }
      State.decAsk .decHeader g.block none (s.setDecode { id := l.id, header := l.header.toNat, gather := g })
    else s
  | [] => s

/-- The decoder's header read: an error faults the load with MEMORY (R17), the last byte starts R10. -/
def State.decoderHeaderCame (err : Bool) (f : Flight) (s : State) : State :=
  match s.heap.decode with
  | some d =>
    if f.failed err then s.decodeFault d.id 6 .memoryError
    else
      let g := d.gather.feed f.data
      if 0 < g.left then State.decAsk .decHeader g.block none (s.setDecode { d with gather := g })
      else s.decodeHeader { d with gather := g } g.got
  | none => s

/-- Code bytes that arrive (R12): those of the block that belong to the stream. -/
def Decode.feed (d : Decode) (data : List Byte) : Decode :=
  { d with code := d.code ++ (data.drop (d.nextByte % 64)).take (d.codeLen - d.consumed - d.code.length) }

/-- The decoder's code stream read (R12, R17). -/
def State.decoderCodeCame (err : Bool) (f : Flight) (s : State) : State :=
  match s.heap.decode with
  | some d => if f.failed err then s.decodeFault d.id 6 .memoryError else s.decodeBytes (d.feed f.data)
  | none => s

/-- The decoder's pixel write (R17). -/
def State.decoderWrote (err : Bool) (f : Flight) (s : State) : State :=
  match s.heap.decode with
  | some d => if f.failed err then s.decodeFault d.id 6 .memoryError else s.decodeNext d
  | none => s

/-! ### The entry view (R22) -/

/-- What the entry view holds of an entry. -/
def DirEntry.view (e : DirEntry) : EntryView :=
  let drawable := decide (e.state = .ready) || (decide (e.state = .releasing) && e.hasData)
  { drawable := drawable,
    width := if drawable then e.width else 0,
    height := if drawable then e.height else 0,
    offset := e.offset,
    blocking := decide (e.state = .empty) || decide (e.state = .queued) || decide (e.state = .loading)
      || e.moving.elim false (·.overlap) }

/-- The heap manager takes its entry view (R22). -/
def State.takeEntryView (s : State) : State :=
  { s with heap := { s.heap with view := some (s.heap.dir.map DirEntry.view) } }

/-- An object's entry view for the frame (none before the first frame start). -/
def State.objView (s : State) (i : Byte) : Option EntryView := s.heap.view.map fun v => v.get i.toFin

/-- No id of the slot's named-id set blocks in the entry view, and the slot is STAGED (R24, R58). -/
def State.readySlot (s : State) (i : SlotId) : Bool :=
  s.staged i && (s.slot i).named.all fun x => !((s.objView x).elim true (·.blocking))

/-! ### Meanings -/

/-- The walker has a task of kind `k` in hand, still to be judged. -/
def State.inHand (s : State) (k : Nat) : Option Task :=
  match s.walker.st, s.walker.job, s.walker.task with
  | .working, .judge, some t => if t.ref.kind.toNat = k then some t else none
  | _, _, _ => none

/-- LOAD_OBJECT (R7). -/
def execLoadObject (s : State) : Out :=
  .next (match s.inHand 1 with | some t => s.judgeLoad t | none => s)

/-- LOAD_HEADER_READ_COMPLETE (R7). -/
def execLoadHeaderReadComplete (err : Bool) (s : State) : Out :=
  .next <| s.complete (fun u => decide (u = .loadHeader)) err fun f s1 =>
    match s1.walker.task, s1.walker.job with
    | some t, .loadHeader g =>
      if f.failed err then s1.endTask .memoryError 6 [] else s1.loadHeaderCame t (g.feed f.data)
    | _, _ => s1

/-- DECODER_TAKE_LOAD (R9). -/
def execDecoderTakeLoad (s : State) : Out := .next s.takeLoad

/-- DECODER_HEADER_READ_COMPLETE (R10). -/
def execDecoderHeaderReadComplete (err : Bool) (s : State) : Out :=
  .next (s.complete (fun u => decide (u = .decHeader)) err (State.decoderHeaderCame err))

/-- DECODER_READ_COMPLETE (R12). -/
def execDecoderReadComplete (err : Bool) (s : State) : Out :=
  .next (s.complete (fun u => decide (u = .decCode)) err (State.decoderCodeCame err))

/-- DECODER_WRITE_COMPLETE (R17). -/
def execDecoderWriteComplete (err : Bool) (s : State) : Out :=
  .next (s.complete (fun u => decide (u = .decPixels)) err (State.decoderWrote err))

end Sys2Proof.Machine
end

