-- ==== Sys2Proof/Machine/Compact.lean ====
section
/-! DEFINITION. The compactor (02): the handover of COMPACT HEAP, the scan, the reservation of a destination, the copy, the
switch, and the ends of a move. -/

namespace Sys2Proof.Machine

/-! ### Reading the heap -/

/-- The slots in the roles of a plane state (R73). -/
def Content.roles : Content → List SlotId
  | .empty => []
  | .entering i _ _ => [i]
  | .shown p => [p]
  | .crossing i o _ _ => [i, o]
  | .leaving o _ _ => [o]

/-- An object is drawn (R30): a page that names it stands in a role in the frame views of the most recent frame start at
which both planes have published. -/
def State.drawn (s : State) (i : Byte) : Bool :=
  match s.drawnViews with
  | none => false
  | some (a, b) => (a.content.roles ++ b.content.roles).any fun p => decide (i ∈ (s.slot p).named)

/-- The region with the lowest offset at or above `low`, among entries numbered from `i` (R29). -/
def lowestFrom (low : Nat) : Nat → List DirEntry → Option (Nat × DirEntry)
  | _, [] => none
  | i, e :: es =>
    if 0 < e.count ∧ low ≤ e.offset then
      match lowestFrom low (i + 1) es with
      | some (j, f) => if f.offset < e.offset then some (j, f) else some (i, e)
      | none => some (i, e)
    else lowestFrom low (i + 1) es

/-- The low mark after the first part of a scan step: the start of the free extent that holds the granule just below it,
if one does (R29). -/
def lowered (low : Nat) : List Extent → Nat
  | [] => low
  | x :: xs => if x.start < low ∧ low ≤ x.stop then x.start else lowered low xs

/-! ### Operations -/

/-- The compactor's low mark. -/
def State.setLow (low : Nat) (s : State) : State := { s with compactor := { s.compactor with low := low } }

/-- The read of the current move's granule `j` is requested (R33). -/
def State.compRead (m : Move) (j : Nat) (s : State) : State :=
  let b : Burst := { user := .compRead, block := s.heapBase + 64 * (m.src + j), sel := none }
  { s with port := { s.port with compReq := some b } }

/-- The write of the current move's granule `j` is requested (R33). -/
def State.compWrite (m : Move) (j : Nat) (data : List Byte) (s : State) : State :=
  let b : Burst := { user := .compWrite, block := s.heapBase + 64 * (m.dst + j), sel := some (selFrom 0 data) }
  { s with port := { s.port with compReq := some b } }

/-- Copying begins with the read of granule 0 (R33). -/
def State.beginCopy (m : Move) (s : State) : State :=
  State.compRead m 0 { s with compactor := { s.compactor with phase := .copying, frameSeen := false } }

/-- The compaction retires and the compactor becomes IDLE; loads held back may be taken (R36, R37). -/
def State.endCompaction (o : TaskOutcome) (detail : Nat) (s : State) : State :=
  match s.compactor.task with
  | some t =>
    State.retire t o detail
      (selFrom 16 (le32 (BitVec.ofNat 32 s.compactor.moved) ++ le32 (BitVec.ofNat 32 s.compactor.skipped)
        ++ le32 (BitVec.ofNat 32 (extLongest s.heap.extents))))
      { s with
        compactor := { s.compactor with phase := .idle, task := none, move := none, frameSeen := false, wasWaiting := false },
        heap := { s.heap with loads := s.heap.loads.map fun l => { l with held := false } } }
  | none => s

/-- COMPACT HEAP is handed over to an IDLE compactor (R27); with no load in the queue WAITING ends at once (R28); in
HALTING the compactor becomes PAUSED at once (R39, log 16). -/
def State.judgeCompact (t : Task) (s : State) : State :=
  match s.compactor.phase with
  | .idle =>
    let c : Compactor := { task := some t.ref }
    let waits : Bool := !s.heap.loads.isEmpty
    match s.run.state with
    | .halting => State.dealt { s with compactor := { c with phase := .paused, wasWaiting := waits } }
    | .stopped | .starting | .running | .halted =>
      State.dealt { s with compactor := { c with phase := if waits then .waiting else .scanning } }
  | .waiting | .scanning | .confirming | .copying | .switchPending | .paused => s.stall

/-- A destination is reserved (R31). -/
def State.reserve (i : Byte) (e : DirEntry) (s : State) : State :=
  let low := s.compactor.low
  let m : Move := { id := i, src := e.offset, dst := low, count := e.count, overlap := decide (e.offset < low + e.count), copied := 0 }
  let s1 := { s with
    heap := { s.heap with extents := extTakeLow low m.outside s.heap.extents },
    compactor := { s.compactor with move := some m } }
  let s2 := s1.setEntry i { e with moving := some { dest := low, overlap := m.overlap } }
  if m.overlap then { s2 with compactor := { s2.compactor with phase := .confirming, frameSeen := false } } else s2.beginCopy m

/-- One scan step (R29, R30, R31). In HALTING a compactor that finds a region left is PAUSED at its boundary instead, and one at
the heap end retires its compaction (R39). -/
def State.scanStep (s : State) : State :=
  let s1 := s.setLow (lowered s.compactor.low s.heap.extents)
  let low := s1.compactor.low
  match lowestFrom low 0 s1.heap.dir.toList with
  | none => s1.endCompaction .done 0
  | some (i, e) =>
    let id : Byte := BitVec.ofNat 8 i
    if s.run.state = .halting then { s with compactor := s.compactor.halted }
    else if e.offset = low then s1.setLow (e.offset + e.count)
    else if e.offset < low + e.count ∧ s1.drawn id then
      State.setLow (e.offset + e.count) { s1 with compactor := { s1.compactor with skipped := s1.compactor.skipped + 1 } }
    else s1.reserve id e

/-- The reservation is withdrawn (R32). -/
def State.withdraw (m : Move) (s : State) : State :=
  let s1 := (State.freeGranules m.dst m.outside s).setEntry m.id { s.entry m.id with moving := none }
  State.scanAgain { s1 with compactor := { s1.compactor with low := m.src + m.count, skipped := s1.compactor.skipped + 1 } }

/-- The drawn test of R32, once both planes have published after the frame start that followed the reservation. A further
frame start makes it first when it has not been made, so that it is always made on the views of that frame (log 3). -/
def State.confirmMove (s : State) : State :=
  match s.compactor.phase, s.compactor.move with
  | .confirming, some m =>
    if s.compactor.frameSeen ∧ s.work.slide = .idle ∧ s.work.menu = .idle then
      if s.drawn m.id then s.withdraw m else s.beginCopy m
    else s
  | _, _ => s

/-- The entry of an overlapping move that met a memory error (R36). -/
def DirEntry.spoiled (e : DirEntry) : DirEntry :=
  match e.state with
  | .ready => e.faultedWith 6
  | .empty | .queued | .loading | .faulted | .releasing => e.releasingBare

/-- A memory error on a compactor burst ends the move and the compaction (R36), in HALTING as well (log 26). -/
def State.compError (m : Move) (s : State) : State :=
  let s1 := State.freeGranules m.dst m.outside s
  let e := s1.entry m.id
  let s2 :=
    if m.overlap then (State.freeGranules e.offset e.count s1).setEntry m.id e.spoiled
    else s1.setEntry m.id { e with moving := none }
  s2.endCompaction .memoryError 6

/-- A compactor read has come (R33, R36). -/
def State.compReadCame (err : Bool) (f : Flight) (s : State) : State :=
  match s.compactor.move with
  | some m => if f.failed err then s.compError m else s.compWrite m m.copied f.data
  | none => s

/-- A compactor write has come (R33, R36). -/
def State.compWrote (err : Bool) (f : Flight) (s : State) : State :=
  match s.compactor.move with
  | some m =>
    if f.failed err then s.compError m
    else
      let m' : Move := { m with copied := m.copied + 1 }
      let s1 := { s with compactor := { s.compactor with move := some m' } }
      if m'.copied < m.count then s1.compRead m' m'.copied
      else { s1 with compactor := { s1.compactor with phase := .switchPending } }
  | none => s

/-- The switch of R34. -/
def State.applySwitch (s : State) : State :=
  match s.compactor.phase, s.compactor.move with
  | .switchPending, some m =>
    let first := max m.src (m.dst + m.count)
    let s1 := State.freeGranules first (m.src + m.count - first) s
    let s2 := s1.setEntry m.id { s1.entry m.id with offset := m.dst, moving := none }
    State.scanAgain { s2 with compactor := { s2.compactor with low := m.dst + m.count, moved := s2.compactor.moved + 1 } }
  | _, _ => s

/-! ### Meanings -/

/-- COMPACT_HEAP (R27). -/
def execCompactHeap (s : State) : Out :=
  .next (match s.inHand 3 with | some t => s.judgeCompact t | none => s)

/-- COMPACT_WAIT_END (R28). -/
def execCompactWaitEnd (s : State) : Out :=
  .next <|
    match s.compactor.phase with
    | .waiting =>
      if s.heap.loads.all (·.held) then { s with compactor := { s.compactor with phase := .scanning } } else s
    | .idle | .scanning | .confirming | .copying | .switchPending | .paused => s

/-- COMPACT_SCAN_STEP (R29). -/
def execCompactScanStep (s : State) : Out :=
  .next <|
    match s.compactor.phase with
    | .scanning => s.scanStep
    | .idle | .waiting | .confirming | .copying | .switchPending | .paused => s

/-- COMPACT_CONFIRM (R32). -/
def execCompactConfirm (s : State) : Out := .next s.confirmMove

/-- COMPACT_READ_COMPLETE (R33). -/
def execCompactReadComplete (err : Bool) (s : State) : Out :=
  .next (s.complete (fun u => decide (u = .compRead)) err (State.compReadCame err))

/-- COMPACT_WRITE_COMPLETE (R33). -/
def execCompactWriteComplete (err : Bool) (s : State) : Out :=
  .next (s.complete (fun u => decide (u = .compWrite)) err (State.compWrote err))

end Sys2Proof.Machine
end

