-- ==== Sys2Proof/Machine/Pages.lean ====
section
/-! DEFINITION. The page store (03, 3.2-3.5): STAGE PAGE with its two reads, and DISCARD PAGE. Holds stand in Ops. -/

namespace Sys2Proof.Machine

/-- A number as a page slot, when there is such a slot. -/
def slotOf (n : Nat) : Option SlotId := if h : n < 6 then some ⟨n, h⟩ else none

/-- R48, and the read of the header (R49). -/
def State.judgeStage (t : Task) (s : State) : State :=
  let len := t.p16 18
  let a := (t.p32 20).toNat
  match slotOf (t.p8 16) with
  | none => s.endTask .badParameter 0 []
  | some p =>
    match s.slot p with
    | .staging | .staged .. => s.endTask .slotBusy 0 []
    | .free =>
      if len < 32 ∨ 2448 < len then s.endTask .badParameter 0 []
      else if s.inChain a len then
        let s1 := s.setSlot p .staging
        let g : Gather := { addr := a, left := 16 }
        State.ask .pageHeader g.block none { s1 with walker := { s1.walker with job := .pageHeader g } }
      else s.endTask .addressFault 0 []

/-- A staging fails: the slot is FREE again (R55). -/
def State.failStage (t : Task) (o : TaskOutcome) (detail : Nat) (s : State) : State :=
  match slotOf (t.p8 16) with
  | some p => (s.setSlot p .free).endTask o detail []
  | none => s.endTask o detail []

/-- The header has come whole (R49, R50): it and the length are checked, and the rest is read. -/
def State.pageHeaderCame (t : Task) (h : List Byte) (s : State) : State :=
  if pageHeaderValid h ∧ t.p16 18 = pageLength (nat8 h 1) (nat8 h 2) then
    let g : Gather := { addr := (t.p32 20).toNat + 16, left := t.p16 18 - 16 }
    State.ask .pageRest g.block none { s with walker := { s.walker with job := .pageRest h g } }
  else s.failStage t .pageInvalid 0

/-- The first item that names an id of a RELEASING entry (R53). -/
def State.releasingItem (s : State) (d : PageDef) : Option Nat :=
  (d.items.find? fun x => x.2.any fun i => decide ((s.entry i).state = .releasing)).map (·.1)

/-- One increment for each id (R54). -/
def State.incAll : List Byte → State → State
  | [], s => s
  | i :: is, s => State.incAll is (s.incUse i)

/-- One decrement for each id, in the set's own order (R56). R56 gives no order among the decrements: this one is the model's choice, seen
in HALTING where a decrement abandons a move and the regions left are judged at once (log 34). -/
def State.decAll : List Byte → State → State
  | [], s => s
  | i :: is, s => State.decAll is (s.decUse i)

/-- The whole definition has come (R51-R55). -/
def State.pageCame (t : Task) (bytes : List Byte) (s : State) : State :=
  match readPage bytes with
  | .inl item => s.failStage t .pageInvalid item
  | .inr d =>
    match s.releasingItem d with
    | some item => s.failStage t .idReleasing item
    | none =>
      match slotOf (t.p8 16) with
      | some p => (State.incAll d.named (s.setSlot p (.staged d d.named 0))).endTask .done 0 []
      | none => s.endTask .done 0 []

/-- R56. -/
def State.judgeDiscard (t : Task) (s : State) : State :=
  match slotOf (t.p8 16) with
  | none => s.endTask .badParameter 0 []
  | some p =>
    match s.slot p with
    | .free | .staging => s.endTask .notStaged 0 []
    | .staged _ ids holds =>
      if 0 < holds then s.endTask .slotBusy 0 []
      else (State.decAll ids (s.setSlot p .free)).endTask .done 0 []

/-! ### Meanings -/

/-- STAGE_PAGE (R48). -/
def execStagePage (s : State) : Out :=
  .next (match s.inHand 5 with | some t => s.judgeStage t | none => s)

/-- PAGE_HEADER_READ_COMPLETE (R49): one burst of the header's read (log 8). -/
def execPageHeaderReadComplete (err : Bool) (s : State) : Out :=
  .next <| s.complete (fun u => decide (u = .pageHeader)) err fun f s1 =>
    match s1.walker.task, s1.walker.job with
    | some t, .pageHeader g =>
      let g' := g.feed f.data
      if f.failed err then s1.failStage t .memoryError 6
      else if 0 < g'.left then State.ask .pageHeader g'.block none { s1 with walker := { s1.walker with job := .pageHeader g' } }
      else s1.pageHeaderCame t g'.got
    | _, _ => s1

/-- PAGE_READ_COMPLETE (R49): one burst of the rest of the definition (log 8). -/
def execPageReadComplete (err : Bool) (s : State) : Out :=
  .next <| s.complete (fun u => decide (u = .pageRest)) err fun f s1 =>
    match s1.walker.task, s1.walker.job with
    | some t, .pageRest h g =>
      let g' := g.feed f.data
      if f.failed err then s1.failStage t .memoryError 6
      else if 0 < g'.left then State.ask .pageRest g'.block none { s1 with walker := { s1.walker with job := .pageRest h g' } }
      else s1.pageCame t (h ++ g'.got)
    | _, _ => s1

end Sys2Proof.Machine
end

