-- ==== Sys2Proof/Machine/Planes.lean ====
section
/-! DEFINITION. The plane controllers (05): schedules, transitions, the beginning of operations, the pending jump, and the
steps of a plane's frame-start work. -/

namespace Sys2Proof.Machine

/-! ### Due stamps (R65) -/

/-- The signed distance of a due stamp from the frame stamp. -/
def distance (now due : Word) : Int := (due - now).toInt

/-- A due stamp is reached. -/
def reached (now due : Word) : Bool := decide ((now - due).toNat < 2 ^ 31)

/-- Lateness (R84). -/
def lateness (now due : Word) : Nat := min 255 (now - due).toNat

/-! ### Schedules -/

/-- Insertion by signed distance, after equals (R76). -/
def insertEntry (now : Word) (e : SchedEntry) : List SchedEntry → List SchedEntry
  | [] => [e]
  | x :: xs => if distance now e.due < distance now x.due then e :: x :: xs else x :: insertEntry now e xs

/-- The transition a SHOW PAGE or HIDE PLANE stores: a BLEND with its length, none for CUT or a BLEND of length 0 (R76). -/
def blendOf (t : Task) : Option Nat := if t.p8 18 = 1 ∧ t.p8 19 ≠ 0 then some (t.p8 19) else none

/-- The due stamp it stores (R76). -/
def dueOf (now : Word) (t : Task) : Word := if t.pbit 20 0 then now + 1 else t.p32 24

/-- The first entry that stood in a schedule at the frame start under way, and the schedule without it (R81, R85). -/
def takeHead : List SchedEntry → Option (SchedEntry × List SchedEntry)
  | [] => none
  | e :: es => if e.later then (takeHead es).map fun x => (x.1, e :: x.2) else some (e, es)

/-- A plane by its number (05). -/
def planeOf (n : Nat) : Option PlaneId := if n = 0 then some .slide else if n = 1 then some .menu else none

/-- An accepted operation is inserted and the walker moves on (R76, R77). While the plane's work for a frame start is
outstanding, the entry is for the next frame start (R85, log 3). -/
def State.insertOp (p : PlaneId) (page : Option SlotId) (t : Task) (s : State) : State :=
  let e : SchedEntry :=
    { page := page, blend := blendOf t, due := dueOf s.timer.stamp t, task := t.ref, later := decide (s.stage p ≠ .idle) }
  let pl := s.plane p
  (s.setPlane p { pl with schedule := insertEntry s.timer.stamp e pl.schedule }).dealt

/-- The plane that may show a page of a kind. -/
def PageKind.fits : PageKind → PlaneId → Bool
  | .menu, .menu => true
  | .slide, .slide => true
  | .menu, .slide => false
  | .slide, .menu => false

/-- R77 for SHOW PAGE. -/
def State.judgeShow (t : Task) (s : State) : State :=
  match planeOf (t.p8 16) with
  | none => s.endTask .badParameter 0 []
  | some p =>
    if Config.maxSchedule ≤ (s.plane p).schedule.length then s.stall
    else if 1 < t.p8 18 then s.endTask .badParameter 0 []
    else
      match slotOf (t.p8 17) with
      | none => s.endTask .badParameter 0 []
      | some x =>
        match s.page x with
        | none => s.endTask .notStaged 0 []
        | some d => if d.kind.fits p then (s.addHold x).insertOp p (some x) t else s.endTask .badParameter 0 []

/-- R77 for HIDE PLANE. -/
def State.judgeHide (t : Task) (s : State) : State :=
  match planeOf (t.p8 16) with
  | none => s.endTask .badParameter 0 []
  | some p =>
    if Config.maxSchedule ≤ (s.plane p).schedule.length then s.stall
    else if 1 < t.p8 18 then s.endTask .badParameter 0 []
    else s.insertOp p none t

/-- Entries removed from head to tail: each retires CANCELLED and gives up its hold (R86). -/
def State.cancelAll : List SchedEntry → State → State
  | [], s => s
  | e :: es, s =>
    let s1 := s.retire e.task .cancelled 0 []
    State.cancelAll es (match e.page with | some x => s1.releaseHold x | none => s1)

/-- R86. -/
def State.judgeClear (t : Task) (s : State) : State :=
  match planeOf (t.p8 16) with
  | none => s.endTask .badParameter 0 []
  | some p =>
    let pl := s.plane p
    (State.cancelAll pl.schedule (s.setPlane p { pl with schedule := [] })).endTask .done pl.schedule.length []

/-- A plane is idle (R87). -/
def Plane.idle (p : Plane) : Bool :=
  p.schedule.isEmpty
    && (match p.content with
        | .empty | .shown _ => true
        | .entering .. | .crossing .. | .leaving .. => false)

/-! ### Transitions -/

/-- The page that stands shown once a running transition has been completed (R80, R83). -/
def Content.settled : Content → Option SlotId
  | .empty => none
  | .entering i _ _ => some i
  | .shown p => some p
  | .crossing i _ _ _ => some i
  | .leaving _ _ _ => none

/-- The outgoing role. -/
def Content.outgoing : Content → Option SlotId
  | .crossing _ o _ _ => some o
  | .leaving o _ _ => some o
  | .empty | .entering .. | .shown _ => none

/-- SHOWN with a page, or EMPTY. -/
def Content.standing (p : Option SlotId) : Content := p.elim .empty .shown

/-- A plane's content replaced. -/
def State.setContent (p : PlaneId) (c : Content) (s : State) : State := s.setPlane p { s.plane p with content := c }

/-- The entry mark is set (R74). -/
def State.setMark (p : PlaneId) (s : State) : State := s.setPlane p { s.plane p with mark := true }

/-- A release of a slot, if one is named. -/
def State.release? (x : Option SlotId) (s : State) : State := x.elim s s.releaseHold

/-- A transition ends, or is completed at once: its last step's state stands and the outgoing role ends (R80, R83). -/
def State.settle (p : PlaneId) (s : State) : State :=
  let c := (s.plane p).content
  State.release? c.outgoing (s.setContent p (Content.standing c.settled))

/-- The SHOW rows of R83, on a plane that stands EMPTY or SHOWN. -/
def State.beginShow (p : PlaneId) (x : SlotId) (blend : Option Nat) (s : State) : State :=
  match (s.plane p).content.settled with
  | none =>
    let n := blend.getD 1
    State.setMark p (s.setContent p (if 2 ≤ n then .entering x 1 n else .shown x))
  | some q =>
    if q = x then State.setMark p (s.releaseHold x)
    else
      let n := blend.getD 1
      if 2 ≤ n then State.setMark p (s.setContent p (.crossing x q 1 n))
      else State.setMark p (State.releaseHold (s.setContent p (.shown x)) q)

/-- The HIDE rows of R83, on a plane that stands EMPTY or SHOWN. -/
def State.beginHide (p : PlaneId) (blend : Option Nat) (s : State) : State :=
  match (s.plane p).content.settled with
  | none => s
  | some q =>
    let n := blend.getD 1
    if 2 ≤ n then s.setContent p (.leaving q 1 n) else State.releaseHold (s.setContent p .empty) q

/-- The head of the frame start's schedule begins (R81, R83, R84). -/
def State.beginHead (p : PlaneId) (s : State) : State :=
  match takeHead (s.plane p).schedule with
  | none => s
  | some (e, es) =>
    let s1 := State.settle p (s.setPlane p { s.plane p with schedule := es })
    let s2 := match e.page with
      | some x => s1.beginShow p x e.blend
      | none => s1.beginHide p e.blend
    s2.retire e.task .done (lateness s.timer.stamp e.due) []

/-- The head of the frame start's schedule can begin: due, and a HIDE or a SHOW whose page is ready (R81, R82). -/
def State.headBegins (p : PlaneId) (s : State) : Bool :=
  match takeHead (s.plane p).schedule with
  | none => false
  | some (e, _) => reached s.timer.stamp e.due && (match e.page with | some x => s.readySlot x | none => true)

/-! ### Frame views and the steps of R79 -/

/-- The fade value (R74). -/
def Content.fade : Content → Nat
  | .empty => 0
  | .entering _ k n => 255 * k / n
  | .shown _ => 255
  | .crossing _ _ k n => 255 * k / n
  | .leaving _ k n => 255 - 255 * k / n

/-- The frame view is published; the plane's work is done (R74). -/
def State.publish (p : PlaneId) (s : State) : State :=
  let pl := s.plane p
  let v : FrameView := { frame := s.timer.stamp, content := pl.content, fade := pl.content.fade, mark := pl.mark }
  (s.setPlane p { pl with view := some v }).setStage p .idle

/-- Step 3 of R79: an operation that can begin is awaited, or the frame view is published. -/
def State.planeOps (p : PlaneId) (s : State) : State :=
  if s.headBegins p then s.setStage p .ops else s.publish p

/-- A transition's step raised by 1, and whether it has reached N (R80). -/
def Content.advanced : Content → Content × Bool
  | .entering i k n => (.entering i (k + 1) n, decide (n ≤ k + 1))
  | .crossing i o k n => (.crossing i o (k + 1) n, decide (n ≤ k + 1))
  | .leaving o k n => (.leaving o (k + 1) n, decide (n ≤ k + 1))
  | .empty => (.empty, false)
  | .shown p => (.shown p, false)

/-- Steps 2 and 3 of R79: a transition whose step reaches N is left for TRANSITION_END. -/
def State.planeAdvance (p : PlaneId) (s : State) : State :=
  let a := (s.plane p).content.advanced
  let s1 := s.setContent p a.1
  if a.2 then s1.setStage p .transEnd else s1.planeOps p

/-- A plane's frame-start work begins: the menu plane's pending jump is left for JUMP_APPLY (R79). -/
def State.planeBegin (p : PlaneId) (s : State) : State :=
  match p, s.jump with
  | .menu, some _ => s.setStage .menu .jump
  | .menu, none => s.planeAdvance .menu
  | .slide, _ => s.planeAdvance .slide

/-- TRANSITION_END's work (R80), then step 3. -/
def State.endTransition (p : PlaneId) (s : State) : State := (s.settle p).planeOps p

/-- OPERATION_BEGIN's work (R81), then the new head is looked at. -/
def State.beginOperation (p : PlaneId) (s : State) : State := (s.beginHead p).planeOps p

/-! ### The pending jump (R88-R90) -/

/-- The first condition of R89 that fails, by the order of R90. -/
def State.jumpFailure (s : State) (j : Jump) : Option JumpFailure :=
  if j.held then
    match s.page j.target with
    | some d =>
      match d.kind with
      | .menu => if s.readySlot j.target then none else some .notReady
      | .slide => some .notMenu
    | none => some .notMenu
  else some .notHeld

/-- The pending jump is applied or fails, and in either case is gone (R89, R90; logs 13, 14). -/
def State.applyJump (j : Jump) (s : State) : State :=
  match s.jumpFailure j with
  | none =>
    let before := s.menu.content.settled
    let s1 := State.settle .menu { s with jump := none }
    let s2 := State.setMark .menu (s1.setContent .menu (.shown j.target))
    (s2.release? before).submit (.pageJump none j.target before j.button j.slot)
  | some r =>
    let s1 := { s with jump := none }
    State.submit (.pageJump (some r) j.target none j.button j.slot) (if j.held then s1.releaseHold j.target else s1)

/-- JUMP_APPLY's work, then steps 2 and 3 of the menu plane. -/
def State.jumpStep (s : State) : State :=
  State.planeAdvance .menu (match s.jump with | some j => s.applyJump j | none => s)

/-! ### Meanings -/

/-- SHOW_PAGE (R77). -/
def execShowPage (s : State) : Out :=
  .next (match s.inHand 7 with | some t => s.judgeShow t | none => s)

/-- HIDE_PLANE (R77). -/
def execHidePlane (s : State) : Out :=
  .next (match s.inHand 8 with | some t => s.judgeHide t | none => s)

/-- CLEAR_SCHEDULE (R86). -/
def execClearSchedule (s : State) : Out :=
  .next (match s.inHand 9 with | some t => s.judgeClear t | none => s)

end Sys2Proof.Machine
end

