-- ==== Sys2Proof/Machine/Nav.lean ====
section
/-! DEFINITION. The navigation unit (08, 09): the navigation page, visual states and animation, selection, activation and its
actions, the key queue, digit entry, page timeout, the unit's frame-start work, and SET STATE. -/

namespace Sys2Proof.Machine

/-! ### The navigation page -/

/-- The navigation slot a menu frame view gives (R134). -/
def FrameView.navSlot (v : FrameView) : Option SlotId :=
  match v.content with
  | .entering i _ _ => some i
  | .shown p => some p
  | .crossing i _ _ _ => some i
  | .empty | .leaving .. => none

/-- The navigation slot; none when the unit is inactive (R134). -/
def State.navSlot (s : State) : Option SlotId := s.nav.judged.bind FrameView.navSlot

/-- The navigation page's definition (R134). -/
def State.navPage (s : State) : Option PageDef := s.navSlot.bind s.page

/-- A button is visible under a state word (R133). -/
def Button.visible (w : Word) (b : Button) : Bool := decide (w &&& b.mask = b.value)

/-- A button of a page, by index, is visible under a state word. -/
def PageDef.visible (d : PageDef) (w : Word) (i : Nat) : Bool := d.buttons[i]?.elim false (Button.visible w)

/-- The first index at or after `i` whose button satisfies `p`. -/
def firstFrom (p : Button → Bool) : Nat → List Button → Option Nat
  | _, [] => none
  | i, b :: bs => if p b then some i else firstFrom p (i + 1) bs

/-- The entry choice (R136): the default when it is visible, else the first visible button, else none. -/
def PageDef.entryChoice (d : PageDef) (w : Word) : Option Nat :=
  match d.dflt with
  | some i => if d.visible w i then some i else firstFrom (Button.visible w) 0 d.buttons
  | none => firstFrom (Button.visible w) 0 d.buttons

/-- The visible button with a number from 1 to 99 (R160-R162). -/
def PageDef.numbered (d : PageDef) (w : Word) (n : Nat) : Option Nat :=
  if n = 0 then none else firstFrom (fun b => b.visible w && decide (b.number = n)) 0 d.buttons

/-- S2 of R160 is not empty. -/
def PageDef.longer (d : PageDef) (w : Word) (digit : Nat) : Bool :=
  d.buttons.any fun b => b.visible w && decide (b.number ≠ 0 ∧ 10 * digit ≤ b.number ∧ b.number ≤ 10 * digit + 9)

/-! ### Visual states (R139-R141) -/

/-- The cycle of a visual state, up to its end (R139). -/
def Button.cycle (b : Button) : VisState → List (Byte × Nat)
  | .normal => livePairs b.normal
  | .selected => livePairs b.selected
  | .activating => livePairs b.activated

/-- A record at the start of a visual state's cycle (R139). -/
def Button.atStart (b : Button) (v : VisState) : ButtonRec :=
  { vis := v, pair := 0, left := (b.cycle v).head?.elim 0 (·.2), pub := false }

/-- A button's record replaced. -/
def State.setRec (i : Nat) (r : ButtonRec) (s : State) : State :=
  { s with nav := { s.nav with buttons := s.nav.buttons.setIfInBounds i r } }

/-- A button of the page enters a visual state (R139). -/
def State.enter (d : PageDef) (v : VisState) (i : Nat) (s : State) : State :=
  match d.buttons[i]? with
  | some b => s.setRec i (b.atStart v)
  | none => s

/-- The selection is moved (R141). -/
def State.moveSel (d : PageDef) (t : Option Nat) (s : State) : State :=
  if s.nav.selected = t then s
  else
    let s1 := s.nav.selected.elim s fun o => s.enter d .normal o
    let s2 := { s1 with nav := { s1.nav with selected := t } }
    t.elim s2 fun n => s2.enter d .selected n

/-- Selection maintenance (R142), made with no activation in progress. -/
def State.maintain (d : PageDef) (s : State) : State :=
  match s.nav.selected with
  | some b => if d.visible s.nav.word b then s else s.moveSel d (d.entryChoice s.nav.word)
  | none => s.moveSel d (d.entryChoice s.nav.word)

/-! ### Activation (R143-R147) -/

/-- A JUMP action (R147): an older jump fails as SUPERSEDED (R90), then a hold on the target is asked for. -/
def State.deliverJump (slot : SlotId) (b : Nat) (target : SlotId) (s : State) : State :=
  let s1 := match s.jump with
    | some o =>
      State.submit (.pageJump (some .superseded) o.target none o.button o.slot)
        (if o.held then s.releaseHold o.target else s)
    | none => s
  let held := s1.staged target
  let s2 := s1.addHold target
  { s2 with jump := some { target := target, held := held, button := b, slot := slot } }

/-- One action of button `b` of the page in `slot` (R145-R147). -/
def State.act (slot : SlotId) (b : Nat) (a : Action) (s : State) : State :=
  match a with
  | .none => s
  | .notify code => s.submit (.buttonAction slot b code s.nav.word)
  | .toggle mask =>
    let new := s.nav.word ^^^ mask
    State.submit (.stateChanged s.nav.word new slot b) { s with nav := { s.nav with word := new } }
  | .jump target => s.deliverJump slot b target

/-- An activation of button `b` ends (R144). -/
def State.endActivation (slot : SlotId) (d : PageDef) (b : Nat) (s : State) : State :=
  match d.buttons[b]? with
  | some t =>
    let s1 := (s.act slot b t.act1).act slot b t.act2
    let s2 := { s1 with nav := { s1.nav with activation := none } }
    let s3 := if t.visible s2.nav.word then s2.enter d .selected b else s2.moveSel d (d.entryChoice s2.nav.word)
    s3.maintain d
  | none => { s with nav := { s.nav with activation := none } }

/-- An activation of button `b` begins; it ends at once when its ACTIVATED cycle is empty (R143). -/
def State.activate (slot : SlotId) (d : PageDef) (b : Nat) (s : State) : State :=
  let s1 := (s.moveSel d (some b)).enter d .activating b
  let s2 := { s1 with nav := { s1.nav with activation := some b } }
  match d.buttons[b]? with
  | some t => if (t.cycle .activating).isEmpty then s2.endActivation slot d b else s2
  | none => s

/-- A digit entry is ended as on expiry (R162); with whether a button was found. -/
def State.endDigit (e : DigitEntry) (s : State) : State × Bool :=
  let s1 := { s with nav := { s.nav with digit := none } }
  match s.navSlot, s.navPage with
  | some slot, some d =>
    match d.numbered s.nav.word e.digit with
    | some b => (s1.activate slot d b, true)
    | none => (s1, false)
  | _, _ => (s1, false)

/-! ### Items (R156-R164) -/

/-- The code, source and task of a KEY item. -/
structure Key where
  code : Byte
  task : Option TaskRef
deriving DecidableEq, Repr

/-- The page timeout counter is set to the navigation page's timeout (R165). -/
def State.setTimeout (d : PageDef) (s : State) : State := { s with nav := { s.nav with timeout := d.timeout } }

/-- A task's key retires DONE with detail 1 when it was consumed, 0 when it was passed (R164). -/
def State.retireKey (k : Key) (detail : Nat) (s : State) : State := k.task.elim s fun t => s.retire t .done detail []

/-- A key is consumed (R157, R165). -/
def State.consumed (d : PageDef) (k : Key) (s : State) : State := (s.setTimeout d).retireKey k 1

/-- A key is passed (R157). -/
def State.passed (k : Key) (s : State) : State :=
  (s.submit (.keyPassed k.code k.task.isSome s.navSlot)).retireKey k 0

/-- The neighbour link of a direction key (R157, R158). -/
def dirLink : Nat → Option (Button → Nat)
  | 0x40 => some Button.up
  | 0x41 => some Button.down
  | 0x42 => some Button.left
  | 0x43 => some Button.right
  | _ => none

/-- The direction search from button `start`, following at most `fuel` more links (R158). -/
def searchLinks (d : PageDef) (w : Word) (dir : Button → Nat) (start : Nat) : Nat → Nat → Option Nat
  | 0, _ => none
  | n + 1, l =>
    if l = 255 ∨ l = start then none
    else
      match d.buttons[l]? with
      | some b => if b.visible w then some l else searchLinks d w dir start n (dir b)
      | none => none

/-- A direction key (R158). -/
def State.directionKey (slot : SlotId) (d : PageDef) (dir : Button → Nat) (k : Key) (s : State) : State :=
  match s.nav.selected with
  | none => s.passed k
  | some b =>
    match searchLinks d s.nav.word dir b Config.maxLinks (d.buttons[b]?.elim 255 dir) with
    | none => s.consumed d k
    | some t =>
      let s1 := s.moveSel d (some t)
      State.consumed d k (if d.buttons[t]?.elim false (·.auto) then s1.activate slot d t else s1)

/-- An OK key (R159). -/
def State.okKey (slot : SlotId) (d : PageDef) (k : Key) (s : State) : State :=
  match s.nav.selected with
  | none => s.passed k
  | some b => (s.activate slot d b).consumed d k

/-- A digit key with no digit entry pending (R160). -/
def State.digitKey (slot : SlotId) (d : PageDef) (digit : Nat) (k : Key) (s : State) : State :=
  if d.longer s.nav.word digit then
    let w := s.run.tun.elim 1 (·.digitWindow)
    State.consumed d k { s with nav := { s.nav with digit := some { digit := digit, left := w, slot := slot } } }
  else
    match d.numbered s.nav.word digit with
    | some b => (s.activate slot d b).consumed d k
    | none => s.passed k

/-- The digit of a key code (R157). -/
def digitOf (code : Byte) : Option Nat :=
  if 0x30 ≤ code.toNat ∧ code.toNat ≤ 0x39 then some (code.toNat - 0x30) else none

/-- A KEY item taken with no digit entry pending (R157). -/
def State.handleKey (k : Key) (s : State) : State :=
  match s.navSlot, s.navPage with
  | some slot, some d =>
    match dirLink k.code.toNat with
    | some dir => s.directionKey slot d dir k
    | none =>
      if k.code.toNat = 0x44 then s.okKey slot d k
      else
        match digitOf k.code with
        | some n => s.digitKey slot d n k
        | none => s.passed k
  | _, _ => s.passed k

/-- A second digit (R161). -/
def State.secondDigit (e : DigitEntry) (digit : Nat) (k : Key) (s : State) : State :=
  let s1 := { s with nav := { s.nav with digit := none } }
  match s.navSlot, s.navPage with
  | some slot, some d =>
    match d.numbered s.nav.word (10 * e.digit + digit) with
    | some b => (s1.activate slot d b).consumed d k
    | none => s1.consumed d k
  | _, _ => s1.retireKey k 1

/-- A SELECT item (R164). -/
def State.handleSelect (b : Nat) (act : Bool) (t : TaskRef) (s : State) : State :=
  match s.navSlot, s.navPage with
  | some slot, some d =>
    if d.visible s.nav.word b then
      let s1 := s.moveSel d (some b)
      State.retire t .done 0 [] ((if act then s1.activate slot d b else s1).setTimeout d)
    else s.retire t .notSelectable 0 []
  | _, _ => s.retire t .notSelectable 0 []

/-- An item taken with no digit entry pending. -/
def State.handleItem (i : KeyItem) (s : State) : State :=
  match i with
  | .key code task => s.handleKey { code := code, task := task }
  | .select b act t => s.handleSelect b act t

/-- The conditions of R156, an item being there. -/
def State.mayTake (s : State) : Bool :=
  decide (s.nav.activation = none) && decide (s.jump = none) && decide (s.work.nav = .idle)

/-- The head item leaves the queue. -/
def State.popItem (rest : List KeyItem) (s : State) : State := { s with nav := { s.nav with queue := rest } }

/-- The head item is taken (R156, R161). -/
def State.takeItem (s : State) : State :=
  match s.nav.queue with
  | [] => s
  | i :: rest =>
    if s.mayTake then
      match s.nav.digit with
      | none => State.handleItem i (s.popItem rest)
      | some e =>
        match i with
        | .key code task =>
          match digitOf code with
          | some n => State.secondDigit e n { code := code, task := task } (s.popItem rest)
          | none =>
            let r := s.endDigit e
            if r.2 then r.1 else State.handleItem i (r.1.popItem rest)
        | .select .. =>
          let r := s.endDigit e
          if r.2 then r.1 else State.handleItem i (r.1.popItem rest)
    else s

/-- An item from a task joins the queue, or the walker stalls (R155). -/
def State.joinItem (i : KeyItem) (s : State) : State :=
  if s.nav.queue.length < Config.maxKeys then
    State.dealt { s with nav := { s.nav with queue := s.nav.queue ++ [i] } }
  else s.stall

/-- SELECT BUTTON (R155). -/
def State.judgeSelect (t : Task) (s : State) : State := s.joinItem (.select (t.p8 16) (t.pbit 17 0) t.ref)

/-- INJECT KEY (R155). -/
def State.judgeInject (t : Task) (s : State) : State := s.joinItem (.key (BitVec.ofNat 8 (t.p8 16)) (some t.ref))

/-- A key from the line joins the queue, or is dropped and counted (R154). -/
def State.lineKey (code : Byte) (s : State) : State :=
  if s.nav.queue.length < Config.maxKeys then { s with nav := { s.nav with queue := s.nav.queue ++ [.key code none] } }
  else { s with stats := { s.stats with keysDropped := s.stats.keysDropped + 1 } }

/-! ### The player state word (R132) -/

/-- SET STATE's new word. -/
def maskedWord (old mask value : Word) : Word := (old &&& ~~~mask) ||| (value &&& mask)

/-- SET STATE (R132). -/
def State.judgeSetState (t : Task) (s : State) : State :=
  let new := maskedWord s.nav.word (t.p32 16) (t.p32 20)
  let s1 := { s with nav := { s.nav with word := new } }
  let s2 := match s.navPage, s.nav.activation with
    | some d, none => if new = s.nav.word then s1 else s1.maintain d
    | _, _ => s1
  s2.endTask .done 0 (selFrom 24 (le32 new))

/-! ### Frame-start work (R135-R138) -/

/-- Every button of a page at its entry: `sel` SELECTED, the others NORMAL (R136). -/
def entryRecs (sel : Option Nat) : Nat → List Button → List ButtonRec
  | _, [] => []
  | i, b :: bs => b.atStart (if sel = some i then .selected else .normal) :: entryRecs sel (i + 1) bs

/-- The 24 records from a list; those beyond it are at their reset values (log 19). -/
def recVector (l : List ButtonRec) : Vector ButtonRec 24 := .ofFn fun i => l.getD i {}

/-- A page entry (R136). -/
def State.enterPage (d : PageDef) (s : State) : State :=
  let sel := d.entryChoice s.nav.word
  { s with nav := { s.nav with
      selected := sel, buttons := recVector (entryRecs sel 0 d.buttons), activation := none, digit := none, timeout := d.timeout } }

/-- The unit becomes, or stays, inactive (R135, R165). -/
def State.leavePage (s : State) : State :=
  { s with nav := { s.nav with
      selected := none, buttons := recVector [], activation := none, digit := none, timeout := 0, live := none } }

/-- The previous navigation page is frozen as last drawn (R135, R137). -/
def State.freezePage (s : State) : State := { s with nav := { s.nav with frozen := s.nav.live } }

/-- A position advanced by one frame, and whether an ACTIVATED cycle has ended (R140). -/
def ButtonRec.advance (b : Button) (r : ButtonRec) : ButtonRec × Bool :=
  let c := b.cycle r.vis
  if r.pub && !c.isEmpty then
    if 1 < r.left then ({ r with left := r.left - 1 }, false)
    else if r.pair + 1 < c.length then ({ r with pair := r.pair + 1, left := (c.getD (r.pair + 1) (0, 0)).2 }, false)
    else
      match r.vis with
      | .activating => ({ r with left := 0 }, true)
      | .normal | .selected => ({ r with pair := 0, left := c.head?.elim 0 (·.2) }, false)
  else (r, false)

/-- The positions of a page's buttons advanced, and whether an ACTIVATED cycle has ended. -/
def advanceAll : List Button → List ButtonRec → List ButtonRec × Bool
  | b :: bs, r :: rs =>
    let x := r.advance b
    let y := advanceAll bs rs
    (x.1 :: y.1, x.2 || y.2)
  | [], rs => (rs, false)
  | _ :: _, [] => ([], false)

/-- Where the unit's frame-start work stands. -/
def State.setNavStage (g : NavStage) (s : State) : State := { s with work := { s.work with nav := g } }

/-- The live view of a page (R138). -/
def State.liveView (slot : SlotId) (d : PageDef) (s : State) : PageView :=
  { slot := slot, buttons := d.buttons.zipWith (fun b r => { visible := b.visible s.nav.word, vis := r.vis, pair := r.pair })
      s.nav.buttons.toList }

/-- The view of a page as a page entry would set it (R137). -/
def entryViews (w : Word) (sel : Option Nat) : Nat → List Button → List ButtonView
  | _, [] => []
  | i, b :: bs =>
    { visible := b.visible w, vis := if sel = some i then .selected else .normal, pair := 0 } :: entryViews w sel (i + 1) bs

/-- The frozen copy for a frame (R137): kept while the view names its slot, formed for another page in the outgoing role. -/
def State.frozenFor (v : FrameView) (s : State) : Option PageView :=
  let kept := s.nav.frozen.filter fun f => decide (f.slot ∈ v.content.roles)
  match v.content.outgoing with
  | none => kept
  | some o =>
    match kept with
    | some f =>
      if f.slot = o then some f
      else (s.page o).map fun d => { slot := o, buttons := entryViews s.nav.word (d.entryChoice s.nav.word) 0 d.buttons }
    | none => (s.page o).map fun d => { slot := o, buttons := entryViews s.nav.word (d.entryChoice s.nav.word) 0 d.buttons }

/-- The published flag set on the page's records (R138). -/
def publishRecs : List Button → List ButtonRec → List ButtonRec
  | _ :: bs, r :: rs => { r with pub := true } :: publishRecs bs rs
  | [], rs => rs
  | _ :: _, [] => []

/-- Step 4 of R138: the button views are published, and the unit's work is done. -/
def State.navPublish (s : State) : State :=
  let frozen := match s.nav.judged with | some v => s.frozenFor v | none => none
  let s1 := { s with nav := { s.nav with frozen := frozen } }
  let s2 := match s.navSlot, s.navPage with
    | some slot, some d =>
      { s1 with nav := { s1.nav with
          live := some (s.liveView slot d), buttons := recVector (publishRecs d.buttons s1.nav.buttons.toList) } }
    | _, _ => { s1 with nav := { s1.nav with live := none } }
  s2.setNavStage .idle

/-- The page timeout's part of step 3 (R166): a counter that reaches 0 is left for PAGE_TIMEOUT. -/
def State.navTimeout (s : State) : State :=
  if s.navSlot.isSome ∧ 0 < s.nav.timeout ∧ s.nav.activation = none ∧ s.nav.digit = none ∧ s.jump = none then
    let s1 := { s with nav := { s.nav with timeout := s.nav.timeout - 1 } }
    if s.nav.timeout = 1 then s1.setNavStage .timeout else s1.navPublish
  else s.navPublish

/-- The digit window's part of step 3 (R163): a window that runs out is left for DIGIT_WINDOW_EXPIRY. -/
def State.navDigit (s : State) : State :=
  match s.nav.digit with
  | some e =>
    let s1 := { s with nav := { s.nav with digit := some { e with left := e.left - 1 } } }
    if e.left ≤ 1 then s1.setNavStage .expiry else s1.navTimeout
  | none => s.navTimeout

/-- Step 2 of R138: an ACTIVATED cycle that ends is left for ACTIVATION_END. -/
def State.navAdvance (d : PageDef) (s : State) : State :=
  let a := advanceAll d.buttons s.nav.buttons.toList
  let s1 := { s with nav := { s.nav with buttons := recVector a.1 } }
  if a.2 then s1.setNavStage .actEnd else s1.navDigit

/-- The view makes a page entry (R135), `new` being the slot it gives. -/
def State.entryMade (v : FrameView) (new : SlotId) (s : State) : Bool := v.mark || decide (s.navSlot ≠ some new)

/-- Step 1 of R138 and what follows it, on the menu frame view `v` (R135). -/
def State.navJudge (v : FrameView) (s : State) : State :=
  let judged (x : State) : State := { x with nav := { x.nav with judged := some v } }
  match v.navSlot with
  | none => ((judged (if s.navSlot.isSome then s.freezePage else s)).leavePage).navPublish
  | some new =>
    match s.page new with
    | some d =>
      if s.entryMade v new then
        ((judged (if s.navSlot.isSome ∧ s.navSlot ≠ some new then s.freezePage else s)).enterPage d).navDigit
      else (judged s).navAdvance d
    | none => (judged s).navPublish

/-- The unit's frame-start work begins, the menu plane having published (R138). -/
def State.navRun (s : State) : State :=
  match s.menu.view with
  | some v => s.navJudge v
  | none => s.setNavStage .idle

/-- ACTIVATION_END's work (R144), then step 3. -/
def State.navActEnd (s : State) : State :=
  State.navDigit <|
    match s.navSlot, s.navPage, s.nav.activation with
    | some slot, some d, some b => s.endActivation slot d b
    | _, _, _ => s

/-- DIGIT_WINDOW_EXPIRY's work (R162), then the rest of step 3. -/
def State.navExpiry (s : State) : State :=
  State.navTimeout (match s.nav.digit with | some e => (s.endDigit e).1 | none => s)

/-- The timeout fires (R166). -/
def State.fireTimeout (slot : SlotId) (d : PageDef) (s : State) : State :=
  match d.dflt with
  | some b =>
    if d.visible s.nav.word b then s.activate slot d b
    else s.submit (.pageTimeout slot s.nav.selected s.nav.word)
  | none => s.submit (.pageTimeout slot s.nav.selected s.nav.word)

/-- PAGE_TIMEOUT's work (R166), then step 4. -/
def State.navFire (s : State) : State :=
  State.navPublish <|
    match s.navSlot, s.navPage with
    | some slot, some d => s.fireTimeout slot d
    | _, _ => s

/-! ### Meanings -/

/-- TAKE_ITEM (R156). -/
def execTakeItem (s : State) : Out := .next s.takeItem

/-- SET_STATE (R132). -/
def execSetState (s : State) : Out :=
  .next (match s.inHand 10 with | some t => s.judgeSetState t | none => s)

/-- SELECT_BUTTON (R155). -/
def execSelectButton (s : State) : Out :=
  .next (match s.inHand 11 with | some t => s.judgeSelect t | none => s)

/-- INJECT_KEY (R155). -/
def execInjectKey (s : State) : Out :=
  .next (match s.inHand 12 with | some t => s.judgeInject t | none => s)

end Sys2Proof.Machine
end

