-- ==== Sys2Proof/Machine/KeyLine.lean ====
section
/-! DEFINITION. The key line receiver (09, 9.1): start edge, false start, and the frame judged at its stop sample. -/

namespace Sys2Proof.Machine

/-- The receiver works (R151). -/
def State.receiverWorks (s : State) : Bool := s.active && s.run.tun.elim false (·.keyEnable)

/-- The receiver returns to IDLE. -/
def State.receiverIdle (s : State) : State := { s with keyline := { s.keyline with recv := .idle } }

/-- The frame's address is the receiver's, or 0, which every receiver answers (R153). -/
def addressMatches (own : Nat) (b : Byte) : Bool := decide (b.toNat % 128 = own ∨ b.toNat % 128 = 0)

/-- The frame is judged (R152, R153). -/
def State.judgeFrame (byte : Byte) (marker stop : Bool) (s : State) : State :=
  if stop then
    if marker then
      { s with keyline := { s.keyline with listening := addressMatches (s.run.tun.elim 0 (·.keyAddr)) byte } }
    else if s.keyline.listening then s.lineKey byte
    else s
  else { s with stats := { s.stats with framing := s.stats.framing + 1 } }

/-- START_EDGE (R151). -/
def execStartEdge (s : State) : Out :=
  .next <|
    match s.keyline.recv with
    | .idle => if s.receiverWorks then { s with keyline := { s.keyline with recv := .receiving 0 } } else s
    | .receiving _ => s

/-- FALSE_START (R151): it acts 4 x D ticks after the edge. -/
def execFalseStart (elapsed : Nat) (s : State) : Out :=
  let s1 := s.passTicks elapsed
  .next <|
    match s1.keyline.recv with
    | .receiving t => if t = 4 * s1.keyDiv then s1.receiverIdle else s1
    | .idle => s1

/-- KEY_FRAME (R151-R153): it acts at the stop sample, 84 x D ticks after the edge. -/
def execKeyFrame (elapsed : Nat) (byte : Byte) (marker stop : Bool) (s : State) : Out :=
  let s1 := s.passTicks elapsed
  .next <|
    match s1.keyline.recv with
    | .receiving t => if t = 84 * s1.keyDiv then (s1.receiverIdle).judgeFrame byte marker stop else s1
    | .idle => s1

end Sys2Proof.Machine
end

