-- ==== Sys2Proof/Machine/Palette.lean ====
section
/-! DEFINITION. The palette store (03, 3.1): LOAD PALETTE and the application of the pending copies at a frame start. -/

namespace Sys2Proof.Machine

/-- R42, and the first read of the source (R43). -/
def State.judgeLoadPalette (t : Task) (s : State) : State :=
  let count := t.p16 18
  let src := (t.p32 20).toNat
  if Config.maxPaletteTasks ≤ s.palette.list.length then s.stall
  else if 7 < t.p8 16 then s.endTask .badParameter 0 []
  else if count = 0 ∨ 256 < count then s.endTask .badParameter 0 []
  else if 256 < t.p8 17 + count then s.endTask .badParameter 0 []
  else if s.inChain src (4 * count) then
    let g : Gather := { addr := src, left := 4 * count }
    State.ask .palette g.block none { s with walker := { s.walker with st := .working, job := .palette g } }
  else s.endTask .addressFault 0 []

/-- Entries written, with their marks, into a pending copy from an index (R43). -/
def writePend (p : Vector (Option PalEntry) 256) : Nat → List PalEntry → Vector (Option PalEntry) 256
  | _, [] => p
  | i, e :: es => writePend (p.setIfInBounds i (some e)) (i + 1) es

/-- Every read of a LOAD PALETTE has completed: the entries are written together and the task joins the list (R43). -/
def State.acceptPalette (t : Task) (bytes : List Byte) (s : State) : State :=
  let k := t.p8 16
  let row := writePend (s.palette.pend.toList.getD k (.replicate 256 none)) (t.p8 17) (palEntries (t.p16 18) bytes)
  State.dealt { s with palette := { s.palette with pend := s.palette.pend.setIfInBounds k row, list := s.palette.list ++ [t.ref] } }

/-- The marked entries of a pending copy are applied (R44). -/
def applyPend (p : Vector (Option PalEntry) 256) (a : Vector PalEntry 256) : Vector PalEntry 256 :=
  Vector.zipWith (fun m e => m.getD e) p a

/-- Tasks retire in order with one outcome. -/
def State.retireAll (o : TaskOutcome) (detail : Nat) : List TaskRef → State → State
  | [], s => s
  | t :: ts, s => State.retireAll o detail ts (s.retire t o detail [])

/-- Every pending copy is applied and the application list retires (R44). -/
def State.applyPalettes (s : State) : State :=
  State.retireAll .done 0 s.palette.list
    { s with palette :=
        { applied := Vector.zipWith applyPend s.palette.pend s.palette.applied, pend := .replicate 8 (.replicate 256 none), list := [] } }

/-- Something waits to be applied or to retire (R44). -/
def PaletteStore.waiting (p : PaletteStore) : Bool :=
  !p.list.isEmpty || p.pend.toList.any fun row => row.toList.any Option.isSome

/-- An entry of the applied palette of a slot (R41). -/
def State.colour (s : State) (slot idx : Nat) : PalEntry :=
  (s.palette.applied.toList.getD slot (.replicate 256 {})).toList.getD idx {}

/-! ### Meanings -/

/-- LOAD_PALETTE (R42). -/
def execLoadPalette (s : State) : Out :=
  .next (match s.inHand 4 with | some t => s.judgeLoadPalette t | none => s)

end Sys2Proof.Machine
end

