-- ==== Sys2Proof/Machine/Compose.lean ====
section
/-! DEFINITION. The composer (06): span tables, line fetch and its lookahead, the raster, and the arithmetic of a pixel. -/

namespace Sys2Proof.Machine

/-! ### Span tables (R94-R98) -/

/-- Plane width and height. -/
def State.planeSize (s : State) : Nat × Nat := s.run.fixed.elim (0, 0) fun f => (f.format.width, f.format.height)

/-- The button view of a page (R95, R137): the live view of the navigation page, else the frozen copy. -/
def State.buttonView (s : State) (p : SlotId) : Option PageView :=
  match s.nav.live.filter fun v => decide (v.slot = p) with
  | some v => some v
  | none => s.nav.frozen.filter fun v => decide (v.slot = p)

/-- The object a placement draws, none for a hidden button (R95). -/
def drawnObject (d : PageDef) (pv : Option PageView) (i : Nat) (p : Placement) : Option Byte :=
  match d.buttons.findIdx? fun b => decide (b.placement = i) with
  | none => some p.obj
  | some j =>
    match pv.bind fun v => v.buttons[j]?, d.buttons[j]? with
    | some v, some b => if v.visible then some ((b.cycle v.vis)[v.pair]?.elim p.obj (·.1)) else none
    | _, _ => some p.obj

/-- The clamp of a crop in one direction: the size left, and 0 for an empty crop (R96). -/
def clampCrop (start size whole : Nat) : Nat := min (start + if size = 0 then whole else size) whole - start

/-- One direction of R98's clip: the edge, the size, and how much was clipped before the edge. -/
def clip (pos : Int) (size limit : Nat) : Nat × Nat × Nat :=
  let lo := (max pos 0).toNat
  let hi := (min (pos + size) limit).toNat
  (lo, hi - lo, (lo - pos).toNat)

/-- The span of a placement that draws object `o` with entry view `v`, or none (R96-R98). A blank span's source origin, which R97
does not give, starts at (0, 0) before R98 moves it: the model's choice, seen in no output (log 31). -/
def spanOf (pw ph : Nat) (role : SpanRole) (p : Placement) (o : Byte) (v : EntryView) : Option Span :=
  let w := if v.drawable then clampCrop p.cropX p.cropW v.width else p.cropW
  let h := if v.drawable then clampCrop p.cropY p.cropH v.height else p.cropH
  let cx := clip p.x w pw
  let cy := clip p.y h ph
  if w = 0 ∨ h = 0 ∨ cx.2.1 = 0 ∨ cy.2.1 = 0 then none
  else some
    { role := role, obj := o, blank := !v.drawable, heapOff := if v.drawable then v.offset else 0,
      objW := if v.drawable then v.width else 0, sx := (if v.drawable then p.cropX else 0) + cx.2.2,
      sy := (if v.drawable then p.cropY else 0) + cy.2.2, pal := p.pal,
      left := cx.1, top := cy.1, width := cx.2.1, height := cy.2.1 }

/-- The spans of a page's placements from number `i` (R94). -/
def State.placementSpans (s : State) (d : PageDef) (pv : Option PageView) (role : SpanRole) : Nat → List Placement → List Span
  | _, [] => []
  | i, p :: ps =>
    let rest := s.placementSpans d pv role (i + 1) ps
    match drawnObject d pv i p with
    | none => rest
    | some o =>
      match (s.objView o).bind (spanOf s.planeSize.1 s.planeSize.2 role p o) with
      | some x => x :: rest
      | none => rest

/-- The spans of the page in a slot (R94). -/
def State.pageSpans (s : State) (role : SpanRole) (x : SlotId) : List Span :=
  match s.page x with
  | some d => s.placementSpans d (s.buttonView x) role 0 d.placements
  | none => []

/-- A plane's span table (R94): in a crossing the outgoing page's spans stand first. -/
def State.spanTable (s : State) (c : Content) : List Span :=
  match c with
  | .empty => []
  | .shown p => s.pageSpans .single p
  | .entering i _ _ => s.pageSpans .incoming i
  | .crossing i o _ _ => s.pageSpans .outgoing o ++ s.pageSpans .incoming i
  | .leaving o _ _ => s.pageSpans .outgoing o

/-! ### The lookahead (R99-R103) -/

/-- A plane's raster. -/
def State.raster (s : State) : PlaneId → Raster
  | .slide => s.composer.slide
  | .menu => s.composer.menu

/-- A plane's raster replaced. -/
def State.setRaster (s : State) : PlaneId → Raster → State
  | .slide, r => { s with composer := { s.composer with slide := r } }
  | .menu, r => { s with composer := { s.composer with menu := r } }

/-- Bursts that cover `w` bytes from byte `a`, counted from the aperture base (R102). -/
def burstsFor (a w : Nat) : Nat := (a + w - 1) / 64 - a / 64 + 1

/-- A selected span's row on a line (R102). -/
def Span.fetch (y : Nat) (x : Span) : SpanFetch :=
  let a := 64 * x.heapOff + (x.sy + y - x.top) * x.objW + x.sx
  if x.blank then { span := x, base := 0, bursts := 0 } else { span := x, base := a, bursts := burstsFor a x.width }

/-- The spans of a table that cover a line (R99). -/
def covering (y : Nat) (l : List Span) : List Span := l.filter fun x => decide (x.top ≤ y ∧ y < x.top + x.height)

/-- Line fetch begins the lowest line of a plane not yet begun, counting the spans it drops (R99, R101). -/
def State.beginLine (p : PlaneId) (s : State) : State :=
  let r := s.raster p
  if r.next < s.planeSize.2 ∧ r.bufs.length < Config.lineBuffers then
    let all := covering r.next r.spans
    let dropped := all.length - Config.maxSpansOnLine
    let b : LineBuf := { line := r.next, spans := (all.drop dropped).map (Span.fetch r.next) }
    let s1 := s.setRaster p { r with bufs := r.bufs ++ [b], next := r.next + 1 }
    { s1 with
      composer := { s1.composer with drops := s1.composer.drops + dropped },
      stats := { s1.stats with drops := s1.stats.drops + BitVec.ofNat 32 dropped } }
  else s

/-- Lines begun while buffers are free. -/
def State.beginLines (p : PlaneId) : Nat → State → State
  | 0, s => s
  | n + 1, s => State.beginLines p n (s.beginLine p)

/-- Every burst of a span has arrived (R101). -/
def SpanFetch.arrived (x : SpanFetch) : Bool := decide (x.got.length = x.bursts) && x.got.all Option.isSome

/-- A line is ready (R101). -/
def LineBuf.ready (b : LineBuf) : Bool := b.spans.all SpanFetch.arrived

/-- A plane's lines ahead (R101). -/
def State.linesAhead (s : State) (p : PlaneId) : Nat :=
  ((s.raster p).bufs.filter fun b => b.ready && (!s.composer.lineStarted || decide (s.composer.line < b.line))).length

/-- The first span with a burst not yet granted, numbered from `i`. -/
def firstWanting : Nat → List SpanFetch → Option (Nat × SpanFetch)
  | _, [] => none
  | i, x :: xs => if x.granted < x.bursts then some (i, x) else firstWanting (i + 1) xs

/-- The next burst of a plane: its lowest line, and within it the first span, with a burst left to fetch (R102). -/
def nextOfPlane : List LineBuf → Option (Nat × Nat × SpanFetch)
  | [] => none
  | b :: bs =>
    if b.judged then nextOfPlane bs
    else
      match firstWanting 0 b.spans with
      | some (i, x) => some (b.line, i, x)
      | none => nextOfPlane bs

/-- A plane has bursts left to fetch. -/
def State.wants (s : State) (p : PlaneId) : Bool := (nextOfPlane (s.raster p).bufs).isSome

/-- The other plane. -/
def otherPlane : PlaneId → PlaneId
  | .slide => .menu
  | .menu => .slide

/-- The plane line fetch requests for (R102). -/
def State.fetchPlane (s : State) : Option PlaneId :=
  match s.wants .slide, s.wants .menu with
  | false, false => none
  | true, false => some .slide
  | false, true => some .menu
  | true, true =>
    if s.linesAhead .slide < s.linesAhead .menu then some .slide
    else if s.linesAhead .menu < s.linesAhead .slide then some .menu
    else some (otherPlane s.composer.lastPlane)

/-- Line fetch presents its next request when it has none waiting (R102, log 11). -/
def State.lfPresent (s : State) : State :=
  match s.port.lfReq, s.fetchPlane with
  | none, some p =>
    match nextOfPlane (s.raster p).bufs with
    | some (y, i, x) =>
      let b : Burst := { user := .line p y i, block := s.heapBase + 64 * (x.base / 64 + x.granted), sel := none }
      { s with port := { s.port with lfReq := some b }, composer := { s.composer with lastPlane := p } }
    | none => s
  | _, _ => s

/-- LINE FETCH is urgent (R103). -/
def State.urgent (s : State) : Bool :=
  let t := s.run.tun.elim 0 (·.threshold)
  (s.wants .slide && decide (s.linesAhead .slide < t)) || (s.wants .menu && decide (s.linesAhead .menu < t))

/-- One span of one line of a plane changed. -/
def State.mapSpan (p : PlaneId) (y i : Nat) (f : SpanFetch → SpanFetch) (s : State) : State :=
  let r := s.raster p
  s.setRaster p { r with bufs := r.bufs.map fun b => if b.line = y ∧ !b.judged then { b with spans := b.spans.modify i f } else b }

/-- A burst of line fetch. -/
def User.ofLine : User → Bool
  | .line .. => true
  | _ => false

/-- A line-fetch burst of one line of one plane. -/
def User.isLine (u : User) (p : PlaneId) (y : Nat) : Bool :=
  match u with
  | .line q z _ => decide (q = p ∧ z = y)
  | _ => false

/-- A line-fetch read has come (R101, R104, R105): after an error response the span lacks the burst. -/
def State.lineCame (err : Bool) (f : Flight) (s : State) : State :=
  match f.burst.user with
  | .line p y i => s.mapSpan p y i fun x => { x with got := x.got ++ [if f.failed err then none else some f.data] }
  | _ => s

/-! ### Line starts (R100, R101, R104) -/

/-- A line of a plane judged at its line start: spans that lack bursts underrun (R104). -/
def LineBuf.judge (b : LineBuf) : LineBuf :=
  { b with judged := true, spans := b.spans.map fun x => { x with under := !x.arrived } }

/-- Line `y` of a plane is judged: an underrun is counted once, and its waiting request is withdrawn (R104). -/
def State.judgeLine (p : PlaneId) (y : Nat) (s : State) : State :=
  let r := s.raster p
  match r.bufs.find? fun b => decide (b.line = y) with
  | some b =>
    let s1 := s.setRaster p { r with bufs := r.bufs.map fun x => if x.line = y then x.judge else x }
    let s2 := { s1 with port := { s1.port with lfReq := s1.port.lfReq.filter fun q => !q.user.isLine p y } }
    if b.ready then s2
    else { s2 with
      composer := { s2.composer with underruns := s2.composer.underruns + 1 },
      stats := { s2.stats with underruns := s2.stats.underruns + 1 } }
  | none => s

/-- The buffers of lines already output are freed, and each begins a further line (R101). -/
def State.freeLines (p : PlaneId) (y : Nat) (s : State) : State :=
  let r := s.raster p
  State.beginLines p Config.lineBuffers (s.setRaster p { r with bufs := r.bufs.filter fun b => decide (y ≤ b.line) })

/-- A line start after an accepted frame start (R100, R101, R104). -/
def State.lineStart (s : State) : State :=
  let y := if s.composer.lineStarted then s.composer.line + 1 else 0
  let s1 := { s with composer := { s.composer with lineStarted := true, line := y, pixel := 0 } }
  let s2 := (s1.judgeLine .slide y).judgeLine .menu y
  ((s2.freeLines .slide y).freeLines .menu y).lfPresent

/-! ### A pixel (R106-R112) -/

/-- Rounding division by 255 (R106). -/
def div255 (x : Nat) : Nat := ((x + 128) + (x + 128) / 256) / 256

/-- The signed form (R106). -/
def sdiv255 (x : Int) : Int := if x < 0 then -(div255 x.natAbs : Int) else (div255 x.natAbs : Int)

/-- Stage 1 (R107). -/
def PalEntry.premultiplied (e : PalEntry) : Colour :=
  { a := e.a.toNat, y := div255 (e.y.toNat * e.a.toNat),
    cb := sdiv255 (((e.cb.toNat : Int) - 128) * e.a.toNat), cr := sdiv255 (((e.cr.toNat : Int) - 128) * e.a.toNat) }

/-- A top laid over a bottom (R108, R110). -/
def Colour.over (t b : Colour) : Colour :=
  { a := t.a + div255 (b.a * (255 - t.a)), y := t.y + div255 (b.y * (255 - t.a)),
    cb := t.cb + sdiv255 (b.cb * ((255 - t.a : Nat) : Int)), cr := t.cr + sdiv255 (b.cr * ((255 - t.a : Nat) : Int)) }

/-- Stage 3 (R109). -/
def Colour.mix (n o : Colour) (fade : Nat) : Colour :=
  { a := div255 (n.a * fade + o.a * (255 - fade)), y := div255 (n.y * fade + o.y * (255 - fade)),
    cb := sdiv255 (n.cb * fade + o.cb * ((255 - fade : Nat) : Int)), cr := sdiv255 (n.cr * fade + o.cr * ((255 - fade : Nat) : Int)) }

/-- Chroma limited to -128 to 127 (R110). -/
def Colour.limited (c : Colour) : Colour := { c with cb := max (-128) (min 127 c.cb), cr := max (-128) (min 127 c.cr) }

/-- The index byte of a fetched row at column `i` of its span (R98, R102). -/
def SpanFetch.index (x : SpanFetch) (i : Nat) : Byte :=
  let o := x.base % 64 + i
  match x.got[o / 64]? with
  | some (some l) => byteAt l (o % 64)
  | _ => 0

/-- The value of a span at a column it covers (R104, R107). -/
def State.spanColour (s : State) (f : SpanFetch) (x : Nat) : Colour :=
  if f.span.blank || f.under then {} else (s.colour f.span.pal (f.index (x - f.span.left)).toNat).premultiplied

/-- Stage 2 over the spans of a list that cover a column, in span order (R108). -/
def State.stack (s : State) (x : Nat) (l : List SpanFetch) : Colour :=
  (l.filter fun f => decide (f.span.left ≤ x ∧ x < f.span.left + f.span.width)).foldl
    (fun b f => (s.spanColour f x).over b) {}

/-- The frame view's state is CROSSING. -/
def FrameView.isCrossing (v : FrameView) : Bool :=
  match v.content with
  | .crossing .. => true
  | .empty | .entering .. | .shown _ | .leaving .. => false

/-- A plane's value at a pixel (R108, R109). -/
def State.planeColour (s : State) (p : PlaneId) (x y : Nat) : Colour :=
  match (s.plane p).view, (s.raster p).bufs.find? fun b => decide (b.line = y) with
  | some v, some b =>
    let out := b.spans.filter fun f => v.isCrossing && decide (f.span.role = .outgoing)
    let inc := b.spans.filter fun f => !(v.isCrossing && decide (f.span.role = .outgoing))
    Colour.mix (s.stack x inc) (s.stack x out) v.fade
  | _, _ => {}

/-- The output is forced transparent (R112). -/
def State.forced (s : State) : Bool := !s.active || s.composer.marker.isNone || s.timer.forced

/-- The output pixel at a pixel of a line (R100, R110, R112). -/
def State.outputPixel (s : State) : Colour :=
  if s.forced || !s.composer.lineStarted || decide (s.planeSize.1 ≤ s.composer.pixel ∨ s.planeSize.2 ≤ s.composer.line) then {}
  else
    Colour.limited ((s.planeColour .menu s.composer.pixel s.composer.line).over
      (s.planeColour .slide s.composer.pixel s.composer.line))

/-- A pixel clock (R100): the pixel is sent, and counted once a frame start has been accepted (log 25). -/
def State.pixelClock (s : State) : State :=
  { s with composer := { s.composer with
      output := s.outputPixel, pixel := if s.composer.marker.isSome then s.composer.pixel + 1 else s.composer.pixel } }

/-! ### Frame starts (R93) -/

/-- Steps 1 and 2 of R93: the old frame is closed and both lookaheads are dropped. The line and pixel counters are set to 0
here as well (step 4). -/
def State.closeFrame (s : State) : State :=
  let c := s.composer
  let s1 := match c.marker with
    | some f =>
      if 0 < c.underruns ∨ 0 < c.drops then s.submit (.frameFaults f c.underruns c.drops) else s
    | none => s
  State.dropFlight User.ofLine
    { s1 with
      composer := { c with slide := { c.slide with bufs := [], next := 0 }, menu := { c.menu with bufs := [], next := 0 },
                           lastPlane := .menu, lineStarted := false, line := 0, pixel := 0, underruns := 0, drops := 0 },
      port := { s1.port with lfReq := none } }

/-- Steps 3 and 4 of R93: the span tables are built and line fetch begins lines 0 to 3. -/
def State.compRun (s : State) : State :=
  let tab (p : Plane) : List Span := p.view.elim [] fun v => s.spanTable v.content
  let s1 := { s with
    composer := { s.composer with slide := { spans := tab s.slide }, menu := { spans := tab s.menu }, marker := some s.timer.stamp },
    stats := { s.stats with frames := s.stats.frames + 1 },
    work := { s.work with comp := false } }
  ((s1.beginLines .slide Config.lineBuffers).beginLines .menu Config.lineBuffers).lfPresent

/-! ### Meanings -/

/-- LINE_FETCH_BURST_COMPLETE (R101, R105). -/
def execLineFetchBurstComplete (err : Bool) (s : State) : Out :=
  .next (s.complete User.ofLine err (State.lineCame err))

end Sys2Proof.Machine
end

