-- ==== Sys2Proof/Machine/Frame.lean ====
section
/-! DEFINITION. The frame timer and sync watch (04), and the frame-start work of every block put in order (log 3). -/

namespace Sys2Proof.Machine

/-! ### Frame-start work (R22, R34, R44, R79, R93, R138) -/

/-- The heap manager's frame-start work ends with its entry view (R22). -/
def State.viewTaken (s : State) : State :=
  let s1 := s.takeEntryView
  { s1 with work := { s1.work with heap := false } }

/-- The heap manager's work: a switch that is due is left for OFFSET_SWITCH (R22, R34). -/
def State.heapRun (s : State) : State :=
  if s.work.heap ∧ s.compactor.phase ≠ .switchPending then s.viewTaken else s

/-- A plane's work begins once the entry view has been taken (R79). -/
def State.planeRun (p : PlaneId) (s : State) : State :=
  if s.work.heap then s
  else
    match s.stage p with
    | .begin => s.planeBegin p
    | .idle | .jump | .transEnd | .ops => s

/-- Both planes have published: the compactor's drawn test uses these views (R30). -/
def State.noteViews (s : State) : State :=
  match s.work.slide, s.work.menu, s.slide.view, s.menu.view with
  | .idle, .idle, some a, some b => { s with drawnViews := some (a, b) }
  | _, _, _, _ => s

/-- The navigation unit's work begins once the menu plane has published (R138). -/
def State.navRunIf (s : State) : State :=
  match s.work.nav, s.work.menu with
  | .await, .idle => s.navRun
  | _, _ => s

/-- The composer's steps 3 and 4, once every other block's work is done (R93). -/
def State.compRunIf (s : State) : State :=
  if s.work = { comp := true } then s.compRun else s

/-- Every block goes on as far as it can. -/
def State.advanceWork (s : State) : State :=
  ((((s.heapRun.planeRun .slide).planeRun .menu).noteViews).navRunIf).compRunIf

/-- OFFSET_SWITCH's work (R34). -/
def State.switchStep (s : State) : State :=
  if s.work.heap ∧ s.compactor.phase = .switchPending then (s.applySwitch.viewTaken).advanceWork else s

/-- PALETTE_APPLY's work (R44). -/
def State.paletteStep (s : State) : State :=
  if s.work.palette then
    let s1 := s.applyPalettes
    State.advanceWork { s1 with work := { s1.work with palette := false } }
  else s

/-- TRANSITION_END's work (R80). -/
def State.transStep (p : PlaneId) (s : State) : State :=
  match s.stage p with
  | .transEnd => (s.endTransition p).advanceWork
  | .idle | .begin | .jump | .ops => s

/-- OPERATION_BEGIN's work (R81). -/
def State.opStep (p : PlaneId) (s : State) : State :=
  match s.stage p with
  | .ops => (if s.headBegins p then s.beginOperation p else s.publish p).advanceWork
  | .idle | .begin | .jump | .transEnd => s

/-- JUMP_APPLY's work (R89, R90). -/
def State.jumpApplyStep (s : State) : State :=
  match s.work.menu with
  | .jump => s.jumpStep.advanceWork
  | .idle | .begin | .transEnd | .ops => s

/-- ACTIVATION_END's work (R144). -/
def State.actEndStep (s : State) : State :=
  match s.work.nav with
  | .actEnd => s.navActEnd.advanceWork
  | .idle | .await | .expiry | .timeout => s

/-- DIGIT_WINDOW_EXPIRY's work (R162). -/
def State.expiryStep (s : State) : State :=
  match s.work.nav with
  | .expiry => s.navExpiry.advanceWork
  | .idle | .await | .actEnd | .timeout => s

/-- PAGE_TIMEOUT's work (R166). -/
def State.timeoutStep (s : State) : State :=
  match s.work.nav with
  | .timeout => s.navFire.advanceWork
  | .idle | .await | .actEnd | .expiry => s

/-- Every step that waits, once each, in the model's order (log 3). -/
def State.workRound (s : State) : State :=
  (((((((((s.switchStep.paletteStep).transStep .slide).opStep .slide).jumpApplyStep).transStep .menu).opStep .menu).actEndStep).expiryStep).timeoutStep)

/-- The rounds that finish what is outstanding: a schedule's 8 entries and one more (log 3). -/
def State.workRounds : Nat → State → State
  | 0, s => s
  | n + 1, s => if s.work = {} then s else State.workRounds n s.workRound

/-- What is outstanding of the last frame start's work is finished (log 3). -/
def State.finishWork (s : State) : State := if s.work = {} then s else s.advanceWork.workRounds (Config.maxSchedule + 2)

/-- A move has been abandoned while its switch was due at this frame start (R35): nothing is left to switch, so the entry
view is taken and the blocks that wait for it go on (R22, R79, R93). -/
def State.workGoesOn (s : State) : State :=
  if s.work.heap ∧ s.compactor.phase ≠ .switchPending then s.advanceWork else s

/-! ### Frame starts (R62-R64, R67, R69) -/

/-- An entry that a new frame start judges (R79, R85). -/
def SchedEntry.current (e : SchedEntry) : SchedEntry := { e with later := false }

/-- At the beginning of a frame start's work a plane's entry mark is clear (R74), and its whole schedule is judged (R79). -/
def Plane.unmarked (p : Plane) : Plane := { p with mark := false, schedule := p.schedule.map SchedEntry.current }

/-- The compactor in CONFIRMING has seen a frame start (R32). -/
def Compactor.sawFrame (c : Compactor) : Compactor :=
  match c.phase with
  | .confirming => { c with frameSeen := true }
  | .idle | .waiting | .scanning | .copying | .switchPending | .paused => c

/-- The work of an accepted frame start, outstanding. -/
def State.workAtStart (s : State) : FrameWork :=
  { heap := true, palette := s.palette.waiting, slide := .begin, menu := .begin, nav := .await, comp := true }

/-- The frame timer's part of an accepted frame start (R64, R67). -/
def Timer.accepted (t : Timer) : Timer :=
  { t with stamp := t.stamp + 1, tick := 0, firstFrame := false, lost := false, forced := t.forced && t.latch }

/-- A frame start is accepted (R64, R67, R69, R93): every block's work begins. A drawn test still to be made after the
frame start before is made first, on the views that R32 names (log 3). -/
def State.acceptFrame (s : State) : State :=
  let s0 := s.confirmMove
  let s1 := { s0 with timer := s0.timer.accepted }
  let s2 := if s0.timer.lost then s1.submit (.syncChange true s1.timer.stamp) else s1
  let s3 := ((s2.closeFrame).promptWalker).promptAnchor
  State.advanceWork
    { s3 with compactor := s3.compactor.sawFrame, slide := s3.slide.unmarked, menu := s3.menu.unmarked, work := s3.workAtStart }

/-- A frame start pulse is judged (R62, R63). -/
def State.frameStart (s : State) : State :=
  if s.active then
    if s.timer.firstFrame = true ∨ s.interval ≤ s.timer.tick * 2 then s.acceptFrame
    else { s with stats := { s.stats with glitches := s.stats.glitches + 1 } }
  else s

/-- The tick count has reached 3 x I with the watch armed and IN_SYNC (R66). -/
def State.lossDue (s : State) : Bool :=
  s.watching && decide (3 * s.interval ≤ s.timer.tick)

/-! ### Meanings -/

/-- FRAME_START (R63). -/
def execFrameStart (elapsed : Nat) (s : State) : Out := .next (s.finishWork.passTicks elapsed).frameStart

/-- SYNC_LOSS (R66). -/
def execSyncLoss (elapsed : Nat) (s : State) : Out :=
  let s1 := s.passTicks elapsed
  .next (if s1.lossDue then s1.loseSync else s1)

/-- FREE_OBJECT (R18); a due switch may go with the move that it abandons. -/
def execFreeObject (s : State) : Out :=
  .next (match s.inHand 2 with | some t => (s.judgeFree t).workGoesOn | none => s)

/-- DISCARD_PAGE (R56); a due switch may go with the move that it abandons. -/
def execDiscardPage (s : State) : Out :=
  .next (match s.inHand 6 with | some t => (s.judgeDiscard t).workGoesOn | none => s)

/-- OFFSET_SWITCH (R34). -/
def execOffsetSwitch (s : State) : Out := .next s.switchStep

/-- PALETTE_APPLY (R44). -/
def execPaletteApply (s : State) : Out := .next s.paletteStep

/-- PALETTE_READ_COMPLETE (R43): one burst of the reads of a LOAD PALETTE (log 8). An
application that the last frame start left outstanding is made before the entries are written (R44, log 3). -/
def execPaletteReadComplete (err : Bool) (s : State) : Out :=
  .next <| s.complete (fun u => decide (u = .palette)) err fun f s1 =>
    match s1.walker.task, s1.walker.job with
    | some t, .palette g =>
      let g' := g.feed f.data
      if f.failed err then s1.endTask .memoryError 6 []
      else if 0 < g'.left then State.ask .palette g'.block none { s1 with walker := { s1.walker with job := .palette g' } }
      else s1.paletteStep.acceptPalette t g'.got
    | _, _ => s1

/-- TRANSITION_END (R80). -/
def execTransitionEnd (p : PlaneId) (s : State) : Out := .next (s.transStep p)

/-- OPERATION_BEGIN (R81). -/
def execOperationBegin (p : PlaneId) (s : State) : Out := .next (s.opStep p)

/-- JUMP_APPLY (R89). -/
def execJumpApply (s : State) : Out := .next s.jumpApplyStep

/-- ACTIVATION_END (R144). -/
def execActivationEnd (s : State) : Out := .next s.actEndStep

/-- DIGIT_WINDOW_EXPIRY (R162). -/
def execDigitWindowExpiry (s : State) : Out := .next s.expiryStep

/-- PAGE_TIMEOUT (R166). -/
def execPageTimeout (s : State) : Out := .next s.timeoutStep

/-- LINE_START (R100): before the first accepted frame start it is not counted. -/
def execLineStart (s : State) : Out :=
  let s1 := s.finishWork
  .next (if s1.composer.marker.isSome then s1.lineStart else s1)

/-- PIXEL_CLOCK (R100). -/
def execPixelClock (s : State) : Out := .next s.finishWork.pixelClock

end Sys2Proof.Machine
end

