-- ==== Sys2Proof/Machine/Port.lean ====
section
/-! DEFINITION. The memory port (07): the arbiter's choice, the aperture check, the accounts and counters of a grant, what a
grant sets going in its requester, and SNAPSHOT. -/

namespace Sys2Proof.Machine

/-! ### The choice (R116, R122, R124) -/

/-- A requester's waiting request (R116, R182). -/
def State.waitingReq (s : State) : Requester → Option Burst
  | .lineFetch => s.port.lfReq
  | .decoder => s.port.decReq
  | .walker => s.port.walkerQ.head?
  | .compactor => s.port.compReq

/-- The round-robin order that starts after a requester (R122). -/
def orderAfter : Requester → List Requester
  | .lineFetch => [.decoder, .walker, .compactor, .lineFetch]
  | .decoder => [.walker, .compactor, .lineFetch, .decoder]
  | .walker => [.compactor, .lineFetch, .decoder, .walker]
  | .compactor => [.lineFetch, .decoder, .walker, .compactor]

/-- The tier of a grant (R122); none in STOPPED and STARTING (R119). -/
inductive Tier where
  | urgent | under | over | none
deriving DecidableEq, Repr

/-- A requester's arbiter parameters. -/
def State.params (s : State) (r : Requester) : ArbParams := s.run.tun.elim {} fun t => t.arb.get r

/-- A requester's account is at or below its limit (R122). -/
def State.underLimit (s : State) (r : Requester) : Bool := decide (s.port.accounts.get r ≤ (s.params r).limit)

/-- The requesters with a waiting request, in round-robin order. -/
def State.contenders (s : State) : List Requester := (orderAfter s.port.pointer).filter fun r => (s.waitingReq r).isSome

/-- The requester chosen and its tier (R122). -/
def State.choice (s : State) : Option (Requester × Tier) :=
  if s.active then
    if (s.waitingReq .lineFetch).isSome ∧ s.urgent = true then some (.lineFetch, .urgent)
    else
      match s.contenders.find? s.underLimit with
      | some r => some (r, .under)
      | none => s.contenders.head?.map fun r => (r, .over)
  else s.contenders.head?.map fun r => (r, .none)

/-! ### A grant (R115, R117, R118, R123, R126) -/

/-- The port carries a requester's burst: its block lies in the aperture of its direction, and setup reads are not checked
(R117, R118, R119). -/
def State.carries (s : State) (r : Requester) (b : Burst) : Bool :=
  match b.user with
  | .setup _ => true
  | .line .. | .decHeader | .decCode | .decPixels | .compRead | .compWrite | .record | .link | .loadHeader | .palette
  | .pageHeader | .pageRest | .results _ | .outcome .. | .contents | .noticeState | .noticeLink =>
    let heap := s.run.fixed.elim false fun f => f.inHeap b.block 64
    match r, b.sel with
    | .lineFetch, _ => heap
    | .decoder, none => s.inChain b.block 64
    | .decoder, some _ => heap
    | .walker, _ => s.inChain b.block 64
    | .compactor, _ => heap

/-- A requester's waiting request has been granted, and is no longer waiting. -/
def Port.take (p : Port) : Requester → Port
  | .lineFetch => { p with lfReq := none }
  | .decoder => { p with decReq := none }
  | .walker => { p with walkerQ := p.walkerQ.tail }
  | .compactor => { p with compReq := none }

/-- The account of `i` after a grant to `g` (R123). -/
def State.charged (s : State) (g i : Requester) : Nat :=
  let p := s.params i
  let a := s.port.accounts.get i
  (if i = g then min p.clip (a + p.r) else a) - p.d

/-- The accounts after a grant (R123); none changes in STOPPED and STARTING (R119). -/
def State.accountsAfter (s : State) (g : Requester) : Four Nat :=
  if s.active then ⟨s.charged g .lineFetch, s.charged g .decoder, s.charged g .walker, s.charged g .compactor⟩
  else s.port.accounts

/-- The counters after a grant (R126). -/
def Stats.granted (c : Stats) (r : Requester) (t : Tier) : Stats :=
  { c with bursts := c.bursts.upd r (c.bursts.get r + 1),
           urgent := if t = .urgent then c.urgent + 1 else c.urgent,
           overLimit := if t = .over then c.overLimit + 1 else c.overLimit }

/-- A re-read that has been granted (R176, R190). -/
def Reread.onGrant : Reread → Reread
  | .asked => .granted false
  | .none => .none
  | .granted a => .granted a

/-- The head retirement's outcome burst has been granted: it leaves the list and the next one begins (R179); an empty list
lets the walker request its record (R178). -/
def State.popRetirement (s : State) : State :=
  let rest := s.walker.retiring.tail
  let s1 := { s with walker := { s.walker with retiring := rest } }
  match rest with
  | r :: _ => s1.askResults r
  | [] => s1.requestRecord

/-- What a grant sets going in the burst's user. -/
def State.onGrant (u : User) (s : State) : State :=
  match u with
  | .line p y i => (s.mapSpan p y i fun x => { x with granted := x.granted + 1 }).lfPresent
  | .outcome .. => s.popRetirement
  | .link => { s with walker := { s.walker with reread := s.walker.reread.onGrant } }
  | .noticeLink => { s with notices := { s.notices with reread := s.notices.reread.onGrant } }
  | .decHeader | .decCode | .decPixels | .compRead | .compWrite | .record | .loadHeader | .palette | .pageHeader
  | .pageRest | .results _ | .contents | .noticeState | .setup _ => s

/-- The memory after a grant: a write that the port carries is made (R115). -/
def Burst.written (b : Burst) (carried : Bool) (m : Mem) : Mem :=
  match b.sel with
  | some sel => if carried then memWriteSel m b.block sel else m
  | none => m

/-- A request is granted (R115-R126). -/
def State.grant (r : Requester) (t : Tier) (b : Burst) (s : State) : State :=
  let ok := s.carries r b
  let f : Flight := { burst := b, data := if ok then memBytes s.mem b.block 64 else [], refused := !ok, dropped := false }
  State.onGrant b.user
    { s with
      mem := b.written ok s.mem,
      port := { s.port.take r with flight := some f, accounts := s.accountsAfter r, pointer := r },
      stats := s.stats.granted r t }

/-- The port makes a grant when it carries no burst and a request is waiting (R116, log 6). -/
def State.arbitrate (s : State) : State :=
  match s.port.flight, s.choice with
  | none, some (r, t) =>
    match s.waitingReq r with
    | some b => s.grant r t b
    | none => s
  | _, _ => s

/-! ### SNAPSHOT (R128-R130) -/

/-- An account as a word. -/
def State.accountWord (s : State) (r : Requester) : Word := BitVec.ofNat 32 (s.port.accounts.get r)

/-- The twelve words of a counter set (R130). -/
def State.sample (s : State) (set1 : Bool) : List Word :=
  let c := s.stats
  [c.bursts.lineFetch, c.bursts.decoder, c.bursts.walker, c.bursts.compactor, c.urgent]
    ++ if set1 then
      [c.overLimit, s.accountWord .lineFetch, s.accountWord .decoder, s.accountWord .walker, s.accountWord .compactor, 0, 0]
    else [c.frames, c.underruns, c.drops, c.glitches, c.framing, c.keysDropped, c.noticesLost]

/-- The counters of a set cleared (R129). -/
def Stats.cleared (c : Stats) (set1 : Bool) : Stats :=
  if set1 then { c with bursts := ⟨0, 0, 0, 0⟩, urgent := 0, overLimit := 0 }
  else { overLimit := c.overLimit }

/-- SNAPSHOT (R128). -/
def State.judgeSnapshot (t : Task) (s : State) : State :=
  if 1 < t.p8 16 then s.endTask .badParameter 0 []
  else
    let set1 : Bool := decide (t.p8 16 = 1)
    let words := s.sample set1
    let s1 := if t.pbit 17 0 then { s with stats := s.stats.cleared set1 } else s
    s1.endTask .done 0 (selFrom 16 (words.flatMap le32))

/-! ### Meanings -/

/-- BURST_GRANT (R116, R122); what the host has written is in memory first (log 4). -/
def execBurstGrant (host : List Host.Cell) (s : State) : Out := .next (State.arbitrate { s with mem := memHost s.mem host })

/-- SNAPSHOT (R128). -/
def execSnapshot (s : State) : Out :=
  .next (match s.inHand 14 with | some t => s.judgeSnapshot t | none => s)

end Sys2Proof.Machine
end

