-- ==== Sys2Proof/Machine/Walker.lean ====
section
/-! DEFINITION. The walker (10): records taken, stalls, WAIT, links, retirement writes, faults, restart, halt and resume. -/

namespace Sys2Proof.Machine

/-! ### Records and kinds (R169, R172) -/

/-- A kind the part knows (R172). -/
def knownKind (k : Nat) : Bool := decide (1 ≤ k ∧ k ≤ 14)

/-- A record's read has come (R169, R172, R184). That a walker which is still READING in HALTING takes its task and deals with it,
a STAGE PAGE or DISCARD PAGE too, follows R186, where R60 says that none arrives then: the model's choice (log 30). -/
def State.recordCame (err : Bool) (f : Flight) (s : State) : State :=
  match s.walker.st, s.walker.cur with
  | .reading, some a =>
    if f.failed err then s.readFault a s.walker.holder
    else
      let t := taskOf a f.data
      let s1 := { s with walker := { s.walker with st := .working, asked := false, task := some t, job := .judge } }
      if knownKind t.ref.kind.toNat then s1 else s1.endTask .badKind 0 []
  | _, _ => s

/-! ### WAIT (R183) -/

/-- A WAIT's condition: none when its parameters are bad, else whether it is met. -/
def State.waitCond (t : Task) (s : State) : Option Bool :=
  if t.p8 16 = 1 then some (reached s.timer.stamp (t.p32 20))
  else if t.p8 16 = 2 then (planeOf (t.p32 20).toNat).map fun p => (s.plane p).idle
  else if t.p8 16 = 3 then some s.heap.loads.isEmpty
  else none

/-- The WAIT is not met: WAITING, or halted at that boundary when the part is HALTING (R183, R186). -/
def State.beginWait (s : State) : State :=
  match s.run.state with
  | .halting => { s with walker := { s.walker with st := .halted .wait } }
  | .stopped | .starting | .running | .halted => { s with walker := { s.walker with st := .waiting } }

/-- WAIT judged (R183). -/
def State.judgeWait (t : Task) (s : State) : State :=
  match s.waitCond t with
  | none => s.endTask .badParameter 0 []
  | some true => s.endTask .done 0 []
  | some false => s.beginWait

/-- A recheck of a WAIT (R183, log 20). -/
def State.recheckWait (s : State) : State :=
  match s.walker.st, s.walker.task with
  | .waiting, some t => if s.waitCond t = some true then s.endTask .done 0 [] else s
  | _, _ => s

/-! ### Stalls (R174) -/

/-- The judgement of a kind that may stall. -/
def State.judgeStalled (t : Task) (s : State) : State :=
  match t.ref.kind.toNat with
  | 1 => s.judgeLoad t
  | 3 => s.judgeCompact t
  | 4 => s.judgeLoadPalette t
  | 7 => s.judgeShow t
  | 8 => s.judgeHide t
  | 11 => s.judgeSelect t
  | 12 => s.judgeInject t
  | _ => s

/-- A stalled walker looks for room: it makes its remaining checks and hands the task over, or stays STALLED (R174). -/
def State.retryStall (s : State) : State :=
  match s.walker.st, s.walker.task with
  | .stalled, some t => State.judgeStalled t { s with walker := { s.walker with st := .working } }
  | _, _ => s

/-! ### Links (R175, R176, R184, R186) -/

/-- A re-read that has been judged and leaves the walker PARKED: one more follows when a prompt came after its grant (R176). -/
def State.parkAgain (s : State) : State :=
  let again := match s.walker.reread with
    | .granted true => true
    | .none | .asked | .granted false => false
  let s1 := { s with walker := { s.walker with st := .parked, reread := .none } }
  if again then s1.promptWalker else s1

/-- A link of 0: PARKED, or halted there when a link read of R175 completes in HALTING (R186). -/
def State.park (s : State) : State :=
  match s.run.state with
  | .halting => { s with walker := { s.walker with st := .halted .parked, reread := .none } }
  | .stopped | .starting | .running | .halted => s.parkAgain

/-- A valid link: READING at the new record, or halted there when the part is HALTING (R175, R186). -/
def State.followLink (l : Word) (s : State) : State :=
  let h := s.walker.cur
  let s1 := { s with walker := { s.walker with reread := .none } }
  match s.run.state with
  | .halting =>
    { s1 with walker := { s1.walker with st := .halted .record, cur := some l, holder := h, asked := false, task := none, job := .judge } }
  | .stopped | .starting | .running | .halted => s1.toReading l h

/-- A link that has been read is judged (R175, R184). -/
def State.judgeLink (failed : Bool) (data : List Byte) (s : State) : State :=
  let l := word32 data 0
  if failed then s.readFault (s.walker.cur.getD 0) s.walker.cur
  else if l = 0 then s.park
  else if s.recordOk l then s.followLink l
  else s.readFault l s.walker.cur

/-- A link's read has come; the read of a walker halted meanwhile is not used (log 15). -/
def State.linkCame (err : Bool) (f : Flight) (s : State) : State :=
  match s.walker.st with
  | .linking | .parked => s.judgeLink (f.failed err) f.data
  | .idle | .reading | .working | .stalled | .waiting | .halted _ | .faulted =>
    { s with walker := { s.walker with reread := .none } }

/-! ### Retirement writes (R179-R181) -/

/-- A write fault (R181). -/
def State.writeFault (r : Retirement) (s : State) : State :=
  s.walkerFault { addr := r.task.addr, holder := none, write := true }

/-- The outcome burst is asked for (R179, R181). -/
def State.askOutcome (r : Retirement) (o : TaskOutcome) (detail : Byte) (s : State) : State :=
  s.ask (.outcome r o detail) r.task.addr.toNat (some (outcomeSel o))

/-- The results burst has come (R179, R181). After an error the outcome burst asks for MEMORY_ERROR and keeps detail 6 for the
TASK_DONE (log 32). -/
def State.resultsCame (err : Bool) (f : Flight) (s : State) : State :=
  match f.burst.user with
  | .results r =>
    if f.failed err then (s.writeFault r).askOutcome r .memoryError 6 else s.askOutcome r r.outcome r.detail
  | _ => s

/-- The outcome burst has come (R180, R181). That TASK_DONE's detail is 6 also when the outcome burst meets an error after the
results burst did is the model's choice (log 32). -/
def State.outcomeCame (err : Bool) (f : Flight) (s : State) : State :=
  match f.burst.user with
  | .outcome r o detail =>
    let s1 := if f.failed err then s.writeFault r else s
    if r.task.notify then s1.submit (.taskDone r.task.addr r.task.tag r.task.kind o detail) else s1
  | _ => s

/-- A results burst. -/
def User.isResults : User → Bool
  | .results _ => true
  | _ => false

/-- An outcome burst. -/
def User.isOutcome : User → Bool
  | .outcome .. => true
  | _ => false

/-! ### Chain Poke, halt and resume (R177, R185, R186) -/

/-- A walker restart (R185). -/
def State.restartWalker (a : Word) (s : State) : State :=
  let s1 := { s with walker := { s.walker with capture := none } }
  match s.run.state with
  | .halting | .halted =>
    { s1 with walker := { s1.walker with st := .halted .record, cur := some a, holder := none, asked := false } }
  | .stopped | .starting | .running => s1.toReading a none

/-- A Chain Poke write's effect on the walker (R177). -/
def State.pokeWalker (v : Word) (s : State) : State :=
  match s.walker.st with
  | .parked => s.promptWalker
  | .faulted => if s.recordOk v then s.restartWalker v else s
  | .idle | .reading | .working | .stalled | .waiting | .linking | .halted _ => s

/-- A Chain Poke write (R177, R190); ignored while the reset pin is held (R199). -/
def State.poke (v : Word) (s : State) : State := if s.run.pinHeld then s else (s.pokeWalker v).promptAnchor

/-- HALT reaches the walker (R186). -/
def State.haltWalker (s : State) : State :=
  match s.walker.st with
  | .stalled => { s with walker := { s.walker with st := .halted .handover } }
  | .waiting => { s with walker := { s.walker with st := .halted .wait } }
  | .parked => { s with walker := { s.walker with st := .halted .parked } }
  | .idle | .reading | .working | .linking | .halted _ | .faulted => s

/-- The walker has stopped for a halt (R186). -/
def Walker.stopped (w : Walker) : Bool :=
  match w.st with
  | .halted _ | .faulted => true
  | .idle | .reading | .working | .stalled | .waiting | .linking | .parked => false

/-- The walker goes on from its resume point (R186). -/
def State.resumeWalker (s : State) : State :=
  match s.walker.st with
  | .halted .link => State.askLink { s with walker := { s.walker with st := .linking } }
  | .halted .record => s.toReading (s.walker.cur.getD 0) s.walker.holder
  | .halted .handover => { s with walker := { s.walker with st := .stalled } }
  | .halted .wait => { s with walker := { s.walker with st := .waiting } }
  | .halted .parked => State.promptWalker { s with walker := { s.walker with st := .parked } }
  | .idle | .reading | .working | .stalled | .waiting | .linking | .parked | .faulted => s

/-! ### Meanings -/

/-- RECORD_READ_COMPLETE (R169). -/
def execRecordReadComplete (err : Bool) (s : State) : Out :=
  .next (s.complete (fun u => decide (u = .record)) err (State.recordCame err))

/-- WAIT (R183). -/
def execWait (s : State) : Out :=
  .next (match s.inHand 13 with | some t => s.judgeWait t | none => s)

/-- WAIT_MET (R183). -/
def execWaitMet (s : State) : Out := .next s.recheckWait

/-- STALL_HANDOVER (R174). -/
def execStallHandover (s : State) : Out := .next s.retryStall

/-- LINK_READ_COMPLETE (R175, R176). -/
def execLinkReadComplete (err : Bool) (s : State) : Out :=
  .next (s.complete (fun u => decide (u = .link)) err (State.linkCame err))

/-- RESULTS_BURST_COMPLETE (R179, R181). -/
def execResultsBurstComplete (err : Bool) (s : State) : Out :=
  .next (s.complete User.isResults err (State.resultsCame err))

/-- OUTCOME_BURST_COMPLETE (R180, R181). -/
def execOutcomeBurstComplete (err : Bool) (s : State) : Out :=
  .next (s.complete User.isOutcome err (State.outcomeCame err))

/-- CHAIN_POKE (R177). -/
def execChainPoke (v : Word) (s : State) : Out := .next (s.poke v)

end Sys2Proof.Machine
end

