-- ==== Sys2Proof/Machine/Notices.lean ====
section
/-! DEFINITION. The notice writer (11.1): numbering and writing a notice, its faults, and the links of the notice chain. -/

namespace Sys2Proof.Machine

/-- The head notice is numbered and its contents burst asked for (R188, R189). -/
def State.takeNotice (s : State) : State :=
  match s.notices.cursor, s.notices.writing, s.notices.queue with
  | .blank a, none, n :: rest =>
    let seq := s.notices.seq + 1
    let w : Writing := { notice := n, seq := seq, lost := s.notices.lost, phase := .contents }
    State.ask .contents a.toNat (some (contentsSel n seq s.notices.lost))
      { s with notices := { s.notices with queue := rest, lost := 0, writing := some w } }
  | _, _, _ => s

/-- BLANK_FAULT is set (R190, R191). -/
def State.blankFault (s : State) : State := { s with attention := { s.attention with blankFault := true } }

/-- The record the cursor names. -/
def Cursor.addr : Cursor → Word
  | .none => 0
  | .blank a => a
  | .anchor a => a

/-- The contents burst met an error: the notice is dropped (R191). -/
def State.dropNotice (w : Writing) (s : State) : State :=
  State.blankFault
    { s with
      notices := { s.notices with writing := none, lost := min 65535 (s.notices.lost + w.lost + 1) },
      stats := { s.stats with noticesLost := s.stats.noticesLost + 1 } }

/-- The contents burst has come (R189, R191). -/
def State.contentsCame (err : Bool) (f : Flight) (s : State) : State :=
  match s.notices.writing with
  | some w =>
    if f.failed err then s.dropNotice w
    else
      State.ask .noticeState s.notices.cursor.addr.toNat (some stateSel)
        { s with notices := { s.notices with writing := some { w with phase := .state } } }
  | none => s

/-- A notice kind is selected in the attention mask (R189, R193). -/
def State.selected (s : State) (b : NoticeBody) : Bool := s.run.tun.elim false fun t => t.attnMask.getLsbD b.code

/-- The state burst has come (R189, R191). -/
def State.stateCame (err : Bool) (f : Flight) (s : State) : State :=
  match s.notices.writing with
  | some w =>
    let s1 := { s with
      notices := { s.notices with seq := w.seq, writing := some { w with phase := .link } },
      attention := { s.attention with notice := s.attention.notice || s.selected w.notice.body } }
    State.ask .noticeLink s.notices.cursor.addr.toNat none (if f.failed err then s1.blankFault else s1)
  | none => s

/-- A read link of the notice chain gives the next cursor, and whether it is a blank fault (R190). -/
def State.nextCursor (s : State) (failed : Bool) (data : List Byte) : Cursor × Bool :=
  let here := s.notices.cursor.addr
  let l := word32 data 0
  if failed then (.anchor here, true)
  else if l = 0 then (.anchor here, false)
  else if s.recordOk l then (.blank l, false)
  else (.anchor here, true)

/-- A prompt came after the grant of the re-read now judged (R190). -/
def Reread.again : Reread → Bool
  | .granted true => true
  | .none | .asked | .granted false => false

/-- The link read of a filled record, or a re-read at the anchor, has come (R190). -/
def State.noticeLinkCame (err : Bool) (f : Flight) (s : State) : State :=
  let r := s.nextCursor (f.failed err) f.data
  let again := s.notices.reread.again
  let s1 := { s with notices := { s.notices with cursor := r.1, writing := none, reread := .none } }
  let s2 := if r.2 then s1.blankFault else s1
  if again then s2.promptAnchor else s2

/-! ### Meanings -/

/-- NOTICE_TAKE (R189). -/
def execNoticeTake (s : State) : Out := .next s.takeNotice

/-- CONTENTS_BURST_COMPLETE (R191). -/
def execContentsBurstComplete (err : Bool) (s : State) : Out :=
  .next (s.complete (fun u => decide (u = .contents)) err (State.contentsCame err))

/-- STATE_BURST_COMPLETE (R189). -/
def execStateBurstComplete (err : Bool) (s : State) : Out :=
  .next (s.complete (fun u => decide (u = .noticeState)) err (State.stateCame err))

/-- NOTICE_LINK_READ_COMPLETE (R190). -/
def execNoticeLinkReadComplete (err : Bool) (s : State) : Out :=
  .next (s.complete (fun u => decide (u = .noticeLink)) err (State.noticeLinkCame err))

end Sys2Proof.Machine
end

