-- ==== Sys2Proof/Machine/RunControl.lean ====
section
/-! DEFINITION. Run control (11.3-11.7): Control, starts, resumes, halts, resets, and the other registers of the window. -/

namespace Sys2Proof.Machine

/-! ### Setup reads (R119, R195, R198) -/

/-- The block of a setup read, wrapping at 2^32 (log 9). -/
def Gather.setupBlock (g : Gather) : Nat := g.block % 2 ^ 32

/-- The next setup block is asked for. -/
def State.readSetup (resume : Bool) (g : Gather) (s : State) : State :=
  State.ask (.setup resume) g.setupBlock none { s with run := { s.run with reading := some { resume := resume, gather := g } } }

/-- A START in STOPPED (R195). -/
def State.beginStart (s : State) : State :=
  let a := s.run.setupAddr.toNat
  if a % 64 ≠ 0 then { s with run := { s.run with refusal := 17 } }
  else State.readSetup false { addr := a, left := 128 } { s with run := { s.run with state := .starting, refusal := 0 } }

/-- A START in HALTED (R198). That Status keeps the refusal code it had until the resume is refused or accepted is the model's choice:
R194 gives Status the code of the most recent START that acted, and R198 changes it at the refusal or acceptance alone (log 35). -/
def State.beginResume (s : State) : State :=
  let a := s.run.setupAddr.toNat
  if a % 64 ≠ 0 then { s with run := { s.run with refusal := 17 } }
  else s.readSetup true { addr := a + 64, left := 64 }

/-- START alone is written (R194, R195, R198). -/
def State.startCommand (s : State) : State :=
  match s.run.state, s.run.reading with
  | .stopped, _ => s.beginStart
  | .halted, none => s.beginResume
  | .halted, some _ => s
  | .starting, _ => s
  | .running, _ => s
  | .halting, _ => s

/-- A start is refused (R195). -/
def State.refuseStart (code : Nat) (s : State) : State :=
  { s with run := { s.run with state := .stopped, refusal := code, reading := none } }

/-- A resume is refused (R198). -/
def State.refuseResume (code : Nat) (s : State) : State := { s with run := { s.run with refusal := code, reading := none } }

/-- A start succeeds (R196): every block takes its setup. -/
def State.started (f : Fixed) (t : Tunables) (s : State) : State :=
  State.toReading f.firstTask none
    { s with
      run := { s.run with state := .running, fixed := some f, tun := some t, reading := none },
      heap := { s.heap with extents := [{ start := 0, len := f.heapSize / 64 }] },
      timer := { s.timer with tick := 0, firstFrame := true, armed := true, lost := false, latch := false },
      port := { s.port with accounts := ⟨0, 0, 0, 0⟩, pointer := .lineFetch },
      notices := { s.notices with cursor := .blank f.firstBlank } }

/-- The 128 bytes of a start have come (R195, R196). -/
def State.judgeStart (b : List Byte) (s : State) : State :=
  match firstFailure (fixedChecks (b.take 64) ++ tunableChecks (b.drop 64)) with
  | some n => s.refuseStart n
  | none => s.started (fixedOf (b.take 64)) (tunablesOf (b.drop 64))

/-- The accounts after an accepted resume (R121). -/
def clipAccounts (a : Four Nat) (p : Four ArbParams) : Four Nat :=
  ⟨min a.lineFetch p.lineFetch.clip, min a.decoder p.decoder.clip, min a.walker p.walker.clip, min a.compactor p.compactor.clip⟩

/-- The key line receiver after an accepted resume (R167). -/
def KeyLine.resumed (k : KeyLine) (old new : Tunables) : KeyLine :=
  { recv := .idle, listening := k.listening && new.keyEnable && decide (new.keyAddr = old.keyAddr) }

/-- A PAUSED compactor goes back to where it paused (R39). -/
def Compactor.resumed (c : Compactor) : Compactor :=
  match c.phase with
  | .paused => { c with phase := if c.wasWaiting then .waiting else .scanning, wasWaiting := false }
  | .idle | .waiting | .scanning | .confirming | .copying | .switchPending => c

/-- A resume is accepted (R198): the blocks load their tunables and go on. -/
def State.resumed (t : Tunables) (s : State) : State :=
  State.resumeWalker
    { s with
      run := { s.run with state := .running, refusal := 0, tun := some t, reading := none },
      port := { s.port with accounts := clipAccounts s.port.accounts t.arb },
      keyline := s.keyline.resumed (s.run.tun.getD t) t,
      compactor := s.compactor.resumed }

/-- The 64 bytes of a resume have come (R198). -/
def State.judgeResume (b : List Byte) (s : State) : State :=
  match firstFailure (tunableChecks b) with
  | some n => s.refuseResume n
  | none => s.resumed (tunablesOf b)

/-- A setup block of a start has come (R195; log 8). -/
def State.startRead (err : Bool) (f : Flight) (s : State) : State :=
  match s.run.state, s.run.reading with
  | .starting, some r =>
    let g := r.gather.feed f.data
    if f.failed err then s.refuseStart 18 else if 0 < g.left then s.readSetup false g else s.judgeStart g.got
  | _, _ => s

/-- A setup block of a resume has come (R198; log 8). -/
def State.resumeRead (err : Bool) (f : Flight) (s : State) : State :=
  match s.run.state, s.run.reading with
  | .halted, some r =>
    let g := r.gather.feed f.data
    if f.failed err then s.refuseResume 18 else if 0 < g.left then s.readSetup true g else s.judgeResume g.got
  | _, _ => s

/-! ### Halt (R197) -/

/-- The compactor has reported itself stopped (R39). -/
def Compactor.isStopped (c : Compactor) : Bool := decide (c.phase = .idle) || decide (c.phase = .paused)

/-- HALT alone is written (R194, R197). -/
def State.haltCommand (s : State) : State :=
  match s.run.state with
  | .running => State.haltWalker { s with run := { s.run with state := .halting }, compactor := s.compactor.halted }
  | .stopped | .starting | .halting | .halted => s

/-- The walker, the decoder and the compactor have all reported themselves stopped (R197). -/
def State.allStopped (s : State) : Bool := s.walker.stopped && s.heap.decode.isNone && s.compactor.isStopped

/-! ### Resets (R199) -/

/-- Every block at its reset values; shared memory stands and a granted burst completes unused (R115, R125, R199). -/
def State.resetBlocks (cause : ResetCause) (pin : Bool) (s : State) : State :=
  { pending := s.pending, mem := s.mem, free := s.free,
    run := { cause := cause, pinHeld := pin },
    port := { flight := s.port.flight.map fun f => { f with dropped := true } } }

/-- A soft reset (R199). -/
def State.softReset (s : State) : State := s.resetBlocks { s.run.cause with soft := true } s.run.pinHeld

/-! ### Register writes (R194, R200) -/

/-- A Control write (R194). -/
def State.writeControl (v : Word) (s : State) : State :=
  if s.run.pinHeld then s
  else if ctlSoft v then s.softReset
  else
    let s1 := { s with run := { s.run with attnEnable := ctlEnable v } }
    if ctlStart v && !ctlHalt v then s1.startCommand
    else if ctlHalt v && !ctlStart v then s1.haltCommand
    else s1

/-- An Attention write (R193, R70). -/
def State.writeAttention (v : Word) (s : State) : State :=
  if s.run.pinHeld then s
  else
    let clears := v.getLsbD 3 && !s.timer.lost
    { s with
      attention := { s.attention.clear v with syncLost := s.attention.syncLost && !clears },
      timer := { s.timer with latch := s.timer.latch && !clears } }

/-- A Reset Cause write (R199). -/
def State.writeCause (v : Word) (s : State) : State :=
  if s.run.pinHeld then s else { s with run := { s.run with cause := s.run.cause.clear v } }

/-- A Setup Address write (R194). -/
def State.writeSetup (v : Word) (s : State) : State :=
  if s.run.pinHeld then s else { s with run := { s.run with setupAddr := v } }

/-- A whole-word write of a register (R200). -/
def State.writeRegister (r : Reg) (v : Word) (s : State) : State :=
  match r with
  | .control => s.writeControl v
  | .setupAddress => s.writeSetup v
  | .chainPoke => s.poke v
  | .attention => s.writeAttention v
  | .resetCause => s.writeCause v
  | .status | .noticeCount | .frameStamp => s

/-! ### Meanings -/

/-- POWER_ON_RESET (R199; log 22). -/
def execPowerOnReset (s : State) : Out := .next (s.resetBlocks { power := true } s.run.pinHeld)

/-- RESET_PIN (R199). -/
def execResetPin (s : State) : Out := .next (s.resetBlocks { s.run.cause with pin := true } true)

/-- RESET_PIN_RELEASE (R199). -/
def execResetPinRelease (s : State) : Out := .next { s with run := { s.run with pinHeld := false } }

/-- SOFT_RESET (R194, R199). -/
def execSoftReset (v : Word) (s : State) : Out := .next (s.writeControl v)

/-- START (R194, R195, R198). -/
def execStart (v : Word) (s : State) : Out := .next (s.writeControl v)

/-- START_READS_COMPLETE (R196). -/
def execStartReadsComplete (err : Bool) (s : State) : Out :=
  .next (s.complete (fun u => decide (u = .setup false)) err (State.startRead err))

/-- RESUME_READS_COMPLETE (R198). -/
def execResumeReadsComplete (err : Bool) (s : State) : Out :=
  .next (s.complete (fun u => decide (u = .setup true)) err (State.resumeRead err))

/-- HALT (R194, R197). -/
def execHalt (v : Word) (s : State) : Out := .next (s.writeControl v)

/-- HALT_COMPLETE (R197). -/
def execHaltComplete (s : State) : Out :=
  .next <|
    match s.run.state with
    | .halting => if s.allStopped then { s with run := { s.run with state := .halted } } else s
    | .stopped | .starting | .running | .halted => s

/-- ATTENTION_WRITE (R193). -/
def execAttentionWrite (v : Word) (s : State) : Out := .next (s.writeAttention v)

/-- RESET_CAUSE_WRITE (R199). -/
def execResetCauseWrite (v : Word) (s : State) : Out := .next (s.writeCause v)

/-- REGISTER_WRITE (R200): a write of fewer bytes than the word is ignored. -/
def execRegisterWrite (r : Reg) (bytes : Nat) (v : Word) (s : State) : Out :=
  .next (if bytes = 4 then s.writeRegister r v else s)

end Sys2Proof.Machine
end

