-- ==== Sys2Proof/Machine/Dispatch.lean ====
section
/-! DEFINITION. The dispatch: each command to its meaning. -/

namespace Sys2Proof.Machine

def exec (i : Instr) (s : State) : Host.Outcome State Fault Refusal :=
  match i with
  | .powerOnReset => Sys2Proof.Machine.execPowerOnReset s
  | .resetPin => Sys2Proof.Machine.execResetPin s
  | .softReset value => Sys2Proof.Machine.execSoftReset value s
  | .start value => Sys2Proof.Machine.execStart value s
  | .startReadsComplete err => Sys2Proof.Machine.execStartReadsComplete err s
  | .resumeReadsComplete err => Sys2Proof.Machine.execResumeReadsComplete err s
  | .halt value => Sys2Proof.Machine.execHalt value s
  | .haltComplete => Sys2Proof.Machine.execHaltComplete s
  | .attentionWrite value => Sys2Proof.Machine.execAttentionWrite value s
  | .resetCauseWrite value => Sys2Proof.Machine.execResetCauseWrite value s
  | .chainPoke value => Sys2Proof.Machine.execChainPoke value s
  | .registerWrite reg bytes value => Sys2Proof.Machine.execRegisterWrite reg bytes value s
  | .frameStart elapsed => Sys2Proof.Machine.execFrameStart elapsed s
  | .syncLoss elapsed => Sys2Proof.Machine.execSyncLoss elapsed s
  | .offsetSwitch => Sys2Proof.Machine.execOffsetSwitch s
  | .compactConfirm => Sys2Proof.Machine.execCompactConfirm s
  | .paletteApply => Sys2Proof.Machine.execPaletteApply s
  | .transitionEnd plane => Sys2Proof.Machine.execTransitionEnd plane s
  | .operationBegin plane => Sys2Proof.Machine.execOperationBegin plane s
  | .jumpApply => Sys2Proof.Machine.execJumpApply s
  | .activationEnd => Sys2Proof.Machine.execActivationEnd s
  | .digitWindowExpiry => Sys2Proof.Machine.execDigitWindowExpiry s
  | .pageTimeout => Sys2Proof.Machine.execPageTimeout s
  | .lineStart => Sys2Proof.Machine.execLineStart s
  | .burstGrant host => Sys2Proof.Machine.execBurstGrant host s
  | .lineFetchBurstComplete err => Sys2Proof.Machine.execLineFetchBurstComplete err s
  | .keyFrame elapsed byte marker stop => Sys2Proof.Machine.execKeyFrame elapsed byte marker stop s
  | .takeItem => Sys2Proof.Machine.execTakeItem s
  | .recordReadComplete err => Sys2Proof.Machine.execRecordReadComplete err s
  | .loadObject => Sys2Proof.Machine.execLoadObject s
  | .loadHeaderReadComplete err => Sys2Proof.Machine.execLoadHeaderReadComplete err s
  | .freeObject => Sys2Proof.Machine.execFreeObject s
  | .compactHeap => Sys2Proof.Machine.execCompactHeap s
  | .loadPalette => Sys2Proof.Machine.execLoadPalette s
  | .paletteReadComplete err => Sys2Proof.Machine.execPaletteReadComplete err s
  | .stagePage => Sys2Proof.Machine.execStagePage s
  | .pageReadComplete err => Sys2Proof.Machine.execPageReadComplete err s
  | .discardPage => Sys2Proof.Machine.execDiscardPage s
  | .showPage => Sys2Proof.Machine.execShowPage s
  | .hidePlane => Sys2Proof.Machine.execHidePlane s
  | .clearSchedule => Sys2Proof.Machine.execClearSchedule s
  | .setState => Sys2Proof.Machine.execSetState s
  | .selectButton => Sys2Proof.Machine.execSelectButton s
  | .injectKey => Sys2Proof.Machine.execInjectKey s
  | .wait => Sys2Proof.Machine.execWait s
  | .waitMet => Sys2Proof.Machine.execWaitMet s
  | .snapshot => Sys2Proof.Machine.execSnapshot s
  | .stallHandover => Sys2Proof.Machine.execStallHandover s
  | .linkReadComplete err => Sys2Proof.Machine.execLinkReadComplete err s
  | .resultsBurstComplete err => Sys2Proof.Machine.execResultsBurstComplete err s
  | .outcomeBurstComplete err => Sys2Proof.Machine.execOutcomeBurstComplete err s
  | .decoderTakeLoad => Sys2Proof.Machine.execDecoderTakeLoad s
  | .decoderHeaderReadComplete err => Sys2Proof.Machine.execDecoderHeaderReadComplete err s
  | .decoderReadComplete err => Sys2Proof.Machine.execDecoderReadComplete err s
  | .decoderWriteComplete err => Sys2Proof.Machine.execDecoderWriteComplete err s
  | .compactWaitEnd => Sys2Proof.Machine.execCompactWaitEnd s
  | .compactScanStep => Sys2Proof.Machine.execCompactScanStep s
  | .compactReadComplete err => Sys2Proof.Machine.execCompactReadComplete err s
  | .compactWriteComplete err => Sys2Proof.Machine.execCompactWriteComplete err s
  | .noticeTake => Sys2Proof.Machine.execNoticeTake s
  | .contentsBurstComplete err => Sys2Proof.Machine.execContentsBurstComplete err s
  | .stateBurstComplete err => Sys2Proof.Machine.execStateBurstComplete err s
  | .noticeLinkReadComplete err => Sys2Proof.Machine.execNoticeLinkReadComplete err s
  | .resetPinRelease => Sys2Proof.Machine.execResetPinRelease s
  | .startEdge => Sys2Proof.Machine.execStartEdge s
  | .falseStart elapsed => Sys2Proof.Machine.execFalseStart elapsed s
  | .pixelClock => Sys2Proof.Machine.execPixelClock s
  | .pageHeaderReadComplete err => Sys2Proof.Machine.execPageHeaderReadComplete err s

end Sys2Proof.Machine
end

