-- ==== Sys2Proof/Safety.lean ====
section
/-! DEFINITION. What counts as a sound run, in the terms the statements use: how a task leaves the walker, what a burst's
completion finds, the claims on page slots, and the invariants of the state. -/

namespace Sys2Proof.Machine

/-! ### Frames and endings -/

/-- Nothing differs but the walker and its asks at the port. -/
def State.OnlyWalker (s t : State) : Prop :=
  t = { s with walker := t.walker, port := { s.port with walkerQ := t.port.walkerQ } }

/-- The walker is done with its task: LINKING, or halted at that boundary in HALTING (R173, R186). -/
def State.Dealt (s t : State) : Prop :=
  t.walker.task = none ∧ t.walker.cur = s.walker.cur
    ∧ t.walker.st = if s.run.state = .halting then .halted .link else .linking

/-- A retirement as it is submitted in a state (R178). -/
def State.retirement (s : State) (task : TaskRef) (o : TaskOutcome) (detail : Byte) (results : List (Nat × Byte)) : Retirement :=
  { task := task, outcome := o, detail := detail, stamp := s.timer.stamp, results := results }

/-- The results burst of a retirement, as it is asked for at the WALKER requester (R179). -/
def Retirement.burst (r : Retirement) : Burst :=
  { user := .results r, block := r.task.addr.toNat, sel := some r.resultsSel }

/-- What a retirement asks for as it joins the list: its results burst when it stands first (R178, R179). -/
def State.asksAtRetire (s : State) (r : Retirement) : List Burst := if s.walker.retiring = [] then [r.burst] else []

/-- What the walker asks for as it goes on from its task: the link of the current record, nothing in HALTING (R175, R186). -/
def State.asksForLink (s : State) : List Burst :=
  if s.run.state = .halting then [] else [{ user := .link, block := (s.walker.cur.getD 0).toNat, sel := none }]

/-- The task in hand ends: one retirement joins the tail of the list and the walker goes on (R173). -/
def State.Ends (s t : State) (task : TaskRef) (o : TaskOutcome) (detail : Byte) (results : List (Nat × Byte)) : Prop :=
  t.walker.retiring = s.walker.retiring ++ [s.retirement task o detail results] ∧ s.Dealt t
    ∧ t.port.walkerQ = s.port.walkerQ ++ s.asksAtRetire (s.retirement task o detail results) ++ s.asksForLink

/-- The task in hand is refused: it ends, and nothing else changes. -/
def State.Refuses (s t : State) (task : TaskRef) (o : TaskOutcome) (detail : Byte) : Prop :=
  s.Ends t task o detail [] ∧ s.OnlyWalker t

/-- The task in hand has been handed over: no retirement, and the walker goes on (R174). -/
def State.HandsOver (s t : State) : Prop :=
  t.walker.retiring = s.walker.retiring ∧ s.Dealt t ∧ t.port.walkerQ = s.port.walkerQ ++ s.asksForLink

/-- The walker stalls: nothing else changes (R174, R186). -/
def State.Stalls (s t : State) : Prop :=
  t = { s with walker := { s.walker with st := if s.run.state = .halting then .halted .handover else .stalled } }

/-- The burst under way is `f`, and its bytes are wanted. -/
def State.Landing (s : State) (f : Flight) : Prop := s.port.flight = some f ∧ f.dropped = false

/-- A read under way whose bytes are wanted. -/
def State.LandingRead (s : State) (f : Flight) (u : User) : Prop := s.Landing f ∧ f.burst.user = u ∧ f.burst.sel = none

/-- The state once the burst under way has ended. -/
def State.landed (s : State) : State := { s with port := { s.port with flight := none } }

/-- A burst is asked for at the WALKER requester and nothing else differs but the walker. -/
def State.Asks (s t : State) (u : User) (block : Nat) : Prop :=
  t.port.walkerQ = s.port.walkerQ ++ [{ user := u, block := block, sel := none }] ∧ s.OnlyWalker t

/-! ### Loss of sync, abandoned moves and frame-start work -/

/-- Sync is lost (R66): the condition, the latch, the forced indication and the flag are set, and SYNC_CHANGE is submitted. -/
def State.LosesSync (s t : State) : Prop :=
  t = State.submit (.syncChange false s.timer.stamp)
    { s with timer := { s.timer with lost := true, latch := true, forced := true },
             attention := { s.attention with syncLost := true } }

/-- `u` is `s` after the loss that the next `n` ticks bring: they go past 3 x I with the watch armed and IN_SYNC (R66, log 1). -/
def State.Watched (s : State) (n : Nat) (u : State) : Prop :=
  let due := s.active = true ∧ s.timer.armed = true ∧ s.timer.lost = false ∧ 3 * s.interval < s.timer.tick + n
  (due → s.LosesSync u) ∧ (¬ due → u = s)

/-- Some entry holds a region at or above the low mark, so that the scan has not reached the heap end (R29). -/
def State.RegionRemains (t : State) : Prop := ∃ i, 0 < (t.entry i).count ∧ t.compactor.low ≤ (t.entry i).offset

/-- A move has ended: the compactor is SCANNING, but in HALTING with a region left (`left`) it is PAUSED (R32, R34, R35, R39).
That it stays SCANNING in HALTING at the heap end, for its next scan step to retire the compaction, is the model's reading of
R39 (log 29). -/
def State.ScansOn (s t : State) (left : Prop) : Prop :=
  (s.run.state = .halting → left → t.compactor.phase = .paused)
    ∧ (s.run.state ≠ .halting ∨ ¬ left → t.compactor.phase = .scanning) ∧ t.compactor.move = none

/-- The move in hand is abandoned (R35, R39): the compactor scans on or pauses, with its low mark, counts and task kept; it
asks for nothing more, and a burst of its own under way is not used. -/
def State.AbandonsMove (s t : State) (left : Prop) : Prop :=
  s.ScansOn t left ∧ t.compactor.low = s.compactor.low ∧ t.compactor.moved = s.compactor.moved
    ∧ t.compactor.skipped = s.compactor.skipped ∧ t.compactor.task = s.compactor.task
    ∧ t.port.compReq = none
    ∧ t.port.flight = s.port.flight.map fun f =>
        if f.burst.user = .compRead ∨ f.burst.user = .compWrite then { f with dropped := true } else f

/-- Frame-start work that waited for the switch of a move now abandoned goes on: the entry view is taken, and the planes,
the navigation unit and the composer work as far as they can. R22, R79, R93 and R138 give that work; that it goes on with the
command that abandons the move is the model's choice (log 3). In any other state nothing changes. -/
def State.GoesOn (u t : State) : Prop :=
  (u.work.heap = false ∨ u.compactor.phase = .switchPending → t = u)
    ∧ (u.work.heap = true → u.compactor.phase ≠ .switchPending →
        t.work.heap = false ∧ (∀ i, t.objView i = some (u.entry i).view) ∧ t.work.slide ≠ .begin ∧ t.work.menu ≠ .begin
          ∧ t = { u with heap := { u.heap with view := t.heap.view }, slide := t.slide, menu := t.menu,
                         drawnViews := t.drawnViews, nav := t.nav, composer := t.composer, stats := t.stats, work := t.work,
                         port := { u.port with lfReq := t.port.lfReq } })

/-- The commands that do the outstanding steps of frame-start work (log 3). -/
def workSteps : List Instr :=
  [.offsetSwitch, .paletteApply, .transitionEnd .slide, .operationBegin .slide, .jumpApply, .transitionEnd .menu,
   .operationBegin .menu, .activationEnd, .digitWindowExpiry, .pageTimeout]

/-- Commands taken one after another lead from a state to another. -/
def Runs : List Instr → State → State → Prop
  | [], s, t => t = s
  | c :: cs, s, t => ∃ u, exec c s = .next u ∧ Runs cs u t

/-- A frame start after `n` ticks is accepted, with no earlier frame-start work outstanding (R62, R63). -/
abbrev State.AcceptsFrame (s : State) (n : Nat) : Prop :=
  s.work = {} ∧ s.active = true
    ∧ (s.timer.firstFrame = true ∨ s.interval ≤ min (s.timer.tick + n) (3 * s.interval) * 2)

/-! ### Planes (05) -/

/-- A slot with its hold count replaced: its definition and named ids stand, and only a STAGED slot has a count (R46). -/
def Slot.withHolds (x : Slot) (n : Nat) : Slot :=
  match x with
  | .staged d ids _ => .staged d ids n
  | .free => .free
  | .staging => .staging

/-- One hold of each slot named is released (R57); nothing else of any slot changes. -/
def State.Releases (s t : State) (l : List (Option SlotId)) : Prop :=
  ∀ x, t.slot x = (s.slot x).withHolds ((s.slot x).holds - (l.filter fun o => decide (o = some x)).length)

/-- A plane's schedule in `t` has a head that can begin: the first entry that stood there at the frame start, its stamp reached
and, for a SHOW, its page ready in `s`, by the entry view of this frame start (R81, R82, R85). -/
def State.HeadReady (s t : State) (q : PlaneId) : Prop :=
  ∃ pre e rest, (t.plane q).schedule = pre ++ e :: rest ∧ (∀ x ∈ pre, x.later = true) ∧ e.later = false
    ∧ reached t.timer.stamp e.due = true ∧ ∀ x, e.page = some x → s.readySlot x = true

/-- A plane at step 3 of R79: a head that can begin is left for OPERATION_BEGIN; with none the plane's work is done and its
frame view published, with the frame stamp, the state, the fade value and the entry mark (R74; log 3). -/
def State.OperatesOrPublishes (s t : State) (q : PlaneId) : Prop :=
  (s.HeadReady t q → t.stage q = .ops)
    ∧ (¬ s.HeadReady t q → t.stage q = .idle ∧ (t.plane q).view = some
        { frame := t.timer.stamp, content := (t.plane q).content, fade := (t.plane q).content.fade, mark := (t.plane q).mark })

/-! ### Composition (06) -/

/-- The buffer of a line as line fetch begins it: of the spans that cover it the last 16, in span order, none of their bursts
granted yet (R99, R101, R102). -/
def lineBegun (l : List Span) (y : Nat) : LineBuf :=
  { line := y, spans := ((covering y l).drop ((covering y l).length - 16)).map (Span.fetch y), judged := false }

/-! ### Navigation (08, 09) -/

/-- What taking an item changes: the queue's head, what items, the selection and activations change, and one retirement; the
views stand until the next frame start (R138, R156). -/
def State.TakesItem (s t : State) (rest : List KeyItem) : Prop :=
  t.nav = { s.nav with queue := rest, word := t.nav.word, selected := t.nav.selected, buttons := t.nav.buttons,
                       activation := t.nav.activation, digit := t.nav.digit, timeout := t.nav.timeout }
    ∧ t = { s with nav := t.nav, attention := t.attention, notices := t.notices, stats := t.stats, slots := t.slots,
                   jump := t.jump, walker := { s.walker with retiring := t.walker.retiring },
                   port := { s.port with walkerQ := t.port.walkerQ } }

/-- A key is consumed (R157, R164, R165): the page timeout counter is set, and a task's key retires DONE with detail 1. -/
def State.Consumes (s t : State) (d : PageDef) (src : Option TaskRef) : Prop :=
  t.nav.timeout = d.timeout ∧ t.walker.retiring = s.walker.retiring ++ src.toList.map fun r => s.retirement r .done 1 []

/-- The head key is passed (R157, R164): it leaves the queue, KEY_PASSED is submitted, and a task's key retires DONE with
detail 0. -/
def State.Passes (s t : State) (code : Byte) (src : Option TaskRef) : Prop :=
  t.nav = { s.nav with queue := s.nav.queue.tail } ∧ t.jump = s.jump ∧ t.slots = s.slots
    ∧ (s.notices.queue.length < 8 → t.notices.queue = s.notices.queue
        ++ [{ body := .keyPassed code src.isSome s.navSlot, stamp := s.timer.stamp }])
    ∧ t.walker.retiring = s.walker.retiring ++ src.toList.map fun r => s.retirement r .done 0 []

/-- The records after the selection has moved to `x` (R141): a move sets the old button NORMAL and the new one SELECTED, each at
the start of its new state's cycle, no other record changes, and a move to where the selection stands changes none. -/
def State.MovesRecords (s t : State) (d : PageDef) (x : Option Nat) : Prop :=
  (s.nav.selected = x → t.nav.buttons = s.nav.buttons)
    ∧ (s.nav.selected ≠ x → ∀ k : Fin 24, t.nav.buttons.get k =
        match d.buttons[k.val]? with
        | none => s.nav.buttons.get k
        | some y =>
          if x = some k.val then y.atStart .selected
          else if s.nav.selected = some k.val then y.atStart .normal
          else s.nav.buttons.get k)

/-- The selection moves to button `x` and nothing is activated (R139, R141). -/
def State.Selects (s t : State) (d : PageDef) (x : Nat) : Prop :=
  t.nav.selected = some x ∧ t.nav.word = s.nav.word ∧ t.nav.activation = s.nav.activation ∧ t.jump = s.jump
    ∧ t.slots = s.slots ∧ t.notices = s.notices ∧ s.MovesRecords t d (some x)

/-- A record, with the published flag set when its position has been published since (R138). -/
def ButtonRec.published (r : ButtonRec) (pub : Bool) : ButtonRec := { r with pub := r.pub || pub }

/-- The word after an action (R145 to R147). -/
def Action.onWord (w : Word) : Action → Word
  | .toggle m => w ^^^ m
  | .none | .notify _ | .jump _ => w

/-- The notices of an action taken under a word: a JUMP that finds an older jump pending reports it SUPERSEDED (R90). -/
def State.actionNotices (s : State) (slot : SlotId) (b : Nat) (w : Word) : Action → List NoticeBody
  | .none => []
  | .notify c => [.buttonAction slot b c w]
  | .toggle m => [.stateChanged w (w ^^^ m) slot b]
  | .jump _ => s.jump.toList.map fun o => .pageJump (some .superseded) o.target none o.button o.slot

/-- The actions of button `b` have run in item order and its activation is over (R144 to R147). The selection stands on `b`
when it is visible under the word they leave, else on the entry choice; that button is SELECTED, `b` and the selection before
are NORMAL unless they are it, each at the start of its cycle, and no other record changes (R141, R144). `pub`: whether the
positions have been published since. -/
def State.ActionsRun (s t : State) (slot : SlotId) (d : PageDef) (b : Nat) (y : Button) (pub : Bool) : Prop :=
  t.nav.word = y.act2.onWord (y.act1.onWord s.nav.word) ∧ t.nav.activation = none
    ∧ (s.notices.queue.length + 2 ≤ 8 → t.notices.queue = s.notices.queue
        ++ (s.actionNotices slot b s.nav.word y.act1 ++ s.actionNotices slot b (y.act1.onWord s.nav.word) y.act2).map
            (fun x => { body := x, stamp := s.timer.stamp }))
    ∧ (y.visible t.nav.word = true → t.nav.selected = some b)
    ∧ (y.visible t.nav.word = false → t.nav.selected = d.entryChoice t.nav.word)
    ∧ (∀ k : Fin 24, t.nav.buttons.get k =
        match d.buttons[k.val]? with
        | none => s.nav.buttons.get k
        | some z => ButtonRec.published
            (if t.nav.selected = some k.val then z.atStart .selected
             else if k.val = b ∨ s.nav.selected = some k.val then z.atStart .normal
             else s.nav.buttons.get k) pub)
    ∧ (y.act1.isJump = false → y.act2.isJump = false → t.jump = s.jump ∧ t.slots = s.slots)
    ∧ (∀ x, y.act1 = .jump x ∨ y.act2 = .jump x →
        t.jump = some { target := x, held := s.staged x, button := b, slot := slot }
        ∧ ∀ p, t.slot p = (s.slot p).withHolds
            (((s.slot p).holds - (if s.jump.any (fun o => o.held && decide (o.target = p)) then 1 else 0))
              + (if p = x ∧ s.staged x = true then 1 else 0)))

/-- Button `b` is selected and its activation begins (R141, R143): it is in progress, `b` stands at the start of its ACTIVATED
cycle, the selection before is NORMAL at its start and no other record changes; when that cycle is empty its actions run at
once instead. At most one action is a JUMP (R52). `pub`: whether the positions have been published since. -/
def State.Activates (s t : State) (slot : SlotId) (d : PageDef) (b : Nat) (pub : Bool) : Prop :=
  ∀ y, d.buttons[b]? = some y →
    (livePairs y.activated ≠ [] →
      t.nav.selected = some b ∧ t.nav.activation = some b ∧ t.nav.word = s.nav.word ∧ t.jump = s.jump
        ∧ t.slots = s.slots ∧ t.notices = s.notices
        ∧ ∀ k : Fin 24, t.nav.buttons.get k =
            match d.buttons[k.val]? with
            | none => s.nav.buttons.get k
            | some z => ButtonRec.published
                (if k.val = b then z.atStart .activating
                 else if s.nav.selected = some k.val then z.atStart .normal
                 else s.nav.buttons.get k) pub)
    ∧ (livePairs y.activated = [] → ¬ (y.act1.isJump = true ∧ y.act2.isJump = true) → s.ActionsRun t slot d b y pub)

/-- The rest of the unit's countdown in its frame-start work, on a pending digit entry and a timeout counter (R163, R165,
R166): the window goes down, or is left for DIGIT_WINDOW_EXPIRY; the counter goes down when it counts, or is left for
PAGE_TIMEOUT. -/
def State.CountsDown (t : State) (pending : Option DigitEntry) (start : Nat) : Prop :=
  let counts := 0 < start ∧ t.nav.activation = none ∧ pending = none ∧ t.jump = none
  t.nav.digit = pending.map (fun e => { e with left := e.left - 1 })
    ∧ (t.work.nav = .expiry ↔ ∃ e, pending = some e ∧ e.left ≤ 1)
    ∧ (t.nav.timeout = if counts then start - 1 else start)
    ∧ (t.work.nav = .timeout ↔ counts ∧ start = 1)

/-- The live view of the navigation page as it stands (R138). -/
def State.ShowsLive (t : State) (slot : SlotId) (d : PageDef) : Prop :=
  d.buttons.length ≤ 24 → ∃ w, t.nav.live = some w ∧ w.slot = slot ∧ w.buttons.length = d.buttons.length
    ∧ ∀ (i : Fin 24) (y : Button), d.buttons[i.val]? = some y → w.buttons[i.val]? = some
        { visible := y.visible t.nav.word, vis := (t.nav.buttons.get i).vis, pair := (t.nav.buttons.get i).pair }

/-- The frozen copy for a menu frame view (R137): the one held stays while its slot is in a role, and a page in the outgoing
role that it does not show is drawn as it would have entered. -/
def State.ShowsFrozen (t : State) (v : FrameView) (held : Option PageView) : Prop :=
  (∀ f o, held = some f → v.content.outgoing = some o → f.slot = o → t.nav.frozen = some f)
    ∧ (∀ f, held = some f → v.content.outgoing = none → f.slot ∈ v.content.roles → t.nav.frozen = some f)
    ∧ (v.content.outgoing = none → (∀ f, held = some f → f.slot ∉ v.content.roles) → t.nav.frozen = none)
    ∧ (∀ o d, v.content.outgoing = some o → t.page o = some d → (∀ f, held = some f → f.slot ≠ o) →
        ∃ w, t.nav.frozen = some w ∧ w.slot = o ∧ w.buttons.length = d.buttons.length
          ∧ ∀ (i : Nat) (y : Button), d.buttons[i]? = some y → w.buttons[i]? = some
              { visible := y.visible t.nav.word,
                vis := if d.entryChoice t.nav.word = some i then .selected else .normal, pair := 0 })

/-- The unit's frame-start work leaves the key queue and the view last judged alone. -/
def State.KeepsKeys (s t : State) : Prop :=
  t.nav = { s.nav with word := t.nav.word, selected := t.nav.selected, buttons := t.nav.buttons,
                       activation := t.nav.activation, digit := t.nav.digit, timeout := t.nav.timeout,
                       live := t.nav.live, frozen := t.nav.frozen }

/-- No record changes, but for the published flags of the page's buttons once their positions are published (R138). -/
def State.KeepsRecords (s t : State) (d : PageDef) (pub : Bool) : Prop :=
  ∀ k : Fin 24, t.nav.buttons.get k =
    match d.buttons[k.val]? with
    | none => s.nav.buttons.get k
    | some _ => (s.nav.buttons.get k).published pub

/-- The unit's frame-start work ends by publishing both views, or waits with the views of the frame before (R138). -/
def State.PublishesOrWaits (s t : State) (slot : SlotId) (d : PageDef) : Prop :=
  (t.work.nav = .idle → t.ShowsLive slot d ∧ ∀ v, s.nav.judged = some v → t.ShowsFrozen v s.nav.frozen)
    ∧ (t.work.nav ≠ .idle → t.nav.live = s.nav.live ∧ t.nav.frozen = s.nav.frozen)

/-! ### Claims on page slots (R46) -/

/-- How many roles of a plane state name a slot. -/
def Content.claims (c : Content) (p : SlotId) : Nat := (c.roles.filter fun q => decide (q = p)).length

/-- How many entries of a schedule name a slot. -/
def scheduleClaims (l : List SchedEntry) (p : SlotId) : Nat := (l.filter fun e => decide (e.page = some p)).length

/-- A pending jump's claim: one when it is held on the slot. -/
def jumpClaims (j : Option Jump) (p : SlotId) : Nat := j.elim 0 fun x => if x.held ∧ x.target = p then 1 else 0

/-- Plane roles, schedule entries and pending jumps that name a slot (R46). -/
def State.claims (s : State) (p : SlotId) : Nat :=
  s.slide.content.claims p + s.menu.content.claims p + scheduleClaims s.slide.schedule p + scheduleClaims s.menu.schedule p
    + jumpClaims s.jump p

/-- A STAGE PAGE whose reads are under way works on a slot that is STAGING (R49). -/
def State.stagingOk (s : State) : Bool :=
  match s.walker.job, s.walker.task with
  | .pageHeader _, some t => (slotOf (t.p8 16)).any fun p => decide (s.slot p = .staging)
  | .pageRest _ _, some t => (slotOf (t.p8 16)).any fun p => decide (s.slot p = .staging)
  | .pageHeader _, none => false
  | .pageRest _ _, none => false
  | .judge, _ => true
  | .loadHeader _, _ => true
  | .palette _, _ => true

/-- The holds of every slot equal the claims on it, and staging works on a STAGING slot (R46, R49). -/
def State.holdsOk (s : State) : Prop := (∀ p, (s.slot p).holds = s.claims p) ∧ s.stagingOk = true

/-! ### Invariants -/

/-- Every queue within its depth; a load or palette task whose reads are under way has a place waiting for it. -/
def State.queuesOk (s : State) : Bool :=
  decide (s.heap.loads.length ≤ Config.maxLoads) && decide (s.palette.list.length ≤ Config.maxPaletteTasks)
    && decide (s.slide.schedule.length ≤ Config.maxSchedule) && decide (s.menu.schedule.length ≤ Config.maxSchedule)
    && decide (s.nav.queue.length ≤ Config.maxKeys) && decide (s.notices.queue.length ≤ Config.maxNotices)
    && (match s.walker.job with
        | .loadHeader _ => decide (s.heap.loads.length < Config.maxLoads)
        | .palette _ => decide (s.palette.list.length < Config.maxPaletteTasks)
        | .judge | .pageHeader _ | .pageRest _ _ => true)

/-- The part holds its setup exactly while it works, and a held reset pin keeps it STOPPED (R62, R196, R199). -/
def State.runOk (s : State) : Bool :=
  decide (s.run.fixed.isSome = s.active) && decide (s.run.tun.isSome = s.active)
    && (!s.run.pinHeld || decide (s.run.state = .stopped))

/-- Every account within its clip while the part works (R121). -/
def State.accountsOk (s : State) : Bool :=
  !s.active || ([Requester.lineFetch, .decoder, .walker, .compactor].all fun r => decide (s.port.accounts.get r ≤ (s.params r).clip))

/-- A colour within the bounds of R111. -/
def Colour.bounded (c : Colour) : Bool := decide (c.a ≤ 255 ∧ c.y ≤ c.a ∧ c.cb.natAbs ≤ c.a ∧ c.cr.natAbs ≤ c.a)

/-- The bits that an output component has room for (R110). -/
def Colour.inRange (c : Colour) : Bool := decide (-128 ≤ c.cb ∧ c.cb ≤ 127 ∧ -128 ≤ c.cr ∧ c.cr ≤ 127)

/-- Every free granule of a table, as a test on one granule (R2). -/
def freeGranule (l : List Extent) (g : Nat) : Bool := l.any fun e => decide (e.start ≤ g ∧ g < e.stop)

/-- Extents in ascending order, each of at least one granule, none touching the next, the first at or above `lo` (R2). -/
def extentsFrom : Nat → List Extent → Bool
  | _, [] => true
  | lo, e :: es => decide (lo ≤ e.start) && decide (0 < e.len) && extentsFrom (e.stop + 1) es

end Sys2Proof.Machine
end

