-- ==== Sys2Proof/Certificates/Slice0/Obligations.lean ====
section
/-! DEFINITION. The statements about the model, from the numbered rules of spec/. -/

open Sys2Proof Sys2Proof.Machine

/-! ### The step, the queue and shared memory -/

/-- A step with a command at the front of the queue is that command's effect with the queue's rest (the model's choice, log 2). -/
def Obligations.StepRunsFrontCommand : Prop :=
  ∀ (c : Instr) (q : List Instr) (s : State),
    step { s with pending := c :: q } = exec c { s with pending := q }

/-- On an empty queue one reference tick passes (the model's choice, log 1): the tick count rises by 1 up to 3 x I and stays there, the
receiver's count rises by 1 up to its stop sample, a loss of sync that still stands at 3 x I is taken by the tick that goes past it
(R66), and nothing else changes; in STOPPED and STARTING nothing changes. -/
def Obligations.IdleStepPassesOneTick : Prop :=
  ∀ s : State, s.pending = [] →
    (s.active = false → step s = .next s)
    ∧ (s.active = true → ∃ u t, s.Watched 1 u ∧ step s = .next t
        ∧ t = { u with timer := { u.timer with tick := t.timer.tick }, keyline := { u.keyline with recv := t.keyline.recv } }
        ∧ t.timer.tick = min (s.timer.tick + 1) (3 * s.interval)
        ∧ (s.keyline.recv = .idle → t.keyline.recv = .idle)
        ∧ ∀ n, s.keyline.recv = .receiving n → t.keyline.recv = .receiving (min (n + 1) (84 * s.keyDiv)))

/-- Every command answers a next state and leaves the queue behind it alone. -/
def Obligations.EveryCommandAnswersNextState : Prop :=
  ∀ (c : Instr) (s : State), ∃ t, exec c s = .next t ∧ t.pending = s.pending

/-- A task's command without that task in hand, a burst's completion without a burst under way, and a step of frame-start work when none
is outstanding change nothing (the model's choice, log 2; the other conditional commands have statements of their own); the completion
of a read that has been given up at most ends it. That this holds when the read ends in an error response too, so that the error is not
looked at, is the model's choice (log 28): R20, R35, R36 and R116 leave it open. -/
def Obligations.CommandsOutOfTurnChangeNothing : Prop :=
  ∀ (s : State) (err : Bool) (q : PlaneId) (c : Instr),
    (∀ k, (k, c) ∈ [(1, Instr.loadObject), (2, .freeObject), (3, .compactHeap), (4, .loadPalette), (5, .stagePage),
        (6, .discardPage), (7, .showPage), (8, .hidePlane), (9, .clearSchedule), (10, .setState), (11, .selectButton),
        (12, .injectKey), (13, .wait), (14, .snapshot)] → s.inHand k = none → exec c s = .next s)
    ∧ (c ∈ [Instr.startReadsComplete err, .resumeReadsComplete err, .lineFetchBurstComplete err, .recordReadComplete err,
        .loadHeaderReadComplete err, .paletteReadComplete err, .pageHeaderReadComplete err, .pageReadComplete err,
        .linkReadComplete err, .resultsBurstComplete err, .outcomeBurstComplete err, .decoderHeaderReadComplete err,
        .decoderReadComplete err, .decoderWriteComplete err, .compactReadComplete err, .compactWriteComplete err,
        .contentsBurstComplete err, .stateBurstComplete err, .noticeLinkReadComplete err] →
        (s.port.flight = none → exec c s = .next s)
        ∧ ∀ f, s.port.flight = some f → f.dropped = true → f.burst.sel = none →
            exec c s = .next s ∨ exec c s = .next s.landed)
    ∧ (c ∈ [Instr.offsetSwitch, .paletteApply, .transitionEnd q, .operationBegin q, .jumpApply, .activationEnd,
        .digitWindowExpiry, .pageTimeout] → s.work = {} → exec c s = .next s)

/-- A byte of shared memory changes only by a host write or the granted write of a waiting request, both at BURST_GRANT (log 4), or by
the completion of the write under way with an error response, which leaves its selected bytes unknown (R115, R120, log 7). -/
def Obligations.MemoryChangesOnlyAtGrantsAndErrors : Prop :=
  ∀ (c : Instr) (s t : State) (a : Nat), exec c s = .next t → memRead t.mem a ≠ memRead s.mem a →
    (∃ host, c = .burstGrant host
        ∧ ((a < 2 ^ 32 ∧ ∃ x ∈ host, x.1 = a)
          ∨ ∃ r b sel, s.waitingReq r = some b ∧ b.sel = some sel ∧ ∃ x ∈ sel, a = b.block + x.1))
    ∨ ∃ f sel, s.port.flight = some f ∧ f.burst.sel = some sel ∧ f.refused = false ∧ (∃ x ∈ sel, a = f.burst.block + x.1)
        ∧ ((c = .decoderWriteComplete true ∧ f.burst.user = .decPixels)
          ∨ (c = .compactWriteComplete true ∧ f.burst.user = .compWrite)
          ∨ (c = .resultsBurstComplete true ∧ ∃ r, f.burst.user = .results r)
          ∨ (c = .outcomeBurstComplete true ∧ ∃ r o k, f.burst.user = .outcome r o k)
          ∨ (c = .contentsBurstComplete true ∧ f.burst.user = .contents)
          ∨ (c = .stateBurstComplete true ∧ f.burst.user = .noticeState))

/-- Every step keeps shared memory's canonical form, the model's own: addresses rise and no byte listed is the unlisted one (log 5). -/
def Obligations.MemoryStaysCanonical : Prop :=
  ∀ s t : State, s.mem.wf = true → step s = .next t → t.mem.wf = true

/-- Every step keeps every queue within its depth: 4 loads, 16 palette tasks, 8 entries of each schedule, 8 key items and 8 notices
(R8, R42, R75, R154, R188), a load or palette task whose reads are under way having a place left for it. -/
def Obligations.QueuesStayWithinTheirDepths : Prop :=
  ∀ s t : State, s.queuesOk = true → step s = .next t → t.queuesOk = true

/-- Every step keeps: the fixed and the tunable section are held exactly in RUNNING, HALTING and HALTED, and a held reset pin keeps the
part STOPPED. -/
def Obligations.SetupIsHeldExactlyWhileActive : Prop :=
  ∀ s t : State, s.runOk = true → step s = .next t → t.runOk = true

/-- Every step keeps every account at most its requester's clip while the part is active (R121, R123). -/
def Obligations.AccountsStayWithinTheirClips : Prop :=
  ∀ s t : State, s.accountsOk = true → step s = .next t → t.accountsOk = true

/-- Every step keeps: the hold count of every page slot equals the plane roles, schedule entries and held pending jumps that name it
(R46), and a page being staged stands in a STAGING slot. -/
def Obligations.HoldsEqualClaims : Prop :=
  ∀ s t : State, s.holdsOk → step s = .next t → t.holdsOk

/-! ### Resets and registers (11, 12) -/

/-- The values that the reset tables of chapters 1 to 11 give (R26, R40, R45, R61, R72, R92, R114, R125, R127, R150, R168, R187, R199);
the five invariants hold in the reset state. That shared memory then lists nothing, every byte of it reading 0, is no rule of the spec
but the model's choice (logs 4 and 5). -/
def Obligations.ResetStateHoldsTheTablesValues : Prop :=
  let s := State.reset
  s.run.state = .stopped ∧ s.run.refusal = 0 ∧ s.run.attnEnable = false ∧ s.run.setupAddr = 0
    ∧ s.run.cause = { power := true, pin := false, soft := false } ∧ s.run.fixed = none ∧ s.run.tun = none
    ∧ s.attention = { notice := false, noBlanks := false, walkerFault := false, syncLost := false, blankFault := false }
    ∧ s.timer.stamp = 0 ∧ s.timer.tick = 0 ∧ s.timer.firstFrame = false ∧ s.timer.armed = false ∧ s.timer.lost = false
    ∧ s.timer.latch = false ∧ s.timer.forced = false
    ∧ (∀ i, s.entry i = {}) ∧ s.heap.extents = [] ∧ s.heap.loads = [] ∧ s.heap.decode = none ∧ s.heap.view = none
    ∧ s.compactor.phase = .idle ∧ s.compactor.task = none ∧ s.compactor.low = 0 ∧ s.compactor.move = none
    ∧ s.compactor.moved = 0 ∧ s.compactor.skipped = 0
    ∧ (∀ k i, k < 8 → i < 256 → s.colour k i = { y := 16, cb := 128, cr := 128, a := 0 }) ∧ s.palette.list = []
    ∧ (∀ (k : Fin 8) (i : Fin 256), (s.palette.pend.get k).get i = none)
    ∧ (∀ p, s.slot p = .free) ∧ s.slide.content = .empty ∧ s.menu.content = .empty ∧ s.slide.schedule = []
    ∧ s.menu.schedule = [] ∧ s.slide.view = none ∧ s.menu.view = none ∧ s.jump = none
    ∧ s.composer.marker = none ∧ s.composer.lastPlane = .menu ∧ s.composer.line = 0 ∧ s.composer.pixel = 0
    ∧ s.composer.underruns = 0 ∧ s.composer.drops = 0 ∧ s.forced = true
    ∧ s.port.accounts = ⟨0, 0, 0, 0⟩ ∧ s.port.pointer = .lineFetch ∧ s.choice = none ∧ s.stats = {}
    ∧ s.nav.word = 0 ∧ s.navSlot = none ∧ s.nav.selected = none ∧ s.nav.activation = none ∧ s.nav.frozen = none
    ∧ s.nav.live = none ∧ (∀ i, s.nav.buttons.get i = { vis := .normal, pair := 0, left := 0, pub := false }) ∧ s.nav.queue = [] ∧ s.nav.digit = none ∧ s.nav.timeout = 0
    ∧ s.keyline.recv = .idle ∧ s.keyline.listening = false
    ∧ s.walker.st = .idle ∧ s.walker.cur = none ∧ s.walker.task = none ∧ s.walker.capture = none ∧ s.walker.retiring = []
    ∧ s.notices.cursor = .none ∧ s.notices.queue = [] ∧ s.notices.seq = 0 ∧ s.notices.lost = 0 ∧ s.mem = []
    ∧ s.mem.wf = true ∧ s.queuesOk = true ∧ s.runOk = true ∧ s.accountsOk = true ∧ s.holdsOk

/-- Power-on, reset pin and soft reset return every block to its reset values; Reset Cause records which came; shared memory stands; a
burst under way goes on with its bytes to be discarded (R199, R115, R125). That the pin's level outlives a power-on reset is the
model's choice (log 22). -/
def Obligations.ResetsReturnEveryBlock : Prop :=
  ∀ (c : Instr) (s : State),
    c = .powerOnReset ∨ c = .resetPin ∨ (∃ v : Word, c = .softReset v ∧ v.getLsbD 2 = true ∧ s.run.pinHeld = false) →
    ∃ t, exec c s = .next t
      ∧ t = { State.reset with
          pending := s.pending, mem := s.mem, free := s.free,
          run := { State.reset.run with cause := t.run.cause, pinHeld := t.run.pinHeld },
          port := { State.reset.port with flight := t.port.flight } }
      ∧ t.port.flight = s.port.flight.map (fun f => { f with dropped := true })
      ∧ (c = .powerOnReset → t.run.cause = { power := true, pin := false, soft := false } ∧ t.run.pinHeld = s.run.pinHeld)
      ∧ (c = .resetPin → t.run.cause = { s.run.cause with pin := true } ∧ t.run.pinHeld = true)
      ∧ (∀ v, c = .softReset v → t.run.cause = { s.run.cause with soft := true } ∧ t.run.pinHeld = false)

/-- While the reset pin is asserted register writes are ignored, and its release changes nothing else (R199, R200). REGISTER_WRITE: a
write of fewer bytes than the word and a write of Status, Notice Count or Frame Stamp is ignored; Setup Address stores all 32 bits;
Control without a command position stores the attention enable, and with one it acts as START, HALT or SOFT RESET with that value; the
others act as their own commands (R194, R200). Attention and Reset Cause clear a flag for each 1 written and leave it for each 0;
SYNC_LOST clears, with the latch, only in IN_SYNC (R193, R199, R70). Registers, Reset Cause among them, read by the bit places of 12.1, a
read of one byte gives that byte of the word (R200), and the attention line is low when it is enabled and a flag is set (R193). A read
is a function of the state (log 24). -/
def Obligations.RegistersReadAndWriteByTheWindow : Prop :=
  (∀ (s : State) (v : Word),
     (s.run.pinHeld = true → ∀ c : Instr,
       c = .softReset v ∨ c = .start v ∨ c = .halt v ∨ c = .attentionWrite v ∨ c = .resetCauseWrite v ∨ c = .chainPoke v
         ∨ (∃ r n, c = .registerWrite r n v) →
       exec c s = .next s)
     ∧ exec .resetPinRelease s = .next { s with run := { s.run with pinHeld := false } })
  ∧ (∀ (s : State) (n : Nat) (v : Word), s.run.pinHeld = false →
       (∀ r, n ≠ 4 → exec (.registerWrite r n v) s = .next s)
       ∧ (∀ r, r = .status ∨ r = .noticeCount ∨ r = .frameStamp → exec (.registerWrite r 4 v) s = .next s)
       ∧ exec (.registerWrite .setupAddress 4 v) s = .next { s with run := { s.run with setupAddr := v } }
       ∧ (v.getLsbD 2 = false → v.getLsbD 0 = v.getLsbD 1 →
           exec (.registerWrite .control 4 v) s = .next { s with run := { s.run with attnEnable := v.getLsbD 8 } })
       ∧ exec (.registerWrite .control 4 v) s = exec (.start v) s
       ∧ exec (.registerWrite .control 4 v) s = exec (.halt v) s
       ∧ exec (.registerWrite .control 4 v) s = exec (.softReset v) s
       ∧ exec (.registerWrite .chainPoke 4 v) s = exec (.chainPoke v) s
       ∧ exec (.registerWrite .attention 4 v) s = exec (.attentionWrite v) s
       ∧ exec (.registerWrite .resetCause 4 v) s = exec (.resetCauseWrite v) s)
  ∧ (∀ (s : State) (v : Word), s.run.pinHeld = false →
       exec (.attentionWrite v) s = .next
         { s with
           attention :=
             { notice := s.attention.notice && !v.getLsbD 0, noBlanks := s.attention.noBlanks && !v.getLsbD 1,
               walkerFault := s.attention.walkerFault && !v.getLsbD 2,
               syncLost := s.attention.syncLost && !(v.getLsbD 3 && !s.timer.lost),
               blankFault := s.attention.blankFault && !v.getLsbD 4 },
           timer := { s.timer with latch := s.timer.latch && !(v.getLsbD 3 && !s.timer.lost) } }
       ∧ exec (.resetCauseWrite v) s = .next
         { s with run := { s.run with cause :=
             { power := s.run.cause.power && !v.getLsbD 0, pin := s.run.cause.pin && !v.getLsbD 1,
               soft := s.run.cause.soft && !v.getLsbD 2 } } })
  ∧ (∀ s : State, s.run.refusal ≤ 18 → s.notices.queue.length ≤ 8 →
       (s.readRegister .status).toNat =
           s.run.state.code + 256 * s.run.refusal + (if s.walker.st = .faulted then 65536 else 0)
             + (if ∃ a, s.notices.cursor = .anchor a then 131072 else 0) + 1048576 * s.notices.queue.length
       ∧ (s.readRegister .control).toNat = (if s.run.attnEnable then 256 else 0)
       ∧ s.readRegister .setupAddress = s.run.setupAddr
       ∧ s.readRegister .chainPoke = s.walker.cur.getD 0
       ∧ s.readRegister .noticeCount = s.notices.seq
       ∧ s.readRegister .frameStamp = s.timer.stamp
       ∧ (∀ i, (s.readRegister .attention).getLsbD i =
           ((s.attention.notice && decide (i = 0)) || (s.attention.noBlanks && decide (i = 1))
             || (s.attention.walkerFault && decide (i = 2)) || (s.attention.syncLost && decide (i = 3))
             || (s.attention.blankFault && decide (i = 4))))
       ∧ (∀ i, (s.readRegister .resetCause).getLsbD i =
           ((s.run.cause.power && decide (i = 0)) || (s.run.cause.pin && decide (i = 1)) || (s.run.cause.soft && decide (i = 2))))
       ∧ (∀ r i, i < 4 → (s.readRegisterByte r i).toNat = (s.readRegister r).toNat / 256 ^ i % 256)
       ∧ (s.attentionLow = true ↔ s.run.attnEnable = true ∧ s.readRegister .attention ≠ 0))

/-! ### Starting, halting and resuming (11.5, 11.6) -/

/-- START alone: from STOPPED it makes the part STARTING and asks for the setup block, from HALTED it asks for the tunable section, a
Setup Address that is no multiple of 64 is refused with code 17, and in any other run state only the attention enable is stored (R194,
R195, R198). The address of the tunable section wraps at 2^32 (log 9). That Status keeps the refusal code it had while the reads of a
resume are under way is the model's choice (log 35). -/
def Obligations.StartBeginsTheSetupReads : Prop :=
  ∀ (s : State) (v : Word),
    s.run.pinHeld = false → v.getLsbD 0 = true → v.getLsbD 1 = false → v.getLsbD 2 = false →
    ∃ t, exec (.start v) s = .next t
      ∧ (s.run.state = .stopped → s.run.setupAddr.toNat % 64 ≠ 0 →
          t = { s with run := { s.run with attnEnable := v.getLsbD 8, refusal := 17 } })
      ∧ (s.run.state = .stopped → s.run.setupAddr.toNat % 64 = 0 →
          let r : SetupRead := { resume := false, gather := { addr := s.run.setupAddr.toNat, left := 128, got := [] } }
          let b : Burst := { user := .setup false, block := s.run.setupAddr.toNat, sel := none }
          t = { s with
            run := { s.run with attnEnable := v.getLsbD 8, state := .starting, refusal := 0, reading := some r },
            port := { s.port with walkerQ := s.port.walkerQ ++ [b] } })
      ∧ (s.run.state = .halted → s.run.reading = none → s.run.setupAddr.toNat % 64 ≠ 0 →
          t = { s with run := { s.run with attnEnable := v.getLsbD 8, refusal := 17 } })
      ∧ (s.run.state = .halted → s.run.reading = none → s.run.setupAddr.toNat % 64 = 0 →
          let r : SetupRead := { resume := true, gather := { addr := s.run.setupAddr.toNat + 64, left := 64, got := [] } }
          let b : Burst := { user := .setup true, block := (s.run.setupAddr.toNat + 64) % 2 ^ 32, sel := none }
          t = { s with
            run := { s.run with attnEnable := v.getLsbD 8, reading := some r },
            port := { s.port with walkerQ := s.port.walkerQ ++ [b] } })
      ∧ (s.run.state = .starting ∨ s.run.state = .running ∨ s.run.state = .halting
          ∨ (s.run.state = .halted ∧ s.run.reading ≠ none) →
          t = { s with run := { s.run with attnEnable := v.getLsbD 8 } })

/-- A setup block of a start has come: an error response refuses the start with code 18, the first block is followed by the second (one
burst a command, log 8), the first field that fails gives the refusal code, and otherwise the part becomes RUNNING and every block
takes its setup (R195, R196, R1, R62, R121, R171). The second block's address wraps at 2^32 (log 9). A setup block is accepted exactly when
its sixteen fields obey the table of 11.5, the refusal code is the number of the first field that does not, and what the blocks take are
the fields' values, each from its own bytes of 12.4: the apertures, both first records, format and interval of the fixed section, and
the four requesters' r, d, L and C, the threshold, the attention mask, the key line's enable, address and divider, and the digit window
of the tunable one. -/
def Obligations.StartReadsDecideTheStart : Prop :=
  (∀ (s : State) (err : Bool) (f : Flight) (r : SetupRead),
     s.LandingRead f (.setup false) → s.run.state = .starting → s.run.reading = some r →
     ∃ t, exec (.startReadsComplete err) s = .next t
       ∧ let g := r.gather.feed f.data
         let ok := f.refused = false ∧ err = false
         (¬ ok → t = { s.landed with run := { s.run with state := .stopped, refusal := 18, reading := none } })
         ∧ (ok → 0 < g.left →
             let b : Burst := { user := .setup false, block := g.addr / 64 * 64 % 2 ^ 32, sel := none }
             t = { s.landed with
               run := { s.run with reading := some { resume := false, gather := g } },
               port := { s.landed.port with walkerQ := s.port.walkerQ ++ [b] } })
         ∧ (ok → g.left = 0 → ∀ n, firstFailure (fixedChecks (g.got.take 64) ++ tunableChecks (g.got.drop 64)) = some n →
             t = { s.landed with run := { s.run with state := .stopped, refusal := n, reading := none } })
         ∧ (ok → g.left = 0 → firstFailure (fixedChecks (g.got.take 64) ++ tunableChecks (g.got.drop 64)) = none →
             t = { s.landed with
                 run := { s.run with
                   state := .running, reading := none, fixed := some (fixedOf (g.got.take 64)),
                   tun := some (tunablesOf (g.got.drop 64)) },
                 heap := { s.heap with extents := [{ start := 0, len := (fixedOf (g.got.take 64)).heapSize / 64 }] },
                 timer := { s.timer with tick := 0, firstFrame := true, armed := true, lost := false, latch := false },
                 port := { s.landed.port with accounts := ⟨0, 0, 0, 0⟩, pointer := .lineFetch, walkerQ := t.port.walkerQ },
                 notices := { s.notices with cursor := .blank (fixedOf (g.got.take 64)).firstBlank },
                 walker := t.walker }
             ∧ t.walker.st = .reading ∧ t.walker.cur = some (fixedOf (g.got.take 64)).firstTask
             ∧ t.walker.holder = none ∧ t.walker.task = none
             ∧ (s.walker.retiring = [] → t.port.walkerQ =
                 s.port.walkerQ ++ [{ user := .record, block := (fixedOf (g.got.take 64)).firstTask.toNat, sel := none }])))
  ∧ (∀ b c : List Byte,
       let f := fixedOf b
       let t := tunablesOf c
       let takes (p : ArbParams) (o : Nat) : Prop :=
         p.r = nat8 c o ∧ p.d = nat8 c (o + 1) ∧ p.limit = nat16 c (o + 2) ∧ p.clip = nat16 c (o + 4)
       f.chainBase = nat32 b 0 ∧ f.chainSize = nat32 b 4 ∧ f.heapBase = nat32 b 8 ∧ f.heapSize = nat32 b 12
         ∧ f.firstTask = word32 b 16 ∧ f.firstBlank = word32 b 20 ∧ f.interval = nat32 b 28
         ∧ (nat8 b 24 = 0 → f.format = .f1920x1080) ∧ (nat8 b 24 = 1 → f.format = .f1280x720)
         ∧ (nat8 b 24 = 2 → f.format = .f720x576) ∧ (nat8 b 24 = 3 → f.format = .f720x480)
         ∧ takes (t.arb.get .lineFetch) 0 ∧ takes (t.arb.get .decoder) 8
         ∧ takes (t.arb.get .walker) 16 ∧ takes (t.arb.get .compactor) 24
         ∧ t.threshold = nat8 c 32 ∧ t.attnMask = word32 c 36 ∧ (t.keyEnable = true ↔ nat8 c 40 % 2 = 1)
         ∧ t.keyAddr = nat8 c 41 ∧ t.keyDiv = nat16 c 42 ∧ t.digitWindow = nat8 c 44)
  ∧ (∀ b c : List Byte, firstFailure (fixedChecks b ++ tunableChecks c) = none →
       let f := fixedOf b
       let t := tunablesOf c
       f.chainBase = nat32 b 0 ∧ f.chainBase % 4096 = 0
         ∧ f.chainSize = nat32 b 4 ∧ f.chainSize ≠ 0 ∧ f.chainSize % 4096 = 0 ∧ f.chainBase + f.chainSize ≤ 2 ^ 32
         ∧ f.heapBase = nat32 b 8 ∧ f.heapBase % 4096 = 0
         ∧ (f.heapBase + f.heapSize ≤ f.chainBase ∨ f.chainBase + f.chainSize ≤ f.heapBase)
         ∧ f.heapSize = nat32 b 12 ∧ f.heapSize % 65536 = 0 ∧ 2 ^ 20 ≤ f.heapSize ∧ f.heapSize ≤ 2 ^ 26
         ∧ f.heapBase + f.heapSize ≤ 2 ^ 32
         ∧ f.firstTask.toNat % 64 = 0 ∧ f.inChain f.firstTask.toNat 64 = true
         ∧ f.firstBlank.toNat % 64 = 0 ∧ f.inChain f.firstBlank.toNat 64 = true
         ∧ planeFormatOf (nat8 b 24) = some f.format ∧ f.interval = nat32 b 28 ∧ 400000 ≤ f.interval ∧ f.interval ≤ 1200000
         ∧ (∀ r, (t.arb.get r).limit ≤ (t.arb.get r).clip) ∧ t.threshold = 2
         ∧ (t.keyEnable = true → 1 ≤ t.keyAddr ∧ t.keyAddr ≤ 127 ∧ 8 ≤ t.keyDiv ∧ t.keyDiv ≤ 4095) ∧ 1 ≤ t.digitWindow)
  ∧ (∀ b c : List Byte,
       let cb := nat32 b 0
       let cs := nat32 b 4
       let hb := nat32 b 8
       let hs := nat32 b 12
       let record (a : Nat) : Prop := a % 64 = 0 ∧ cb ≤ a ∧ a + 64 ≤ cb + cs
       let arb (o : Nat) : Prop := nat16 c (o + 2) ≤ nat16 c (o + 4)
       let obeys : Nat → Prop
         | 1 => cb % 4096 = 0
         | 2 => cs ≠ 0 ∧ cs % 4096 = 0 ∧ cb + cs ≤ 2 ^ 32
         | 3 => hb % 4096 = 0 ∧ ¬ ∃ a, (cb ≤ a ∧ a < cb + cs) ∧ hb ≤ a ∧ a < hb + hs
         | 4 => hs % 65536 = 0 ∧ 2 ^ 20 ≤ hs ∧ hs ≤ 2 ^ 26 ∧ hb + hs ≤ 2 ^ 32
         | 5 => record (nat32 b 16)
         | 6 => record (nat32 b 20)
         | 7 => nat8 b 24 ≤ 3
         | 8 => 400000 ≤ nat32 b 28 ∧ nat32 b 28 ≤ 1200000
         | 9 => arb 0
         | 10 => arb 8
         | 11 => arb 16
         | 12 => arb 24
         | 13 => nat8 c 32 = 2
         | 15 => nat8 c 40 % 2 = 1 → 1 ≤ nat8 c 41 ∧ nat8 c 41 ≤ 127 ∧ 8 ≤ nat16 c 42 ∧ nat16 c 42 ≤ 4095
         | 16 => 1 ≤ nat8 c 44
         | _ => True
       (firstFailure (fixedChecks b ++ tunableChecks c) = none ↔ ∀ k, 1 ≤ k → k ≤ 16 → obeys k)
         ∧ ∀ n, firstFailure (fixedChecks b ++ tunableChecks c) = some n ↔
             1 ≤ n ∧ n ≤ 16 ∧ ¬ obeys n ∧ ∀ k, 1 ≤ k → k < n → obeys k)

/-- A setup block of a resume has come: refused with code 18 or the failing field's number, the part staying HALTED with its old
tunables; accepted, the part is RUNNING with the new ones, each account at most its new clip, a frame in reception abandoned, a PAUSED
compactor going on, and the walker going on from its resume point with its record, holder, task and retirements kept: LINK reads the
current record's link, RECORD reads the record once no retirement is outstanding, HANDOVER stalls again, WAIT waits on, and PARKED is
prompted for a re-read (R198, R121, R167, R39, R175, R176, R178, R186; log 15 for a re-read outstanding since the halt). Should bytes of
the read still be wanted, its next block is asked for, one burst a command (log 8), at an address modulo 2^32 (log 9), and until the
resume is decided Status keeps the refusal code it had (the model's choice, log 35). -/
def Obligations.ResumeReadsDecideTheResume : Prop :=
  ∀ (s : State) (err : Bool) (f : Flight) (r : SetupRead),
    s.LandingRead f (.setup true) → s.run.state = .halted → s.run.reading = some r →
    ∃ t, exec (.resumeReadsComplete err) s = .next t
      ∧ let g := r.gather.feed f.data
        let b := g.got
        let ok := f.refused = false ∧ err = false
        (¬ ok → t = { s.landed with run := { s.run with refusal := 18, reading := none } })
        ∧ (ok → 0 < g.left →
            let x : Burst := { user := .setup true, block := g.addr / 64 * 64 % 2 ^ 32, sel := none }
            t = { s.landed with
              run := { s.run with reading := some { resume := true, gather := g } },
              port := { s.landed.port with walkerQ := s.port.walkerQ ++ [x] } })
        ∧ (ok → g.left = 0 → ∀ n, firstFailure (tunableChecks b) = some n →
            t = { s.landed with run := { s.run with refusal := n, reading := none } })
        ∧ (ok → g.left = 0 → firstFailure (tunableChecks b) = none →
            t = { s.landed with
                run := { s.run with state := .running, refusal := 0, tun := some (tunablesOf b), reading := none },
                port := { s.landed.port with accounts := t.port.accounts, walkerQ := t.port.walkerQ },
                keyline := t.keyline, compactor := t.compactor, walker := t.walker }
            ∧ (∀ q, t.port.accounts.get q = min (s.port.accounts.get q) ((tunablesOf b).arb.get q).clip)
            ∧ t.keyline.recv = .idle
            ∧ (∀ o, s.run.tun = some o → (t.keyline.listening = true ↔
                s.keyline.listening = true ∧ (tunablesOf b).keyEnable = true ∧ (tunablesOf b).keyAddr = o.keyAddr))
            ∧ (s.compactor.phase = .paused →
                t.compactor = { s.compactor with
                  phase := if s.compactor.wasWaiting then .waiting else .scanning, wasWaiting := false })
            ∧ (s.compactor.phase ≠ .paused → t.compactor = s.compactor)
            ∧ (let link : Burst := { user := .link, block := (s.walker.cur.getD 0).toNat, sel := none }
               let asks (l : List Burst) : Prop := t.port.walkerQ = s.port.walkerQ ++ l
               (s.walker.st = .halted .link → t.walker = { s.walker with st := .linking } ∧ asks [link])
               ∧ (∀ a, s.walker.st = .halted .record → s.walker.cur = some a →
                   (s.walker.retiring = [] →
                     t.walker = { s.walker with st := .reading, asked := true, task := none, job := .judge }
                     ∧ asks [{ user := .record, block := a.toNat, sel := none }])
                   ∧ (s.walker.retiring ≠ [] →
                     t.walker = { s.walker with st := .reading, asked := false, task := none, job := .judge } ∧ asks []))
               ∧ (s.walker.st = .halted .handover → t.walker = { s.walker with st := .stalled } ∧ asks [])
               ∧ (s.walker.st = .halted .wait → t.walker = { s.walker with st := .waiting } ∧ asks [])
               ∧ (s.walker.st = .halted .parked →
                   (s.walker.reread = .none → t.walker = { s.walker with st := .parked, reread := .asked } ∧ asks [link])
                   ∧ (s.walker.reread = .asked → t.walker = { s.walker with st := .parked } ∧ asks [])
                   ∧ (∀ x, s.walker.reread = .granted x →
                     t.walker = { s.walker with st := .parked, reread := .granted true } ∧ asks []))
               ∧ ((∀ x, s.walker.st ≠ .halted x) → t.walker = s.walker ∧ asks [])))

/-- HALT alone in RUNNING makes the part HALTING: a WAITING or SCANNING compactor pauses, the walker stops at once when it stands
STALLED, WAITING or PARKED, and nothing else changes; in any other run state, and with START beside it, only the attention enable is
stored (R194, R197, R186, R39). A re-read that a parked walker has asked for stays asked for (log 15). HALT_COMPLETE: HALTING becomes HALTED once
the walker, the decoder and the compactor have stopped, and not before (R197). -/
def Obligations.HaltStopsTheBlocksAndCompletes : Prop :=
  (∀ (s : State) (v : Word),
     s.run.pinHeld = false → v.getLsbD 1 = true → v.getLsbD 2 = false →
     ∃ t, exec (.halt v) s = .next t
       ∧ (v.getLsbD 0 = true ∨ s.run.state ≠ .running → t = { s with run := { s.run with attnEnable := v.getLsbD 8 } })
       ∧ (v.getLsbD 0 = false → s.run.state = .running →
           t = { s with run := { s.run with attnEnable := v.getLsbD 8, state := .halting },
                        compactor := t.compactor, walker := { s.walker with st := t.walker.st } }
           ∧ t.compactor = (if s.compactor.phase = .waiting then { s.compactor with phase := .paused, wasWaiting := true }
               else if s.compactor.phase = .scanning then { s.compactor with phase := .paused, wasWaiting := false }
               else s.compactor)
           ∧ t.walker.st = (if s.walker.st = .stalled then .halted .handover
               else if s.walker.st = .waiting then .halted .wait
               else if s.walker.st = .parked then .halted .parked else s.walker.st)))
  ∧ (∀ s : State, s.run.state = .halting →
       let stopped := ((∃ rp, s.walker.st = .halted rp) ∨ s.walker.st = .faulted) ∧ s.heap.decode = none
         ∧ (s.compactor.phase = .idle ∨ s.compactor.phase = .paused)
       (stopped → exec .haltComplete s = .next { s with run := { s.run with state := .halted } })
       ∧ (¬ stopped → exec .haltComplete s = .next s))

/-! ### Frame timer and sync watch (04) -/

/-- With no frame-start work outstanding, FRAME_START in STOPPED and STARTING is ignored, and fewer than half an interval of ticks since
the last accepted one makes it a glitch, which is counted and changes nothing else (R62, R63). SYNC_LOSS at 3 x I with the watch
armed and IN_SYNC sets LOST, the latch, the SYNC_LOST flag and the forced indication and submits SYNC_CHANGE (lost); otherwise only
time passes (R66). Time comes as the commands' operand (log 1). -/
def Obligations.GlitchesAndLossesFollowTheTickCount : Prop :=
  (∀ (s : State) (n : Nat), s.work = {} →
     (s.active = false → exec (.frameStart n) s = .next s)
     ∧ (s.active = true → s.timer.firstFrame = false → min (s.timer.tick + n) (3 * s.interval) * 2 < s.interval →
         ∃ t, exec (.frameStart n) s = .next t
           ∧ t = { s with timer := { s.timer with tick := min (s.timer.tick + n) (3 * s.interval) },
                          keyline := { s.keyline with recv := t.keyline.recv },
                          stats := { s.stats with glitches := s.stats.glitches + 1 } }))
  ∧ (∀ (s : State) (n : Nat), s.active = true →
       let tick := min (s.timer.tick + n) (3 * s.interval)
       ∃ t, exec (.syncLoss n) s = .next t
         ∧ (s.timer.armed = true → s.timer.lost = false → tick = 3 * s.interval →
             t.timer = { s.timer with tick := tick, lost := true, latch := true, forced := true }
             ∧ t.attention.syncLost = true
             ∧ (s.notices.queue.length < 8 →
                 t.notices.queue = s.notices.queue ++ [{ body := .syncChange false s.timer.stamp, stamp := s.timer.stamp }])
             ∧ t = { s with timer := t.timer, attention := t.attention, notices := t.notices, stats := t.stats,
                            keyline := { s.keyline with recv := t.keyline.recv } })
         ∧ (s.timer.armed = false ∨ s.timer.lost = true ∨ tick < 3 * s.interval →
             t = { s with timer := { s.timer with tick := tick }, keyline := { s.keyline with recv := t.keyline.recv } }))

/-- With no frame-start work outstanding, an accepted frame start raises the frame stamp by 1 with the tick count 0, clears the
first-frame flag, regains sync, lowers the forced indication when the latch is clear, and counts no glitch; a loss of sync that its
ticks go past is taken before it (R63, R64, R66, R67, R69; time comes as its operand, log 1). It closes the old frame, setting the line
and pixel counters to 0, and submits SYNC_CHANGE (regained) and, for a frame with underruns or dropped spans, FRAME_FAULTS with that
frame's stamp and counts, in this order (R93, R100, R113; log 3). It prompts a parked walker and the notice writer at its anchor (R176,
R190). Where both prompts ask for a read at once, the walker's link read is asked for before the notice writer's: R182 lets either be
first, and this order is the model's choice (log 21). A COMPACT_CONFIRM still to be made after the frame start before has its effect
first, on the views that R32 names; that this FRAME_START makes it is the model's choice (log 3). What the work of the blocks changes
comes in the commands after it (log 3). Both lookaheads are dropped: every line buffer is freed, the line-fetch request that waits is
withdrawn, the bytes of a line-fetch burst under way will not be used, and the record of the plane last requested for is the menu plane
(R93 step 2, R102). A request that stands after it is one that line fetch presents when the composer's work is done within this
FRAME_START (log 3). -/
def Obligations.AcceptedFrameStartRaisesTheStamp : Prop :=
  ∀ (s : State) (n : Nat), s.work = {} → s.active = true →
    s.timer.firstFrame = true ∨ s.interval ≤ min (s.timer.tick + n) (3 * s.interval) * 2 →
    ∃ u v t, s.Watched n u ∧ exec .compactConfirm s = .next v ∧ exec (.frameStart n) s = .next t
      ∧ t.timer = { u.timer with
          stamp := s.timer.stamp + 1, tick := 0, firstFrame := false, lost := false,
          forced := u.timer.forced && u.timer.latch }
      ∧ t.stats.glitches = s.stats.glitches ∧ t.run = s.run ∧ t.mem = s.mem ∧ t.palette = s.palette
      ∧ t.heap = { v.heap with view := t.heap.view } ∧ t.slots = s.slots ∧ t.jump = s.jump ∧ t.nav.word = s.nav.word
      ∧ t.port.compReq = v.port.compReq ∧ t.port.decReq = s.port.decReq
      ∧ t.nav.queue = s.nav.queue ∧ t.walker = { s.walker with reread := t.walker.reread }
      ∧ (t.composer.lineStarted = false ∧ t.composer.line = 0 ∧ t.composer.pixel = 0 ∧ t.composer.underruns = 0)
      ∧ (let regained : List Notice :=
           if u.timer.lost then [{ body := .syncChange true (s.timer.stamp + 1), stamp := s.timer.stamp + 1 }] else []
         let faults : List Notice :=
           match s.composer.marker with
           | some f =>
             if 0 < s.composer.underruns ∨ 0 < s.composer.drops then
               [{ body := .frameFaults f s.composer.underruns s.composer.drops, stamp := s.timer.stamp + 1 }]
             else []
           | none => []
         u.notices.queue.length + 2 ≤ 8 → t.notices.queue = u.notices.queue ++ regained ++ faults)
      ∧ (s.walker.st ≠ .parked → t.walker.reread = s.walker.reread)
      ∧ (s.walker.st = .parked → s.walker.reread = .none ∨ s.walker.reread = .asked → t.walker.reread = .asked)
      ∧ (∀ x, s.walker.st = .parked → s.walker.reread = .granted x → t.walker.reread = .granted true)
      ∧ t.notices.cursor = s.notices.cursor
      ∧ ((∀ a, s.notices.cursor ≠ .anchor a) → t.notices.reread = s.notices.reread)
      ∧ (∀ a, s.notices.cursor = .anchor a → s.notices.reread = .none ∨ s.notices.reread = .asked → t.notices.reread = .asked)
      ∧ (∀ a x, s.notices.cursor = .anchor a → s.notices.reread = .granted x → t.notices.reread = .granted true)
      ∧ (let link : List Burst :=
           if s.walker.st = .parked ∧ s.walker.reread = .none then
             [{ user := .link, block := (s.walker.cur.getD 0).toNat, sel := none }]
           else []
         let blank : List Burst :=
           match s.notices.cursor, s.notices.reread with
           | .anchor a, .none => [{ user := .noticeLink, block := a.toNat, sel := none }]
           | _, _ => []
         t.port.walkerQ = s.port.walkerQ ++ link ++ blank)
      ∧ (v.compactor.phase = .confirming → t.compactor = { v.compactor with frameSeen := true })
      ∧ (v.compactor.phase ≠ .confirming → t.compactor = v.compactor)
      ∧ (let ofLine (f : Flight) : Prop := ∃ p y i, f.burst.user = .line p y i
         (s.port.flight = none → t.port.flight = none)
         ∧ ∀ f, s.port.flight = some f →
             (ofLine f → t.port.flight = some { f with dropped := true }) ∧ (¬ ofLine f → t.port.flight = some f))
      ∧ (t.work.comp = true →
          t.port.lfReq = none
          ∧ t.composer = { s.composer with
              slide := { s.composer.slide with bufs := [], next := 0 }, menu := { s.composer.menu with bufs := [], next := 0 },
              lastPlane := .menu, lineStarted := false, line := 0, pixel := 0, underruns := 0, drops := 0 })
      ∧ (t.work.comp = false → t = State.lfPresent { t with
          port := { t.port with lfReq := none }, composer := { t.composer with lastPlane := .menu } })

/-- A due stamp is reached exactly when (frame stamp - S) mod 2^32 is less than 2^31, that is when its signed distance is from
-2^31 + 1 to 0 (R65). -/
def Obligations.DueStampIsReachedByDistance : Prop :=
  ∀ now due : Word,
    (reached now due = true ↔ (now - due).toNat < 2 ^ 31)
    ∧ (reached now due = true ↔ -(2 ^ 31 : Int) + 1 ≤ (due - now).toInt ∧ (due - now).toInt ≤ 0)
    ∧ distance now due = (due - now).toInt

/-! ### Objects and the heap (01) -/

/-- Allocation of n granules takes the first extent in the list whose length is at least n, from its low end, and fails exactly when no
extent is long enough (R3). Release into an ordered table whose run is not free yet gives an ordered table with no two extents
touching, in which exactly the run's granules have become free (R2, R4). -/
def Obligations.ExtentTableAllocatesAndMerges : Prop :=
  (∀ (n : Nat) (l : List Extent), 0 < n →
     (∀ w h, granulesFor w h = n ↔ 64 * (n - 1) < w * h ∧ w * h ≤ 64 * n) ∧
     (extAlloc n l = none ↔ ∀ e ∈ l, e.len < n)
     ∧ ∀ a l', extAlloc n l = some (a, l') →
         ∃ pre e post, l = pre ++ e :: post ∧ (∀ x ∈ pre, x.len < n) ∧ n ≤ e.len ∧ a = e.start
           ∧ l' = pre ++ (if n = e.len then post else { start := e.start + n, len := e.len - n } :: post))
  ∧ (∀ (s n : Nat) (l : List Extent), extentsFrom 0 l = true → (∀ g, s ≤ g → g < s + n → freeGranule l g = false) →
       extentsFrom 0 (extRelease s n l) = true
       ∧ ∀ g, freeGranule (extRelease s n l) g = true ↔ freeGranule l g = true ∨ (s ≤ g ∧ g < s + n))

/-- LOAD_OBJECT stalls on a full load queue, is refused by the first failing check of R7, and otherwise reads the object header.
LOAD_HEADER_READ_COMPLETE: an error retires MEMORY_ERROR with detail 6, a header that crosses a block is read on (log 8), a code
length that leaves the chain aperture is ADDRESS_FAULT, and otherwise the load is accepted: the entry becomes QUEUED and the load
joins the tail (R7). -/
def Obligations.LoadObjectIsJudgedAndAccepted : Prop :=
  (∀ (s : State) (task : Task), s.inHand 1 = some task →
     ∃ t, exec .loadObject s = .next t
       ∧ let id := task.p16 16
         let a := (task.p32 20).toNat
         let st := (s.entry (BitVec.ofNat 8 id)).state
         (4 ≤ s.heap.loads.length → s.Stalls t)
         ∧ (s.heap.loads.length < 4 →
             (255 < id → s.Refuses t task.ref .badParameter 0)
             ∧ (id ≤ 255 → st = .ready ∨ st = .queued ∨ st = .loading → s.Refuses t task.ref .idTaken 0)
             ∧ (id ≤ 255 → st = .releasing → s.Refuses t task.ref .idReleasing 0)
             ∧ (id ≤ 255 → st = .empty ∨ st = .faulted → s.inChain a 16 = false → s.Refuses t task.ref .addressFault 0)
             ∧ (id ≤ 255 → st = .empty ∨ st = .faulted → s.inChain a 16 = true →
                 s.Asks t .loadHeader (a / 64 * 64)
                 ∧ t.walker = { s.walker with st := .working, job := .loadHeader { addr := a, left := 16, got := [] } })))
  ∧ (∀ (s : State) (err : Bool) (f : Flight) (task : Task) (g : Gather),
       s.LandingRead f .loadHeader → s.walker.task = some task → s.walker.job = .loadHeader g →
       ∃ t, exec (.loadHeaderReadComplete err) s = .next t
         ∧ let h := g.feed f.data
           let id : Byte := BitVec.ofNat 8 (task.p16 16)
           let fits := s.inChain (task.p32 20).toNat (16 + headerCodeLen h.got) = true
           let ok := f.refused = false ∧ err = false
           (¬ ok → s.landed.Refuses t task.ref .memoryError 6)
           ∧ (ok → 0 < h.left → s.landed.Asks t .loadHeader (h.addr / 64 * 64) ∧ t.walker = { s.walker with job := .loadHeader h })
           ∧ (ok → h.left = 0 → ¬ fits → s.landed.Refuses t task.ref .addressFault 0)
           ∧ (ok → h.left = 0 → fits →
               s.HandsOver t
               ∧ t.entry id = { s.entry id with state := .queued, fault := 0, short := false, loadTask := some task.ref.addr }
               ∧ (∀ j, j ≠ id → t.entry j = s.entry j)
               ∧ t.heap.loads = s.heap.loads ++
                   [{ id := id, header := task.p32 20, task := task.ref, held := decide (s.compactor.phase ≠ .idle) }]
               ∧ t = { s.landed with heap := { s.heap with dir := t.heap.dir, loads := t.heap.loads },
                                     walker := t.walker, port := { s.landed.port with walkerQ := t.port.walkerQ } }))

/-- FREE_OBJECT retires BAD_PARAMETER for an id above 255 and DONE otherwise; the entry changes by its state and use count, no other
entry changes, and a load that was queued or decoding is cancelled, its task retiring CANCELLED first, an order R19 leaves open and the
model fixes (log 27), the decoder's burst under way not being used (R18 to R20). A region given up returns to the free extent table
(R4), and a move of an object that becomes EMPTY is abandoned: the destination's granules outside the region are released before it
(R35); the compactor scans on, or pauses in HALTING with a region left at or above its low mark (R39, log 29). That frame-start work
which waited for that move's switch goes on with this command is the model's choice (log 3):
R22 and R79 give the work, and no rule gives that moment. -/
def Obligations.FreeObjectFollowsTheTable : Prop :=
  ∀ (s : State) (task : Task), s.inHand 2 = some task →
    ∃ u t, exec .freeObject s = .next t ∧ u.GoesOn t
      ∧ u = { s with heap := u.heap, compactor := u.compactor, port := u.port, walker := u.walker }
      ∧ (255 < task.p16 16 → s.Refuses u task.ref .badParameter 0)
      ∧ (task.p16 16 ≤ 255 →
          let id : Byte := BitVec.ofNat 8 (task.p16 16)
          let e := s.entry id
          let e' := u.entry id
          let empties := e.state = .ready ∧ e.useCount = 0
          let still := u.compactor = s.compactor ∧ u.port.compReq = s.port.compReq
          u.walker.retiring.getLast? = some (s.retirement task.ref .done 0 []) ∧ s.Dealt u
          ∧ (∀ j, j ≠ id → u.entry j = s.entry j)
          ∧ (e.state = .empty ∨ e.state = .releasing → e' = e)
          ∧ (e.state ≠ .empty → e.state ≠ .releasing → e.useCount = 0 → e' = {})
          ∧ (e.state = .ready → 0 < e.useCount → e' = { e with state := .releasing } ∧ u.heap = { s.heap with dir := u.heap.dir })
          ∧ (e.state = .queued ∨ e.state = .loading ∨ e.state = .faulted → 0 < e.useCount →
              e'.state = .releasing ∧ e'.hasData = false ∧ e'.offset = 0 ∧ e'.count = 0 ∧ e'.useCount = e.useCount
              ∧ e'.fault = e.fault ∧ e'.short = e.short)
          ∧ (e.state = .queued ∨ e.state = .loading → u.loadOf id = none ∧ ∀ d, u.heap.decode = some d → d.id ≠ id)
          ∧ (e.state = .queued ∨ e.state = .loading → ∀ l, s.loadOf id = some l →
              u.walker.retiring =
                s.walker.retiring ++ [s.retirement l.task .cancelled 0 [], s.retirement task.ref .done 0 []])
          ∧ (e.state = .queued ∨ e.state = .loading → ∀ d, s.heap.decode = some d → d.id = id →
              u.port.decReq = none
              ∧ u.port.flight = s.port.flight.map fun f =>
                  if f.burst.user = .decHeader ∨ f.burst.user = .decCode ∨ f.burst.user = .decPixels then { f with dropped := true }
                  else f)
          ∧ (e.state = .loading → u.heap.extents = extRelease e.offset e.count s.heap.extents)
          ∧ (¬ empties → still ∧ (e.state ≠ .loading → u.heap.extents = s.heap.extents))
          ∧ (empties → (∀ m, s.compactor.move = some m → m.id ≠ id) →
              still ∧ u.heap.extents = extRelease e.offset e.count s.heap.extents)
          ∧ (∀ m, empties → s.compactor.move = some m → m.id = id →
              s.AbandonsMove u u.RegionRemains
              ∧ u.heap.extents = extRelease e.offset e.count (extRelease m.dst (min m.count (m.src - m.dst)) s.heap.extents)))

/-- When the conditions of R9 hold the decoder takes the head load and asks for its header; when one does not, nothing happens. Header
read: an error faults the load with code 6, an invalid header with code 1, an allocation that fails retires HEAP_FULL, and otherwise the
entry becomes LOADING with the region allocated (R10, R11, R17); a header that crosses a block is read on (log 8). A header is valid
exactly when its format is 1, its width 1 to 1920, its height 1 to 1080 and its code length at least 1 (R10). The decode takes the fill
index, width, height and code length from the header's bytes 1, 2, 4 and 8 (12.5), and the code stream begins at the byte after the
16-byte header (1.4, R12). That the header's completion at once asks for the block that holds the next byte of the code stream, and that
this block is read afresh even where it is the header's own, is the model's choice (log 10): no rule gives that moment, or says whether
the header's block is kept. -/
def Obligations.DecoderTakesLoadsAndChecksHeaders : Prop :=
  (∀ s : State,
     let conditions (l : Load) := s.heap.decode = none ∧ s.run.state = .running
       ∧ (s.compactor.phase = .idle ∨ s.compactor.phase = .waiting) ∧ l.held = false
     (s.heap.loads = [] → exec .decoderTakeLoad s = .next s)
     ∧ ∀ l rest, s.heap.loads = l :: rest →
         (¬ conditions l → exec .decoderTakeLoad s = .next s)
         ∧ (conditions l → ∃ t d, exec .decoderTakeLoad s = .next t
             ∧ t = { s with heap := { s.heap with decode := some d }, port := { s.port with decReq := t.port.decReq } }
             ∧ d = { id := l.id, header := l.header.toNat, gather := { addr := l.header.toNat, left := 16, got := [] },
                     stage := .header, fill := 0, width := 0, height := 0, codeLen := 0, line := 0, pos := 0, consumed := 0,
                     code := [], runs := [], written := 0 }
             ∧ t.port.decReq = some { user := .decHeader, block := l.header.toNat / 64 * 64, sel := none }))
  ∧ (∀ (s : State) (err : Bool) (f : Flight) (d : Decode) (l : Load),
       s.LandingRead f .decHeader → s.heap.decode = some d → s.loadOf d.id = some l → (s.entry d.id).count = 0 →
       ∃ t, exec (.decoderHeaderReadComplete err) s = .next t
         ∧ t = { s with heap := t.heap, walker := t.walker, port := t.port }
         ∧ let g := d.gather.feed f.data
           let h := g.got
           let ok := f.refused = false ∧ err = false
           let e := s.entry d.id
           let e' := t.entry d.id
           let retires (o : TaskOutcome) (k : Byte) :=
             t.walker.retiring = s.walker.retiring ++ [s.retirement l.task o k []] ∧ t.heap.decode = none ∧ t.loadOf d.id = none
               ∧ t.heap.extents = s.heap.extents
           (∀ j, j ≠ d.id → t.entry j = s.entry j)
           ∧ (¬ ok → retires .memoryError 6 ∧ e'.state = .faulted ∧ e'.fault = 6 ∧ e'.useCount = e.useCount ∧ e'.hasData = false)
           ∧ (ok → 0 < g.left →
               let b : Burst := { user := .decHeader, block := g.addr / 64 * 64, sel := none }
               let d' : Decode := { d with gather := g }
               t = { s.landed with heap := { s.heap with decode := some d' }, port := { s.landed.port with decReq := some b } })
           ∧ (ok → g.left = 0 → headerValid h = false →
               retires .decodeFault 1 ∧ e'.state = .faulted ∧ e'.fault = 1 ∧ e'.useCount = e.useCount ∧ e'.hasData = false)
           ∧ (ok → g.left = 0 → headerValid h = true → extAlloc (granulesFor (nat16 h 2) (nat16 h 4)) s.heap.extents = none →
               retires .heapFull 0 ∧ e'.state = (if e.useCount = 0 then .empty else .releasing) ∧ e'.useCount = e.useCount
               ∧ e'.hasData = false ∧ e'.count = 0)
           ∧ (ok → g.left = 0 → headerValid h = true → ∀ a rest,
               extAlloc (granulesFor (nat16 h 2) (nat16 h 4)) s.heap.extents = some (a, rest) → d.runs = [] →
                 t.heap.extents = rest ∧ t.walker = s.walker
                 ∧ e' = { e with state := .loading, width := nat16 h 2, height := nat16 h 4, offset := a,
                                 count := granulesFor (nat16 h 2) (nat16 h 4) }
                 ∧ t.heap.decode = some { d with
                     gather := g, stage := .stream, fill := byteAt h 1, width := nat16 h 2, height := nat16 h 4, codeLen := nat32 h 8 }
                 ∧ (let next := d.header + 16 + d.consumed + d.code.length
                    t.port.decReq = some { user := .decCode, block := next / 64 * 64, sel := none })))
  ∧ (∀ h : List Byte, headerValid h = true ↔
       nat8 h 0 = 1 ∧ (1 ≤ nat16 h 2 ∧ nat16 h 2 ≤ 1920) ∧ (1 ≤ nat16 h 4 ∧ nat16 h 4 ≤ 1080) ∧ 1 ≤ nat32 h 8)
  ∧ (∀ h : List Byte, headerCodeLen h = nat32 h 8)

/-- Each code, its bytes having come: literal, short and long runs, end of line and end of object, and the faults BAD_CODE 2,
LINE_OVERRUN 3, EXCESS_LINES 4 and TRUNCATED 5 (R12 to R15). A run moves the position on, to the next line's start at the end of the
line; an end of line fills the line and an end of object the rest of the region with the fill index. A code that keeps the rules so far
and whose further bytes have not come waits for them (R12). Codes are taken one after another while their bytes have come. -/
def Obligations.CodeBytesFollowTheCodeTable : Prop :=
  (∀ (d : Decode) (n used : Nat) (runs : List (Nat × Byte)),
     (d.pos + n < d.width → d.afterRun n used runs =
       { d with pos := d.pos + n, consumed := d.consumed + used, code := d.code.drop used, runs := d.runs ++ runs })
     ∧ (d.pos + n = d.width → d.afterRun n used runs =
       { d with line := d.line + 1, pos := 0, consumed := d.consumed + used, code := d.code.drop used, runs := d.runs ++ runs }))
  ∧ (∀ d : Decode, d.code = [] → decodeOne d = if d.codeLen ≤ d.consumed then .fault 5 else .need)
  ∧ (∀ (n : Nat) (d : Decode),
       (∀ x, decodeOne d = .ran x → decodeLoop (n + 1) d = decodeLoop n x)
       ∧ (decodeOne d = .need → decodeLoop (n + 1) d = (d, .need))
       ∧ (∀ k, decodeOne d = .fault k → decodeLoop (n + 1) d = (d, .fault k))
       ∧ ∀ x short, decodeOne d = .ended x short → decodeLoop (n + 1) d = (x, .ended x short))
  ∧ ∀ (d : Decode) (c : Byte) (rest : List Byte), d.code = c :: rest →
    let m := c.toNat / 64
    let v := c.toNat % 64
    let room := d.codeLen - d.consumed
    (d.codeLen ≤ d.consumed → decodeOne d = .fault 5)
    ∧ (0 < room → m = 3 → v = 1 →
        let here := d.line * d.width + d.pos
        let d' : Decode := { d with
          line := d.height, pos := 0, consumed := d.consumed + 1, code := [],
          runs := d.runs ++ [(64 * granulesFor d.width d.height - here, d.fill)] }
        decodeOne d = .ended d' (decide (here < d.width * d.height)))
    ∧ (0 < room → ¬ (m = 3 ∧ v = 1) → d.height ≤ d.line → decodeOne d = .fault 4)
    ∧ (0 < room → d.line < d.height → m = 3 → 2 ≤ v → decodeOne d = .fault 2)
    ∧ (0 < room → d.line < d.height → m = 3 → v = 0 → ∃ d', decodeOne d = .ran d' ∧ d'.line =
        (if d.pos + (d.width - d.pos) = d.width then d.line + 1 else d.line) ∧ d'.runs = d.runs ++ [(d.width - d.pos, d.fill)]
        ∧ d'.consumed = d.consumed + 1
        ∧ (d.pos ≤ d.width → d' =
            { d with line := d.line + 1, pos := 0, consumed := d.consumed + 1, code := rest,
                     runs := d.runs ++ [(d.width - d.pos, d.fill)] }))
    ∧ (0 < room → d.line < d.height → m = 0 →
        (d.width < d.pos + (v + 1) → decodeOne d = .fault 3)
        ∧ (d.pos + (v + 1) ≤ d.width → room < v + 2 → decodeOne d = .fault 5)
        ∧ (d.pos + (v + 1) ≤ d.width → v + 2 ≤ room → rest.length < v + 1 → decodeOne d = .need)
        ∧ (d.pos + (v + 1) ≤ d.width → v + 2 ≤ room → v + 1 ≤ rest.length →
            decodeOne d = .ran (d.afterRun (v + 1) (v + 2) ((rest.take (v + 1)).map fun b => (1, b)))))
    ∧ (0 < room → d.line < d.height → m = 1 →
        (d.width < d.pos + (v + 3) → decodeOne d = .fault 3)
        ∧ (d.pos + (v + 3) ≤ d.width → room < 2 → decodeOne d = .fault 5)
        ∧ (d.pos + (v + 3) ≤ d.width → 2 ≤ room → rest = [] → decodeOne d = .need)
        ∧ (d.pos + (v + 3) ≤ d.width → 2 ≤ room → ∀ x r, rest = x :: r →
            decodeOne d = .ran (d.afterRun (v + 3) 2 [(v + 3, x)])))
    ∧ (0 < room → d.line < d.height → m = 2 →
        (room < 2 → decodeOne d = .fault 5)
        ∧ (2 ≤ room → rest = [] → decodeOne d = .need)
        ∧ (2 ≤ room → ∀ b r, rest = b :: r →
            (d.width < d.pos + (v * 256 + b.toNat + 67) → decodeOne d = .fault 3)
            ∧ (d.pos + (v * 256 + b.toNat + 67) ≤ d.width → room < 3 → decodeOne d = .fault 5)
            ∧ (d.pos + (v * 256 + b.toNat + 67) ≤ d.width → 3 ≤ room → r = [] → decodeOne d = .need)
            ∧ (d.pos + (v * 256 + b.toNat + 67) ≤ d.width → 3 ≤ room → ∀ x r', r = x :: r' →
                decodeOne d = .ran (d.afterRun (v * 256 + b.toNat + 67) 3 [(v * 256 + b.toNat + 67, x)]))))

/-- DECODER_READ_COMPLETE and DECODER_WRITE_COMPLETE: an error response, and a fault found in the codes that have come, release the
region and fault the load; a whole granule of pixels is written; with none left after the end of the object the entry becomes READY
and the load retires DONE or DONE_SHORT (R12, R15 to R17). Where the codes run out of bytes that have come, a whole granule is written,
and with none the block that holds the next code byte is asked for. The order of the decoder's bursts is the model's (log 10). -/
def Obligations.DecoderBurstsFaultWriteOrComplete : Prop :=
  ∀ (s : State) (err : Bool) (f : Flight) (d : Decode) (l : Load),
    s.Landing f → s.heap.decode = some d → s.loadOf d.id = some l →
    let e := s.entry d.id
    let faults (t : State) (code : Nat) (o : TaskOutcome) :=
      (t.entry d.id).state = .faulted ∧ (t.entry d.id).fault = code ∧ (t.entry d.id).hasData = false
        ∧ (t.entry d.id).count = 0 ∧ (t.entry d.id).useCount = e.useCount
        ∧ t.heap.extents = extRelease e.offset e.count s.heap.extents ∧ t.heap.decode = none ∧ t.loadOf d.id = none
        ∧ t.walker.retiring = s.walker.retiring ++ [s.retirement l.task o (BitVec.ofNat 8 code) []]
    let readies (t : State) (short : Bool) :=
      t.entry d.id = { e with state := .ready, hasData := true, short := short, loadTask := none }
        ∧ t.heap.decode = none ∧ t.loadOf d.id = none
        ∧ t.walker.retiring = s.walker.retiring ++ [s.retirement l.task (if short then .doneShort else .done) 0 []]
    let writes (t : State) (x : Decode) :=
      ∃ b, t.port.decReq = some b ∧ b.user = .decPixels
        ∧ b.block = s.heapBase + 64 * (e.offset + x.written) ∧ b.sel = some (selFrom 0 (takeRuns 64 x.runs).1)
        ∧ t.heap.decode = some { x with runs := (takeRuns 64 x.runs).2, written := x.written + 1 }
    (f.burst.user = .decCode → f.burst.sel = none → ∃ t, exec (.decoderReadComplete err) s = .next t
      ∧ t = { s with heap := t.heap, walker := t.walker, port := t.port }
      ∧ (f.refused = true ∨ err = true → faults t 6 .memoryError)
      ∧ (f.refused = false → err = false →
          let r := decodeLoop ((d.feed f.data).code.length + 1) (d.feed f.data)
          (∀ k, r.2 = .fault k → faults t k .decodeFault)
          ∧ (∀ x short, r.2 = .ended x short → runsTotal r.1.runs < 64 → r.1.id = d.id → readies t short)
          ∧ (∀ x short, r.2 = .ended x short → 64 ≤ runsTotal r.1.runs → r.1.id = d.id →
              writes t { r.1 with stage := .finish short })
          ∧ (r.2 = .need → d.stage = .stream → t.walker = s.walker ∧ t.entry d.id = e ∧ t.heap.extents = s.heap.extents
              ∧ (64 ≤ runsTotal r.1.runs → writes t r.1)
              ∧ (runsTotal r.1.runs < 64 →
                  t.port.decReq = some { user := .decCode, block := r.1.nextByte / 64 * 64, sel := none }
                  ∧ t.heap.decode = some r.1))))
    ∧ (f.burst.user = .decPixels → ∃ t, exec (.decoderWriteComplete err) s = .next t
      ∧ t = { s with mem := t.mem, free := t.free, heap := t.heap, walker := t.walker, port := t.port }
      ∧ (f.refused = true ∨ err = false → t.mem = s.mem ∧ t.free = s.free)
      ∧ (f.refused = true ∨ err = true → faults t 6 .memoryError)
      ∧ (f.refused = false → err = false →
          (64 ≤ runsTotal d.runs → writes t d)
          ∧ (runsTotal d.runs < 64 → ∀ short, d.stage = .finish short → readies t short)
          ∧ (runsTotal d.runs < 64 → d.stage = .stream →
              ∃ b, t.port.decReq = some b ∧ b.user = .decCode ∧ b.block = d.nextByte / 64 * 64 ∧ b.sel = none)))

/-! ### Compaction (02) -/

/-- COMPACT_HEAP is handed over to an IDLE compactor, which takes the task with low mark and counts 0 and waits for the loads in the
queue; in HALTING it pauses at once (log 16); in any other phase the walker stalls (R27, R28). COMPACT_WAIT_END: a WAITING compactor
becomes SCANNING when no load accepted before the handover is left, and only then (R28). -/
def Obligations.CompactHeapIsHandedOverAndWaits : Prop :=
  (∀ (s : State) (task : Task), s.inHand 3 = some task →
     ∃ t, exec .compactHeap s = .next t
       ∧ (s.compactor.phase ≠ .idle → s.Stalls t)
       ∧ (s.compactor.phase = .idle →
           s.HandsOver t ∧ t.compactor.task = some task.ref ∧ t.compactor.low = 0 ∧ t.compactor.moved = 0
           ∧ t.compactor.skipped = 0 ∧ t.compactor.move = none
           ∧ t = { s with compactor := t.compactor, walker := t.walker, port := { s.port with walkerQ := t.port.walkerQ } }
           ∧ (s.run.state ≠ .halting → t.compactor.phase = if s.heap.loads = [] then .scanning else .waiting)
           ∧ (s.run.state = .halting → t.compactor.phase = .paused)))
  ∧ (∀ s : State,
       (s.compactor.phase = .waiting → (∀ l ∈ s.heap.loads, l.held = true) →
         exec .compactWaitEnd s = .next { s with compactor := { s.compactor with phase := .scanning } })
       ∧ ((s.compactor.phase ≠ .waiting ∨ ∃ l ∈ s.heap.loads, l.held = false) → exec .compactWaitEnd s = .next s))

/-- COMPACT_SCAN_STEP: past the last region the compaction retires; a region at the low mark is passed; a region whose destination
overlaps it and whose object is drawn is skipped; for any other the destination is reserved (R29 to R31, R37). The step begins by
lowering the low mark to the start of the free extent that holds the granule just below it, and then takes the region with the lowest
offset at or above the mark (R29). An object is drawn when a page that names it stands in a role in either of the frame views of the
most recent frame start at which both planes have published (R30); with the planes' work left to commands, both have published when
the last of them has (log 3). A reservation takes its granules from the low end of the extent at the low mark (R31). In HALTING a step
past the last region retires the compaction too, and one that finds a region left leaves the compactor PAUSED, its low mark as it stood
(R39, log 29). -/
def Obligations.ScanStepPassesSkipsReservesOrRetires : Prop :=
  (∀ (low : Nat) (l : List Extent),
     (∀ x : Extent, extentsFrom 0 l = true → x ∈ l → x.start < low → low ≤ x.start + x.len → lowered low l = x.start)
     ∧ ((∀ x ∈ l, ¬ (x.start < low ∧ low ≤ x.start + x.len)) → lowered low l = low))
  ∧ (∀ (low : Nat) (l : List DirEntry),
       (lowestFrom low 0 l = none ↔ ∀ e ∈ l, ¬ (0 < e.count ∧ low ≤ e.offset))
       ∧ ∀ i e, lowestFrom low 0 l = some (i, e) →
           l[i]? = some e ∧ 0 < e.count ∧ low ≤ e.offset ∧ ∀ x ∈ l, 0 < x.count → low ≤ x.offset → e.offset ≤ x.offset)
  ∧ (∀ (low n len : Nat) (pre post : List Extent), (∀ x ∈ pre, x.start ≠ low) →
       extTakeLow low n (pre ++ { start := low, len := len } :: post) =
         pre ++ (if n < len then { start := low + n, len := len - n } :: post else post))
  ∧ (∀ (s : State) (i : Byte),
       let names (v : FrameView) : Prop := ∃ p, i ∈ (s.slot p).named
         ∧ (v.content = .shown p ∨ (∃ k n, v.content = .entering p k n) ∨ (∃ o k n, v.content = .crossing p o k n)
           ∨ (∃ x k n, v.content = .crossing x p k n) ∨ ∃ k n, v.content = .leaving p k n)
       (s.drawnViews = none → s.drawn i = false)
       ∧ ∀ a b, s.drawnViews = some (a, b) → (s.drawn i = true ↔ names a ∨ names b))
  ∧ (∀ (s : State) (c : Instr) (n : Nat),
       (c = .frameStart n ∧ s.AcceptsFrame n) ∨ (c ∈ workSteps ∧ (s.work.slide ≠ .idle ∨ s.work.menu ≠ .idle)) →
       ∃ t, exec c s = .next t
         ∧ (∀ a b, t.work.slide = .idle → t.work.menu = .idle → t.slide.view = some a → t.menu.view = some b →
             t.drawnViews = some (a, b))
         ∧ (t.work.slide ≠ .idle ∨ t.work.menu ≠ .idle → t.drawnViews = s.drawnViews))
  ∧ ∀ s : State, s.compactor.phase = .scanning →
    ∃ t, exec .compactScanStep s = .next t
      ∧ t = { s with heap := t.heap, compactor := t.compactor, walker := t.walker, port := t.port }
      ∧ let low := lowered s.compactor.low s.heap.extents
        let r := lowestFrom low 0 s.heap.dir.toList
        let goes := s.run.state ≠ .halting
        (r = none → ∀ task, s.compactor.task = some task →
            t.compactor.phase = .idle ∧ t.compactor.task = none ∧ (∀ x ∈ t.heap.loads, x.held = false)
            ∧ t.walker.retiring = s.walker.retiring ++
                [s.retirement task .done 0
                  (selFrom 16 (le32 (BitVec.ofNat 32 s.compactor.moved) ++ le32 (BitVec.ofNat 32 s.compactor.skipped)
                    ++ le32 (BitVec.ofNat 32 (extLongest s.heap.extents))))])
        ∧ (∀ i e, r = some (i, e) → s.run.state = .halting →
            t = { s with compactor := { s.compactor with phase := .paused, wasWaiting := false } })
        ∧ (∀ i e, r = some (i, e) → goes → e.offset = low → t = { s with compactor := { s.compactor with low := e.offset + e.count } })
        ∧ (∀ i e, r = some (i, e) → goes → e.offset ≠ low → e.offset < low + e.count → s.drawn (BitVec.ofNat 8 i) = true →
            t = { s with compactor := { s.compactor with low := e.offset + e.count, skipped := s.compactor.skipped + 1 } })
        ∧ (∀ i e, r = some (i, e) → goes → e.offset ≠ low → ¬ (e.offset < low + e.count ∧ s.drawn (BitVec.ofNat 8 i) = true) →
            let overlap := decide (e.offset < low + e.count)
            t.compactor.move = some { id := BitVec.ofNat 8 i, src := e.offset, dst := low, count := e.count,
                                      overlap := overlap, copied := 0 }
            ∧ t.compactor.phase = (if overlap then .confirming else .copying) ∧ t.compactor.low = low
            ∧ t.entry (BitVec.ofNat 8 i) = { e with moving := some { dest := low, overlap := overlap } }
            ∧ t.heap.extents = extTakeLow low (min e.count (e.offset - low)) s.heap.extents
            ∧ (overlap = false →
                t.port.compReq = some { user := .compRead, block := s.heapBase + 64 * e.offset, sel := none }))

/-- COMPACT_CONFIRM: after a frame start whose plane work is done, a move whose object is drawn is withdrawn and any other begins to
copy; before, nothing happens (R32). The views tested are those of the first frame start after the reservation: a further one has
the test's effect first when the test has not been made, and nothing is left of it then (R32; that the FRAME_START makes it is the
model's choice, log 3). A withdrawal in HALTING
leaves the compactor PAUSED where a region is left at or above its low mark, and SCANNING for its last scan step at the heap end (R39,
log 29). COMPACT_READ_COMPLETE and COMPACT_WRITE_COMPLETE: the granule read is written to the destination,
the next follows, the last leaves SWITCH_PENDING; an error response ends the compaction with MEMORY_ERROR, detail 6 and the results of
R37, releases the destination's granules outside the region, keeps the object of a move that did not overlap, and for a move that did
releases the region too, a READY entry becoming FAULTED and a RELEASING one losing its data (R33, R36). The compactor is then IDLE in
HALTING as well, where R39 names that end among those after which it becomes PAUSED: the model's choice (log 26). -/
def Obligations.MovesAreConfirmedAndCopied : Prop :=
  (∀ (s : State) (m : Move), s.compactor.phase = .confirming → s.compactor.move = some m →
     let ready := s.compactor.frameSeen = true ∧ s.work.slide = .idle ∧ s.work.menu = .idle
     (¬ ready → exec .compactConfirm s = .next s)
     ∧ (ready → s.drawn m.id = false → ∃ t, exec .compactConfirm s = .next t
         ∧ let b : Burst := { user := .compRead, block := s.heapBase + 64 * m.src, sel := none }
           t = { s with compactor := { s.compactor with phase := .copying, frameSeen := false },
                        port := { s.port with compReq := some b } })
     ∧ (ready → s.drawn m.id = true → ∃ t, exec .compactConfirm s = .next t
         ∧ s.ScansOn t t.RegionRemains
         ∧ t.compactor.skipped = s.compactor.skipped + 1 ∧ t.compactor.moved = s.compactor.moved
         ∧ t.compactor.low = m.src + m.count ∧ t.entry m.id = { s.entry m.id with moving := none }
         ∧ t.heap.extents = extRelease m.dst (min m.count (m.src - m.dst)) s.heap.extents
         ∧ t = { s with compactor := t.compactor, heap := { s.heap with dir := t.heap.dir, extents := t.heap.extents } }))
  ∧ (∀ (s : State) (n : Nat), s.AcceptsFrame n →
       ∃ u, exec .compactConfirm s = .next u ∧ exec (.frameStart n) s = exec (.frameStart n) u
         ∧ (s.compactor.move ≠ none → u.compactor.phase = .confirming → u.compactor.frameSeen = false) ∧ u.drawnViews = s.drawnViews)
  ∧ (∀ (s : State) (err : Bool) (f : Flight) (m : Move) (task : TaskRef),
       s.Landing f → s.compactor.move = some m → s.compactor.task = some task →
       let fails (t : State) :=
         t = { s with mem := t.mem, free := t.free, heap := t.heap, compactor := t.compactor, walker := t.walker, port := t.port }
           ∧ t.compactor.phase = .idle ∧ t.compactor.move = none ∧ t.compactor.task = none
           ∧ (∃ res, t.walker.retiring = s.walker.retiring ++ [s.retirement task .memoryError 6 res])
           ∧ (let e := s.entry m.id
              let dest := extRelease m.dst (min m.count (m.src - m.dst)) s.heap.extents
              let exts := if m.overlap then extRelease e.offset e.count dest else dest
              t.heap.extents = exts
                ∧ t.walker.retiring = s.walker.retiring ++ [s.retirement task .memoryError 6
                    (selFrom 16 (le32 (BitVec.ofNat 32 s.compactor.moved) ++ le32 (BitVec.ofNat 32 s.compactor.skipped)
                      ++ le32 (BitVec.ofNat 32 (extLongest exts))))])
           ∧ (∀ x ∈ t.heap.loads, x.held = false) ∧ (∀ j, j ≠ m.id → t.entry j = s.entry j)
           ∧ (m.overlap = false → t.entry m.id = { s.entry m.id with moving := none })
           ∧ (m.overlap = true → (s.entry m.id).state = .ready →
               (t.entry m.id).state = .faulted ∧ (t.entry m.id).fault = 6 ∧ (t.entry m.id).hasData = false
                 ∧ (t.entry m.id).width = 0 ∧ (t.entry m.id).height = 0 ∧ (t.entry m.id).moving = none
                 ∧ (t.entry m.id).count = 0 ∧ (t.entry m.id).useCount = (s.entry m.id).useCount)
           ∧ (m.overlap = true → (s.entry m.id).state = .releasing →
               (t.entry m.id).state = .releasing ∧ (t.entry m.id).hasData = false ∧ (t.entry m.id).offset = 0
                 ∧ (t.entry m.id).count = 0 ∧ (t.entry m.id).moving = none
                 ∧ (t.entry m.id).useCount = (s.entry m.id).useCount)
       (f.burst.user = .compRead → f.burst.sel = none → ∃ t, exec (.compactReadComplete err) s = .next t
         ∧ (f.refused = true ∨ err = true → fails t)
         ∧ (f.refused = false → err = false →
             let b : Burst :=
               { user := .compWrite, block := s.heapBase + 64 * (m.dst + m.copied), sel := some (selFrom 0 f.data) }
             t = { s.landed with port := { s.landed.port with compReq := some b } }))
       ∧ (f.burst.user = .compWrite → ∃ t, exec (.compactWriteComplete err) s = .next t
         ∧ (f.refused = true ∨ err = true → fails t)
         ∧ (f.refused = false → err = false → m.copied + 1 < m.count →
             let b : Burst := { user := .compRead, block := s.heapBase + 64 * (m.src + (m.copied + 1)), sel := none }
             t = { s.landed with
               compactor := { s.compactor with move := some { m with copied := m.copied + 1 } },
               port := { s.landed.port with compReq := some b } })
         ∧ (f.refused = false → err = false → m.count ≤ m.copied + 1 →
             let c : Compactor := { s.compactor with phase := .switchPending, move := some { m with copied := m.copied + 1 } }
             t = { s.landed with compactor := c })))

/-- OFFSET_SWITCH: the entry's region moves to the destination, the vacated granules are released, the moved count rises, the compactor
becomes SCANNING, or PAUSED in HALTING with a region left at or above its low mark (R39, log 29), and the entry view is taken after the
switch (R34, R22). The entry view holds the four
items of R22 for each entry. An accepted FRAME_START with no switch due takes the entry view at once; with one due it leaves the heap
manager's work and the planes' to OFFSET_SWITCH (R22, R34, R79; log 3). A COMPACT_CONFIRM still to be made has its effect before the
entry view is taken (log 3). -/
def Obligations.SwitchAndEntryViewAtTheFrameStart : Prop :=
  (∀ (s : State) (m : Move), s.work.heap = true → s.compactor.phase = .switchPending → s.compactor.move = some m →
     ∃ t, exec .offsetSwitch s = .next t
       ∧ t.entry m.id = { s.entry m.id with offset := m.dst, moving := none }
       ∧ (∀ j, j ≠ m.id → t.entry j = s.entry j)
       ∧ t.heap.extents = extRelease (max m.src (m.dst + m.count)) (m.src + m.count - max m.src (m.dst + m.count)) s.heap.extents
       ∧ t.compactor.moved = s.compactor.moved + 1 ∧ t.compactor.skipped = s.compactor.skipped
       ∧ t.compactor.low = m.dst + m.count ∧ s.ScansOn t t.RegionRemains
       ∧ t.objView m.id = some (DirEntry.view { s.entry m.id with offset := m.dst, moving := none })
       ∧ (∀ j, t.objView j = some (t.entry j).view) ∧ t.work.heap = false ∧ t.work.slide ≠ .begin ∧ t.work.menu ≠ .begin
       ∧ t = { s with heap := t.heap, compactor := t.compactor, slide := t.slide, menu := t.menu, drawnViews := t.drawnViews,
                      nav := t.nav, composer := t.composer, stats := t.stats, work := t.work,
                      port := { s.port with lfReq := t.port.lfReq } })
  ∧ (∀ (s : State) (i : Byte),
       let e := s.entry i
       let v := (s.takeEntryView.objView i)
       ∃ x, v = some x
         ∧ (x.drawable = true ↔ e.state = .ready ∨ (e.state = .releasing ∧ e.hasData = true))
         ∧ (x.drawable = true → x.width = e.width ∧ x.height = e.height) ∧ (x.drawable = false → x.width = 0 ∧ x.height = 0)
         ∧ x.offset = e.offset
         ∧ (x.blocking = true ↔ e.state = .empty ∨ e.state = .queued ∨ e.state = .loading
             ∨ ∃ m, e.moving = some m ∧ m.overlap = true))
  ∧ (∀ (s : State) (n : Nat), s.AcceptsFrame n →
       ∃ v t, exec .compactConfirm s = .next v ∧ exec (.frameStart n) s = .next t
         ∧ (s.compactor.phase ≠ .switchPending → t.work.heap = false ∧ ∀ i, t.objView i = some (v.entry i).view)
         ∧ (s.compactor.phase = .switchPending →
             t.work.heap = true ∧ t.work.slide = .begin ∧ t.work.menu = .begin ∧ t.heap = s.heap
               ∧ t.slide.content = s.slide.content ∧ t.menu.content = s.menu.content))

/-! ### Palettes and page slots (03) -/

/-- LOAD_PALETTE stalls on a full application list, is refused by the first failing check of R42, and otherwise reads its source.
PALETTE_READ_COMPLETE: an error retires MEMORY_ERROR with detail 6 and leaves the pending copy unchanged; while bytes are wanted the
next block is read (log 8); the last read writes the entries with their marks and the task joins the list (R43). An application that
the last frame start left outstanding is made before that, so that these entries and this task wait for the next frame start (R44; that
the command makes it is the model's choice, log 3). -/
def Obligations.LoadPaletteIsJudgedAndRead : Prop :=
  (∀ (s : State) (task : Task), s.inHand 4 = some task →
     ∃ t, exec .loadPalette s = .next t
       ∧ let n := task.p16 18
         let a := (task.p32 20).toNat
         let bad := 7 < task.p8 16 ∨ n = 0 ∨ 256 < n ∨ 256 < task.p8 17 + n
         (16 ≤ s.palette.list.length → s.Stalls t)
         ∧ (s.palette.list.length < 16 → bad → s.Refuses t task.ref .badParameter 0)
         ∧ (s.palette.list.length < 16 → ¬ bad → s.inChain a (4 * n) = false → s.Refuses t task.ref .addressFault 0)
         ∧ (s.palette.list.length < 16 → ¬ bad → s.inChain a (4 * n) = true →
             s.Asks t .palette (a / 64 * 64)
             ∧ t.walker = { s.walker with st := .working, job := .palette { addr := a, left := 4 * n, got := [] } }))
  ∧ (∀ (s : State) (err : Bool) (f : Flight) (task : Task) (g : Gather),
       s.LandingRead f .palette → s.walker.task = some task → s.walker.job = .palette g →
       ∃ t, exec (.paletteReadComplete err) s = .next t
         ∧ let h := g.feed f.data
           let ok := f.refused = false ∧ err = false
           (¬ ok → s.landed.Refuses t task.ref .memoryError 6)
           ∧ (ok → 0 < h.left → s.landed.Asks t .palette (h.addr / 64 * 64) ∧ t.walker = { s.walker with job := .palette h })
           ∧ (ok → h.left = 0 →
               ∃ u, exec .paletteApply s.landed = .next u ∧ (s.work.palette = false → u = s.landed)
               ∧ u.HandsOver t ∧ t.palette.list = u.palette.list ++ [task.ref] ∧ t.palette.applied = u.palette.applied
               ∧ t = { u with palette := t.palette, walker := t.walker, port := { u.port with walkerQ := t.port.walkerQ } }
               ∧ (∀ k : Fin 8, k.val ≠ task.p8 16 → t.palette.pend.get k = u.palette.pend.get k)
               ∧ ∀ (k : Fin 8) (i : Fin 256), k.val = task.p8 16 →
                   (t.palette.pend.get k).get i =
                     (if task.p8 17 ≤ i.val ∧ i.val < task.p8 17 + task.p16 18 then
                       some { y := byteAt h.got (4 * (i.val - task.p8 17)), cb := byteAt h.got (4 * (i.val - task.p8 17) + 1),
                              cr := byteAt h.got (4 * (i.val - task.p8 17) + 2), a := byteAt h.got (4 * (i.val - task.p8 17) + 3) }
                     else (u.palette.pend.get k).get i)))

/-- PALETTE_APPLY: every marked entry is copied, every mark cleared, unmarked entries kept, and the tasks of the list retire DONE in list
order (R44). -/
def Obligations.PaletteApplyCopiesMarkedEntries : Prop :=
  ∀ s : State, s.work.palette = true →
    ∃ t, exec .paletteApply s = .next t
      ∧ (∀ (k : Fin 8) (i : Fin 256),
          (t.palette.applied.get k).get i = ((s.palette.pend.get k).get i).getD ((s.palette.applied.get k).get i)
          ∧ (t.palette.pend.get k).get i = none)
      ∧ t.palette.list = []
      ∧ t.walker.retiring = s.walker.retiring ++ s.palette.list.map (fun r => s.retirement r .done 0 [])
      ∧ t = { s with heap := { s.heap with view := t.heap.view }, palette := t.palette, slide := t.slide, menu := t.menu, drawnViews := t.drawnViews,
                     nav := t.nav, composer := t.composer, stats := t.stats, work := t.work,
                     port := { s.port with lfReq := t.port.lfReq, walkerQ := t.port.walkerQ },
                     walker := { s.walker with retiring := t.walker.retiring } }

/-- STAGE_PAGE by the checks of R48, in order; a slot that passes becomes STAGING and the header is read (R49).
PAGE_HEADER_READ_COMPLETE: an error and a bad header or length free the slot and retire MEMORY_ERROR or PAGE_INVALID; otherwise the
rest is read (R49, R50, R55; one burst a command, log 8). A header passes exactly when its kind is MENU 1 or SLIDE 2, its placements
number 1 to 32 and its buttons 0 to 24, 0 for a SLIDE, and its default button is below the button count or 255 (R50). -/
def Obligations.StagePageIsJudgedAndItsHeaderChecked : Prop :=
  (∀ (s : State) (task : Task), s.inHand 5 = some task →
     ∃ t, exec .stagePage s = .next t
       ∧ let n := task.p16 18
         let a := (task.p32 20).toNat
         (5 < task.p8 16 → s.Refuses t task.ref .badParameter 0)
         ∧ ∀ p : SlotId, p.val = task.p8 16 →
             (s.slot p ≠ .free → s.Refuses t task.ref .slotBusy 0)
             ∧ (s.slot p = .free → n < 32 ∨ 2448 < n → s.Refuses t task.ref .badParameter 0)
             ∧ (s.slot p = .free → 32 ≤ n → n ≤ 2448 → s.inChain a n = false → s.Refuses t task.ref .addressFault 0)
             ∧ (s.slot p = .free → 32 ≤ n → n ≤ 2448 → s.inChain a n = true →
                 t.slot p = .staging ∧ (∀ q, q ≠ p → t.slot q = s.slot q)
                 ∧ t.walker = { s.walker with job := .pageHeader { addr := a, left := 16, got := [] } }
                 ∧ t.port.walkerQ = s.port.walkerQ ++ [{ user := .pageHeader, block := a / 64 * 64, sel := none }]
                 ∧ t = { s with slots := t.slots, walker := t.walker, port := { s.port with walkerQ := t.port.walkerQ } }))
  ∧ (∀ (s : State) (err : Bool) (f : Flight) (task : Task) (g : Gather) (p : SlotId),
       s.LandingRead f .pageHeader → s.walker.task = some task → s.walker.job = .pageHeader g → p.val = task.p8 16 →
       ∃ t, exec (.pageHeaderReadComplete err) s = .next t
         ∧ let g' := g.feed f.data
           let h := g'.got
           let ok := f.refused = false ∧ err = false
           let good := pageHeaderValid h = true ∧ task.p16 18 = 16 + 16 * nat8 h 1 + 80 * nat8 h 2
           let fails (o : TaskOutcome) (k : Byte) :=
             s.Ends t task.ref o k [] ∧ t.slot p = .free ∧ (∀ q, q ≠ p → t.slot q = s.slot q) ∧ t.heap = s.heap
               ∧ t = { s.landed with slots := t.slots, walker := t.walker, port := { s.landed.port with walkerQ := t.port.walkerQ } }
           (¬ ok → fails .memoryError 6)
           ∧ (ok → 0 < g'.left →
               s.landed.Asks t .pageHeader (g'.addr / 64 * 64) ∧ t.walker = { s.walker with job := .pageHeader g' })
           ∧ (ok → g'.left = 0 → ¬ good → fails .pageInvalid 0)
           ∧ (ok → g'.left = 0 → good →
               s.landed.Asks t .pageRest (((task.p32 20).toNat + 16) / 64 * 64)
               ∧ let rest : Gather := { addr := (task.p32 20).toNat + 16, left := task.p16 18 - 16, got := [] }
                 t.walker = { s.walker with job := .pageRest h rest }))
  ∧ (∀ h : List Byte, pageHeaderValid h = true ↔
       (nat8 h 0 = 1 ∨ nat8 h 0 = 2) ∧ (1 ≤ nat8 h 1 ∧ nat8 h 1 ≤ 32)
       ∧ (nat8 h 2 ≤ 24 ∧ (nat8 h 0 = 2 → nat8 h 2 = 0)) ∧ (nat8 h 3 < nat8 h 2 ∨ nat8 h 3 = 255))

/-- PAGE_READ_COMPLETE: while bytes are wanted the next block is read (log 8); every byte having come, the first failing item retires
PAGE_INVALID with its number, a RELEASING id ID_RELEASING, both with the slot FREE; otherwise the slot becomes STAGED with no holds,
each named id's use count rises by 1, and the task retires DONE (R51 to R55). The number of ID_RELEASING is that of the first item, the
placements from 1 and then the buttons from 33, that names the id of a RELEASING entry: a placement its object, a button the objects of
its three cycles before their first hold of 0 (R47, R53). -/
def Obligations.PageIsStagedOrRefusedByItem : Prop :=
  (∀ (s : State) (err : Bool) (f : Flight) (task : Task) (h : List Byte) (g : Gather) (p : SlotId),
     s.LandingRead f .pageRest → s.walker.task = some task → s.walker.job = .pageRest h g → p.val = task.p8 16 →
    ∃ t, exec (.pageReadComplete err) s = .next t
      ∧ let g' := g.feed f.data
        let b := h ++ g'.got
        let ok := f.refused = false ∧ err = false
        let fails (o : TaskOutcome) (k : Byte) :=
          s.Ends t task.ref o k [] ∧ t.slot p = .free ∧ (∀ q, q ≠ p → t.slot q = s.slot q) ∧ t.heap = s.heap
            ∧ t = { s.landed with slots := t.slots, walker := t.walker, port := { s.landed.port with walkerQ := t.port.walkerQ } }
        (¬ ok → fails .memoryError 6)
        ∧ (ok → 0 < g'.left →
            s.landed.Asks t .pageRest (g'.addr / 64 * 64) ∧ t.walker = { s.walker with job := .pageRest h g' })
        ∧ (ok → g'.left = 0 → ∀ n, readPage b = .inl n → fails .pageInvalid (BitVec.ofNat 8 n))
        ∧ (ok → g'.left = 0 → ∀ d n, readPage b = .inr d → s.releasingItem d = some n → fails .idReleasing (BitVec.ofNat 8 n))
        ∧ (ok → g'.left = 0 → ∀ d, readPage b = .inr d → s.releasingItem d = none →
            s.Ends t task.ref .done 0 [] ∧ t.slot p = .staged d d.named 0 ∧ (∀ q, q ≠ p → t.slot q = s.slot q)
            ∧ t = { s.landed with heap := { s.heap with dir := t.heap.dir }, slots := t.slots, walker := t.walker,
                                  port := { s.landed.port with walkerQ := t.port.walkerQ } }
            ∧ ∀ i, t.entry i = { s.entry i with useCount := (s.entry i).useCount + if i ∈ d.named then 1 else 0 }))
  ∧ ∀ (s : State) (d : PageDef),
      let names (l : List (Byte × Nat)) (i : Byte) : Prop :=
        ∃ (k : Nat) (x : Byte × Nat), l[k]? = some x ∧ x.1 = i ∧ ∀ (m : Nat) (y : Byte × Nat), m ≤ k → l[m]? = some y → y.2 ≠ 0
      let placed (k : Nat) : Prop := ∃ p : Placement, d.placements[k]? = some p ∧ (s.entry p.obj).state = .releasing
      let pressed (k : Nat) : Prop :=
        ∃ (b : Button) (i : Byte), d.buttons[k]? = some b ∧ (names b.normal i ∨ names b.selected i ∨ names b.activated i)
          ∧ (s.entry i).state = .releasing
      (s.releasingItem d = none ↔ ∀ k, ¬ placed k ∧ ¬ pressed k)
      ∧ ∀ n, s.releasingItem d = some n ↔
          (∃ k, n = 1 + k ∧ placed k ∧ ∀ m, m < k → ¬ placed m)
          ∨ ((∀ k, ¬ placed k) ∧ ∃ k, n = 33 + k ∧ pressed k ∧ ∀ m, m < k → ¬ pressed m)

/-- A definition whose header has passed is accepted exactly when its placements obey R51 and its buttons R52, and is then read as its
bytes give it; otherwise the detail is the number of the first item that fails, the placements standing before the buttons (R47, R51,
R52). The named-id set holds each id once: the ids of the placements and of the cycles up to their first hold of 0 (R6, R46). -/
def Obligations.AcceptedPageObeysTheItemRules : Prop :=
  (∀ (b : List Byte) (d : PageDef), readPage b = .inr d →
     d.placements.length = nat8 b 1 ∧ d.buttons.length = nat8 b 2
       ∧ (∀ p ∈ d.placements, p.pal ≤ 7 ∧ -4096 ≤ p.x ∧ p.x ≤ 4095 ∧ -4096 ≤ p.y ∧ p.y ≤ 4095)
       ∧ (∀ t ∈ d.buttons, t.placement < d.placements.length
           ∧ (t.up < d.buttons.length ∨ t.up = 255) ∧ (t.down < d.buttons.length ∨ t.down = 255)
           ∧ (t.left < d.buttons.length ∨ t.left = 255) ∧ (t.right < d.buttons.length ∨ t.right = 255)
           ∧ t.number ≤ 99 ∧ t.value &&& ~~~t.mask = 0 ∧ ¬ (t.act1.isJump = true ∧ t.act2.isJump = true))
       ∧ d.buttons.Pairwise (fun x y => x.placement ≠ y.placement ∧ (y.number = 0 ∨ x.number ≠ y.number)))
  ∧ (∀ b : List Byte,
       let np := nat8 b 1
       let nb := nat8 b 2
       let placed (i : Nat) : Prop :=
         let p := placementAt b (16 + 16 * i)
         p.pal ≤ 7 ∧ -4096 ≤ p.x ∧ p.x ≤ 4095 ∧ -4096 ≤ p.y ∧ p.y ≤ 4095
       let at_ (j : Nat) : Nat := 16 + 16 * np + 80 * j
       let link (l : Nat) : Prop := l < nb ∨ l = 255
       let action (o : Nat) : Prop := nat8 b o ≤ 3 ∧ (nat8 b o = 3 → nat8 b (o + 4) < 6)
       let pressed (j : Nat) : Prop :=
         nat8 b (at_ j) < np ∧ (∀ k, k < j → nat8 b (at_ k) ≠ nat8 b (at_ j))
         ∧ link (nat8 b (at_ j + 1)) ∧ link (nat8 b (at_ j + 2)) ∧ link (nat8 b (at_ j + 3)) ∧ link (nat8 b (at_ j + 4))
         ∧ nat8 b (at_ j + 5) ≤ 99 ∧ (nat8 b (at_ j + 5) ≠ 0 → ∀ k, k < j → nat8 b (at_ k + 5) ≠ nat8 b (at_ j + 5))
         ∧ word32 b (at_ j + 12) &&& ~~~word32 b (at_ j + 8) = 0
         ∧ action (at_ j + 16) ∧ action (at_ j + 24) ∧ ¬ (nat8 b (at_ j + 16) = 3 ∧ nat8 b (at_ j + 24) = 3)
       ((∃ d, readPage b = .inr d) ↔ (∀ i, i < np → placed i) ∧ ∀ j, j < nb → pressed j)
         ∧ (∀ n, readPage b = .inl n ↔
             (∃ i, i < np ∧ n = 1 + i ∧ ¬ placed i ∧ ∀ k, k < i → placed k)
             ∨ ((∀ i, i < np → placed i) ∧ ∃ j, j < nb ∧ n = 33 + j ∧ ¬ pressed j ∧ ∀ k, k < j → pressed k))
         ∧ ∀ d, readPage b = .inr d →
             (d.kind = .menu ↔ nat8 b 0 = 1) ∧ d.dflt = (if nat8 b 3 = 255 then none else some (nat8 b 3)) ∧ d.timeout = nat16 b 4
             ∧ d.placements = (List.range np).map (fun i => placementAt b (16 + 16 * i))
             ∧ d.buttons.map some = (List.range nb).map (fun j => buttonAt b (at_ j)))
  ∧ (∀ d : PageDef, d.named.Nodup
       ∧ ∀ i, i ∈ d.named ↔ (∃ p ∈ d.placements, p.obj = i)
           ∨ ∃ b ∈ d.buttons, ∃ x, (x ∈ livePairs b.normal ∨ x ∈ livePairs b.selected ∨ x ∈ livePairs b.activated) ∧ x.1 = i)

/-- DISCARD_PAGE: a slot above 5, a slot that is not STAGED and a held slot are refused; an unheld one becomes FREE, each id of its set
loses one use, and a RELEASING entry that reaches 0 becomes EMPTY, its region returning to the free extent table and a move of it being
abandoned (R56, R21, R4, R35); the compactor then scans on, or pauses in HALTING where a region is left at or above its low mark once
the ids up to its object's have lost their use (R39, log 29). That the decrements come one after another in the set's own order is the
model's choice (log 34): R56 gives no order among them. That frame-start work which waited for that move's switch goes on with this
command is the model's choice (log 3): R22 and R79 give the work, and no rule gives that moment. -/
def Obligations.DiscardPageFreesAnUnheldSlot : Prop :=
  ∀ (s : State) (task : Task), s.inHand 6 = some task →
    ∃ u t, exec .discardPage s = .next t ∧ u.GoesOn t
      ∧ (5 < task.p8 16 → s.Refuses u task.ref .badParameter 0)
      ∧ ∀ p : SlotId, p.val = task.p8 16 →
          (s.slot p = .free ∨ s.slot p = .staging → s.Refuses u task.ref .notStaged 0)
          ∧ (∀ d ids n, s.slot p = .staged d ids (n + 1) → s.Refuses u task.ref .slotBusy 0)
          ∧ (∀ d ids, s.slot p = .staged d ids 0 → ids.Nodup →
              let ends (i : Byte) := (s.entry i).state = .releasing ∧ (s.entry i).useCount ≤ 1
              u = { s with heap := u.heap, slots := u.slots, compactor := u.compactor, walker := u.walker, port := u.port }
              ∧ s.Ends u task.ref .done 0 [] ∧ u.slot p = .free ∧ (∀ q, q ≠ p → u.slot q = s.slot q)
              ∧ (∀ i, i ∉ ids → u.entry i = s.entry i)
              ∧ (∀ i, i ∈ ids → (s.entry i).state = .releasing → (s.entry i).useCount = 1 → u.entry i = {})
              ∧ (∀ i, i ∈ ids → (s.entry i).state = .releasing → 1 < (s.entry i).useCount →
                  u.entry i = { s.entry i with useCount := (s.entry i).useCount - 1 })
              ∧ (∀ i, i ∈ ids → (s.entry i).state ≠ .releasing →
                  u.entry i = { s.entry i with useCount := (s.entry i).useCount - 1 })
              ∧ u.heap = { s.heap with dir := u.heap.dir, extents := u.heap.extents }
              ∧ u.heap.extents = ids.foldl
                  (fun l i =>
                    if ends i then
                      extRelease (s.entry i).offset (s.entry i).count
                        (match s.compactor.move with
                         | some m => if m.id = i then extRelease m.dst (min m.count (m.src - m.dst)) l else l
                         | none => l)
                    else l)
                  s.heap.extents
              ∧ (∀ m pre post, s.compactor.move = some m → ids = pre ++ m.id :: post → ends m.id →
                  s.AbandonsMove u (∃ j, j ≠ m.id ∧ ¬ (j ∈ pre ∧ ends j)
                    ∧ 0 < (s.entry j).count ∧ s.compactor.low ≤ (s.entry j).offset))
              ∧ ((∀ m, s.compactor.move = some m → ¬ (m.id ∈ ids ∧ ends m.id)) →
                  u.compactor = s.compactor ∧ u.port.compReq = s.port.compReq ∧ u.port.flight = s.port.flight))

/-! ### Planes (05) -/

/-- SHOW_PAGE and HIDE_PLANE: the checks of R77 in order, a stall on a full schedule, and otherwise the entry is inserted, a SHOW with a
hold added on its slot. An entry inserted while its plane's work for a frame start is outstanding is marked to be judged first at the
next frame start (R76, R82, R85; the mark is the model's, log 3). Insertion keeps a schedule ordered by signed distance and puts the
new entry after every entry at or before its own distance (R75 to R77). -/
def Obligations.ShowAndHideAreCheckedAndInserted : Prop :=
  (∀ (s : State) (task : Task) (hide : Bool), s.inHand (if hide then 8 else 7) = some task →
     ∃ t, exec (if hide then .hidePlane else .showPage) s = .next t
       ∧ (1 < task.p8 16 → s.Refuses t task.ref .badParameter 0)
       ∧ ∀ q : PlaneId, planeOf (task.p8 16) = some q →
           let inserts (page : Option SlotId) :=
             s.HandsOver t
             ∧ t = { s with slots := t.slots, slide := t.slide, menu := t.menu, walker := t.walker,
                            port := { s.port with walkerQ := t.port.walkerQ } }
             ∧ (t.plane q).content = (s.plane q).content ∧ (t.plane q).view = (s.plane q).view
             ∧ t.plane (otherPlane q) = s.plane (otherPlane q)
             ∧ (t.plane q).schedule = insertEntry s.timer.stamp
                 { page := page,
                   blend := if task.p8 18 = 1 ∧ task.p8 19 ≠ 0 then some (task.p8 19) else none,
                   due := if task.pbit 20 0 then s.timer.stamp + 1 else task.p32 24,
                   task := task.ref, later := decide (s.stage q ≠ .idle) } (s.plane q).schedule
           (8 ≤ (s.plane q).schedule.length → s.Stalls t)
           ∧ ((s.plane q).schedule.length < 8 → 1 < task.p8 18 → s.Refuses t task.ref .badParameter 0)
           ∧ ((s.plane q).schedule.length < 8 → task.p8 18 ≤ 1 → hide = true → inserts none ∧ t.slots = s.slots)
           ∧ ((s.plane q).schedule.length < 8 → task.p8 18 ≤ 1 → hide = false →
               (5 < task.p8 17 → s.Refuses t task.ref .badParameter 0)
               ∧ ∀ x : SlotId, x.val = task.p8 17 →
                   (s.page x = none → s.Refuses t task.ref .notStaged 0)
                   ∧ (∀ d, s.page x = some d → (d.kind = .menu ↔ q = .slide) → s.Refuses t task.ref .badParameter 0)
                   ∧ (∀ d, s.page x = some d → (d.kind = .menu ↔ q = .menu) →
                       inserts (some x) ∧ t.slot x = (s.slot x).withHolds ((s.slot x).holds + 1) ∧ t.page x = some d
                       ∧ ∀ y, y ≠ x → t.slot y = s.slot y)))
  ∧ (∀ (now : Word) (e : SchedEntry) (l : List SchedEntry),
       l.Pairwise (fun a b => distance now a.due ≤ distance now b.due) →
       (insertEntry now e l).Pairwise (fun a b => distance now a.due ≤ distance now b.due)
       ∧ ∃ pre post, l = pre ++ post ∧ insertEntry now e l = pre ++ e :: post
           ∧ (∀ a ∈ pre, distance now a.due ≤ distance now e.due) ∧ ∀ b ∈ post, distance now e.due < distance now b.due)

/-- CLEAR_SCHEDULE: a plane above 1 retires BAD_PARAMETER and changes nothing; otherwise every entry of the plane's schedule retires
CANCELLED with detail 0 from head to tail, each SHOW entry's hold is released, and the task retires DONE after them with the count as
detail (R86). -/
def Obligations.ClearScheduleCancelsEveryEntry : Prop :=
  ∀ (s : State) (task : Task), s.inHand 9 = some task →
    ∃ t, exec .clearSchedule s = .next t
      ∧ (1 < task.p8 16 → s.Refuses t task.ref .badParameter 0)
      ∧ ∀ q : PlaneId, planeOf (task.p8 16) = some q →
          t.plane q = { s.plane q with schedule := [] } ∧ t.plane (otherPlane q) = s.plane (otherPlane q)
          ∧ t.walker.retiring = s.walker.retiring
              ++ (s.plane q).schedule.map (fun e => s.retirement e.task .cancelled 0 [])
              ++ [s.retirement task.ref .done (BitVec.ofNat 8 (s.plane q).schedule.length) []]
          ∧ s.Dealt t
          ∧ t = { s with slots := t.slots, slide := t.slide, menu := t.menu, walker := t.walker,
                         port := { s.port with walkerQ := t.port.walkerQ } }
          ∧ ∀ x, t.slot x = (s.slot x).withHolds ((s.slot x).holds - scheduleClaims (s.plane q).schedule x)

/-- At an accepted frame start with no switch due and no pending jump, a plane's running transition goes on by one step and is left for
TRANSITION_END when it reaches N; otherwise a head that can begin is left for OPERATION_BEGIN, and with none the frame view is published
with the frame stamp, the state, the fade value and the entry mark clear (R74, R79 to R81; log 3). Fade values are those of R74.
TRANSITION_END: ENTERING and CROSSING end SHOWN with the incoming page, LEAVING ends EMPTY, and an outgoing role's hold is released
(R80). OPERATION_BEGIN on a due head that may begin: it leaves the schedule, changes the plane and the holds by the table of R83, after
a running transition's outgoing hold, a SHOW setting the entry mark, and retires DONE with its lateness (R74, R81, R83, R84). Every
slot keeps its definition and named ids. Both leave a new head that can begin for the next OPERATION_BEGIN, and publish the frame view
exactly when there is none. The head
is the first entry that stood in the schedule at the frame start: one inserted since is passed over until the next (R82, R85; marked so,
log 3). A page is ready when its slot is STAGED and no id of its named-id set blocks in the entry view (R24, R58). -/
def Obligations.TransitionsEndAndOperationsBegin : Prop :=
  (∀ (s : State) (q : PlaneId), s.stage q = .transEnd →
     ∃ t, exec (.transitionEnd q) s = .next t
       ∧ (∀ i k n, (s.plane q).content = .entering i k n → (t.plane q).content = .shown i ∧ t.slots = s.slots)
       ∧ (∀ i o k n, (s.plane q).content = .crossing i o k n → (t.plane q).content = .shown i
           ∧ (t.slot o).holds = (s.slot o).holds - 1 ∧ ∀ x, x ≠ o → t.slot x = s.slot x)
       ∧ (∀ o k n, (s.plane q).content = .leaving o k n → (t.plane q).content = .empty
           ∧ (t.slot o).holds = (s.slot o).holds - 1 ∧ ∀ x, x ≠ o → t.slot x = s.slot x)
       ∧ (t.plane q).schedule = (s.plane q).schedule ∧ (t.plane q).mark = (s.plane q).mark
       ∧ s.Releases t [(s.plane q).content.outgoing] ∧ s.OperatesOrPublishes t q
       ∧ t = { s with heap := { s.heap with view := t.heap.view }, slots := t.slots, slide := t.slide, menu := t.menu, drawnViews := t.drawnViews,
                      nav := t.nav, composer := t.composer, stats := t.stats, work := t.work,
                      port := { s.port with lfReq := t.port.lfReq } })
  ∧ (∀ (s : State) (q : PlaneId) (e : SchedEntry) (pre rest : List SchedEntry),
       s.stage q = .ops → (s.plane q).schedule = pre ++ e :: rest → (∀ x ∈ pre, x.later = true) → e.later = false →
       reached s.timer.stamp e.due = true → (∀ x, e.page = some x → s.readySlot x = true) →
       ∃ t, exec (.operationBegin q) s = .next t
         ∧ (t.plane q).schedule = pre ++ rest
         ∧ (t.plane q).mark = ((s.plane q).mark || e.page.isSome)
         ∧ s.OperatesOrPublishes t q
         ∧ t.walker.retiring = s.walker.retiring ++
             [s.retirement e.task .done (BitVec.ofNat 8 (min 255 (s.timer.stamp - e.due).toNat)) []]
         ∧ let before := (s.plane q).content.settled
           let n := e.blend.getD 1
           (∀ x, e.page = some x → before = none → (t.plane q).content = if 2 ≤ n then .entering x 1 n else .shown x)
           ∧ (∀ x, e.page = some x → before = some x → (t.plane q).content = .shown x)
           ∧ (∀ x y, e.page = some x → before = some y → x ≠ y →
               (t.plane q).content = if 2 ≤ n then .crossing x y 1 n else .shown x)
           ∧ (e.page = none → before = none → (t.plane q).content = .empty)
           ∧ (∀ y, e.page = none → before = some y → (t.plane q).content = if 2 ≤ n then .leaving y 1 n else .empty)
           ∧ (let left := (s.plane q).content.outgoing
              (before = none → s.Releases t [left])
              ∧ (∀ x, e.page = some x → before = some x → s.Releases t [left, some x])
              ∧ (∀ y, before = some y → e.page ≠ some y → s.Releases t (if 2 ≤ n then [left] else [left, some y])))
           ∧ t = { s with heap := { s.heap with view := t.heap.view }, slots := t.slots, slide := t.slide, menu := t.menu, drawnViews := t.drawnViews,
                          nav := t.nav, composer := t.composer, stats := t.stats, work := t.work,
                          port := { s.port with lfReq := t.port.lfReq, walkerQ := t.port.walkerQ },
                          walker := { s.walker with retiring := t.walker.retiring } })
  ∧ (∀ (i o : SlotId) (k n : Nat),
       Content.empty.fade = 0 ∧ (Content.entering i k n).fade = 255 * k / n ∧ (Content.shown i).fade = 255
       ∧ (Content.crossing i o k n).fade = 255 * k / n ∧ (Content.leaving o k n).fade = 255 - 255 * k / n)
  ∧ (∀ (s : State) (n : Nat) (q : PlaneId), s.AcceptsFrame n → s.compactor.phase ≠ .switchPending → (q = .menu → s.jump = none) →
       ∃ t, exec (.frameStart n) s = .next t
         ∧ (t.plane q).schedule = (s.plane q).schedule.map (fun e => { e with later := false }) ∧ (t.plane q).mark = false
         ∧ (∀ i k m, (s.plane q).content = .entering i k m → (t.plane q).content = .entering i (k + 1) m)
         ∧ (∀ i o k m, (s.plane q).content = .crossing i o k m → (t.plane q).content = .crossing i o (k + 1) m)
         ∧ (∀ o k m, (s.plane q).content = .leaving o k m → (t.plane q).content = .leaving o (k + 1) m)
         ∧ ((s.plane q).content = .empty ∨ (∃ i, (s.plane q).content = .shown i) → (t.plane q).content = (s.plane q).content)
         ∧ (let ends := ∃ i o k m, m ≤ k + 1 ∧ ((s.plane q).content = .entering i k m ∨ (s.plane q).content = .crossing i o k m
              ∨ (s.plane q).content = .leaving o k m)
            let begins := ∃ e rest, (s.plane q).schedule = e :: rest ∧ reached (s.timer.stamp + 1) e.due = true
              ∧ ∀ x, e.page = some x → t.readySlot x = true
            (ends → t.stage q = .transEnd)
            ∧ (¬ ends → begins → t.stage q = .ops)
            ∧ (¬ ends → ¬ begins → t.stage q = .idle ∧ (t.plane q).view = some
                { frame := s.timer.stamp + 1, content := (t.plane q).content, fade := (t.plane q).content.fade, mark := false })))
  ∧ (∀ (s : State) (q : PlaneId), s.stage q = .ops →
       (∀ pre e rest, (s.plane q).schedule = pre ++ e :: rest → (∀ x ∈ pre, x.later = true) → e.later = false →
         reached s.timer.stamp e.due = true → ∃ x, e.page = some x ∧ s.readySlot x = false) →
       ∃ t, exec (.operationBegin q) s = .next t
         ∧ (t.plane q).schedule = (s.plane q).schedule ∧ (t.plane q).content = (s.plane q).content
         ∧ t.stage q = .idle ∧ t.walker = s.walker ∧ t.slots = s.slots
         ∧ (t.plane q).view = some
             { frame := s.timer.stamp, content := (s.plane q).content, fade := (s.plane q).content.fade, mark := (s.plane q).mark })
  ∧ (∀ (i o : SlotId) (k n : Nat),
       (Content.empty.settled = none ∧ (Content.entering i k n).settled = some i ∧ (Content.shown i).settled = some i
         ∧ (Content.crossing i o k n).settled = some i ∧ (Content.leaving o k n).settled = none)
       ∧ (Content.empty.outgoing = none ∧ (Content.entering i k n).outgoing = none ∧ (Content.shown i).outgoing = none
         ∧ (Content.crossing i o k n).outgoing = some o ∧ (Content.leaving o k n).outgoing = some o)
       ∧ (Content.empty.advanced = (.empty, false) ∧ (Content.shown i).advanced = (.shown i, false)
         ∧ (Content.entering i k n).advanced = (.entering i (k + 1) n, decide (n ≤ k + 1))
         ∧ (Content.crossing i o k n).advanced = (.crossing i o (k + 1) n, decide (n ≤ k + 1))
         ∧ (Content.leaving o k n).advanced = (.leaving o (k + 1) n, decide (n ≤ k + 1))))
  ∧ (∀ (s : State) (x : SlotId), s.readySlot x = true ↔ ∃ d ids n, s.slot x = .staged d ids n
       ∧ ∀ i ∈ ids, ∃ v, s.objView i = some v ∧ v.blocking = false)

/-- JUMP_APPLY: a held jump to a MENU page that is ready cuts to its target; any other fails for the first reason of R90; in either case
the jump is gone and one PAGE_JUMP notice joins the tail of the queue, an applied one setting the entry mark (R89, R90, R188). The slot shown before is that
after a running transition has been completed (log 14), and none in a failure (log 13). An applied jump releases the completed
transition's outgoing hold and the old shown role's, its own hold passing to the shown role; a failed one releases its own; every slot
keeps its definition and named ids (R83, R89, R90). Steps 2 and 3 of R79 follow: a running transition, none after an applied jump, goes
on by one step and is left for TRANSITION_END at N, and otherwise a head that can begin is left for OPERATION_BEGIN or the frame view
is published (R79; log 3). -/
def Obligations.PendingJumpIsAppliedOrFails : Prop :=
  ∀ (s : State) (j : Jump), s.work.menu = .jump → s.jump = some j → s.notices.queue.length < 8 →
    ∃ t, exec .jumpApply s = .next t ∧ t.jump = none
      ∧ t = { s with heap := { s.heap with view := t.heap.view }, slots := t.slots, slide := t.slide, menu := t.menu, drawnViews := t.drawnViews,
                     nav := t.nav, composer := t.composer, stats := t.stats, work := t.work,
                     port := { s.port with lfReq := t.port.lfReq },
                     jump := none, attention := t.attention, notices := t.notices }
      ∧ (let steps : Prop :=
           t.menu.mark = s.menu.mark ∧ t.menu.schedule = s.menu.schedule ∧ t.menu.content = s.menu.content.advanced.1
             ∧ (s.menu.content.advanced.2 = true → t.work.menu = .transEnd)
             ∧ (s.menu.content.advanced.2 = false → s.OperatesOrPublishes t .menu)
         ((∃ d, j.held = true ∧ s.page j.target = some d ∧ d.kind = .menu ∧ s.readySlot j.target = true) →
            s.Releases t [s.menu.content.outgoing, s.menu.content.settled] ∧ t.menu.schedule = s.menu.schedule
              ∧ s.OperatesOrPublishes t .menu)
         ∧ (∀ d, j.held = true → s.page j.target = some d → d.kind = .slide ∨ s.readySlot j.target = false →
              s.Releases t [some j.target] ∧ steps)
         ∧ (j.held = false → steps))
      ∧ (let notice (why : Option JumpFailure) (before : Option SlotId) : Prop := t.notices.queue =
           s.notices.queue ++ [{ body := .pageJump why j.target before j.button j.slot, stamp := s.timer.stamp }]
         (∀ d, j.held = true → s.page j.target = some d → d.kind = .menu → s.readySlot j.target = true →
             t.menu.content = .shown j.target ∧ t.menu.mark = true ∧ notice none s.menu.content.settled)
         ∧ (j.held = false →
             notice (some .notHeld) none ∧ t.slots = s.slots ∧ t.menu.content = s.menu.content.advanced.1)
         ∧ (∀ d, j.held = true → s.page j.target = some d → d.kind = .slide →
             notice (some .notMenu) none ∧ t.menu.content = s.menu.content.advanced.1)
         ∧ (∀ d, j.held = true → s.page j.target = some d → d.kind = .menu → s.readySlot j.target = false →
             notice (some .notReady) none ∧ t.menu.content = s.menu.content.advanced.1))

/-! ### Navigation and keys (08, 09) -/

/-- SET_STATE: the new word is (old AND NOT mask) OR (value AND mask), it is the task's result word, the task retires DONE with detail 0,
no notice is raised, and selection maintenance follows when the word changes with the unit active and no activation in progress
(R132). -/
def Obligations.SetStateWritesMaskedBits : Prop :=
  ∀ (s : State) (task : Task), s.inHand 10 = some task →
    ∃ t, exec .setState s = .next t
      ∧ t.nav.word = (s.nav.word &&& ~~~(task.p32 16)) ||| (task.p32 20 &&& task.p32 16)
      ∧ s.Ends t task.ref .done 0 (selFrom 24 (le32 t.nav.word))
      ∧ t = { s with nav := { s.nav with word := t.nav.word, selected := t.nav.selected, buttons := t.nav.buttons },
                     walker := t.walker, port := { s.port with walkerQ := t.port.walkerQ } }
      ∧ (s.navSlot = none ∨ s.nav.activation ≠ none ∨ t.nav.word = s.nav.word →
          t.nav.selected = s.nav.selected ∧ t.nav.buttons = s.nav.buttons)
      ∧ (∀ d, s.navPage = some d → s.nav.activation = none → t.nav.word ≠ s.nav.word →
          (∀ b, s.nav.selected = some b → d.visible t.nav.word b = true → t.nav.selected = some b)
          ∧ (∀ b, s.nav.selected = some b → d.visible t.nav.word b = false → t.nav.selected = d.entryChoice t.nav.word)
          ∧ (s.nav.selected = none → t.nav.selected = d.entryChoice t.nav.word)
          ∧ s.MovesRecords t d t.nav.selected)

/-- The entry choice: the visible default, else the first visible button, else none (R136, R133). A direction search follows the links
of the key's direction through hidden buttons to the first visible one, at most 24 links with the start's own, and ends with none at a
link of 255 or one that names the start (R158). When the menu plane publishes its view, at FRAME_START or at a later step of that frame's work, the
navigation unit judges it (R135, R138; log 3). A view that makes the unit inactive ends selection, activation, digit entry and timeout
(R135, R148, R165). A page entry sets the selection to the entry choice, every record to its state's start, the timeout to the page's, and
abandons an activation and a digit entry (R136, R139, R148, R165). Otherwise the page continues and every published position advances by
one frame, an ACTIVATED cycle that ends being left for ACTIVATION_END (R140). The digit window and the timeout then count down, to
DIGIT_WINDOW_EXPIRY or PAGE_TIMEOUT (R163, R166), or the views are published: the live view of the navigation page, and the frozen copy of
a page that has ceased to be one, or that was never one, while its slot is in a role (R137, R138). Records of buttons that the page does
not have are at their reset values (log 19). -/
def Obligations.EntryChoiceAndSearchFindVisibleButtons : Prop :=
  (∀ (d : PageDef) (w : Word),
     (∀ i, d.dflt = some i → d.visible w i = true → d.entryChoice w = some i)
     ∧ (∀ i, d.entryChoice w = some i → d.visible w i = true)
     ∧ (d.entryChoice w = none ↔ ∀ i, d.visible w i = false)
     ∧ ((∀ i, d.dflt = some i → d.visible w i = false) → ∀ i, d.entryChoice w = some i → ∀ j, j < i → d.visible w j = false)
     ∧ ∀ i, d.visible w i = true ↔ ∃ b, d.buttons[i]? = some b ∧ w &&& b.mask = b.value)
  ∧ (∀ (d : PageDef) (w : Word) (dir : Button → Nat) (start n l t : Nat),
       let link (k : Nat) : Nat := Nat.iterate (fun i => (d.buttons[i]?.map dir).getD 255) k l
       searchLinks d w dir start n l = some t ↔
         ∃ k, k < n ∧ link k = t ∧ d.visible w t = true ∧ t ≠ 255 ∧ t ≠ start
           ∧ ∀ j, j < k → link j ≠ 255 ∧ link j ≠ start ∧ d.visible w (link j) = false)
  ∧ (dirLink 0x40 = some Button.up ∧ dirLink 0x41 = some Button.down ∧ dirLink 0x42 = some Button.left
       ∧ dirLink 0x43 = some Button.right ∧ ∀ c, c < 0x40 ∨ 0x43 < c → dirLink c = none)
  ∧ (∀ (s : State) (c : Instr) (n : Nat),
       (c = .frameStart n ∧ s.AcceptsFrame n)
         ∨ (s.work.nav = .await ∧ s.work.menu ≠ .idle
           ∧ (c = .offsetSwitch ∨ c = .transitionEnd .menu ∨ c = .operationBegin .menu ∨ c = .jumpApply)) →
       ∃ t, exec c s = .next t ∧ ∀ v, t.work.menu = .idle → t.menu.view = some v →
         let judged := State.navJudge v { s with jump := t.jump }
         t.nav = judged.nav ∧ t.work.nav = judged.work.nav)
  ∧ (∀ (s : State) (v : FrameView),
       let t := State.navJudge v s
       t = { s with nav := t.nav, work := { s.work with nav := t.work.nav } }
       ∧ t.nav.judged = some v ∧ t.nav.word = s.nav.word ∧ t.nav.queue = s.nav.queue
       ∧ (v.navSlot = none →
           t.work.nav = .idle ∧ t.nav.selected = none ∧ t.nav.activation = none ∧ t.nav.digit = none ∧ t.nav.timeout = 0
           ∧ t.nav.live = none ∧ ∀ i, t.nav.buttons.get i = { vis := .normal, pair := 0, left := 0, pub := false })
       ∧ ∀ p d, v.navSlot = some p → s.page p = some d →
           let entry := v.mark = true ∨ s.navSlot ≠ some p
           let published := decide (t.work.nav = .idle)
           let pending := if entry then none else s.nav.digit
           let start := if entry then d.timeout else s.nav.timeout
           let ended := ∃ (i : Fin 24) (y : Button), d.buttons[i.val]? = some y ∧ (ButtonRec.advance y (s.nav.buttons.get i)).2 = true
           (entry →
             t.nav.selected = d.entryChoice s.nav.word ∧ t.nav.activation = none ∧ t.nav.digit = none
             ∧ ∀ (i : Fin 24) (y : Button), d.buttons[i.val]? = some y →
                 let vis : VisState := if t.nav.selected = some i.val then .selected else .normal
                 t.nav.buttons.get i =
                   { vis := vis, pair := 0, left := (y.cycle vis).head?.elim 0 (·.2), pub := published })
           ∧ (¬ entry →
             t.nav.selected = s.nav.selected ∧ t.nav.activation = s.nav.activation
             ∧ (∀ (i : Fin 24) (y : Button), d.buttons[i.val]? = some y →
                 let r := (ButtonRec.advance y (s.nav.buttons.get i)).1
                 t.nav.buttons.get i = { r with pub := r.pub || published })
             ∧ (t.work.nav = .actEnd ↔ ended)
             ∧ (ended → t.nav.digit = s.nav.digit ∧ t.nav.timeout = s.nav.timeout))
           ∧ (entry ∨ ¬ ended →
             t.CountsDown pending start)
           ∧ (∀ i : Fin 24, d.buttons[i.val]? = none → t.nav.buttons.get i =
               if entry then { vis := .normal, pair := 0, left := 0, pub := false } else s.nav.buttons.get i)
           ∧ (t.work.nav = .idle → t.ShowsLive p d))
  ∧ (∀ (s : State) (v : FrameView),
       let t := State.navJudge v s
       let held : Option PageView := if s.navSlot.isSome ∧ v.navSlot ≠ s.navSlot then s.nav.live else s.nav.frozen
       (∀ p, v.navSlot = some p → (s.page p).isSome = true) → t.work.nav = .idle → t.ShowsFrozen v held)
  ∧ ((∀ (y : Button) (v : VisState), y.atStart v = { vis := v, pair := 0, left := (y.cycle v).head?.elim 0 (·.2), pub := false })
     ∧ (∀ y : Button, y.cycle .normal = livePairs y.normal ∧ y.cycle .selected = livePairs y.selected
         ∧ y.cycle .activating = livePairs y.activated)
     ∧ ∀ c : List (Byte × Nat), (∀ x ∈ livePairs c, x.2 ≠ 0)
         ∧ ∃ rest, c = livePairs c ++ rest ∧ ∀ x, rest.head? = some x → x.2 = 0)
  ∧ (∀ (y : Button) (r : ButtonRec),
       let c := y.cycle r.vis
       (r.pub = false ∨ c = [] → ButtonRec.advance y r = (r, false))
       ∧ (r.pub = true → c ≠ [] →
           (1 < r.left → ButtonRec.advance y r = ({ r with left := r.left - 1 }, false))
           ∧ (∀ x, r.left ≤ 1 → getElem? c (r.pair + 1) = some x → ButtonRec.advance y r = ({ r with pair := r.pair + 1, left := x.2 }, false))
           ∧ (∀ x, r.left ≤ 1 → c.length ≤ r.pair + 1 → r.vis ≠ .activating → c.head? = some x →
               ButtonRec.advance y r = ({ r with pair := 0, left := x.2 }, false))
           ∧ (r.left ≤ 1 → c.length ≤ r.pair + 1 → r.vis = .activating → ButtonRec.advance y r = ({ r with left := 0 }, true))))

/-- SELECT_BUTTON and INJECT_KEY join the tail of the key queue when it holds fewer than 8 items, and stall while it holds 8 (R155).
TAKE_ITEM while an activation runs, a jump pends or the unit's frame-start work is being done (log 3) takes nothing; while the unit
is inactive a key is passed and a SELECT retires NOT_SELECTABLE (R156, R157, R164). -/
def Obligations.ItemsJoinTheQueueAndAreTaken : Prop :=
  (∀ (s : State) (task : Task) (select : Bool), s.inHand (if select then 11 else 12) = some task →
     ∃ t, exec (if select then .selectButton else .injectKey) s = .next t
       ∧ (8 ≤ s.nav.queue.length → s.Stalls t)
       ∧ (s.nav.queue.length < 8 →
           s.HandsOver t
           ∧ t.nav = { s.nav with queue := s.nav.queue ++
               [if select then .select (task.p8 16) (task.pbit 17 0) task.ref
                else .key (BitVec.ofNat 8 (task.p8 16)) (some task.ref)] }
           ∧ t = { s with nav := t.nav, walker := t.walker, port := { s.port with walkerQ := t.port.walkerQ } }))
  ∧ (∀ (s : State) (i : KeyItem) (rest : List KeyItem), s.nav.queue = i :: rest →
       (s.nav.activation ≠ none ∨ s.jump ≠ none ∨ s.work.nav ≠ .idle → exec .takeItem s = .next s)
       ∧ (s.nav.activation = none → s.jump = none → s.work.nav = .idle → s.nav.digit = none → s.navSlot = none →
           ∃ t, exec .takeItem s = .next t ∧ t.nav = { s.nav with queue := rest }
             ∧ t = { s with nav := t.nav, attention := t.attention, notices := t.notices, stats := t.stats,
                            walker := { s.walker with retiring := t.walker.retiring },
                            port := { s.port with walkerQ := t.port.walkerQ } }
             ∧ (∀ c src, i = .key c src → s.notices.queue.length < 8 →
                 t.notices.queue = s.notices.queue ++ [{ body := .keyPassed c src.isSome none, stamp := s.timer.stamp }])
             ∧ (∀ c r, i = .key c (some r) → t.walker.retiring = s.walker.retiring ++ [s.retirement r .done 0 []])
             ∧ (∀ c, i = .key c none → t.walker = s.walker)
             ∧ (∀ b a r, i = .select b a r → t.walker.retiring = s.walker.retiring ++ [s.retirement r .notSelectable 0 []])))

/-- TAKE_ITEM on an active unit with no digit entry: a direction key moves the selection to the button the search finds, pressing it
when its auto-activate flag is set, and leaves it otherwise; OK presses the selected button; either is passed when none is selected, and
so is a key of any other code but a digit. A SELECT selects a visible button, and presses it when its flag is set. A digit opens an
entry, presses a button or is passed. A press begins the button's activation, which ends at once, its actions running, when its
ACTIVATED cycle is empty (R143). With an entry pending a second digit ends it, pressing the button of the two-digit number when there is
one; any other item first ends it as on expiry, and is then taken as usual unless the ending found a button to press, when it stays at
the head (R161, R162). A consumed key and a SELECT that retires DONE set the page timeout counter (R141, R157 to R161, R164, R165). A
button's number stands for it when it is visible, and the digit opens an entry when a visible button's number begins with it (R160). -/
def Obligations.KeysAndSelectsMoveTheSelection : Prop :=
  (∀ (s : State) (i : KeyItem) (rest : List KeyItem) (slot : SlotId) (d : PageDef),
     s.nav.queue = i :: rest → s.nav.activation = none → s.jump = none → s.work.nav = .idle → s.nav.digit = none →
     s.navSlot = some slot → s.navPage = some d →
     ∃ t, exec .takeItem s = .next t ∧ s.TakesItem t rest
       ∧ ((∀ c src n, i = .key c src → digitOf c = some n → d.longer s.nav.word n = false) → t.nav.digit = none)
       ∧ (∀ c src dir, i = .key c src → dirLink c.toNat = some dir →
           (s.nav.selected = none → s.Passes t c src)
           ∧ ∀ b, s.nav.selected = some b →
               let found := searchLinks d s.nav.word dir b 24 ((d.buttons[b]?.map dir).getD 255)
               s.Consumes t d src
               ∧ (found = none → t.nav = { s.nav with queue := rest, timeout := d.timeout })
               ∧ (∀ x y, found = some x → d.buttons[x]? = some y → y.auto = false → s.Selects t d x)
               ∧ (∀ x y, found = some x → d.buttons[x]? = some y → y.auto = true → s.Activates t slot d x false))
       ∧ (∀ src, i = .key 0x44 src →
           (s.nav.selected = none → s.Passes t 0x44 src)
           ∧ ∀ b, s.nav.selected = some b → s.Consumes t d src ∧ s.Activates t slot d b false)
       ∧ (∀ c src, i = .key c src → dirLink c.toNat = none → c ≠ 0x44 → digitOf c = none → s.Passes t c src)
       ∧ (∀ x act r, i = .select x act r →
           (d.visible s.nav.word x = true → t.nav.timeout = d.timeout
             ∧ t.walker.retiring = s.walker.retiring ++ [s.retirement r .done 0 []]
             ∧ (act = false → s.Selects t d x) ∧ (act = true → s.Activates t slot d x false))
           ∧ (d.visible s.nav.word x = false → t.nav = { s.nav with queue := rest } ∧ t.jump = s.jump ∧ t.slots = s.slots
             ∧ t.walker.retiring = s.walker.retiring ++ [s.retirement r .notSelectable 0 []]))
       ∧ (∀ c src n tn, i = .key c src → digitOf c = some n → s.run.tun = some tn →
           (d.longer s.nav.word n = true → s.Consumes t d src
             ∧ t.nav = { s.nav with
                 queue := rest, digit := some { digit := n, left := tn.digitWindow, slot := slot }, timeout := d.timeout })
           ∧ (d.longer s.nav.word n = false → d.numbered s.nav.word n = none → s.Passes t c src)
           ∧ (∀ x, d.longer s.nav.word n = false → d.numbered s.nav.word n = some x →
               s.Consumes t d src ∧ s.Activates t slot d x false)))
  ∧ (∀ (s : State) (c : Byte) (src : Option TaskRef) (rest : List KeyItem) (slot : SlotId) (d : PageDef) (e : DigitEntry) (n : Nat),
       s.nav.queue = .key c src :: rest → s.nav.activation = none → s.jump = none → s.work.nav = .idle → s.nav.digit = some e →
       s.navSlot = some slot → s.navPage = some d → digitOf c = some n →
       ∃ t, exec .takeItem s = .next t ∧ s.TakesItem t rest ∧ t.nav.digit = none ∧ s.Consumes t d src
         ∧ (d.numbered s.nav.word (10 * e.digit + n) = none → t.nav = { s.nav with queue := rest, digit := none, timeout := d.timeout })
         ∧ ∀ b, d.numbered s.nav.word (10 * e.digit + n) = some b → s.Activates t slot d b false)
  ∧ (∀ (s : State) (i : KeyItem) (rest : List KeyItem) (slot : SlotId) (d : PageDef) (e : DigitEntry),
       s.nav.queue = i :: rest → s.nav.activation = none → s.jump = none → s.work.nav = .idle → s.nav.digit = some e →
       s.navSlot = some slot → s.navPage = some d → (∀ c src, i = .key c src → digitOf c = none) →
       (d.numbered s.nav.word e.digit = none → exec .takeItem s = exec .takeItem { s with nav := { s.nav with digit := none } })
       ∧ ∀ b, d.numbered s.nav.word e.digit = some b → ∃ t, exec .takeItem s = .next t
           ∧ s.TakesItem t s.nav.queue ∧ t.nav.digit = none ∧ t.nav.timeout = s.nav.timeout ∧ t.walker = s.walker
           ∧ t.port = s.port ∧ s.Activates t slot d b false)
  ∧ (∀ (d : PageDef) (w : Word) (n i : Nat),
       (d.numbered w n = some i ↔ n ≠ 0 ∧ (∃ b, d.buttons[i]? = some b ∧ b.number = n ∧ b.visible w = true)
         ∧ ∀ j b, j < i → d.buttons[j]? = some b → ¬ (b.number = n ∧ b.visible w = true))
       ∧ (d.longer w n = true ↔ ∃ b ∈ d.buttons, b.visible w = true ∧ b.number ≠ 0 ∧ 10 * n ≤ b.number ∧ b.number ≤ 10 * n + 9))
  ∧ ∀ (c : Byte) (n : Nat), digitOf c = some n ↔ c.toNat = 0x30 + n ∧ n ≤ 9

/-- ACTIVATION_END at a frame start runs the button's two actions in item order, each on the state that the one before it left: NOTIFY
submits BUTTON_ACTION with the word as it stands, TOGGLE changes the word and submits STATE_CHANGED, and the notices join the queue in
that order (R144 to R146). A JUMP delivers the pending jump with its hold accepted or refused, an older pending jump giving up its hold
and failing with a SUPERSEDED notice first (R88, R90, R147; that notice names no slot shown before, log 13). At most one action is a
JUMP (R52). The activation is then over, and the selection stands on the button when it is visible under the word the actions leave,
else on the entry choice, with the records that R141 and R144 give (R142, R144). The key queue stands. The digit window and the timeout
then count down, to DIGIT_WINDOW_EXPIRY or PAGE_TIMEOUT, or the views are published (R138, R163, R165, R166; log 3). -/
def Obligations.ActivationEndRunsTheActions : Prop :=
  ∀ (s : State) (slot : SlotId) (d : PageDef) (b : Nat) (y : Button),
    s.work.nav = .actEnd → s.navSlot = some slot → s.navPage = some d → s.nav.activation = some b →
    d.buttons[b]? = some y → s.nav.selected = some b → ¬ (y.act1.isJump = true ∧ y.act2.isJump = true) →
    ∃ t, exec .activationEnd s = .next t
      ∧ t = { s with heap := { s.heap with view := t.heap.view }, slots := t.slots, slide := t.slide, menu := t.menu,
                     drawnViews := t.drawnViews, nav := t.nav, composer := t.composer, stats := t.stats, work := t.work,
                     port := { s.port with lfReq := t.port.lfReq },
                     jump := t.jump, attention := t.attention, notices := t.notices }
      ∧ s.ActionsRun t slot d b y (decide (t.work.nav = .idle))
      ∧ s.KeepsKeys t ∧ t.CountsDown s.nav.digit s.nav.timeout ∧ s.PublishesOrWaits t slot d

/-- DIGIT_WINDOW_EXPIRY and PAGE_TIMEOUT: an entry whose window has run out ends, selecting and activating the visible button of that
number or changing nothing; a timeout presses the visible default or submits PAGE_TIMEOUT (R162, R163, R166). A press begins the
button's activation, which ends at once, its actions running, when its ACTIVATED cycle is empty (R143, R144), with the records that R141
gives. The key queue stands. After an expiry the timeout counts down, to PAGE_TIMEOUT or to the publishing of the views; after a timeout
the views are published (R138, R165, R166; log 3). -/
def Obligations.ExpiryAndTimeoutPressButtons : Prop :=
  ∀ (s : State) (slot : SlotId) (d : PageDef),
    s.navSlot = some slot → s.navPage = some d → s.nav.activation = none →
    (∀ e, s.work.nav = .expiry → s.nav.digit = some e → ∃ t, exec .digitWindowExpiry s = .next t
      ∧ t = { s with heap := { s.heap with view := t.heap.view }, slots := t.slots, slide := t.slide, menu := t.menu, drawnViews := t.drawnViews,
                     nav := t.nav, composer := t.composer, stats := t.stats, work := t.work,
                     port := { s.port with lfReq := t.port.lfReq },
                     jump := t.jump, attention := t.attention, notices := t.notices }
      ∧ s.KeepsKeys t ∧ t.CountsDown none s.nav.timeout ∧ s.PublishesOrWaits t slot d
      ∧ (let pub := decide (t.work.nav = .idle)
         (d.numbered s.nav.word e.digit = none → t.nav.selected = s.nav.selected ∧ t.nav.word = s.nav.word
            ∧ t.nav.activation = none ∧ t.jump = s.jump ∧ t.slots = s.slots ∧ t.notices = s.notices ∧ s.KeepsRecords t d pub)
         ∧ ∀ b, d.numbered s.nav.word e.digit = some b → s.Activates t slot d b pub))
    ∧ (s.work.nav = .timeout → ∃ t, exec .pageTimeout s = .next t
      ∧ t = { s with heap := { s.heap with view := t.heap.view }, slots := t.slots, slide := t.slide, menu := t.menu, drawnViews := t.drawnViews,
                     nav := t.nav, composer := t.composer, stats := t.stats, work := t.work,
                     port := { s.port with lfReq := t.port.lfReq },
                     jump := t.jump, attention := t.attention, notices := t.notices }
      ∧ s.KeepsKeys t ∧ t.work.nav = .idle ∧ t.nav.digit = s.nav.digit ∧ t.nav.timeout = s.nav.timeout
      ∧ s.PublishesOrWaits t slot d
      ∧ (∀ b, d.dflt = some b → d.visible s.nav.word b = true → s.Activates t slot d b true)
      ∧ ((∀ b, d.dflt = some b → d.visible s.nav.word b = false) →
          t.nav.selected = s.nav.selected ∧ t.nav.word = s.nav.word ∧ t.nav.activation = none ∧ t.jump = s.jump
          ∧ t.slots = s.slots ∧ s.KeepsRecords t d true
          ∧ (s.notices.queue.length < 8 → t.notices.queue = s.notices.queue ++
              [{ body := .pageTimeout slot s.nav.selected s.nav.word, stamp := s.timer.stamp }])))

/-- START_EDGE, FALSE_START and KEY_FRAME: the receiver works when the part does and the enable is set; a false start at 4 x D ticks
returns it to IDLE; at the stop sample, 84 x D ticks, a stop bit of 0 is a framing error, an address frame sets or clears listening,
and a data frame queues a key while listening (R151 to R154). The frame's bits come as operands and the count stands at the stop
sample (log 18); time comes as their operand, and a loss of sync that it goes past is taken (log 1, R66). -/
def Obligations.KeyFramesAreReceivedAndJudged : Prop :=
  ∀ (s : State) (tn : Tunables), s.active = true → s.run.tun = some tn → tn.keyEnable = true →
    (s.keyline.recv = .idle → exec .startEdge s = .next { s with keyline := { s.keyline with recv := .receiving 0 } })
    ∧ (∀ k n, s.keyline.recv = .receiving k → 0 < tn.keyDiv → k + n = 4 * tn.keyDiv →
        ∃ u t, s.Watched n u ∧ exec (.falseStart n) s = .next t
          ∧ t = { u with keyline := { s.keyline with recv := .idle }, timer := { u.timer with tick := t.timer.tick } })
    ∧ (∀ k n byte marker stop, s.keyline.recv = .receiving k → 84 * tn.keyDiv ≤ k + n →
        ∃ u t, s.Watched n u ∧ exec (.keyFrame n byte marker stop) s = .next t ∧ t.keyline.recv = .idle
          ∧ (stop = false →
              t.stats = { u.stats with framing := u.stats.framing + 1 } ∧ t.keyline.listening = s.keyline.listening
              ∧ t.nav = s.nav)
          ∧ (stop = true → marker = true →
              (t.keyline.listening = true ↔ byte.toNat % 128 = tn.keyAddr ∨ byte.toNat % 128 = 0)
              ∧ t.nav = s.nav ∧ t.stats = u.stats)
          ∧ (stop = true → marker = false → s.keyline.listening = false →
              t.keyline.listening = false ∧ t.nav = s.nav ∧ t.stats = u.stats)
          ∧ (stop = true → marker = false → s.keyline.listening = true →
              t.keyline.listening = true
              ∧ (s.nav.queue.length < 8 → t.nav = { s.nav with queue := s.nav.queue ++ [.key byte none] } ∧ t.stats = u.stats)
              ∧ (8 ≤ s.nav.queue.length →
                  t.nav = s.nav ∧ t.stats = { u.stats with keysDropped := u.stats.keysDropped + 1 }))
          ∧ t = { u with keyline := t.keyline, nav := t.nav, stats := t.stats, timer := { u.timer with tick := t.timer.tick } })

/-! ### Composition and output (06) -/

/-- div255(x) = ((x + 128) + ((x + 128) div 256)) div 256 is the nearest whole number to x / 255, rises with x and undoes a product by
255; sdiv255 is it with the sign restored (R106). -/
def Obligations.RoundingDivisionIsNearest : Prop :=
  (∀ x : Nat, x ≤ 65025 → div255 x = ((x + 128) + (x + 128) / 256) / 256 ∧ 255 * div255 x ≤ x + 127 ∧ x ≤ 255 * div255 x + 127)
    ∧ (∀ x y : Nat, x ≤ y → div255 x ≤ div255 y) ∧ (∀ m : Nat, m ≤ 255 → div255 (255 * m) = m)
    ∧ ∀ x : Int, (0 ≤ x → sdiv255 x = div255 x.natAbs) ∧ (x < 0 → sdiv255 x = -(div255 x.natAbs : Int))

/-- PIXEL_CLOCK with no frame-start work outstanding: in STOPPED and STARTING, with no span tables, while forced, before the first line
start and outside the plane the pixel is (0, 0, 0, 0); the pixel counter rises by 1 once a frame start has been accepted (log 25);
nothing else changes (R100, R112). Anywhere else it is the menu plane's value laid over the slide plane's, chroma limited to -128 to
127 (R108, R110). A plane's value mixes the incoming and the outgoing values by the frame view's fade; outside a crossing every span counts as
incoming and the outgoing value is all 0 (R109). The spans that cover the point are laid over each other in span order (R108); a blank
or underrun span is transparent (R97, R104), any other shows its palette entry premultiplied, by the index byte of its row (R98, R107).
Every pixel sent has alpha within 0 to 255, luma and both chroma magnitudes at most alpha, and
chroma from -128 to 127, the frame views' fades lying within 0 to 255 (R110, R111). -/
def Obligations.PixelClockOutputsAPremultipliedPixel : Prop :=
  (∀ s : State, s.work = {} →
     ∃ t, exec .pixelClock s = .next t
       ∧ t = { s with composer := { s.composer with output := t.composer.output, pixel := t.composer.pixel } }
       ∧ t.composer.pixel = (if s.composer.marker = none then s.composer.pixel else s.composer.pixel + 1)
       ∧ (s.active = false ∨ s.composer.marker = none ∨ s.timer.forced = true ∨ s.composer.lineStarted = false
           ∨ s.planeSize.1 ≤ s.composer.pixel ∨ s.planeSize.2 ≤ s.composer.line → t.composer.output = { a := 0, y := 0, cb := 0, cr := 0 })
       ∧ (s.active = true → s.composer.marker ≠ none → s.timer.forced = false → s.composer.lineStarted = true →
           s.composer.pixel < s.planeSize.1 → s.composer.line < s.planeSize.2 →
           let m := s.planeColour .menu s.composer.pixel s.composer.line
           let l := s.planeColour .slide s.composer.pixel s.composer.line
           let k : Nat := 255 - m.a
           t.composer.output =
             { a := m.a + div255 (l.a * k), y := m.y + div255 (l.y * k),
               cb := max (-128) (min 127 (m.cb + sdiv255 (l.cb * k))), cr := max (-128) (min 127 (m.cr + sdiv255 (l.cr * k))) }))
  ∧ (∀ s t : State, s.work = {} → (∀ q v, (s.plane q).view = some v → v.fade ≤ 255) → exec .pixelClock s = .next t →
       t.composer.output.bounded = true ∧ t.composer.output.inRange = true)
  ∧ (∀ (s : State) (q : PlaneId) (x y : Nat),
       let line := (s.raster q).bufs.find? fun b => decide (b.line = y)
       ((s.plane q).view = none ∨ line = none → s.planeColour q x y = { a := 0, y := 0, cb := 0, cr := 0 })
       ∧ ∀ v b, (s.plane q).view = some v → line = some b →
           let mixed (n o : Colour) : Colour :=
             let g : Nat := 255 - v.fade
             { a := div255 (n.a * v.fade + o.a * g), y := div255 (n.y * v.fade + o.y * g),
               cb := sdiv255 (n.cb * v.fade + o.cb * g), cr := sdiv255 (n.cr * v.fade + o.cr * g) }
           ((∃ i o k n, v.content = .crossing i o k n) → s.planeColour q x y =
             mixed (s.stack x (b.spans.filter fun f => decide (f.span.role ≠ .outgoing)))
               (s.stack x (b.spans.filter fun f => decide (f.span.role = .outgoing))))
           ∧ ((∀ i o k n, v.content ≠ .crossing i o k n) → s.planeColour q x y =
             mixed (s.stack x b.spans) { a := 0, y := 0, cb := 0, cr := 0 }))
  ∧ (∀ (s : State) (x : Nat) (l : List SpanFetch) (f : SpanFetch),
       s.stack x [] = { a := 0, y := 0, cb := 0, cr := 0 }
       ∧ (¬ (f.span.left ≤ x ∧ x < f.span.left + f.span.width) → s.stack x (l ++ [f]) = s.stack x l)
       ∧ (f.span.left ≤ x → x < f.span.left + f.span.width →
           let top := s.spanColour f x
           let bot := s.stack x l
           let k : Nat := 255 - top.a
           s.stack x (l ++ [f]) =
             { a := top.a + div255 (bot.a * k), y := top.y + div255 (bot.y * k),
               cb := top.cb + sdiv255 (bot.cb * k), cr := top.cr + sdiv255 (bot.cr * k) })
       ∧ (f.span.blank = true ∨ f.under = true → s.spanColour f x = { a := 0, y := 0, cb := 0, cr := 0 })
       ∧ (f.span.blank = false → f.under = false →
           let e := s.colour f.span.pal (f.index (x - f.span.left)).toNat
           s.spanColour f x =
             { a := e.a.toNat, y := div255 (e.y.toNat * e.a.toNat),
               cb := sdiv255 (((e.cb.toNat : Int) - 128) * e.a.toNat), cr := sdiv255 (((e.cr.toNat : Int) - 128) * e.a.toNat) }))
  ∧ (∀ (s : State) (p : Fin 8) (i : Fin 256), s.colour p.val i.val = (s.palette.applied.get p).get i)
  ∧ (∀ (f : SpanFetch) (blocks : List (List Byte)) (i : Nat), f.got = blocks.map some → (∀ b ∈ blocks, b.length = 64) →
       f.index i = blocks.flatten.getD (f.base % 64 + i) 0)

/-- LINE_START after an accepted frame start, with no frame-start work outstanding: the first begins line 0, each later one the next
line, with the pixel counter 0; a plane's line with a span that lacks bursts counts one underrun, in the frame's count and in the
statistics (R126); before the first accepted frame start nothing changes (R100, R104). Each plane's line is judged: its spans that lack
bursts underrun, its waiting request is withdrawn, the buffers of the lines before it are freed, and each free buffer begins the lowest
line not yet begun, its last 16 spans kept and the others counted as dropped (R99, R101, R104, R126); a request is then presented (log
11). The slide plane's work never stands at a pending jump: it does not at reset, and every step keeps it so, for a jump is pending on
the menu plane alone (R79, R88). FRAME_START, LINE_START and PIXEL_CLOCK that come while frame-start work is outstanding first finish
it, by the step commands' own effects, and then have their effect; the state so reached has no work outstanding (log 3, the model's
choice). A schedule holds at most 8 entries (R75). -/
def Obligations.LineStartBeginsTheNextLine : Prop :=
  (∀ s : State, s.work = {} →
    (s.composer.marker = none → exec .lineStart s = .next s)
    ∧ (s.composer.marker ≠ none → ∃ t, exec .lineStart s = .next t
        ∧ t.composer.lineStarted = true ∧ t.composer.pixel = 0
        ∧ t.composer.line = (if s.composer.lineStarted then s.composer.line + 1 else 0)
        ∧ (let lacks (r : Raster) : Nat :=
            match r.bufs.find? fun b => decide (b.line = t.composer.line) with
            | some b => if b.ready then 0 else 1
            | none => 0
          t.composer.underruns = s.composer.underruns + (lacks s.composer.slide + lacks s.composer.menu)
            ∧ t.stats.underruns = s.stats.underruns + BitVec.ofNat 32 (lacks s.composer.slide + lacks s.composer.menu))
        ∧ (let begun (q : PlaneId) : List Nat :=
             let kept := ((s.raster q).bufs.filter fun b => decide (t.composer.line ≤ b.line)).length
             List.range' (s.raster q).next (min (4 - kept) (s.planeSize.2 - (s.raster q).next))
           let dropped (q : PlaneId) : Nat := ((begun q).map fun y => (covering y (s.raster q).spans).length - 16).sum
           (∀ q, t.raster q = { s.raster q with
               next := (s.raster q).next + (begun q).length,
               bufs := (((s.raster q).bufs.filter fun b => decide (t.composer.line ≤ b.line)).map fun b =>
                   if b.line = t.composer.line then
                     { b with judged := true, spans := b.spans.map fun x => { x with under := !x.arrived } }
                   else b)
                 ++ (begun q).map (lineBegun (s.raster q).spans) })
           ∧ t.composer.drops = s.composer.drops + (dropped .slide + dropped .menu)
           ∧ t.stats.drops = s.stats.drops + BitVec.ofNat 32 (dropped .slide + dropped .menu))
        ∧ t.composer = { s.composer with
            slide := t.composer.slide, menu := t.composer.menu, lineStarted := true, line := t.composer.line, pixel := 0,
            underruns := t.composer.underruns, drops := t.composer.drops, lastPlane := t.composer.lastPlane }
        ∧ t = { s with composer := t.composer, stats := { s.stats with underruns := t.stats.underruns, drops := t.stats.drops },
                       port := { s.port with lfReq := t.port.lfReq } }
        ∧ (let ofLine (r : Burst) : Prop :=
             ∃ q i, r.user = .line q t.composer.line i ∧ ∃ b ∈ (s.raster q).bufs, b.line = t.composer.line
           ∃ left : Option Burst, (∀ r, s.port.lfReq = some r → ofLine r → left = none)
             ∧ ((∀ r, s.port.lfReq = some r → ¬ ofLine r) → left = s.port.lfReq)
             ∧ t = State.lfPresent { t with
                 port := { t.port with lfReq := left }, composer := { t.composer with lastPlane := s.composer.lastPlane } })))
  ∧ (∀ b : LineBuf, b.ready = true ↔ ∀ x ∈ b.spans, x.got.length = x.bursts ∧ ∀ g ∈ x.got, g ≠ none)
  ∧ (∀ x : SpanFetch, x.arrived = true ↔ x.got.length = x.bursts ∧ ∀ g ∈ x.got, g ≠ none)
  ∧ (∀ s t : State, s.work.slide ≠ .jump → step s = .next t → t.work.slide ≠ .jump)
  ∧ State.reset.work.slide ≠ .jump
  ∧ ∀ s : State, s.work.slide ≠ .jump → s.slide.schedule.length ≤ 8 → s.menu.schedule.length ≤ 8 →
      ∃ u, u.work = {} ∧ (s.work = {} → u = s)
        ∧ (s.work ≠ {} → ∃ l, (∀ c ∈ l, c ∈ workSteps) ∧ Runs l s.advanceWork u)
        ∧ exec .lineStart s = exec .lineStart u ∧ exec .pixelClock s = exec .pixelClock u
        ∧ ∀ n, exec (.frameStart n) s = exec (.frameStart n) u

/-- LINE_FETCH_BURST_COMPLETE: the bytes join their span in a line buffer not yet judged, an error response leaves the span without the
burst, and nothing else changes (R101, R104, R105); bytes that come for a line judged, or no longer held, are not used (R104). A span's
row stands at its source line in the object's rows, and is read by the bursts that cover it (R102). Line fetch presents one request at a
time, for the plane with fewer lines ahead, in turn when they are level, and within it for the lowest line not judged, and there the
first span, that has a burst not yet granted (R101, R102; log 11 for the moment and for lines that have nothing left to ask). It is
urgent when such a plane has fewer lines ahead than the threshold (R103). At most 16 spans are drawn on a line, the last 16 in span order, and a row's
bursts cover it by the count of R102 (R99, R102). Once the composer's frame-start work is done, by FRAME_START or by the last step of
that work (log 3), the marker stands at the frame, the frames composed have risen by 1, each plane's span table is that of its frame
view, and line fetch has begun lines 0 to 3, or as many as the plane has (R93, R101; log 11). The table is the concatenation of its pages' spans by the plane's
state, each page's in placement order (R94). A placement of a button draws the current pair's object of its button view, the live one or the frozen
copy, its own when the cycle is empty, and nothing when hidden (R95, R137). Its span covers exactly the points of its clamped and
clipped rectangle, and stands only when there is one; its source origin moves with the clip, and an object that is not drawable gives a blank span
(R96, R97, R98). -/
def Obligations.LinesFetchTheirLastSixteenSpans : Prop :=
  (∀ (s : State) (err : Bool) (f : Flight) (q : PlaneId) (y i : Nat) (pre post : List LineBuf) (b : LineBuf) (x : SpanFetch),
     s.LandingRead f (.line q y i) → (s.raster q).bufs = pre ++ b :: post → b.line = y → b.judged = false →
     b.spans[i]? = some x → (∀ c ∈ pre ++ post, c.line ≠ y) →
     ∃ t, exec (.lineFetchBurstComplete err) s = .next t
       ∧ (let x' : SpanFetch := { x with got := x.got ++ [if f.refused = true ∨ err = true then none else some f.data] }
         t.raster q = { s.raster q with bufs := pre ++ { b with spans := b.spans.set i x' } :: post })
       ∧ t.raster (otherPlane q) = s.raster (otherPlane q)
       ∧ t = { s.landed with composer := { s.composer with slide := t.composer.slide, menu := t.composer.menu } })
  ∧ ((∀ (s : State) (q : PlaneId), (s.raster q).next < s.planeSize.2 → (s.raster q).bufs.length < 4 →
       ∃ pre kept, covering (s.raster q).next (s.raster q).spans = pre ++ kept
         ∧ kept.length = min 16 (covering (s.raster q).next (s.raster q).spans).length
         ∧ lineBegun (s.raster q).spans (s.raster q).next =
             { line := (s.raster q).next, spans := kept.map (Span.fetch (s.raster q).next), judged := false }
         ∧ (let t := s.beginLine q
            t.raster q = { s.raster q with
                bufs := (s.raster q).bufs ++ [lineBegun (s.raster q).spans (s.raster q).next], next := (s.raster q).next + 1 }
            ∧ t.raster (otherPlane q) = s.raster (otherPlane q)
            ∧ t = { s with
                composer := { s.composer with
                  slide := t.composer.slide, menu := t.composer.menu, drops := s.composer.drops + pre.length },
                stats := { s.stats with drops := s.stats.drops + BitVec.ofNat 32 pre.length } }))
     ∧ (∀ (s : State) (q : PlaneId), s.planeSize.2 ≤ (s.raster q).next ∨ 4 ≤ (s.raster q).bufs.length → s.beginLine q = s)
     ∧ (∀ (y : Nat) (l : List Span), covering y l = l.filter fun x => decide (x.top ≤ y ∧ y < x.top + x.height))
     ∧ ∀ a w : Nat, 0 < w → ∀ k : Nat, (a / 64 ≤ k ∧ k < a / 64 + burstsFor a w) ↔ ∃ n, a ≤ n ∧ n < a + w ∧ n / 64 = k)
  ∧ (∀ (s : State) (err : Bool) (f : Flight) (q : PlaneId) (y i : Nat),
       s.LandingRead f (.line q y i) → (∀ b ∈ (s.raster q).bufs, b.line = y → b.judged = true) →
       exec (.lineFetchBurstComplete err) s = .next s.landed)
  ∧ (∀ (y : Nat) (x : Span),
       (x.blank = true → Span.fetch y x = { span := x, base := 0, bursts := 0, granted := 0, got := [], under := false })
       ∧ (x.blank = false →
           let a := 64 * x.heapOff + (x.sy + y - x.top) * x.objW + x.sx
           Span.fetch y x = { span := x, base := a, bursts := (a + x.width - 1) / 64 - a / 64 + 1,
                              granted := 0, got := [], under := false }))
  ∧ (∀ (s : State) (q : PlaneId),
       (s.wants q = true ↔ ∃ b ∈ (s.raster q).bufs, b.judged = false ∧ ∃ x ∈ b.spans, x.granted < x.bursts)
       ∧ s.linesAhead q = ((s.raster q).bufs.filter fun b =>
           b.ready && decide (s.composer.lineStarted = false ∨ s.composer.line < b.line)).length
       ∧ (s.fetchPlane = none ↔ s.wants .slide = false ∧ s.wants .menu = false)
       ∧ (s.fetchPlane = some q ↔ s.wants q = true
           ∧ (s.wants (otherPlane q) = true → s.linesAhead q < s.linesAhead (otherPlane q)
               ∨ (s.linesAhead q = s.linesAhead (otherPlane q) ∧ s.composer.lastPlane = otherPlane q)))
       ∧ (s.port.lfReq ≠ none ∨ s.fetchPlane = none → s.lfPresent = s))
  ∧ (∀ (s : State) (q : PlaneId) (pre post : List LineBuf) (b : LineBuf) (pre' post' : List SpanFetch) (x : SpanFetch),
       s.port.lfReq = none → s.fetchPlane = some q → (s.raster q).bufs = pre ++ b :: post → b.judged = false →
       (∀ c ∈ pre, c.judged = true ∨ ∀ z ∈ c.spans, z.bursts ≤ z.granted) → b.spans = pre' ++ x :: post' →
       (∀ z ∈ pre', z.bursts ≤ z.granted) → x.granted < x.bursts →
       let r : Burst :=
         { user := .line q b.line pre'.length, block := s.heapBase + 64 * (x.base / 64 + x.granted), sel := none }
       s.lfPresent = { s with port := { s.port with lfReq := some r }, composer := { s.composer with lastPlane := q } })
  ∧ (∀ s : State, s.urgent = true ↔
       ∃ q tn, s.run.tun = some tn ∧ s.wants q = true ∧ s.linesAhead q < tn.threshold)
  ∧ (∀ (s : State) (c : Instr) (n : Nat), (c = .frameStart n ∧ s.AcceptsFrame n) ∨ (c ∈ workSteps ∧ s.work.comp = true) →
       ∃ t, exec c s = .next t ∧ (t.work.comp = false →
         t.composer.marker = some t.timer.stamp ∧ t.stats.frames = s.stats.frames + 1
         ∧ ∀ q, (t.raster q).spans = ((t.plane q).view.elim [] fun v => t.spanTable v.content)
             ∧ (t.raster q).bufs = (List.range (min 4 t.planeSize.2)).map (lineBegun (t.raster q).spans)
             ∧ (t.raster q).next = min 4 t.planeSize.2))
  ∧ (∀ (s : State) (i o : SlotId) (k n : Nat),
       s.spanTable .empty = [] ∧ s.spanTable (.shown i) = s.pageSpans .single i
       ∧ s.spanTable (.entering i k n) = s.pageSpans .incoming i
       ∧ s.spanTable (.crossing i o k n) = s.pageSpans .outgoing o ++ s.pageSpans .incoming i
       ∧ s.spanTable (.leaving o k n) = s.pageSpans .outgoing o)
  ∧ (∀ (s : State) (role : SpanRole) (x : SlotId),
       (∀ d, s.page x = some d → s.pageSpans role x = d.placements.zipIdx.filterMap fun p =>
         (drawnObject d (s.buttonView x) p.2 p.1).bind fun o => (s.objView o).bind (spanOf s.planeSize.1 s.planeSize.2 role p.1 o))
       ∧ (∀ w, s.nav.live = some w → w.slot = x → s.buttonView x = some w)
       ∧ (∀ w, (∀ l, s.nav.live = some l → l.slot ≠ x) → s.nav.frozen = some w → w.slot = x → s.buttonView x = some w))
  ∧ (∀ (d : PageDef) (pv : Option PageView) (i : Nat) (p : Placement),
       ((∀ b ∈ d.buttons, b.placement ≠ i) → drawnObject d pv i p = some p.obj)
       ∧ ∀ (j : Nat) (b : Button) (w : PageView) (v : ButtonView), d.buttons[j]? = some b → b.placement = i →
           (∀ (k : Nat) (e : Button), k < j → d.buttons[k]? = some e → e.placement ≠ i) → pv = some w → w.buttons[j]? = some v →
           (v.visible = false → drawnObject d pv i p = none)
           ∧ (v.visible = true → b.cycle v.vis = [] → drawnObject d pv i p = some p.obj)
           ∧ (∀ x : Byte × Nat, v.visible = true → (b.cycle v.vis)[v.pair]? = some x → drawnObject d pv i p = some x.1))
  ∧ (∀ (pw ph : Nat) (role : SpanRole) (p : Placement) (o : Byte) (v : EntryView),
       let stretch (from' size whole : Nat) : Nat := min (from' + if size = 0 then whole else size) whole - from'
       let w : Nat := if v.drawable then stretch p.cropX p.cropW v.width else p.cropW
       let h : Nat := if v.drawable then stretch p.cropY p.cropH v.height else p.cropH
       let covers (i j : Nat) : Prop := i < pw ∧ j < ph ∧ p.x ≤ i ∧ (i : Int) < p.x + w ∧ p.y ≤ j ∧ (j : Int) < p.y + h
       (spanOf pw ph role p o v = none ↔ ∀ i j, ¬ covers i j)
       ∧ ∀ r, spanOf pw ph role p o v = some r →
           r.role = role ∧ r.obj = o ∧ r.blank = !v.drawable ∧ r.pal = p.pal
           ∧ (∀ i j : Nat, (r.left ≤ i ∧ i < r.left + r.width ∧ r.top ≤ j ∧ j < r.top + r.height) ↔ covers i j)
           ∧ (v.drawable = false → r.heapOff = 0 ∧ r.objW = 0)
           ∧ (v.drawable = true → r.heapOff = v.offset ∧ r.objW = v.width
               ∧ (r.sx : Int) = p.cropX + (r.left - p.x) ∧ (r.sy : Int) = p.cropY + (r.top - p.y)))

/-! ### The memory port (07) -/

/-- The arbiter's choice by the three tiers of R122; without tiers in STOPPED and STARTING (R119). The aperture each requester may reach
in each direction (R117). -/
def Obligations.ArbiterChoosesByTiersAndApertures : Prop :=
  (∀ s : State,
     (s.choice = none ↔ ∀ r, s.waitingReq r = none)
     ∧ (∀ r t, s.choice = some (r, t) → (s.waitingReq r).isSome = true)
     ∧ (s.active = true → s.urgent = true → (s.waitingReq .lineFetch).isSome = true → s.choice = some (.lineFetch, .urgent))
     ∧ (∀ r, s.choice = some (r, .urgent) → r = .lineFetch ∧ s.urgent = true)
     ∧ (s.active = true → ∀ r t, s.choice = some (r, t) → t ≠ .none)
     ∧ (∀ r, s.choice = some (r, .under) → s.underLimit r = true
         ∧ ∃ pre post, orderAfter s.port.pointer = pre ++ r :: post
           ∧ ∀ q ∈ pre, (s.waitingReq q).isSome = true → s.underLimit q = false)
     ∧ (∀ r, s.choice = some (r, .over) → (∀ q, (s.waitingReq q).isSome = true → s.underLimit q = false)
         ∧ ∃ pre post, orderAfter s.port.pointer = pre ++ r :: post ∧ ∀ q ∈ pre, s.waitingReq q = none)
     ∧ (s.active = false → ∀ r t, s.choice = some (r, t) → t = .none
         ∧ ∃ pre post, orderAfter s.port.pointer = pre ++ r :: post ∧ ∀ q ∈ pre, s.waitingReq q = none))
  ∧ (∀ (s : State) (b : Burst) (fx : Fixed), s.run.fixed = some fx → (∀ x, b.user ≠ .setup x) →
       (s.carries .lineFetch b = fx.inHeap b.block 64) ∧ (s.carries .compactor b = fx.inHeap b.block 64)
       ∧ (s.carries .walker b = fx.inChain b.block 64)
       ∧ (b.sel = none → s.carries .decoder b = fx.inChain b.block 64)
       ∧ (b.sel ≠ none → s.carries .decoder b = fx.inHeap b.block 64))

/-- BURST_GRANT: the host's writes are made first (log 4); with no burst under way (log 6) the chosen request becomes it, the pointer
names its requester and its counter rises; in an active part every account is updated by R123; a burst outside its aperture is
refused, carries nothing and writes nothing (R115, R117, R118, R123, R124, R126). A retirement leaves the list at the grant of its
outcome burst, and the results burst of the next one is then asked for; a list that this empties lets a READING walker ask for its record
(R178, R179). A granted line-fetch burst counts for its span, and line fetch presents its next request (R102; log 11). The grant of a
link read, or of the notice writer's, has a re-read that was asked for granted with no prompt since (R176, R190). Nothing else of a
requester changes. While a burst is under way, or with no request waiting, nothing is granted and only the host's writes are made
(R116, log 6; log 4). A read of the setup block is carried unchecked, wherever it lies (R119). -/
def Obligations.GrantCarriesTheChosenBurst : Prop :=
  (∀ (s : State) (host : List Host.Cell) (r : Requester) (k : Tier) (b : Burst),
    s.port.flight = none → s.choice = some (r, k) → s.waitingReq r = some b →
    ∃ t f, exec (.burstGrant host) s = .next t
      ∧ t.port.flight = some f ∧ f.burst = b ∧ f.dropped = false ∧ f.refused = !s.carries r b
      ∧ t.port.pointer = r
      ∧ t.stats.bursts.get r = s.stats.bursts.get r + 1 ∧ (∀ q, q ≠ r → t.stats.bursts.get q = s.stats.bursts.get q)
      ∧ t.stats.urgent = (if k = .urgent then s.stats.urgent + 1 else s.stats.urgent)
      ∧ t.stats.overLimit = (if k = .over then s.stats.overLimit + 1 else s.stats.overLimit)
      ∧ (s.active = false → t.port.accounts = s.port.accounts)
      ∧ (s.active = true → ∀ q, t.port.accounts.get q =
          (if q = r then min (s.params q).clip (s.port.accounts.get q + (s.params q).r) else s.port.accounts.get q)
            - (s.params q).d)
      ∧ (s.carries r b = true → f.data = memBytes (memHost s.mem host) b.block 64)
      ∧ (s.carries r b = false ∨ b.sel = none → t.mem = memHost s.mem host)
      ∧ (∀ sel, s.mem.wf = true → s.carries r b = true → b.sel = some sel → (sel.map (·.1)).Nodup →
          ∀ x ∈ sel, memRead t.mem (b.block + x.1) = x.2)
      ∧ (∀ o res det, b.user = .outcome o res det → t.walker.retiring = s.walker.retiring.tail)
      ∧ (∀ o res det, r = .walker → b.user = .outcome o res det →
          let reads := s.walker.st = .reading ∧ s.walker.asked = false
          (∀ x rest, s.walker.retiring.tail = x :: rest →
            t.walker = { s.walker with retiring := x :: rest }
            ∧ t.port.walkerQ = s.port.walkerQ.tail
                ++ [{ user := .results x, block := x.task.addr.toNat, sel := some x.resultsSel }])
          ∧ (∀ a, s.walker.retiring.tail = [] → reads → s.walker.cur = some a →
              t.walker = { s.walker with retiring := [], asked := true }
              ∧ t.port.walkerQ = s.port.walkerQ.tail ++ [{ user := .record, block := a.toNat, sel := none }])
          ∧ (s.walker.retiring.tail = [] → ¬ reads →
              t.walker = { s.walker with retiring := [] } ∧ t.port.walkerQ = s.port.walkerQ.tail))
      ∧ (∀ q y i, r = .lineFetch → b.user = .line q y i →
          t = State.lfPresent { t with
              port := { t.port with lfReq := none }, composer := { t.composer with lastPlane := s.composer.lastPlane } }
            ∧ t.raster (otherPlane q) = s.raster (otherPlane q) ∧ t.composer.line = s.composer.line
            ∧ t.composer.lineStarted = s.composer.lineStarted
            ∧ ∀ (pre post : List LineBuf) (l : LineBuf) (x : SpanFetch), (s.raster q).bufs = pre ++ l :: post →
                (∀ c ∈ pre ++ post, c.line ≠ y) → l.line = y → l.judged = false → l.spans[i]? = some x →
                (t.raster q).bufs = pre ++ { l with spans := l.spans.set i { x with granted := x.granted + 1 } } :: post)
      ∧ (r = .decoder → t.port.decReq = none) ∧ (r = .compactor → t.port.compReq = none)
      ∧ (∀ u, r = .walker → b.user = u → (∀ o res det, u ≠ .outcome o res det) → t.port.walkerQ = s.port.walkerQ.tail)
      ∧ (let granted (x : Reread) : Reread := match x with
           | .asked => .granted false
           | .none => .none
           | .granted y => .granted y
         (b.user = .link → t.walker = { s.walker with reread := granted s.walker.reread })
         ∧ (b.user = .noticeLink → t.notices = { s.notices with reread := granted s.notices.reread }))
      ∧ (b.user ≠ .noticeLink → t.notices = s.notices)
      ∧ ((∀ o res det, b.user ≠ .outcome o res det) → b.user ≠ .link → t.walker = s.walker)
      ∧ ((∀ o res det, b.user ≠ .outcome o res det) → r ≠ .walker → t.port.walkerQ = s.port.walkerQ)
      ∧ ((∀ q y i, b.user ≠ .line q y i) → t.composer = s.composer
          ∧ t.port.lfReq = if r = .lineFetch then none else s.port.lfReq)
      ∧ (r ≠ .decoder → t.port.decReq = s.port.decReq) ∧ (r ≠ .compactor → t.port.compReq = s.port.compReq)
      ∧ t.stats = { s.stats with bursts := t.stats.bursts, urgent := t.stats.urgent, overLimit := t.stats.overLimit }
      ∧ t = { s with mem := t.mem, port := t.port, stats := t.stats, composer := t.composer, walker := t.walker,
                     notices := t.notices })
  ∧ (∀ (s : State) (host : List Host.Cell), s.port.flight ≠ none ∨ s.choice = none →
       exec (.burstGrant host) s = .next { s with mem := memHost s.mem host })
  ∧ ∀ (s : State) (r : Requester) (b : Burst) (x : Bool), b.user = .setup x → s.carries r b = true

/-- SNAPSHOT: a counter set above 1 retires BAD_PARAMETER; sets 0 and 1 write the twelve words of R130 and retire DONE; the clear-after
flag clears exactly the counters of the set, and no account (R128 to R130). -/
def Obligations.SnapshotSamplesAndClears : Prop :=
  ∀ (s : State) (task : Task), s.inHand 14 = some task →
    ∃ t, exec .snapshot s = .next t
      ∧ (1 < task.p8 16 → s.Refuses t task.ref .badParameter 0)
      ∧ (task.p8 16 = 0 →
          s.Ends t task.ref .done 0 (selFrom 16 ([s.stats.bursts.lineFetch, s.stats.bursts.decoder, s.stats.bursts.walker,
            s.stats.bursts.compactor, s.stats.urgent, s.stats.frames, s.stats.underruns, s.stats.drops, s.stats.glitches,
            s.stats.framing, s.stats.keysDropped, s.stats.noticesLost].flatMap le32))
          ∧ t.stats = if task.pbit 17 0 then { overLimit := s.stats.overLimit } else s.stats)
      ∧ (task.p8 16 = 1 →
          s.Ends t task.ref .done 0 (selFrom 16 ([s.stats.bursts.lineFetch, s.stats.bursts.decoder, s.stats.bursts.walker,
            s.stats.bursts.compactor, s.stats.urgent, s.stats.overLimit, BitVec.ofNat 32 s.port.accounts.lineFetch,
            BitVec.ofNat 32 s.port.accounts.decoder, BitVec.ofNat 32 s.port.accounts.walker,
            BitVec.ofNat 32 s.port.accounts.compactor, 0, 0].flatMap le32))
          ∧ t.stats = if task.pbit 17 0 then
              { s.stats with bursts := ⟨0, 0, 0, 0⟩, urgent := 0, overLimit := 0 } else s.stats)
      ∧ t = { s with stats := t.stats, walker := t.walker, port := { s.port with walkerQ := t.port.walkerQ } }

/-! ### The task chain (10) -/

/-- RECORD_READ_COMPLETE: the task is taken with the fields of 12.2, in HALTING too (R186; that a page task is taken then is the model's
choice, log 30), an unknown kind retires BAD_KIND, and an error response is a read
fault, which submits WALKER_FAULT with its capture, the record's address and the link holder or none (R169, R172, R184; log 13 for the
bytes of an absent link holder). -/
def Obligations.RecordReadTakesTheTask : Prop :=
  ∀ (s : State) (err : Bool) (f : Flight) (a : Word),
    s.LandingRead f .record → s.walker.st = .reading → s.walker.cur = some a →
    ∃ t, exec (.recordReadComplete err) s = .next t
      ∧ let k := (byteAt f.data 4).toNat
        let task : Task := { ref := { addr := a, kind := byteAt f.data 4, flags := byteAt f.data 5, tag := half16 f.data 6 },
                             params := (f.data.drop 16).take 48 }
        let ok := f.refused = false ∧ err = false
        (ok → 1 ≤ k → k ≤ 14 →
          t = { s.landed with walker := { s.walker with st := .working, asked := false, task := some task, job := .judge } })
        ∧ (ok → k = 0 ∨ 15 ≤ k → s.Ends t task.ref .badKind 0 [] ∧ s.landed.OnlyWalker t)
        ∧ (¬ ok → t = { s.landed with walker := t.walker, attention := t.attention, notices := t.notices, stats := t.stats }
            ∧ t.walker.st = .faulted ∧ t.walker.task = none ∧ t.walker.cur = some a
            ∧ t.walker.capture = some { addr := a, holder := s.walker.holder, write := false }
            ∧ t.attention.walkerFault = true ∧ t.walker.retiring = s.walker.retiring
            ∧ (s.notices.queue.length < 8 → t.notices.queue = s.notices.queue ++
                [{ body := .walkerFault { addr := a, holder := s.walker.holder, write := false }, stamp := s.timer.stamp }]))

/-- WAIT and WAIT_MET: bad parameters retire BAD_PARAMETER, a condition that is met retires DONE, and otherwise the walker becomes, or
stays, WAITING, halting at that boundary in HALTING (R183, R186). That the wait ends at whatever turn WAIT_MET comes with the condition
holding is the model's choice (logs 2 and 20; R183 names the moments). STALL_HANDOVER: a stalled walker judges its task again as the
kind's rule gives, and hands it over when room has appeared (R174). A plane is idle when its schedule is empty and its state is EMPTY or
SHOWN (R87). -/
def Obligations.WaitsAndStallsAreRetried : Prop :=
  (∀ (s : State) (task : Task),
     let met := (task.p8 16 = 1 ∧ reached s.timer.stamp (task.p32 20) = true)
       ∨ (task.p8 16 = 2 ∧ task.p32 20 = 0 ∧ s.slide.idle = true) ∨ (task.p8 16 = 2 ∧ task.p32 20 = 1 ∧ s.menu.idle = true)
       ∨ (task.p8 16 = 3 ∧ s.heap.loads = [])
     let good := task.p8 16 = 1 ∨ (task.p8 16 = 2 ∧ (task.p32 20 = 0 ∨ task.p32 20 = 1)) ∨ task.p8 16 = 3
     (s.inHand 13 = some task → ∃ t, exec .wait s = .next t
       ∧ (¬ good → s.Refuses t task.ref .badParameter 0)
       ∧ (met → s.Refuses t task.ref .done 0)
       ∧ (good → ¬ met →
           let st : WalkerState := if s.run.state = .halting then .halted .wait else .waiting
           t = { s with walker := { s.walker with st := st } }))
     ∧ (s.walker.st = .waiting → s.walker.task = some task →
       (¬ met → exec .waitMet s = .next s)
       ∧ (met → ∃ t, exec .waitMet s = .next t ∧ s.Refuses t task.ref .done 0)))
  ∧ (∀ (s : State) (task : Task), s.walker.st = .stalled → s.walker.task = some task → s.walker.job = .judge →
       let again : State := { s with walker := { s.walker with st := .working } }
       (task.ref.kind.toNat = 1 → exec .stallHandover s = exec .loadObject again)
       ∧ (task.ref.kind.toNat = 3 → exec .stallHandover s = exec .compactHeap again)
       ∧ (task.ref.kind.toNat = 4 → exec .stallHandover s = exec .loadPalette again)
       ∧ (task.ref.kind.toNat = 7 → exec .stallHandover s = exec .showPage again)
       ∧ (task.ref.kind.toNat = 8 → exec .stallHandover s = exec .hidePlane again)
       ∧ (task.ref.kind.toNat = 11 → exec .stallHandover s = exec .selectButton again)
       ∧ (task.ref.kind.toNat = 12 → exec .stallHandover s = exec .injectKey again)
       ∧ (task.ref.kind.toNat = 12 → s.nav.queue.length < 8 → ∃ t, exec .stallHandover s = .next t ∧ s.HandsOver t
           ∧ t.nav.queue = s.nav.queue ++ [.key (BitVec.ofNat 8 (task.p8 16)) (some task.ref)]))
  ∧ ∀ p : Plane, p.idle = true ↔ p.schedule = [] ∧ (p.content = .empty ∨ ∃ i, p.content = .shown i)

/-- LINK_READ_COMPLETE, for the link read of a LINKING walker and the re-read of a PARKED one: 0 parks the walker, or leaves it PARKED, a
valid link leads to the next record, and a bad link or an error response is a read fault, which submits WALKER_FAULT with its capture,
the bad link or the record whose link was read, and that record as the link holder; a prompt that came after the grant brings one
more re-read; in HALTING a link of 0 halts the walker at PARKED and a valid one at RECORD (R175, R176, R184, R186). CHAIN_POKE: a prompt
for a parked walker, a restart for a faulted one at a valid address, and nothing otherwise; at its anchor the notice writer is prompted
as well, after the walker, in every walker state (R176, R177, R185, R190; their order is the model's, log 21). -/
def Obligations.LinksAndPokesMoveTheWalker : Prop :=
  (∀ (s : State) (err : Bool) (f : Flight) (a : Word),
     s.LandingRead f .link → s.walker.st = .linking → s.walker.cur = some a → s.walker.reread = .none →
     s.run.state = .running →
     ∃ t, exec (.linkReadComplete err) s = .next t
       ∧ let l := word32 f.data 0
         let ok := f.refused = false ∧ err = false
         let faults (x : Word) :=
           t = { s.landed with walker := t.walker, attention := t.attention, notices := t.notices, stats := t.stats }
             ∧ t.walker.st = .faulted ∧ t.walker.cur = some a
             ∧ t.walker.capture = some { addr := x, holder := some a, write := false } ∧ t.attention.walkerFault = true
             ∧ (s.notices.queue.length < 8 → t.notices.queue = s.notices.queue ++
                 [{ body := .walkerFault { addr := x, holder := some a, write := false }, stamp := s.timer.stamp }])
         (ok → l = 0 → t = { s.landed with walker := { s.walker with st := .parked } })
         ∧ (ok → s.recordOk l = true → t.walker.st = .reading ∧ t.walker.cur = some l ∧ t.walker.holder = some a
             ∧ s.landed.OnlyWalker t
             ∧ (s.walker.retiring = [] → t.port.walkerQ = s.port.walkerQ ++ [{ user := .record, block := l.toNat, sel := none }]))
         ∧ (ok → l ≠ 0 → s.recordOk l = false → faults l)
         ∧ (¬ ok → faults a))
  ∧ (∀ (s : State) (v : Word), s.run.pinHeld = false → (∀ a, s.notices.cursor ≠ .anchor a) →
       ∃ t, exec (.chainPoke v) s = .next t
         ∧ (s.walker.st ≠ .parked → s.walker.st ≠ .faulted → t = s)
         ∧ (s.walker.st = .faulted → s.recordOk v = false → t = s)
         ∧ (s.walker.st = .faulted → s.recordOk v = true →
             s.OnlyWalker t ∧ t.walker.cur = some v ∧ t.walker.capture = none ∧ t.walker.holder = none
             ∧ t.walker.retiring = s.walker.retiring
             ∧ (s.run.state = .running → t.walker.st = .reading)
             ∧ (s.run.state = .halting ∨ s.run.state = .halted → t.walker.st = .halted .record))
         ∧ (s.walker.st = .parked → s.walker.reread = .none →
             t.walker = { s.walker with reread := .asked }
             ∧ t.port.walkerQ = s.port.walkerQ ++ [{ user := .link, block := (s.walker.cur.getD 0).toNat, sel := none }])
         ∧ (s.walker.st = .parked → s.walker.reread = .asked → t = s)
         ∧ (∀ x, s.walker.st = .parked → s.walker.reread = .granted x →
             t = { s with walker := { s.walker with reread := .granted true } }))
  ∧ (∀ (s : State) (err : Bool) (f : Flight) (a : Word),
       s.LandingRead f .link → s.walker.st = .linking ∨ s.walker.st = .parked → s.walker.cur = some a →
       ∃ t, exec (.linkReadComplete err) s = .next t
         ∧ let l := word32 f.data 0
           let ok := f.refused = false ∧ err = false
           let halting := s.run.state = .halting
           let again := s.walker.reread = .granted true
           let faults (x : Word) :=
             t = { s.landed with walker := t.walker, attention := t.attention, notices := t.notices, stats := t.stats }
               ∧ t.walker = { s.walker with st := .faulted, task := none, job := .judge, asked := false, reread := .none,
                                            capture := some { addr := x, holder := some a, write := false } }
               ∧ t.attention.walkerFault = true
               ∧ (s.notices.queue.length < 8 → t.notices.queue = s.notices.queue ++
                   [{ body := .walkerFault { addr := x, holder := some a, write := false }, stamp := s.timer.stamp }])
           (ok → l = 0 → halting → t = { s.landed with walker := { s.walker with st := .halted .parked, reread := .none } })
           ∧ (ok → l = 0 → ¬ halting → ¬ again → t = { s.landed with walker := { s.walker with st := .parked, reread := .none } })
           ∧ (ok → l = 0 → ¬ halting → again →
               let b : Burst := { user := .link, block := a.toNat, sel := none }
               t = { s.landed with
                 walker := { s.walker with st := .parked, reread := .asked },
                 port := { s.landed.port with walkerQ := s.port.walkerQ ++ [b] } })
           ∧ (ok → s.recordOk l = true → halting →
               t = { s.landed with walker := { s.walker with
                 st := .halted .record, cur := some l, holder := some a, asked := false, task := none, job := .judge, reread := .none } })
           ∧ (ok → s.recordOk l = true → ¬ halting →
               s.landed.OnlyWalker t ∧ t.walker.st = .reading ∧ t.walker.cur = some l ∧ t.walker.holder = some a
               ∧ t.walker.reread = .none ∧ t.walker.task = none ∧ t.walker.retiring = s.walker.retiring
               ∧ (s.walker.retiring = [] → t.port.walkerQ = s.port.walkerQ ++ [{ user := .record, block := l.toNat, sel := none }]))
           ∧ (ok → l ≠ 0 → s.recordOk l = false → faults l)
           ∧ (¬ ok → faults a))
  ∧ (∀ (s : State) (v : Word) (a : Word), s.run.pinHeld = false → s.notices.cursor = .anchor a →
       ∃ t, exec (.chainPoke v) s = .next t
         ∧ t = { s with notices := { s.notices with reread := t.notices.reread }, walker := t.walker,
                        port := { s.port with walkerQ := t.port.walkerQ } }
         ∧ (s.notices.reread = .none ∨ s.notices.reread = .asked → t.notices.reread = .asked)
         ∧ (∀ x, s.notices.reread = .granted x → t.notices.reread = .granted true)
         ∧ (let blank : List Burst := if s.notices.reread = .none then [{ user := .noticeLink, block := a.toNat, sel := none }] else []
            (s.walker.st ≠ .parked → s.walker.st ≠ .faulted →
              t.walker = s.walker ∧ t.port.walkerQ = s.port.walkerQ ++ blank)
            ∧ (s.walker.st = .faulted → s.recordOk v = false →
              t.walker = s.walker ∧ t.port.walkerQ = s.port.walkerQ ++ blank)
            ∧ (s.walker.st = .faulted → s.recordOk v = true → t.walker.cur = some v ∧ t.walker.capture = none)
            ∧ (s.walker.st = .parked → s.walker.reread = .none →
              let link : Burst := { user := .link, block := (s.walker.cur.getD 0).toNat, sel := none }
              t.walker = { s.walker with reread := .asked } ∧ t.port.walkerQ = s.port.walkerQ ++ [link] ++ blank)
            ∧ (s.walker.st = .parked → s.walker.reread = .asked →
              t.walker = s.walker ∧ t.port.walkerQ = s.port.walkerQ ++ blank)
            ∧ (∀ x, s.walker.st = .parked → s.walker.reread = .granted x →
              t.walker = { s.walker with reread := .granted true } ∧ t.port.walkerQ = s.port.walkerQ ++ blank)))

/-- A retirement that joins an empty list has its results burst asked for, a write of its record's detail at 9, done stamp at 12 to 15
and result bytes; one that joins others waits (R178, R179). RESULTS_BURST_COMPLETE and OUTCOME_BURST_COMPLETE: the outcome burst
follows the results burst, with MEMORY_ERROR and detail 6 in its place after an error; a task with the notify flag submits TASK_DONE
once its outcome burst has completed; an error response is a write fault, which submits WALKER_FAULT with its capture, the record's
address and no link holder, and whose TASK_DONE follows it (R179 to R181; log 13 for the bytes of an absent link holder). When both bursts
meet an error, TASK_DONE's detail is 6 by the model's choice (log 32). -/
def Obligations.RetirementWritesAreFollowedThrough : Prop :=
  (∀ (s : State) (task : TaskRef) (o : TaskOutcome) (k : Nat) (res : List (Nat × Byte)),
     let t := s.retire task o k res
     let r : Retirement := { task := task, outcome := o, detail := BitVec.ofNat 8 k, stamp := s.timer.stamp, results := res }
     let b : Burst := { user := .results r, block := task.addr.toNat, sel := some r.resultsSel }
     (s.walker.retiring = [] → t = { s with
       walker := { s.walker with retiring := [r] }, port := { s.port with walkerQ := s.port.walkerQ ++ [b] } })
     ∧ (s.walker.retiring ≠ [] → t = { s with walker := { s.walker with retiring := s.walker.retiring ++ [r] } }))
  ∧ (∀ r : Retirement, r.resultsSel =
       (9, r.detail) :: (12, r.stamp.extractLsb' 0 8) :: (13, r.stamp.extractLsb' 8 8) :: (14, r.stamp.extractLsb' 16 8)
         :: (15, r.stamp.extractLsb' 24 8) :: r.results)
  ∧ ∀ (s : State) (err : Bool) (f : Flight) (r : Retirement), s.Landing f → s.notices.queue.length + 2 ≤ 8 →
    let failed := f.refused = true ∨ err = true
    let fault : Notice :=
      { body := .walkerFault { addr := r.task.addr, holder := none, write := true }, stamp := s.timer.stamp }
    let captures (t : State) :=
      t.walker.capture = some { addr := r.task.addr, holder := none, write := true } ∧ t.attention.walkerFault = true
        ∧ t = { s with mem := t.mem, free := t.free, port := t.port, walker := { s.walker with capture := t.walker.capture },
                       attention := t.attention, notices := t.notices, stats := t.stats }
    (f.burst.user = .results r → ∃ t, exec (.resultsBurstComplete err) s = .next t
      ∧ t.walker.retiring = s.walker.retiring ∧ (err = false → t.mem = s.mem ∧ t.free = s.free)
      ∧ (¬ failed →
          let b : Burst := { user := .outcome r r.outcome r.detail, block := r.task.addr.toNat, sel := some [(8, r.outcome.code)] }
          t = { s.landed with port := { s.landed.port with walkerQ := s.port.walkerQ ++ [b] } })
      ∧ (failed → captures t ∧ t.notices.queue = s.notices.queue ++ [fault] ∧ t.port.walkerQ = s.port.walkerQ ++
          [{ user := .outcome r .memoryError 6, block := r.task.addr.toNat, sel := some [(8, 15)] }]))
    ∧ (∀ o detail, f.burst.user = .outcome r o detail → ∃ t, exec (.outcomeBurstComplete err) s = .next t
      ∧ t.port.walkerQ = s.port.walkerQ ∧ (err = false → t.mem = s.mem ∧ t.free = s.free)
      ∧ (failed → captures t) ∧ (¬ failed → t.walker = s.walker ∧ t.attention.walkerFault = s.attention.walkerFault)
      ∧ t.notices.queue = s.notices.queue ++ (if f.refused = true ∨ err = true then [fault] else [])
          ++ (if r.task.flags.getLsbD 0 = true then
                [{ body := .taskDone r.task.addr r.task.tag r.task.kind o detail, stamp := s.timer.stamp }]
              else [])
      ∧ (r.task.flags.getLsbD 0 = false → ¬ failed → t = s.landed))

/-! ### Notices (11.1) -/

/-- A submitted notice joins the tail of a queue of fewer than 8, setting NO_BLANKS at the anchor; at 8 it is dropped and counted, setting
no flag (R188). -/
def Obligations.SubmittedNoticeJoinsOrIsCounted : Prop :=
  ∀ (s : State) (b : NoticeBody),
    let t := s.submit b
    (s.notices.queue.length < 8 →
      t = { s with notices := { s.notices with queue := s.notices.queue ++ [{ body := b, stamp := s.timer.stamp }] },
                   attention := { s.attention with noBlanks := t.attention.noBlanks } }
      ∧ (t.attention.noBlanks = true ↔ s.attention.noBlanks = true ∨ ∃ a, s.notices.cursor = .anchor a))
    ∧ (8 ≤ s.notices.queue.length →
      t = { s with notices := { s.notices with lost := min 65535 (s.notices.lost + 1) },
                   stats := { s.stats with noticesLost := s.stats.noticesLost + 1 } })

/-- NOTICE_TAKE, CONTENTS_BURST_COMPLETE and STATE_BURST_COMPLETE: the head notice takes the next number and the pending lost count; the
state burst follows the contents burst, whose error drops the notice; the sequence and NOTICE change when the state burst completes
(R189, R191). NOTICE_LINK_READ_COMPLETE: a link of 0 makes the filled record the anchor, a valid link the next blank, and a bad link
or an error response the anchor with BLANK_FAULT set; a prompt that came after the grant of the read brings one more re-read when the
cursor is then at the anchor (R190). The contents burst carries bytes 5 to 63 of the record by 12.3: kind, lost count, number, frame
stamp and body, the bytes that 12.3 does not list being 0 (R189, R202). The bodies are those of 12.3; for an absent link holder and for
the slot shown before a jump that shows none 12.3 gives no value, and the 0 and the 255 written there are the model's choice (log 13). -/
def Obligations.NoticesAreWrittenAndTheCursorMoves : Prop :=
  (∀ (s : State) (a : Word), s.notices.cursor = .blank a →
     (∀ n rest, s.notices.writing = none → s.notices.queue = n :: rest → ∃ t, exec .noticeTake s = .next t
       ∧ let w : Writing := { notice := n, seq := s.notices.seq + 1, lost := s.notices.lost, phase := .contents }
         let b : Burst :=
           { user := .contents, block := a.toNat, sel := some (contentsSel n (s.notices.seq + 1) s.notices.lost) }
         t = { s with
           notices := { s.notices with queue := rest, lost := 0, writing := some w },
           port := { s.port with walkerQ := s.port.walkerQ ++ [b] } })
     ∧ (∀ err f w, s.Landing f → f.burst.user = .contents → s.notices.writing = some w →
         ∃ t, exec (.contentsBurstComplete err) s = .next t
         ∧ (f.refused = false → err = false →
             let b : Burst := { user := .noticeState, block := a.toNat, sel := some [(4, 1)] }
             t = { s.landed with
               notices := { s.notices with writing := some { w with phase := .state } },
               port := { s.landed.port with walkerQ := s.port.walkerQ ++ [b] } })
         ∧ (f.refused = true ∨ err = true →
             t.notices = { s.notices with writing := none, lost := min 65535 (s.notices.lost + w.lost + 1) }
             ∧ t.attention = { s.attention with blankFault := true }
             ∧ t.stats = { s.stats with noticesLost := s.stats.noticesLost + 1 }
             ∧ t = { s.landed with mem := t.mem, free := t.free, notices := t.notices, attention := t.attention, stats := t.stats }))
     ∧ (∀ err f w tn, s.Landing f → f.burst.user = .noticeState → s.notices.writing = some w → s.run.tun = some tn →
         ∃ t, exec (.stateBurstComplete err) s = .next t
         ∧ t.notices = { s.notices with seq := w.seq, writing := some { w with phase := .link } }
         ∧ t.attention = { s.attention with
             notice := s.attention.notice || tn.attnMask.getLsbD w.notice.body.code,
             blankFault := s.attention.blankFault || (f.refused || err) }
         ∧ (err = false → t.mem = s.mem ∧ t.free = s.free)
         ∧ t.port.walkerQ = s.port.walkerQ ++ [{ user := .noticeLink, block := a.toNat, sel := none }]
         ∧ t = { s.landed with mem := t.mem, free := t.free, notices := t.notices, attention := t.attention,
                               port := { s.landed.port with walkerQ := t.port.walkerQ } }))
  ∧ (∀ (s : State) (err : Bool) (f : Flight) (a : Word),
       s.LandingRead f .noticeLink → s.notices.cursor = .blank a ∨ s.notices.cursor = .anchor a →
       s.notices.reread ≠ .granted true →
       ∃ t, exec (.noticeLinkReadComplete err) s = .next t
         ∧ let l := word32 f.data 0
           let ok := f.refused = false ∧ err = false
           let moved (c : Cursor) : State := { s.landed with notices := { s.notices with cursor := c, writing := none, reread := .none } }
           (ok → l = 0 → t = moved (.anchor a))
           ∧ (ok → l ≠ 0 → s.recordOk l = true → t = moved (.blank l))
           ∧ (¬ ok ∨ (l ≠ 0 ∧ s.recordOk l = false) →
               t = { moved (.anchor a) with attention := { s.attention with blankFault := true } }))
  ∧ (∀ (s : State) (err : Bool) (f : Flight) (a : Word),
       s.LandingRead f .noticeLink → s.notices.cursor = .blank a ∨ s.notices.cursor = .anchor a →
       s.notices.reread = .granted true →
       ∃ t, exec (.noticeLinkReadComplete err) s = .next t
         ∧ let l := word32 f.data 0
           let ok := f.refused = false ∧ err = false
           let again : State :=
             { s.landed with
               notices := { s.notices with cursor := .anchor a, writing := none, reread := .asked },
               port := { s.landed.port with walkerQ := s.port.walkerQ ++ [{ user := .noticeLink, block := a.toNat, sel := none }] } }
           (ok → l = 0 → t = again)
           ∧ (ok → l ≠ 0 → s.recordOk l = true →
               t = { s.landed with notices := { s.notices with cursor := .blank l, writing := none, reread := .none } })
           ∧ (¬ ok ∨ (l ≠ 0 ∧ s.recordOk l = false) →
               t = { again with attention := { s.attention with blankFault := true } }))
  ∧ (∀ (n : Notice) (seq : Word) (lost : Nat),
       (contentsSel n seq lost).map (·.1) = (List.range 59).map (5 + ·)
       ∧ (contentsSel n seq lost).map (·.2) =
           [BitVec.ofNat 8 n.body.code] ++ le16 (BitVec.ofNat 16 lost) ++ le32 seq ++ le32 n.stamp
             ++ (n.body.bytes ++ List.replicate 48 0).take 48)
  ∧ ((∀ w : Word, le32 w = [w.extractLsb' 0 8, w.extractLsb' 8 8, w.extractLsb' 16 8, w.extractLsb' 24 8])
     ∧ (∀ h : Half, le16 h = [h.extractLsb' 0 8, h.extractLsb' 8 8])
     ∧ ([.pending, .done, .doneShort, .cancelled, .badKind, .badParameter, .addressFault, .idTaken, .idReleasing, .heapFull,
          .decodeFault, .slotBusy, .notStaged, .pageInvalid, .notSelectable, .memoryError] : List TaskOutcome).map (·.code)
         = (List.range 16).map (BitVec.ofNat 8))
  ∧ (let id (p : SlotId) : Byte := BitVec.ofNat 8 p.val
     let slot (x : Option SlotId) : Byte := (x.map id).getD 255
     let reason (x : Option JumpFailure) : Byte := match x with
       | none => 0
       | some .notHeld => 1
       | some .notMenu => 2
       | some .notReady => 3
       | some .superseded => 4
     (∀ a tag k o e, (NoticeBody.taskDone a tag k o e).code = 1
       ∧ (NoticeBody.taskDone a tag k o e).bytes = le32 a ++ le16 tag ++ [k, o.code, e])
     ∧ (∀ p j c w, (NoticeBody.buttonAction p j c w).code = 2
       ∧ (NoticeBody.buttonAction p j c w).bytes = [id p, BitVec.ofNat 8 j] ++ le16 c ++ le32 w)
     ∧ (∀ o w p j, (NoticeBody.stateChanged o w p j).code = 3
       ∧ (NoticeBody.stateChanged o w p j).bytes = le32 o ++ le32 w ++ [id p, BitVec.ofNat 8 j])
     ∧ (∀ x p before j q, (NoticeBody.pageJump x p before j q).code = 4
       ∧ (NoticeBody.pageJump x p before j q).bytes =
           [if x = none then 1 else 2, id p, slot before, reason x, BitVec.ofNat 8 j, id q])
     ∧ (∀ c task p, (NoticeBody.keyPassed c task p).code = 5
       ∧ (NoticeBody.keyPassed c task p).bytes = [c, if task = true then 2 else 1, slot p])
     ∧ (∀ p j w, (NoticeBody.pageTimeout p j w).code = 6
       ∧ (NoticeBody.pageTimeout p j w).bytes = [id p, BitVec.ofNat 8 (j.getD 255), 0, 0] ++ le32 w)
     ∧ (∀ f u d, (NoticeBody.frameFaults f u d).code = 7
       ∧ (NoticeBody.frameFaults f u d).bytes = le32 f ++ le32 (BitVec.ofNat 32 u) ++ le32 (BitVec.ofNat 32 d))
     ∧ (∀ c, (NoticeBody.walkerFault c).code = 8
       ∧ (NoticeBody.walkerFault c).bytes =
           le32 c.addr ++ le32 (c.holder.getD 0) ++ [if c.holder = none then 0 else 1, if c.write = true then 2 else 1])
     ∧ ∀ re f, (NoticeBody.syncChange re f).code = 9
       ∧ (NoticeBody.syncChange re f).bytes = [if re = true then 2 else 1, 0, 0, 0] ++ le32 f)
end

