-- ==== Sys2Proof/Laws/State.lean ====
section
/-! SUPPORT. What each plain update of the state leaves in each field: one lemma per field per update, by rfl. -/

namespace Sys2Proof.Machine

/-! ### withPending -/

@[simp] theorem withPending_pending (s : State) (q : List Instr) : (s.withPending q).pending = q := rfl
@[simp] theorem withPending_mem (s : State) (q : List Instr) : (s.withPending q).mem = s.mem := rfl
@[simp] theorem withPending_free (s : State) (q : List Instr) : (s.withPending q).free = s.free := rfl
@[simp] theorem withPending_run (s : State) (q : List Instr) : (s.withPending q).run = s.run := rfl
@[simp] theorem withPending_attention (s : State) (q : List Instr) : (s.withPending q).attention = s.attention := rfl
@[simp] theorem withPending_timer (s : State) (q : List Instr) : (s.withPending q).timer = s.timer := rfl
@[simp] theorem withPending_heap (s : State) (q : List Instr) : (s.withPending q).heap = s.heap := rfl
@[simp] theorem withPending_compactor (s : State) (q : List Instr) : (s.withPending q).compactor = s.compactor := rfl
@[simp] theorem withPending_palette (s : State) (q : List Instr) : (s.withPending q).palette = s.palette := rfl
@[simp] theorem withPending_slots (s : State) (q : List Instr) : (s.withPending q).slots = s.slots := rfl
@[simp] theorem withPending_slide (s : State) (q : List Instr) : (s.withPending q).slide = s.slide := rfl
@[simp] theorem withPending_menu (s : State) (q : List Instr) : (s.withPending q).menu = s.menu := rfl
@[simp] theorem withPending_jump (s : State) (q : List Instr) : (s.withPending q).jump = s.jump := rfl
@[simp] theorem withPending_drawnViews (s : State) (q : List Instr) : (s.withPending q).drawnViews = s.drawnViews := rfl
@[simp] theorem withPending_composer (s : State) (q : List Instr) : (s.withPending q).composer = s.composer := rfl
@[simp] theorem withPending_port (s : State) (q : List Instr) : (s.withPending q).port = s.port := rfl
@[simp] theorem withPending_stats (s : State) (q : List Instr) : (s.withPending q).stats = s.stats := rfl
@[simp] theorem withPending_nav (s : State) (q : List Instr) : (s.withPending q).nav = s.nav := rfl
@[simp] theorem withPending_keyline (s : State) (q : List Instr) : (s.withPending q).keyline = s.keyline := rfl
@[simp] theorem withPending_walker (s : State) (q : List Instr) : (s.withPending q).walker = s.walker := rfl
@[simp] theorem withPending_notices (s : State) (q : List Instr) : (s.withPending q).notices = s.notices := rfl
@[simp] theorem withPending_work (s : State) (q : List Instr) : (s.withPending q).work = s.work := rfl

/-! ### setEntry -/

@[simp] theorem setEntry_pending (s : State) (i : Byte) (e : DirEntry) : (s.setEntry i e).pending = s.pending := rfl
@[simp] theorem setEntry_mem (s : State) (i : Byte) (e : DirEntry) : (s.setEntry i e).mem = s.mem := rfl
@[simp] theorem setEntry_free (s : State) (i : Byte) (e : DirEntry) : (s.setEntry i e).free = s.free := rfl
@[simp] theorem setEntry_run (s : State) (i : Byte) (e : DirEntry) : (s.setEntry i e).run = s.run := rfl
@[simp] theorem setEntry_attention (s : State) (i : Byte) (e : DirEntry) : (s.setEntry i e).attention = s.attention := rfl
@[simp] theorem setEntry_timer (s : State) (i : Byte) (e : DirEntry) : (s.setEntry i e).timer = s.timer := rfl
@[simp] theorem setEntry_heap (s : State) (i : Byte) (e : DirEntry) :
    (s.setEntry i e).heap = { s.heap with dir := s.heap.dir.set i.toNat e } := rfl
@[simp] theorem setEntry_compactor (s : State) (i : Byte) (e : DirEntry) : (s.setEntry i e).compactor = s.compactor := rfl
@[simp] theorem setEntry_palette (s : State) (i : Byte) (e : DirEntry) : (s.setEntry i e).palette = s.palette := rfl
@[simp] theorem setEntry_slots (s : State) (i : Byte) (e : DirEntry) : (s.setEntry i e).slots = s.slots := rfl
@[simp] theorem setEntry_slide (s : State) (i : Byte) (e : DirEntry) : (s.setEntry i e).slide = s.slide := rfl
@[simp] theorem setEntry_menu (s : State) (i : Byte) (e : DirEntry) : (s.setEntry i e).menu = s.menu := rfl
@[simp] theorem setEntry_jump (s : State) (i : Byte) (e : DirEntry) : (s.setEntry i e).jump = s.jump := rfl
@[simp] theorem setEntry_drawnViews (s : State) (i : Byte) (e : DirEntry) : (s.setEntry i e).drawnViews = s.drawnViews := rfl
@[simp] theorem setEntry_composer (s : State) (i : Byte) (e : DirEntry) : (s.setEntry i e).composer = s.composer := rfl
@[simp] theorem setEntry_port (s : State) (i : Byte) (e : DirEntry) : (s.setEntry i e).port = s.port := rfl
@[simp] theorem setEntry_stats (s : State) (i : Byte) (e : DirEntry) : (s.setEntry i e).stats = s.stats := rfl
@[simp] theorem setEntry_nav (s : State) (i : Byte) (e : DirEntry) : (s.setEntry i e).nav = s.nav := rfl
@[simp] theorem setEntry_keyline (s : State) (i : Byte) (e : DirEntry) : (s.setEntry i e).keyline = s.keyline := rfl
@[simp] theorem setEntry_walker (s : State) (i : Byte) (e : DirEntry) : (s.setEntry i e).walker = s.walker := rfl
@[simp] theorem setEntry_notices (s : State) (i : Byte) (e : DirEntry) : (s.setEntry i e).notices = s.notices := rfl
@[simp] theorem setEntry_work (s : State) (i : Byte) (e : DirEntry) : (s.setEntry i e).work = s.work := rfl

/-! ### setSlot -/

@[simp] theorem setSlot_pending (s : State) (i : SlotId) (x : Slot) : (s.setSlot i x).pending = s.pending := rfl
@[simp] theorem setSlot_mem (s : State) (i : SlotId) (x : Slot) : (s.setSlot i x).mem = s.mem := rfl
@[simp] theorem setSlot_free (s : State) (i : SlotId) (x : Slot) : (s.setSlot i x).free = s.free := rfl
@[simp] theorem setSlot_run (s : State) (i : SlotId) (x : Slot) : (s.setSlot i x).run = s.run := rfl
@[simp] theorem setSlot_attention (s : State) (i : SlotId) (x : Slot) : (s.setSlot i x).attention = s.attention := rfl
@[simp] theorem setSlot_timer (s : State) (i : SlotId) (x : Slot) : (s.setSlot i x).timer = s.timer := rfl
@[simp] theorem setSlot_heap (s : State) (i : SlotId) (x : Slot) : (s.setSlot i x).heap = s.heap := rfl
@[simp] theorem setSlot_compactor (s : State) (i : SlotId) (x : Slot) : (s.setSlot i x).compactor = s.compactor := rfl
@[simp] theorem setSlot_palette (s : State) (i : SlotId) (x : Slot) : (s.setSlot i x).palette = s.palette := rfl
@[simp] theorem setSlot_slots (s : State) (i : SlotId) (x : Slot) : (s.setSlot i x).slots = s.slots.set i.val x := rfl
@[simp] theorem setSlot_slide (s : State) (i : SlotId) (x : Slot) : (s.setSlot i x).slide = s.slide := rfl
@[simp] theorem setSlot_menu (s : State) (i : SlotId) (x : Slot) : (s.setSlot i x).menu = s.menu := rfl
@[simp] theorem setSlot_jump (s : State) (i : SlotId) (x : Slot) : (s.setSlot i x).jump = s.jump := rfl
@[simp] theorem setSlot_drawnViews (s : State) (i : SlotId) (x : Slot) : (s.setSlot i x).drawnViews = s.drawnViews := rfl
@[simp] theorem setSlot_composer (s : State) (i : SlotId) (x : Slot) : (s.setSlot i x).composer = s.composer := rfl
@[simp] theorem setSlot_port (s : State) (i : SlotId) (x : Slot) : (s.setSlot i x).port = s.port := rfl
@[simp] theorem setSlot_stats (s : State) (i : SlotId) (x : Slot) : (s.setSlot i x).stats = s.stats := rfl
@[simp] theorem setSlot_nav (s : State) (i : SlotId) (x : Slot) : (s.setSlot i x).nav = s.nav := rfl
@[simp] theorem setSlot_keyline (s : State) (i : SlotId) (x : Slot) : (s.setSlot i x).keyline = s.keyline := rfl
@[simp] theorem setSlot_walker (s : State) (i : SlotId) (x : Slot) : (s.setSlot i x).walker = s.walker := rfl
@[simp] theorem setSlot_notices (s : State) (i : SlotId) (x : Slot) : (s.setSlot i x).notices = s.notices := rfl
@[simp] theorem setSlot_work (s : State) (i : SlotId) (x : Slot) : (s.setSlot i x).work = s.work := rfl

/-! ### freeGranules -/

@[simp] theorem freeGranules_pending (s : State) (a n : Nat) : (s.freeGranules a n).pending = s.pending := rfl
@[simp] theorem freeGranules_mem (s : State) (a n : Nat) : (s.freeGranules a n).mem = s.mem := rfl
@[simp] theorem freeGranules_free (s : State) (a n : Nat) : (s.freeGranules a n).free = s.free := rfl
@[simp] theorem freeGranules_run (s : State) (a n : Nat) : (s.freeGranules a n).run = s.run := rfl
@[simp] theorem freeGranules_attention (s : State) (a n : Nat) : (s.freeGranules a n).attention = s.attention := rfl
@[simp] theorem freeGranules_timer (s : State) (a n : Nat) : (s.freeGranules a n).timer = s.timer := rfl
@[simp] theorem freeGranules_heap (s : State) (a n : Nat) :
    (s.freeGranules a n).heap = { s.heap with extents := extRelease a n s.heap.extents } := rfl
@[simp] theorem freeGranules_compactor (s : State) (a n : Nat) : (s.freeGranules a n).compactor = s.compactor := rfl
@[simp] theorem freeGranules_palette (s : State) (a n : Nat) : (s.freeGranules a n).palette = s.palette := rfl
@[simp] theorem freeGranules_slots (s : State) (a n : Nat) : (s.freeGranules a n).slots = s.slots := rfl
@[simp] theorem freeGranules_slide (s : State) (a n : Nat) : (s.freeGranules a n).slide = s.slide := rfl
@[simp] theorem freeGranules_menu (s : State) (a n : Nat) : (s.freeGranules a n).menu = s.menu := rfl
@[simp] theorem freeGranules_jump (s : State) (a n : Nat) : (s.freeGranules a n).jump = s.jump := rfl
@[simp] theorem freeGranules_drawnViews (s : State) (a n : Nat) : (s.freeGranules a n).drawnViews = s.drawnViews := rfl
@[simp] theorem freeGranules_composer (s : State) (a n : Nat) : (s.freeGranules a n).composer = s.composer := rfl
@[simp] theorem freeGranules_port (s : State) (a n : Nat) : (s.freeGranules a n).port = s.port := rfl
@[simp] theorem freeGranules_stats (s : State) (a n : Nat) : (s.freeGranules a n).stats = s.stats := rfl
@[simp] theorem freeGranules_nav (s : State) (a n : Nat) : (s.freeGranules a n).nav = s.nav := rfl
@[simp] theorem freeGranules_keyline (s : State) (a n : Nat) : (s.freeGranules a n).keyline = s.keyline := rfl
@[simp] theorem freeGranules_walker (s : State) (a n : Nat) : (s.freeGranules a n).walker = s.walker := rfl
@[simp] theorem freeGranules_notices (s : State) (a n : Nat) : (s.freeGranules a n).notices = s.notices := rfl
@[simp] theorem freeGranules_work (s : State) (a n : Nat) : (s.freeGranules a n).work = s.work := rfl

/-! ### ask -/

@[simp] theorem ask_pending (s : State) (u : User) (b : Nat) (m : Option (List (Nat × Byte))) :
    (s.ask u b m).pending = s.pending := rfl
@[simp] theorem ask_mem (s : State) (u : User) (b : Nat) (m : Option (List (Nat × Byte))) : (s.ask u b m).mem = s.mem := rfl
@[simp] theorem ask_free (s : State) (u : User) (b : Nat) (m : Option (List (Nat × Byte))) : (s.ask u b m).free = s.free := rfl
@[simp] theorem ask_run (s : State) (u : User) (b : Nat) (m : Option (List (Nat × Byte))) : (s.ask u b m).run = s.run := rfl
@[simp] theorem ask_attention (s : State) (u : User) (b : Nat) (m : Option (List (Nat × Byte))) :
    (s.ask u b m).attention = s.attention := rfl
@[simp] theorem ask_timer (s : State) (u : User) (b : Nat) (m : Option (List (Nat × Byte))) :
    (s.ask u b m).timer = s.timer := rfl
@[simp] theorem ask_heap (s : State) (u : User) (b : Nat) (m : Option (List (Nat × Byte))) : (s.ask u b m).heap = s.heap := rfl
@[simp] theorem ask_compactor (s : State) (u : User) (b : Nat) (m : Option (List (Nat × Byte))) :
    (s.ask u b m).compactor = s.compactor := rfl
@[simp] theorem ask_palette (s : State) (u : User) (b : Nat) (m : Option (List (Nat × Byte))) :
    (s.ask u b m).palette = s.palette := rfl
@[simp] theorem ask_slots (s : State) (u : User) (b : Nat) (m : Option (List (Nat × Byte))) :
    (s.ask u b m).slots = s.slots := rfl
@[simp] theorem ask_slide (s : State) (u : User) (b : Nat) (m : Option (List (Nat × Byte))) :
    (s.ask u b m).slide = s.slide := rfl
@[simp] theorem ask_menu (s : State) (u : User) (b : Nat) (m : Option (List (Nat × Byte))) : (s.ask u b m).menu = s.menu := rfl
@[simp] theorem ask_jump (s : State) (u : User) (b : Nat) (m : Option (List (Nat × Byte))) : (s.ask u b m).jump = s.jump := rfl
@[simp] theorem ask_drawnViews (s : State) (u : User) (b : Nat) (m : Option (List (Nat × Byte))) :
    (s.ask u b m).drawnViews = s.drawnViews := rfl
@[simp] theorem ask_composer (s : State) (u : User) (b : Nat) (m : Option (List (Nat × Byte))) :
    (s.ask u b m).composer = s.composer := rfl
@[simp] theorem ask_port (s : State) (u : User) (b : Nat) (m : Option (List (Nat × Byte))) :
    (s.ask u b m).port = { s.port with walkerQ := s.port.walkerQ ++ [{ user := u, block := b, sel := m }] } := rfl
@[simp] theorem ask_stats (s : State) (u : User) (b : Nat) (m : Option (List (Nat × Byte))) :
    (s.ask u b m).stats = s.stats := rfl
@[simp] theorem ask_nav (s : State) (u : User) (b : Nat) (m : Option (List (Nat × Byte))) : (s.ask u b m).nav = s.nav := rfl
@[simp] theorem ask_keyline (s : State) (u : User) (b : Nat) (m : Option (List (Nat × Byte))) :
    (s.ask u b m).keyline = s.keyline := rfl
@[simp] theorem ask_walker (s : State) (u : User) (b : Nat) (m : Option (List (Nat × Byte))) :
    (s.ask u b m).walker = s.walker := rfl
@[simp] theorem ask_notices (s : State) (u : User) (b : Nat) (m : Option (List (Nat × Byte))) :
    (s.ask u b m).notices = s.notices := rfl
@[simp] theorem ask_work (s : State) (u : User) (b : Nat) (m : Option (List (Nat × Byte))) : (s.ask u b m).work = s.work := rfl

/-! ### askResults -/

@[simp] theorem askResults_pending (s : State) (r : Retirement) : (s.askResults r).pending = s.pending := rfl
@[simp] theorem askResults_mem (s : State) (r : Retirement) : (s.askResults r).mem = s.mem := rfl
@[simp] theorem askResults_free (s : State) (r : Retirement) : (s.askResults r).free = s.free := rfl
@[simp] theorem askResults_run (s : State) (r : Retirement) : (s.askResults r).run = s.run := rfl
@[simp] theorem askResults_attention (s : State) (r : Retirement) : (s.askResults r).attention = s.attention := rfl
@[simp] theorem askResults_timer (s : State) (r : Retirement) : (s.askResults r).timer = s.timer := rfl
@[simp] theorem askResults_heap (s : State) (r : Retirement) : (s.askResults r).heap = s.heap := rfl
@[simp] theorem askResults_compactor (s : State) (r : Retirement) : (s.askResults r).compactor = s.compactor := rfl
@[simp] theorem askResults_palette (s : State) (r : Retirement) : (s.askResults r).palette = s.palette := rfl
@[simp] theorem askResults_slots (s : State) (r : Retirement) : (s.askResults r).slots = s.slots := rfl
@[simp] theorem askResults_slide (s : State) (r : Retirement) : (s.askResults r).slide = s.slide := rfl
@[simp] theorem askResults_menu (s : State) (r : Retirement) : (s.askResults r).menu = s.menu := rfl
@[simp] theorem askResults_jump (s : State) (r : Retirement) : (s.askResults r).jump = s.jump := rfl
@[simp] theorem askResults_drawnViews (s : State) (r : Retirement) : (s.askResults r).drawnViews = s.drawnViews := rfl
@[simp] theorem askResults_composer (s : State) (r : Retirement) : (s.askResults r).composer = s.composer := rfl
@[simp] theorem askResults_port (s : State) (r : Retirement) :
    (s.askResults r).port = { s.port with walkerQ := s.port.walkerQ ++ [{ user := .results r, block := r.task.addr.toNat, sel := some r.resultsSel }] } := rfl
@[simp] theorem askResults_stats (s : State) (r : Retirement) : (s.askResults r).stats = s.stats := rfl
@[simp] theorem askResults_nav (s : State) (r : Retirement) : (s.askResults r).nav = s.nav := rfl
@[simp] theorem askResults_keyline (s : State) (r : Retirement) : (s.askResults r).keyline = s.keyline := rfl
@[simp] theorem askResults_walker (s : State) (r : Retirement) : (s.askResults r).walker = s.walker := rfl
@[simp] theorem askResults_notices (s : State) (r : Retirement) : (s.askResults r).notices = s.notices := rfl
@[simp] theorem askResults_work (s : State) (r : Retirement) : (s.askResults r).work = s.work := rfl

/-! ### askLink -/

@[simp] theorem askLink_pending (s : State) : s.askLink.pending = s.pending := rfl
@[simp] theorem askLink_mem (s : State) : s.askLink.mem = s.mem := rfl
@[simp] theorem askLink_free (s : State) : s.askLink.free = s.free := rfl
@[simp] theorem askLink_run (s : State) : s.askLink.run = s.run := rfl
@[simp] theorem askLink_attention (s : State) : s.askLink.attention = s.attention := rfl
@[simp] theorem askLink_timer (s : State) : s.askLink.timer = s.timer := rfl
@[simp] theorem askLink_heap (s : State) : s.askLink.heap = s.heap := rfl
@[simp] theorem askLink_compactor (s : State) : s.askLink.compactor = s.compactor := rfl
@[simp] theorem askLink_palette (s : State) : s.askLink.palette = s.palette := rfl
@[simp] theorem askLink_slots (s : State) : s.askLink.slots = s.slots := rfl
@[simp] theorem askLink_slide (s : State) : s.askLink.slide = s.slide := rfl
@[simp] theorem askLink_menu (s : State) : s.askLink.menu = s.menu := rfl
@[simp] theorem askLink_jump (s : State) : s.askLink.jump = s.jump := rfl
@[simp] theorem askLink_drawnViews (s : State) : s.askLink.drawnViews = s.drawnViews := rfl
@[simp] theorem askLink_composer (s : State) : s.askLink.composer = s.composer := rfl
@[simp] theorem askLink_port (s : State) :
    s.askLink.port = { s.port with walkerQ := s.port.walkerQ ++ [{ user := .link, block := (s.walker.cur.getD 0).toNat, sel := none }] } := rfl
@[simp] theorem askLink_stats (s : State) : s.askLink.stats = s.stats := rfl
@[simp] theorem askLink_nav (s : State) : s.askLink.nav = s.nav := rfl
@[simp] theorem askLink_keyline (s : State) : s.askLink.keyline = s.keyline := rfl
@[simp] theorem askLink_walker (s : State) : s.askLink.walker = s.walker := rfl
@[simp] theorem askLink_notices (s : State) : s.askLink.notices = s.notices := rfl
@[simp] theorem askLink_work (s : State) : s.askLink.work = s.work := rfl

/-! ### removeLoad -/

@[simp] theorem removeLoad_pending (s : State) (i : Byte) : (s.removeLoad i).pending = s.pending := rfl
@[simp] theorem removeLoad_mem (s : State) (i : Byte) : (s.removeLoad i).mem = s.mem := rfl
@[simp] theorem removeLoad_free (s : State) (i : Byte) : (s.removeLoad i).free = s.free := rfl
@[simp] theorem removeLoad_run (s : State) (i : Byte) : (s.removeLoad i).run = s.run := rfl
@[simp] theorem removeLoad_attention (s : State) (i : Byte) : (s.removeLoad i).attention = s.attention := rfl
@[simp] theorem removeLoad_timer (s : State) (i : Byte) : (s.removeLoad i).timer = s.timer := rfl
@[simp] theorem removeLoad_heap (s : State) (i : Byte) :
    (s.removeLoad i).heap = { s.heap with loads := s.heap.loads.filter fun l => decide (l.id ≠ i) } := rfl
@[simp] theorem removeLoad_compactor (s : State) (i : Byte) : (s.removeLoad i).compactor = s.compactor := rfl
@[simp] theorem removeLoad_palette (s : State) (i : Byte) : (s.removeLoad i).palette = s.palette := rfl
@[simp] theorem removeLoad_slots (s : State) (i : Byte) : (s.removeLoad i).slots = s.slots := rfl
@[simp] theorem removeLoad_slide (s : State) (i : Byte) : (s.removeLoad i).slide = s.slide := rfl
@[simp] theorem removeLoad_menu (s : State) (i : Byte) : (s.removeLoad i).menu = s.menu := rfl
@[simp] theorem removeLoad_jump (s : State) (i : Byte) : (s.removeLoad i).jump = s.jump := rfl
@[simp] theorem removeLoad_drawnViews (s : State) (i : Byte) : (s.removeLoad i).drawnViews = s.drawnViews := rfl
@[simp] theorem removeLoad_composer (s : State) (i : Byte) : (s.removeLoad i).composer = s.composer := rfl
@[simp] theorem removeLoad_port (s : State) (i : Byte) : (s.removeLoad i).port = s.port := rfl
@[simp] theorem removeLoad_stats (s : State) (i : Byte) : (s.removeLoad i).stats = s.stats := rfl
@[simp] theorem removeLoad_nav (s : State) (i : Byte) : (s.removeLoad i).nav = s.nav := rfl
@[simp] theorem removeLoad_keyline (s : State) (i : Byte) : (s.removeLoad i).keyline = s.keyline := rfl
@[simp] theorem removeLoad_walker (s : State) (i : Byte) : (s.removeLoad i).walker = s.walker := rfl
@[simp] theorem removeLoad_notices (s : State) (i : Byte) : (s.removeLoad i).notices = s.notices := rfl
@[simp] theorem removeLoad_work (s : State) (i : Byte) : (s.removeLoad i).work = s.work := rfl

/-! ### decoderIdle -/

@[simp] theorem decoderIdle_pending (s : State) : s.decoderIdle.pending = s.pending := rfl
@[simp] theorem decoderIdle_mem (s : State) : s.decoderIdle.mem = s.mem := rfl
@[simp] theorem decoderIdle_free (s : State) : s.decoderIdle.free = s.free := rfl
@[simp] theorem decoderIdle_run (s : State) : s.decoderIdle.run = s.run := rfl
@[simp] theorem decoderIdle_attention (s : State) : s.decoderIdle.attention = s.attention := rfl
@[simp] theorem decoderIdle_timer (s : State) : s.decoderIdle.timer = s.timer := rfl
@[simp] theorem decoderIdle_heap (s : State) : s.decoderIdle.heap = { s.heap with decode := none } := rfl
@[simp] theorem decoderIdle_compactor (s : State) : s.decoderIdle.compactor = s.compactor := rfl
@[simp] theorem decoderIdle_palette (s : State) : s.decoderIdle.palette = s.palette := rfl
@[simp] theorem decoderIdle_slots (s : State) : s.decoderIdle.slots = s.slots := rfl
@[simp] theorem decoderIdle_slide (s : State) : s.decoderIdle.slide = s.slide := rfl
@[simp] theorem decoderIdle_menu (s : State) : s.decoderIdle.menu = s.menu := rfl
@[simp] theorem decoderIdle_jump (s : State) : s.decoderIdle.jump = s.jump := rfl
@[simp] theorem decoderIdle_drawnViews (s : State) : s.decoderIdle.drawnViews = s.drawnViews := rfl
@[simp] theorem decoderIdle_composer (s : State) : s.decoderIdle.composer = s.composer := rfl
@[simp] theorem decoderIdle_port (s : State) : s.decoderIdle.port = s.port := rfl
@[simp] theorem decoderIdle_stats (s : State) : s.decoderIdle.stats = s.stats := rfl
@[simp] theorem decoderIdle_nav (s : State) : s.decoderIdle.nav = s.nav := rfl
@[simp] theorem decoderIdle_keyline (s : State) : s.decoderIdle.keyline = s.keyline := rfl
@[simp] theorem decoderIdle_walker (s : State) : s.decoderIdle.walker = s.walker := rfl
@[simp] theorem decoderIdle_notices (s : State) : s.decoderIdle.notices = s.notices := rfl
@[simp] theorem decoderIdle_work (s : State) : s.decoderIdle.work = s.work := rfl

/-! ### setDecode -/

@[simp] theorem setDecode_pending (s : State) (d : Decode) : (s.setDecode d).pending = s.pending := rfl
@[simp] theorem setDecode_mem (s : State) (d : Decode) : (s.setDecode d).mem = s.mem := rfl
@[simp] theorem setDecode_free (s : State) (d : Decode) : (s.setDecode d).free = s.free := rfl
@[simp] theorem setDecode_run (s : State) (d : Decode) : (s.setDecode d).run = s.run := rfl
@[simp] theorem setDecode_attention (s : State) (d : Decode) : (s.setDecode d).attention = s.attention := rfl
@[simp] theorem setDecode_timer (s : State) (d : Decode) : (s.setDecode d).timer = s.timer := rfl
@[simp] theorem setDecode_heap (s : State) (d : Decode) : (s.setDecode d).heap = { s.heap with decode := some d } := rfl
@[simp] theorem setDecode_compactor (s : State) (d : Decode) : (s.setDecode d).compactor = s.compactor := rfl
@[simp] theorem setDecode_palette (s : State) (d : Decode) : (s.setDecode d).palette = s.palette := rfl
@[simp] theorem setDecode_slots (s : State) (d : Decode) : (s.setDecode d).slots = s.slots := rfl
@[simp] theorem setDecode_slide (s : State) (d : Decode) : (s.setDecode d).slide = s.slide := rfl
@[simp] theorem setDecode_menu (s : State) (d : Decode) : (s.setDecode d).menu = s.menu := rfl
@[simp] theorem setDecode_jump (s : State) (d : Decode) : (s.setDecode d).jump = s.jump := rfl
@[simp] theorem setDecode_drawnViews (s : State) (d : Decode) : (s.setDecode d).drawnViews = s.drawnViews := rfl
@[simp] theorem setDecode_composer (s : State) (d : Decode) : (s.setDecode d).composer = s.composer := rfl
@[simp] theorem setDecode_port (s : State) (d : Decode) : (s.setDecode d).port = s.port := rfl
@[simp] theorem setDecode_stats (s : State) (d : Decode) : (s.setDecode d).stats = s.stats := rfl
@[simp] theorem setDecode_nav (s : State) (d : Decode) : (s.setDecode d).nav = s.nav := rfl
@[simp] theorem setDecode_keyline (s : State) (d : Decode) : (s.setDecode d).keyline = s.keyline := rfl
@[simp] theorem setDecode_walker (s : State) (d : Decode) : (s.setDecode d).walker = s.walker := rfl
@[simp] theorem setDecode_notices (s : State) (d : Decode) : (s.setDecode d).notices = s.notices := rfl
@[simp] theorem setDecode_work (s : State) (d : Decode) : (s.setDecode d).work = s.work := rfl

/-! ### decAsk -/

@[simp] theorem decAsk_pending (s : State) (u : User) (b : Nat) (m : Option (List (Nat × Byte))) :
    (s.decAsk u b m).pending = s.pending := rfl
@[simp] theorem decAsk_mem (s : State) (u : User) (b : Nat) (m : Option (List (Nat × Byte))) :
    (s.decAsk u b m).mem = s.mem := rfl
@[simp] theorem decAsk_free (s : State) (u : User) (b : Nat) (m : Option (List (Nat × Byte))) :
    (s.decAsk u b m).free = s.free := rfl
@[simp] theorem decAsk_run (s : State) (u : User) (b : Nat) (m : Option (List (Nat × Byte))) :
    (s.decAsk u b m).run = s.run := rfl
@[simp] theorem decAsk_attention (s : State) (u : User) (b : Nat) (m : Option (List (Nat × Byte))) :
    (s.decAsk u b m).attention = s.attention := rfl
@[simp] theorem decAsk_timer (s : State) (u : User) (b : Nat) (m : Option (List (Nat × Byte))) :
    (s.decAsk u b m).timer = s.timer := rfl
@[simp] theorem decAsk_heap (s : State) (u : User) (b : Nat) (m : Option (List (Nat × Byte))) :
    (s.decAsk u b m).heap = s.heap := rfl
@[simp] theorem decAsk_compactor (s : State) (u : User) (b : Nat) (m : Option (List (Nat × Byte))) :
    (s.decAsk u b m).compactor = s.compactor := rfl
@[simp] theorem decAsk_palette (s : State) (u : User) (b : Nat) (m : Option (List (Nat × Byte))) :
    (s.decAsk u b m).palette = s.palette := rfl
@[simp] theorem decAsk_slots (s : State) (u : User) (b : Nat) (m : Option (List (Nat × Byte))) :
    (s.decAsk u b m).slots = s.slots := rfl
@[simp] theorem decAsk_slide (s : State) (u : User) (b : Nat) (m : Option (List (Nat × Byte))) :
    (s.decAsk u b m).slide = s.slide := rfl
@[simp] theorem decAsk_menu (s : State) (u : User) (b : Nat) (m : Option (List (Nat × Byte))) :
    (s.decAsk u b m).menu = s.menu := rfl
@[simp] theorem decAsk_jump (s : State) (u : User) (b : Nat) (m : Option (List (Nat × Byte))) :
    (s.decAsk u b m).jump = s.jump := rfl
@[simp] theorem decAsk_drawnViews (s : State) (u : User) (b : Nat) (m : Option (List (Nat × Byte))) :
    (s.decAsk u b m).drawnViews = s.drawnViews := rfl
@[simp] theorem decAsk_composer (s : State) (u : User) (b : Nat) (m : Option (List (Nat × Byte))) :
    (s.decAsk u b m).composer = s.composer := rfl
@[simp] theorem decAsk_port (s : State) (u : User) (b : Nat) (m : Option (List (Nat × Byte))) :
    (s.decAsk u b m).port = { s.port with decReq := some { user := u, block := b, sel := m } } := rfl
@[simp] theorem decAsk_stats (s : State) (u : User) (b : Nat) (m : Option (List (Nat × Byte))) :
    (s.decAsk u b m).stats = s.stats := rfl
@[simp] theorem decAsk_nav (s : State) (u : User) (b : Nat) (m : Option (List (Nat × Byte))) :
    (s.decAsk u b m).nav = s.nav := rfl
@[simp] theorem decAsk_keyline (s : State) (u : User) (b : Nat) (m : Option (List (Nat × Byte))) :
    (s.decAsk u b m).keyline = s.keyline := rfl
@[simp] theorem decAsk_walker (s : State) (u : User) (b : Nat) (m : Option (List (Nat × Byte))) :
    (s.decAsk u b m).walker = s.walker := rfl
@[simp] theorem decAsk_notices (s : State) (u : User) (b : Nat) (m : Option (List (Nat × Byte))) :
    (s.decAsk u b m).notices = s.notices := rfl
@[simp] theorem decAsk_work (s : State) (u : User) (b : Nat) (m : Option (List (Nat × Byte))) :
    (s.decAsk u b m).work = s.work := rfl

/-! ### takeEntryView -/

@[simp] theorem takeEntryView_pending (s : State) : s.takeEntryView.pending = s.pending := rfl
@[simp] theorem takeEntryView_mem (s : State) : s.takeEntryView.mem = s.mem := rfl
@[simp] theorem takeEntryView_free (s : State) : s.takeEntryView.free = s.free := rfl
@[simp] theorem takeEntryView_run (s : State) : s.takeEntryView.run = s.run := rfl
@[simp] theorem takeEntryView_attention (s : State) : s.takeEntryView.attention = s.attention := rfl
@[simp] theorem takeEntryView_timer (s : State) : s.takeEntryView.timer = s.timer := rfl
@[simp] theorem takeEntryView_heap (s : State) :
    s.takeEntryView.heap = { s.heap with view := some (s.heap.dir.map DirEntry.view) } := rfl
@[simp] theorem takeEntryView_compactor (s : State) : s.takeEntryView.compactor = s.compactor := rfl
@[simp] theorem takeEntryView_palette (s : State) : s.takeEntryView.palette = s.palette := rfl
@[simp] theorem takeEntryView_slots (s : State) : s.takeEntryView.slots = s.slots := rfl
@[simp] theorem takeEntryView_slide (s : State) : s.takeEntryView.slide = s.slide := rfl
@[simp] theorem takeEntryView_menu (s : State) : s.takeEntryView.menu = s.menu := rfl
@[simp] theorem takeEntryView_jump (s : State) : s.takeEntryView.jump = s.jump := rfl
@[simp] theorem takeEntryView_drawnViews (s : State) : s.takeEntryView.drawnViews = s.drawnViews := rfl
@[simp] theorem takeEntryView_composer (s : State) : s.takeEntryView.composer = s.composer := rfl
@[simp] theorem takeEntryView_port (s : State) : s.takeEntryView.port = s.port := rfl
@[simp] theorem takeEntryView_stats (s : State) : s.takeEntryView.stats = s.stats := rfl
@[simp] theorem takeEntryView_nav (s : State) : s.takeEntryView.nav = s.nav := rfl
@[simp] theorem takeEntryView_keyline (s : State) : s.takeEntryView.keyline = s.keyline := rfl
@[simp] theorem takeEntryView_walker (s : State) : s.takeEntryView.walker = s.walker := rfl
@[simp] theorem takeEntryView_notices (s : State) : s.takeEntryView.notices = s.notices := rfl
@[simp] theorem takeEntryView_work (s : State) : s.takeEntryView.work = s.work := rfl

/-! ### setLow -/

@[simp] theorem setLow_pending (s : State) (n : Nat) : (s.setLow n).pending = s.pending := rfl
@[simp] theorem setLow_mem (s : State) (n : Nat) : (s.setLow n).mem = s.mem := rfl
@[simp] theorem setLow_free (s : State) (n : Nat) : (s.setLow n).free = s.free := rfl
@[simp] theorem setLow_run (s : State) (n : Nat) : (s.setLow n).run = s.run := rfl
@[simp] theorem setLow_attention (s : State) (n : Nat) : (s.setLow n).attention = s.attention := rfl
@[simp] theorem setLow_timer (s : State) (n : Nat) : (s.setLow n).timer = s.timer := rfl
@[simp] theorem setLow_heap (s : State) (n : Nat) : (s.setLow n).heap = s.heap := rfl
@[simp] theorem setLow_compactor (s : State) (n : Nat) : (s.setLow n).compactor = { s.compactor with low := n } := rfl
@[simp] theorem setLow_palette (s : State) (n : Nat) : (s.setLow n).palette = s.palette := rfl
@[simp] theorem setLow_slots (s : State) (n : Nat) : (s.setLow n).slots = s.slots := rfl
@[simp] theorem setLow_slide (s : State) (n : Nat) : (s.setLow n).slide = s.slide := rfl
@[simp] theorem setLow_menu (s : State) (n : Nat) : (s.setLow n).menu = s.menu := rfl
@[simp] theorem setLow_jump (s : State) (n : Nat) : (s.setLow n).jump = s.jump := rfl
@[simp] theorem setLow_drawnViews (s : State) (n : Nat) : (s.setLow n).drawnViews = s.drawnViews := rfl
@[simp] theorem setLow_composer (s : State) (n : Nat) : (s.setLow n).composer = s.composer := rfl
@[simp] theorem setLow_port (s : State) (n : Nat) : (s.setLow n).port = s.port := rfl
@[simp] theorem setLow_stats (s : State) (n : Nat) : (s.setLow n).stats = s.stats := rfl
@[simp] theorem setLow_nav (s : State) (n : Nat) : (s.setLow n).nav = s.nav := rfl
@[simp] theorem setLow_keyline (s : State) (n : Nat) : (s.setLow n).keyline = s.keyline := rfl
@[simp] theorem setLow_walker (s : State) (n : Nat) : (s.setLow n).walker = s.walker := rfl
@[simp] theorem setLow_notices (s : State) (n : Nat) : (s.setLow n).notices = s.notices := rfl
@[simp] theorem setLow_work (s : State) (n : Nat) : (s.setLow n).work = s.work := rfl

/-! ### compRead -/

@[simp] theorem compRead_pending (s : State) (m : Move) (j : Nat) : (s.compRead m j).pending = s.pending := rfl
@[simp] theorem compRead_mem (s : State) (m : Move) (j : Nat) : (s.compRead m j).mem = s.mem := rfl
@[simp] theorem compRead_free (s : State) (m : Move) (j : Nat) : (s.compRead m j).free = s.free := rfl
@[simp] theorem compRead_run (s : State) (m : Move) (j : Nat) : (s.compRead m j).run = s.run := rfl
@[simp] theorem compRead_attention (s : State) (m : Move) (j : Nat) : (s.compRead m j).attention = s.attention := rfl
@[simp] theorem compRead_timer (s : State) (m : Move) (j : Nat) : (s.compRead m j).timer = s.timer := rfl
@[simp] theorem compRead_heap (s : State) (m : Move) (j : Nat) : (s.compRead m j).heap = s.heap := rfl
@[simp] theorem compRead_compactor (s : State) (m : Move) (j : Nat) : (s.compRead m j).compactor = s.compactor := rfl
@[simp] theorem compRead_palette (s : State) (m : Move) (j : Nat) : (s.compRead m j).palette = s.palette := rfl
@[simp] theorem compRead_slots (s : State) (m : Move) (j : Nat) : (s.compRead m j).slots = s.slots := rfl
@[simp] theorem compRead_slide (s : State) (m : Move) (j : Nat) : (s.compRead m j).slide = s.slide := rfl
@[simp] theorem compRead_menu (s : State) (m : Move) (j : Nat) : (s.compRead m j).menu = s.menu := rfl
@[simp] theorem compRead_jump (s : State) (m : Move) (j : Nat) : (s.compRead m j).jump = s.jump := rfl
@[simp] theorem compRead_drawnViews (s : State) (m : Move) (j : Nat) : (s.compRead m j).drawnViews = s.drawnViews := rfl
@[simp] theorem compRead_composer (s : State) (m : Move) (j : Nat) : (s.compRead m j).composer = s.composer := rfl
@[simp] theorem compRead_port (s : State) (m : Move) (j : Nat) :
    (s.compRead m j).port = { s.port with compReq := some { user := .compRead, block := s.heapBase + 64 * (m.src + j), sel := none } } := rfl
@[simp] theorem compRead_stats (s : State) (m : Move) (j : Nat) : (s.compRead m j).stats = s.stats := rfl
@[simp] theorem compRead_nav (s : State) (m : Move) (j : Nat) : (s.compRead m j).nav = s.nav := rfl
@[simp] theorem compRead_keyline (s : State) (m : Move) (j : Nat) : (s.compRead m j).keyline = s.keyline := rfl
@[simp] theorem compRead_walker (s : State) (m : Move) (j : Nat) : (s.compRead m j).walker = s.walker := rfl
@[simp] theorem compRead_notices (s : State) (m : Move) (j : Nat) : (s.compRead m j).notices = s.notices := rfl
@[simp] theorem compRead_work (s : State) (m : Move) (j : Nat) : (s.compRead m j).work = s.work := rfl

/-! ### compWrite -/

@[simp] theorem compWrite_pending (s : State) (m : Move) (j : Nat) (l : List Byte) :
    (s.compWrite m j l).pending = s.pending := rfl
@[simp] theorem compWrite_mem (s : State) (m : Move) (j : Nat) (l : List Byte) : (s.compWrite m j l).mem = s.mem := rfl
@[simp] theorem compWrite_free (s : State) (m : Move) (j : Nat) (l : List Byte) : (s.compWrite m j l).free = s.free := rfl
@[simp] theorem compWrite_run (s : State) (m : Move) (j : Nat) (l : List Byte) : (s.compWrite m j l).run = s.run := rfl
@[simp] theorem compWrite_attention (s : State) (m : Move) (j : Nat) (l : List Byte) :
    (s.compWrite m j l).attention = s.attention := rfl
@[simp] theorem compWrite_timer (s : State) (m : Move) (j : Nat) (l : List Byte) : (s.compWrite m j l).timer = s.timer := rfl
@[simp] theorem compWrite_heap (s : State) (m : Move) (j : Nat) (l : List Byte) : (s.compWrite m j l).heap = s.heap := rfl
@[simp] theorem compWrite_compactor (s : State) (m : Move) (j : Nat) (l : List Byte) :
    (s.compWrite m j l).compactor = s.compactor := rfl
@[simp] theorem compWrite_palette (s : State) (m : Move) (j : Nat) (l : List Byte) :
    (s.compWrite m j l).palette = s.palette := rfl
@[simp] theorem compWrite_slots (s : State) (m : Move) (j : Nat) (l : List Byte) : (s.compWrite m j l).slots = s.slots := rfl
@[simp] theorem compWrite_slide (s : State) (m : Move) (j : Nat) (l : List Byte) : (s.compWrite m j l).slide = s.slide := rfl
@[simp] theorem compWrite_menu (s : State) (m : Move) (j : Nat) (l : List Byte) : (s.compWrite m j l).menu = s.menu := rfl
@[simp] theorem compWrite_jump (s : State) (m : Move) (j : Nat) (l : List Byte) : (s.compWrite m j l).jump = s.jump := rfl
@[simp] theorem compWrite_drawnViews (s : State) (m : Move) (j : Nat) (l : List Byte) :
    (s.compWrite m j l).drawnViews = s.drawnViews := rfl
@[simp] theorem compWrite_composer (s : State) (m : Move) (j : Nat) (l : List Byte) :
    (s.compWrite m j l).composer = s.composer := rfl
@[simp] theorem compWrite_port (s : State) (m : Move) (j : Nat) (l : List Byte) :
    (s.compWrite m j l).port = { s.port with compReq := some { user := .compWrite, block := s.heapBase + 64 * (m.dst + j), sel := some (selFrom 0 l) } } := rfl
@[simp] theorem compWrite_stats (s : State) (m : Move) (j : Nat) (l : List Byte) : (s.compWrite m j l).stats = s.stats := rfl
@[simp] theorem compWrite_nav (s : State) (m : Move) (j : Nat) (l : List Byte) : (s.compWrite m j l).nav = s.nav := rfl
@[simp] theorem compWrite_keyline (s : State) (m : Move) (j : Nat) (l : List Byte) :
    (s.compWrite m j l).keyline = s.keyline := rfl
@[simp] theorem compWrite_walker (s : State) (m : Move) (j : Nat) (l : List Byte) : (s.compWrite m j l).walker = s.walker := rfl
@[simp] theorem compWrite_notices (s : State) (m : Move) (j : Nat) (l : List Byte) :
    (s.compWrite m j l).notices = s.notices := rfl
@[simp] theorem compWrite_work (s : State) (m : Move) (j : Nat) (l : List Byte) : (s.compWrite m j l).work = s.work := rfl

/-! ### setRec -/

@[simp] theorem setRec_pending (s : State) (i : Nat) (r : ButtonRec) : (s.setRec i r).pending = s.pending := rfl
@[simp] theorem setRec_mem (s : State) (i : Nat) (r : ButtonRec) : (s.setRec i r).mem = s.mem := rfl
@[simp] theorem setRec_free (s : State) (i : Nat) (r : ButtonRec) : (s.setRec i r).free = s.free := rfl
@[simp] theorem setRec_run (s : State) (i : Nat) (r : ButtonRec) : (s.setRec i r).run = s.run := rfl
@[simp] theorem setRec_attention (s : State) (i : Nat) (r : ButtonRec) : (s.setRec i r).attention = s.attention := rfl
@[simp] theorem setRec_timer (s : State) (i : Nat) (r : ButtonRec) : (s.setRec i r).timer = s.timer := rfl
@[simp] theorem setRec_heap (s : State) (i : Nat) (r : ButtonRec) : (s.setRec i r).heap = s.heap := rfl
@[simp] theorem setRec_compactor (s : State) (i : Nat) (r : ButtonRec) : (s.setRec i r).compactor = s.compactor := rfl
@[simp] theorem setRec_palette (s : State) (i : Nat) (r : ButtonRec) : (s.setRec i r).palette = s.palette := rfl
@[simp] theorem setRec_slots (s : State) (i : Nat) (r : ButtonRec) : (s.setRec i r).slots = s.slots := rfl
@[simp] theorem setRec_slide (s : State) (i : Nat) (r : ButtonRec) : (s.setRec i r).slide = s.slide := rfl
@[simp] theorem setRec_menu (s : State) (i : Nat) (r : ButtonRec) : (s.setRec i r).menu = s.menu := rfl
@[simp] theorem setRec_jump (s : State) (i : Nat) (r : ButtonRec) : (s.setRec i r).jump = s.jump := rfl
@[simp] theorem setRec_drawnViews (s : State) (i : Nat) (r : ButtonRec) : (s.setRec i r).drawnViews = s.drawnViews := rfl
@[simp] theorem setRec_composer (s : State) (i : Nat) (r : ButtonRec) : (s.setRec i r).composer = s.composer := rfl
@[simp] theorem setRec_port (s : State) (i : Nat) (r : ButtonRec) : (s.setRec i r).port = s.port := rfl
@[simp] theorem setRec_stats (s : State) (i : Nat) (r : ButtonRec) : (s.setRec i r).stats = s.stats := rfl
@[simp] theorem setRec_nav (s : State) (i : Nat) (r : ButtonRec) :
    (s.setRec i r).nav = { s.nav with buttons := s.nav.buttons.setIfInBounds i r } := rfl
@[simp] theorem setRec_keyline (s : State) (i : Nat) (r : ButtonRec) : (s.setRec i r).keyline = s.keyline := rfl
@[simp] theorem setRec_walker (s : State) (i : Nat) (r : ButtonRec) : (s.setRec i r).walker = s.walker := rfl
@[simp] theorem setRec_notices (s : State) (i : Nat) (r : ButtonRec) : (s.setRec i r).notices = s.notices := rfl
@[simp] theorem setRec_work (s : State) (i : Nat) (r : ButtonRec) : (s.setRec i r).work = s.work := rfl

/-! ### setTimeout -/

@[simp] theorem setTimeout_pending (s : State) (d : PageDef) : (s.setTimeout d).pending = s.pending := rfl
@[simp] theorem setTimeout_mem (s : State) (d : PageDef) : (s.setTimeout d).mem = s.mem := rfl
@[simp] theorem setTimeout_free (s : State) (d : PageDef) : (s.setTimeout d).free = s.free := rfl
@[simp] theorem setTimeout_run (s : State) (d : PageDef) : (s.setTimeout d).run = s.run := rfl
@[simp] theorem setTimeout_attention (s : State) (d : PageDef) : (s.setTimeout d).attention = s.attention := rfl
@[simp] theorem setTimeout_timer (s : State) (d : PageDef) : (s.setTimeout d).timer = s.timer := rfl
@[simp] theorem setTimeout_heap (s : State) (d : PageDef) : (s.setTimeout d).heap = s.heap := rfl
@[simp] theorem setTimeout_compactor (s : State) (d : PageDef) : (s.setTimeout d).compactor = s.compactor := rfl
@[simp] theorem setTimeout_palette (s : State) (d : PageDef) : (s.setTimeout d).palette = s.palette := rfl
@[simp] theorem setTimeout_slots (s : State) (d : PageDef) : (s.setTimeout d).slots = s.slots := rfl
@[simp] theorem setTimeout_slide (s : State) (d : PageDef) : (s.setTimeout d).slide = s.slide := rfl
@[simp] theorem setTimeout_menu (s : State) (d : PageDef) : (s.setTimeout d).menu = s.menu := rfl
@[simp] theorem setTimeout_jump (s : State) (d : PageDef) : (s.setTimeout d).jump = s.jump := rfl
@[simp] theorem setTimeout_drawnViews (s : State) (d : PageDef) : (s.setTimeout d).drawnViews = s.drawnViews := rfl
@[simp] theorem setTimeout_composer (s : State) (d : PageDef) : (s.setTimeout d).composer = s.composer := rfl
@[simp] theorem setTimeout_port (s : State) (d : PageDef) : (s.setTimeout d).port = s.port := rfl
@[simp] theorem setTimeout_stats (s : State) (d : PageDef) : (s.setTimeout d).stats = s.stats := rfl
@[simp] theorem setTimeout_nav (s : State) (d : PageDef) : (s.setTimeout d).nav = { s.nav with timeout := d.timeout } := rfl
@[simp] theorem setTimeout_keyline (s : State) (d : PageDef) : (s.setTimeout d).keyline = s.keyline := rfl
@[simp] theorem setTimeout_walker (s : State) (d : PageDef) : (s.setTimeout d).walker = s.walker := rfl
@[simp] theorem setTimeout_notices (s : State) (d : PageDef) : (s.setTimeout d).notices = s.notices := rfl
@[simp] theorem setTimeout_work (s : State) (d : PageDef) : (s.setTimeout d).work = s.work := rfl

/-! ### popItem -/

@[simp] theorem popItem_pending (s : State) (l : List KeyItem) : (s.popItem l).pending = s.pending := rfl
@[simp] theorem popItem_mem (s : State) (l : List KeyItem) : (s.popItem l).mem = s.mem := rfl
@[simp] theorem popItem_free (s : State) (l : List KeyItem) : (s.popItem l).free = s.free := rfl
@[simp] theorem popItem_run (s : State) (l : List KeyItem) : (s.popItem l).run = s.run := rfl
@[simp] theorem popItem_attention (s : State) (l : List KeyItem) : (s.popItem l).attention = s.attention := rfl
@[simp] theorem popItem_timer (s : State) (l : List KeyItem) : (s.popItem l).timer = s.timer := rfl
@[simp] theorem popItem_heap (s : State) (l : List KeyItem) : (s.popItem l).heap = s.heap := rfl
@[simp] theorem popItem_compactor (s : State) (l : List KeyItem) : (s.popItem l).compactor = s.compactor := rfl
@[simp] theorem popItem_palette (s : State) (l : List KeyItem) : (s.popItem l).palette = s.palette := rfl
@[simp] theorem popItem_slots (s : State) (l : List KeyItem) : (s.popItem l).slots = s.slots := rfl
@[simp] theorem popItem_slide (s : State) (l : List KeyItem) : (s.popItem l).slide = s.slide := rfl
@[simp] theorem popItem_menu (s : State) (l : List KeyItem) : (s.popItem l).menu = s.menu := rfl
@[simp] theorem popItem_jump (s : State) (l : List KeyItem) : (s.popItem l).jump = s.jump := rfl
@[simp] theorem popItem_drawnViews (s : State) (l : List KeyItem) : (s.popItem l).drawnViews = s.drawnViews := rfl
@[simp] theorem popItem_composer (s : State) (l : List KeyItem) : (s.popItem l).composer = s.composer := rfl
@[simp] theorem popItem_port (s : State) (l : List KeyItem) : (s.popItem l).port = s.port := rfl
@[simp] theorem popItem_stats (s : State) (l : List KeyItem) : (s.popItem l).stats = s.stats := rfl
@[simp] theorem popItem_nav (s : State) (l : List KeyItem) : (s.popItem l).nav = { s.nav with queue := l } := rfl
@[simp] theorem popItem_keyline (s : State) (l : List KeyItem) : (s.popItem l).keyline = s.keyline := rfl
@[simp] theorem popItem_walker (s : State) (l : List KeyItem) : (s.popItem l).walker = s.walker := rfl
@[simp] theorem popItem_notices (s : State) (l : List KeyItem) : (s.popItem l).notices = s.notices := rfl
@[simp] theorem popItem_work (s : State) (l : List KeyItem) : (s.popItem l).work = s.work := rfl

/-! ### setNavStage -/

@[simp] theorem setNavStage_pending (s : State) (g : NavStage) : (s.setNavStage g).pending = s.pending := rfl
@[simp] theorem setNavStage_mem (s : State) (g : NavStage) : (s.setNavStage g).mem = s.mem := rfl
@[simp] theorem setNavStage_free (s : State) (g : NavStage) : (s.setNavStage g).free = s.free := rfl
@[simp] theorem setNavStage_run (s : State) (g : NavStage) : (s.setNavStage g).run = s.run := rfl
@[simp] theorem setNavStage_attention (s : State) (g : NavStage) : (s.setNavStage g).attention = s.attention := rfl
@[simp] theorem setNavStage_timer (s : State) (g : NavStage) : (s.setNavStage g).timer = s.timer := rfl
@[simp] theorem setNavStage_heap (s : State) (g : NavStage) : (s.setNavStage g).heap = s.heap := rfl
@[simp] theorem setNavStage_compactor (s : State) (g : NavStage) : (s.setNavStage g).compactor = s.compactor := rfl
@[simp] theorem setNavStage_palette (s : State) (g : NavStage) : (s.setNavStage g).palette = s.palette := rfl
@[simp] theorem setNavStage_slots (s : State) (g : NavStage) : (s.setNavStage g).slots = s.slots := rfl
@[simp] theorem setNavStage_slide (s : State) (g : NavStage) : (s.setNavStage g).slide = s.slide := rfl
@[simp] theorem setNavStage_menu (s : State) (g : NavStage) : (s.setNavStage g).menu = s.menu := rfl
@[simp] theorem setNavStage_jump (s : State) (g : NavStage) : (s.setNavStage g).jump = s.jump := rfl
@[simp] theorem setNavStage_drawnViews (s : State) (g : NavStage) : (s.setNavStage g).drawnViews = s.drawnViews := rfl
@[simp] theorem setNavStage_composer (s : State) (g : NavStage) : (s.setNavStage g).composer = s.composer := rfl
@[simp] theorem setNavStage_port (s : State) (g : NavStage) : (s.setNavStage g).port = s.port := rfl
@[simp] theorem setNavStage_stats (s : State) (g : NavStage) : (s.setNavStage g).stats = s.stats := rfl
@[simp] theorem setNavStage_nav (s : State) (g : NavStage) : (s.setNavStage g).nav = s.nav := rfl
@[simp] theorem setNavStage_keyline (s : State) (g : NavStage) : (s.setNavStage g).keyline = s.keyline := rfl
@[simp] theorem setNavStage_walker (s : State) (g : NavStage) : (s.setNavStage g).walker = s.walker := rfl
@[simp] theorem setNavStage_notices (s : State) (g : NavStage) : (s.setNavStage g).notices = s.notices := rfl
@[simp] theorem setNavStage_work (s : State) (g : NavStage) : (s.setNavStage g).work = { s.work with nav := g } := rfl

/-! ### freezePage -/

@[simp] theorem freezePage_pending (s : State) : s.freezePage.pending = s.pending := rfl
@[simp] theorem freezePage_mem (s : State) : s.freezePage.mem = s.mem := rfl
@[simp] theorem freezePage_free (s : State) : s.freezePage.free = s.free := rfl
@[simp] theorem freezePage_run (s : State) : s.freezePage.run = s.run := rfl
@[simp] theorem freezePage_attention (s : State) : s.freezePage.attention = s.attention := rfl
@[simp] theorem freezePage_timer (s : State) : s.freezePage.timer = s.timer := rfl
@[simp] theorem freezePage_heap (s : State) : s.freezePage.heap = s.heap := rfl
@[simp] theorem freezePage_compactor (s : State) : s.freezePage.compactor = s.compactor := rfl
@[simp] theorem freezePage_palette (s : State) : s.freezePage.palette = s.palette := rfl
@[simp] theorem freezePage_slots (s : State) : s.freezePage.slots = s.slots := rfl
@[simp] theorem freezePage_slide (s : State) : s.freezePage.slide = s.slide := rfl
@[simp] theorem freezePage_menu (s : State) : s.freezePage.menu = s.menu := rfl
@[simp] theorem freezePage_jump (s : State) : s.freezePage.jump = s.jump := rfl
@[simp] theorem freezePage_drawnViews (s : State) : s.freezePage.drawnViews = s.drawnViews := rfl
@[simp] theorem freezePage_composer (s : State) : s.freezePage.composer = s.composer := rfl
@[simp] theorem freezePage_port (s : State) : s.freezePage.port = s.port := rfl
@[simp] theorem freezePage_stats (s : State) : s.freezePage.stats = s.stats := rfl
@[simp] theorem freezePage_nav (s : State) : s.freezePage.nav = { s.nav with frozen := s.nav.live } := rfl
@[simp] theorem freezePage_keyline (s : State) : s.freezePage.keyline = s.keyline := rfl
@[simp] theorem freezePage_walker (s : State) : s.freezePage.walker = s.walker := rfl
@[simp] theorem freezePage_notices (s : State) : s.freezePage.notices = s.notices := rfl
@[simp] theorem freezePage_work (s : State) : s.freezePage.work = s.work := rfl

/-! ### blankFault -/

@[simp] theorem blankFault_pending (s : State) : s.blankFault.pending = s.pending := rfl
@[simp] theorem blankFault_mem (s : State) : s.blankFault.mem = s.mem := rfl
@[simp] theorem blankFault_free (s : State) : s.blankFault.free = s.free := rfl
@[simp] theorem blankFault_run (s : State) : s.blankFault.run = s.run := rfl
@[simp] theorem blankFault_attention (s : State) : s.blankFault.attention = { s.attention with blankFault := true } := rfl
@[simp] theorem blankFault_timer (s : State) : s.blankFault.timer = s.timer := rfl
@[simp] theorem blankFault_heap (s : State) : s.blankFault.heap = s.heap := rfl
@[simp] theorem blankFault_compactor (s : State) : s.blankFault.compactor = s.compactor := rfl
@[simp] theorem blankFault_palette (s : State) : s.blankFault.palette = s.palette := rfl
@[simp] theorem blankFault_slots (s : State) : s.blankFault.slots = s.slots := rfl
@[simp] theorem blankFault_slide (s : State) : s.blankFault.slide = s.slide := rfl
@[simp] theorem blankFault_menu (s : State) : s.blankFault.menu = s.menu := rfl
@[simp] theorem blankFault_jump (s : State) : s.blankFault.jump = s.jump := rfl
@[simp] theorem blankFault_drawnViews (s : State) : s.blankFault.drawnViews = s.drawnViews := rfl
@[simp] theorem blankFault_composer (s : State) : s.blankFault.composer = s.composer := rfl
@[simp] theorem blankFault_port (s : State) : s.blankFault.port = s.port := rfl
@[simp] theorem blankFault_stats (s : State) : s.blankFault.stats = s.stats := rfl
@[simp] theorem blankFault_nav (s : State) : s.blankFault.nav = s.nav := rfl
@[simp] theorem blankFault_keyline (s : State) : s.blankFault.keyline = s.keyline := rfl
@[simp] theorem blankFault_walker (s : State) : s.blankFault.walker = s.walker := rfl
@[simp] theorem blankFault_notices (s : State) : s.blankFault.notices = s.notices := rfl
@[simp] theorem blankFault_work (s : State) : s.blankFault.work = s.work := rfl

/-! ### receiverIdle -/

@[simp] theorem receiverIdle_pending (s : State) : s.receiverIdle.pending = s.pending := rfl
@[simp] theorem receiverIdle_mem (s : State) : s.receiverIdle.mem = s.mem := rfl
@[simp] theorem receiverIdle_free (s : State) : s.receiverIdle.free = s.free := rfl
@[simp] theorem receiverIdle_run (s : State) : s.receiverIdle.run = s.run := rfl
@[simp] theorem receiverIdle_attention (s : State) : s.receiverIdle.attention = s.attention := rfl
@[simp] theorem receiverIdle_timer (s : State) : s.receiverIdle.timer = s.timer := rfl
@[simp] theorem receiverIdle_heap (s : State) : s.receiverIdle.heap = s.heap := rfl
@[simp] theorem receiverIdle_compactor (s : State) : s.receiverIdle.compactor = s.compactor := rfl
@[simp] theorem receiverIdle_palette (s : State) : s.receiverIdle.palette = s.palette := rfl
@[simp] theorem receiverIdle_slots (s : State) : s.receiverIdle.slots = s.slots := rfl
@[simp] theorem receiverIdle_slide (s : State) : s.receiverIdle.slide = s.slide := rfl
@[simp] theorem receiverIdle_menu (s : State) : s.receiverIdle.menu = s.menu := rfl
@[simp] theorem receiverIdle_jump (s : State) : s.receiverIdle.jump = s.jump := rfl
@[simp] theorem receiverIdle_drawnViews (s : State) : s.receiverIdle.drawnViews = s.drawnViews := rfl
@[simp] theorem receiverIdle_composer (s : State) : s.receiverIdle.composer = s.composer := rfl
@[simp] theorem receiverIdle_port (s : State) : s.receiverIdle.port = s.port := rfl
@[simp] theorem receiverIdle_stats (s : State) : s.receiverIdle.stats = s.stats := rfl
@[simp] theorem receiverIdle_nav (s : State) : s.receiverIdle.nav = s.nav := rfl
@[simp] theorem receiverIdle_keyline (s : State) : s.receiverIdle.keyline = { s.keyline with recv := .idle } := rfl
@[simp] theorem receiverIdle_walker (s : State) : s.receiverIdle.walker = s.walker := rfl
@[simp] theorem receiverIdle_notices (s : State) : s.receiverIdle.notices = s.notices := rfl
@[simp] theorem receiverIdle_work (s : State) : s.receiverIdle.work = s.work := rfl

/-! ### setPlane -/

@[simp] theorem setPlane_pending (s : State) (q : PlaneId) (x : Plane) : (s.setPlane q x).pending = s.pending := by
  cases q <;> rfl
@[simp] theorem setPlane_mem (s : State) (q : PlaneId) (x : Plane) : (s.setPlane q x).mem = s.mem := by
  cases q <;> rfl
@[simp] theorem setPlane_free (s : State) (q : PlaneId) (x : Plane) : (s.setPlane q x).free = s.free := by
  cases q <;> rfl
@[simp] theorem setPlane_run (s : State) (q : PlaneId) (x : Plane) : (s.setPlane q x).run = s.run := by
  cases q <;> rfl
@[simp] theorem setPlane_attention (s : State) (q : PlaneId) (x : Plane) : (s.setPlane q x).attention = s.attention := by
  cases q <;> rfl
@[simp] theorem setPlane_timer (s : State) (q : PlaneId) (x : Plane) : (s.setPlane q x).timer = s.timer := by
  cases q <;> rfl
@[simp] theorem setPlane_heap (s : State) (q : PlaneId) (x : Plane) : (s.setPlane q x).heap = s.heap := by
  cases q <;> rfl
@[simp] theorem setPlane_compactor (s : State) (q : PlaneId) (x : Plane) : (s.setPlane q x).compactor = s.compactor := by
  cases q <;> rfl
@[simp] theorem setPlane_palette (s : State) (q : PlaneId) (x : Plane) : (s.setPlane q x).palette = s.palette := by
  cases q <;> rfl
@[simp] theorem setPlane_slots (s : State) (q : PlaneId) (x : Plane) : (s.setPlane q x).slots = s.slots := by
  cases q <;> rfl
@[simp] theorem setPlane_jump (s : State) (q : PlaneId) (x : Plane) : (s.setPlane q x).jump = s.jump := by
  cases q <;> rfl
@[simp] theorem setPlane_drawnViews (s : State) (q : PlaneId) (x : Plane) : (s.setPlane q x).drawnViews = s.drawnViews := by
  cases q <;> rfl
@[simp] theorem setPlane_composer (s : State) (q : PlaneId) (x : Plane) : (s.setPlane q x).composer = s.composer := by
  cases q <;> rfl
@[simp] theorem setPlane_port (s : State) (q : PlaneId) (x : Plane) : (s.setPlane q x).port = s.port := by
  cases q <;> rfl
@[simp] theorem setPlane_stats (s : State) (q : PlaneId) (x : Plane) : (s.setPlane q x).stats = s.stats := by
  cases q <;> rfl
@[simp] theorem setPlane_nav (s : State) (q : PlaneId) (x : Plane) : (s.setPlane q x).nav = s.nav := by
  cases q <;> rfl
@[simp] theorem setPlane_keyline (s : State) (q : PlaneId) (x : Plane) : (s.setPlane q x).keyline = s.keyline := by
  cases q <;> rfl
@[simp] theorem setPlane_walker (s : State) (q : PlaneId) (x : Plane) : (s.setPlane q x).walker = s.walker := by
  cases q <;> rfl
@[simp] theorem setPlane_notices (s : State) (q : PlaneId) (x : Plane) : (s.setPlane q x).notices = s.notices := by
  cases q <;> rfl
@[simp] theorem setPlane_work (s : State) (q : PlaneId) (x : Plane) : (s.setPlane q x).work = s.work := by
  cases q <;> rfl

/-! ### setStage -/

@[simp] theorem setStage_pending (s : State) (q : PlaneId) (g : PlaneStage) : (s.setStage q g).pending = s.pending := by
  cases q <;> rfl
@[simp] theorem setStage_mem (s : State) (q : PlaneId) (g : PlaneStage) : (s.setStage q g).mem = s.mem := by
  cases q <;> rfl
@[simp] theorem setStage_free (s : State) (q : PlaneId) (g : PlaneStage) : (s.setStage q g).free = s.free := by
  cases q <;> rfl
@[simp] theorem setStage_run (s : State) (q : PlaneId) (g : PlaneStage) : (s.setStage q g).run = s.run := by
  cases q <;> rfl
@[simp] theorem setStage_attention (s : State) (q : PlaneId) (g : PlaneStage) : (s.setStage q g).attention = s.attention := by
  cases q <;> rfl
@[simp] theorem setStage_timer (s : State) (q : PlaneId) (g : PlaneStage) : (s.setStage q g).timer = s.timer := by
  cases q <;> rfl
@[simp] theorem setStage_heap (s : State) (q : PlaneId) (g : PlaneStage) : (s.setStage q g).heap = s.heap := by
  cases q <;> rfl
@[simp] theorem setStage_compactor (s : State) (q : PlaneId) (g : PlaneStage) : (s.setStage q g).compactor = s.compactor := by
  cases q <;> rfl
@[simp] theorem setStage_palette (s : State) (q : PlaneId) (g : PlaneStage) : (s.setStage q g).palette = s.palette := by
  cases q <;> rfl
@[simp] theorem setStage_slots (s : State) (q : PlaneId) (g : PlaneStage) : (s.setStage q g).slots = s.slots := by
  cases q <;> rfl
@[simp] theorem setStage_slide (s : State) (q : PlaneId) (g : PlaneStage) : (s.setStage q g).slide = s.slide := by
  cases q <;> rfl
@[simp] theorem setStage_menu (s : State) (q : PlaneId) (g : PlaneStage) : (s.setStage q g).menu = s.menu := by
  cases q <;> rfl
@[simp] theorem setStage_jump (s : State) (q : PlaneId) (g : PlaneStage) : (s.setStage q g).jump = s.jump := by
  cases q <;> rfl
@[simp] theorem setStage_drawnViews (s : State) (q : PlaneId) (g : PlaneStage) : (s.setStage q g).drawnViews = s.drawnViews := by
  cases q <;> rfl
@[simp] theorem setStage_composer (s : State) (q : PlaneId) (g : PlaneStage) : (s.setStage q g).composer = s.composer := by
  cases q <;> rfl
@[simp] theorem setStage_port (s : State) (q : PlaneId) (g : PlaneStage) : (s.setStage q g).port = s.port := by
  cases q <;> rfl
@[simp] theorem setStage_stats (s : State) (q : PlaneId) (g : PlaneStage) : (s.setStage q g).stats = s.stats := by
  cases q <;> rfl
@[simp] theorem setStage_nav (s : State) (q : PlaneId) (g : PlaneStage) : (s.setStage q g).nav = s.nav := by
  cases q <;> rfl
@[simp] theorem setStage_keyline (s : State) (q : PlaneId) (g : PlaneStage) : (s.setStage q g).keyline = s.keyline := by
  cases q <;> rfl
@[simp] theorem setStage_walker (s : State) (q : PlaneId) (g : PlaneStage) : (s.setStage q g).walker = s.walker := by
  cases q <;> rfl
@[simp] theorem setStage_notices (s : State) (q : PlaneId) (g : PlaneStage) : (s.setStage q g).notices = s.notices := by
  cases q <;> rfl

/-! ### setRaster -/

@[simp] theorem setRaster_pending (s : State) (q : PlaneId) (r : Raster) : (s.setRaster q r).pending = s.pending := by
  cases q <;> rfl
@[simp] theorem setRaster_mem (s : State) (q : PlaneId) (r : Raster) : (s.setRaster q r).mem = s.mem := by
  cases q <;> rfl
@[simp] theorem setRaster_free (s : State) (q : PlaneId) (r : Raster) : (s.setRaster q r).free = s.free := by
  cases q <;> rfl
@[simp] theorem setRaster_run (s : State) (q : PlaneId) (r : Raster) : (s.setRaster q r).run = s.run := by
  cases q <;> rfl
@[simp] theorem setRaster_attention (s : State) (q : PlaneId) (r : Raster) : (s.setRaster q r).attention = s.attention := by
  cases q <;> rfl
@[simp] theorem setRaster_timer (s : State) (q : PlaneId) (r : Raster) : (s.setRaster q r).timer = s.timer := by
  cases q <;> rfl
@[simp] theorem setRaster_heap (s : State) (q : PlaneId) (r : Raster) : (s.setRaster q r).heap = s.heap := by
  cases q <;> rfl
@[simp] theorem setRaster_compactor (s : State) (q : PlaneId) (r : Raster) : (s.setRaster q r).compactor = s.compactor := by
  cases q <;> rfl
@[simp] theorem setRaster_palette (s : State) (q : PlaneId) (r : Raster) : (s.setRaster q r).palette = s.palette := by
  cases q <;> rfl
@[simp] theorem setRaster_slots (s : State) (q : PlaneId) (r : Raster) : (s.setRaster q r).slots = s.slots := by
  cases q <;> rfl
@[simp] theorem setRaster_slide (s : State) (q : PlaneId) (r : Raster) : (s.setRaster q r).slide = s.slide := by
  cases q <;> rfl
@[simp] theorem setRaster_menu (s : State) (q : PlaneId) (r : Raster) : (s.setRaster q r).menu = s.menu := by
  cases q <;> rfl
@[simp] theorem setRaster_jump (s : State) (q : PlaneId) (r : Raster) : (s.setRaster q r).jump = s.jump := by
  cases q <;> rfl
@[simp] theorem setRaster_drawnViews (s : State) (q : PlaneId) (r : Raster) : (s.setRaster q r).drawnViews = s.drawnViews := by
  cases q <;> rfl
@[simp] theorem setRaster_port (s : State) (q : PlaneId) (r : Raster) : (s.setRaster q r).port = s.port := by
  cases q <;> rfl
@[simp] theorem setRaster_stats (s : State) (q : PlaneId) (r : Raster) : (s.setRaster q r).stats = s.stats := by
  cases q <;> rfl
@[simp] theorem setRaster_nav (s : State) (q : PlaneId) (r : Raster) : (s.setRaster q r).nav = s.nav := by
  cases q <;> rfl
@[simp] theorem setRaster_keyline (s : State) (q : PlaneId) (r : Raster) : (s.setRaster q r).keyline = s.keyline := by
  cases q <;> rfl
@[simp] theorem setRaster_walker (s : State) (q : PlaneId) (r : Raster) : (s.setRaster q r).walker = s.walker := by
  cases q <;> rfl
@[simp] theorem setRaster_notices (s : State) (q : PlaneId) (r : Raster) : (s.setRaster q r).notices = s.notices := by
  cases q <;> rfl
@[simp] theorem setRaster_work (s : State) (q : PlaneId) (r : Raster) : (s.setRaster q r).work = s.work := by
  cases q <;> rfl

/-! ### Equality field by field -/

@[ext] theorem State.eq_of_fields {x y : State} (h0 : x.pending = y.pending) (h1 : x.mem = y.mem) (h2 : x.free = y.free)
    (h3 : x.run = y.run) (h4 : x.attention = y.attention) (h5 : x.timer = y.timer) (h6 : x.heap = y.heap)
    (h7 : x.compactor = y.compactor) (h8 : x.palette = y.palette) (h9 : x.slots = y.slots) (h10 : x.slide = y.slide)
    (h11 : x.menu = y.menu) (h12 : x.jump = y.jump) (h13 : x.drawnViews = y.drawnViews) (h14 : x.composer = y.composer)
    (h15 : x.port = y.port) (h16 : x.stats = y.stats) (h17 : x.nav = y.nav) (h18 : x.keyline = y.keyline)
    (h19 : x.walker = y.walker) (h20 : x.notices = y.notices) (h21 : x.work = y.work) : x = y := by
  cases x
  cases y
  simp_all

@[ext] theorem Heap.eq_of_fields {x y : Heap} (h0 : x.dir = y.dir) (h1 : x.extents = y.extents) (h2 : x.loads = y.loads)
    (h3 : x.decode = y.decode) (h4 : x.view = y.view) : x = y := by
  cases x
  cases y
  simp_all

@[ext] theorem Compactor.eq_of_fields {x y : Compactor} (h0 : x.phase = y.phase) (h1 : x.task = y.task)
    (h2 : x.low = y.low) (h3 : x.move = y.move) (h4 : x.moved = y.moved) (h5 : x.skipped = y.skipped)
    (h6 : x.wasWaiting = y.wasWaiting) (h7 : x.frameSeen = y.frameSeen) : x = y := by
  cases x
  cases y
  simp_all

@[ext] theorem Port.eq_of_fields {x y : Port} (h0 : x.lfReq = y.lfReq) (h1 : x.decReq = y.decReq)
    (h2 : x.compReq = y.compReq) (h3 : x.walkerQ = y.walkerQ) (h4 : x.flight = y.flight) (h5 : x.accounts = y.accounts)
    (h6 : x.pointer = y.pointer) : x = y := by
  cases x
  cases y
  simp_all

@[ext] theorem Walker.eq_of_fields {x y : Walker} (h0 : x.st = y.st) (h1 : x.cur = y.cur) (h2 : x.holder = y.holder)
    (h3 : x.asked = y.asked) (h4 : x.reread = y.reread) (h5 : x.task = y.task) (h6 : x.job = y.job)
    (h7 : x.capture = y.capture) (h8 : x.retiring = y.retiring) : x = y := by
  cases x
  cases y
  simp_all

@[ext] theorem Nav.eq_of_fields {x y : Nav} (h0 : x.word = y.word) (h1 : x.judged = y.judged)
    (h2 : x.selected = y.selected) (h3 : x.buttons = y.buttons) (h4 : x.activation = y.activation)
    (h5 : x.live = y.live) (h6 : x.frozen = y.frozen) (h7 : x.queue = y.queue) (h8 : x.digit = y.digit)
    (h9 : x.timeout = y.timeout) : x = y := by
  cases x
  cases y
  simp_all

/-! ### Reading back -/

@[simp] theorem setPlane_plane_self (s : State) (q : PlaneId) (x : Plane) : (s.setPlane q x).plane q = x := by
  cases q <;> rfl
@[simp] theorem setPlane_plane_other (s : State) (q : PlaneId) (x : Plane) :
    (s.setPlane q x).plane (otherPlane q) = s.plane (otherPlane q) := by
  cases q <;> rfl
@[simp] theorem setRaster_raster_self (s : State) (q : PlaneId) (r : Raster) : (s.setRaster q r).raster q = r := by
  cases q <;> rfl
@[simp] theorem setRaster_raster_other (s : State) (q : PlaneId) (r : Raster) :
    (s.setRaster q r).raster (otherPlane q) = s.raster (otherPlane q) := by
  cases q <;> rfl
@[simp] theorem setEntry_entry_self (s : State) (i : Byte) (e : DirEntry) : (s.setEntry i e).entry i = e := by
  show (s.heap.dir.set i.toNat e)[i.toNat] = e
  simp
theorem setEntry_entry_other (s : State) (i j : Byte) (e : DirEntry) (h : j ≠ i) : (s.setEntry i e).entry j = s.entry j := by
  have hn : i.toNat ≠ j.toNat := fun x => h (BitVec.eq_of_toNat_eq x.symm)
  show (s.heap.dir.set i.toNat e)[j.toNat] = s.heap.dir[j.toNat]
  simp [hn]
@[simp] theorem setSlot_slot_self (s : State) (i : SlotId) (x : Slot) : (s.setSlot i x).slot i = x := by
  show (s.slots.set i.val x)[i.val] = x
  simp
theorem setSlot_slot_other (s : State) (i j : SlotId) (x : Slot) (h : j ≠ i) : (s.setSlot i x).slot j = s.slot j := by
  have hn : i.val ≠ j.val := fun y => h (Fin.ext y.symm)
  show (s.slots.set i.val x)[j.val] = s.slots[j.val]
  simp [hn]

end Sys2Proof.Machine
end

