-- ==== Sys2Proof/Laws/Frames.lean ====
section
/-! SUPPORT. What each operation of a block leaves alone: one lemma per operation, in groups of fields. -/

set_option linter.unusedTactic false
set_option linter.unusedSimpArgs false

namespace Sys2Proof.Machine

/-- Unchanged: the queue, shared memory, the free-value count, run control, the frame timer, the key line and the accounts. -/
abbrev Kept (t s : State) : Prop :=
  t.pending = s.pending ∧ t.mem = s.mem ∧ t.free = s.free ∧ t.run = s.run ∧ t.timer = s.timer
    ∧ t.keyline = s.keyline ∧ t.port.accounts = s.port.accounts ∧ t.port.pointer = s.port.pointer

/-- Unchanged: the heap and the compactor. -/
abbrev SameHeap (t s : State) : Prop :=
  t.heap = s.heap ∧ t.compactor = s.compactor

/-- Unchanged: the page slots, the planes and the pending jump. -/
abbrev SamePlanes (t s : State) : Prop :=
  t.slots = s.slots ∧ t.slide = s.slide ∧ t.menu = s.menu ∧ t.jump = s.jump ∧ t.drawnViews = s.drawnViews

/-- Unchanged: the composer and the frame-start work. -/
abbrev SameShow (t s : State) : Prop :=
  t.composer = s.composer ∧ t.work = s.work

/-- Unchanged: the attention flags, the statistics and the notice writer. -/
abbrev SameNotes (t s : State) : Prop :=
  t.attention = s.attention ∧ t.stats = s.stats ∧ t.notices = s.notices

/-! ### Notices, the walker and its list -/

@[simp] theorem submit_frame (s : State) (b : NoticeBody) :
    Kept (s.submit b) s ∧ SameHeap (s.submit b) s
      ∧ SamePlanes (s.submit b) s ∧ SameShow (s.submit b) s ∧ (s.submit b).palette = s.palette ∧ (s.submit b).port = s.port
      ∧ (s.submit b).nav = s.nav ∧ (s.submit b).walker = s.walker ∧ (s.submit b).notices.cursor = s.notices.cursor
      ∧ (s.submit b).notices.writing = s.notices.writing ∧ (s.submit b).notices.seq = s.notices.seq
      ∧ (s.submit b).notices.reread = s.notices.reread := by
  simp only [State.submit]
  repeat' split
  all_goals simp [Kept, SameHeap, SamePlanes, SameShow, SameNotes]

@[simp] theorem retire_frame (s : State) (t : TaskRef) (o : TaskOutcome) (k : Nat) (l : List (Nat × Byte)) :
      Kept (s.retire t o k l) s ∧ SameHeap (s.retire t o k l) s ∧ SamePlanes (s.retire t o k l) s
      ∧ SameShow (s.retire t o k l) s ∧ SameNotes (s.retire t o k l) s ∧ (s.retire t o k l).palette = s.palette
      ∧ (s.retire t o k l).nav = s.nav ∧ (s.retire t o k l).port.flight = s.port.flight
      ∧ (s.retire t o k l).port.lfReq = s.port.lfReq ∧ (s.retire t o k l).port.decReq = s.port.decReq
      ∧ (s.retire t o k l).port.compReq = s.port.compReq ∧ (s.retire t o k l).walker.st = s.walker.st
      ∧ (s.retire t o k l).walker.cur = s.walker.cur ∧ (s.retire t o k l).walker.holder = s.walker.holder
      ∧ (s.retire t o k l).walker.asked = s.walker.asked ∧ (s.retire t o k l).walker.task = s.walker.task
      ∧ (s.retire t o k l).walker.job = s.walker.job ∧ (s.retire t o k l).walker.capture = s.walker.capture
      ∧ (s.retire t o k l).walker.reread = s.walker.reread := by
  simp only [State.retire]
  repeat' split
  all_goals simp [Kept, SameHeap, SamePlanes, SameShow, SameNotes]

@[simp] theorem requestRecord_frame (s : State) :
    Kept s.requestRecord s ∧ SameHeap s.requestRecord s
      ∧ SamePlanes s.requestRecord s ∧ SameShow s.requestRecord s ∧ SameNotes s.requestRecord s
      ∧ s.requestRecord.palette = s.palette ∧ s.requestRecord.nav = s.nav ∧ s.requestRecord.port.flight = s.port.flight
      ∧ s.requestRecord.port.lfReq = s.port.lfReq ∧ s.requestRecord.port.decReq = s.port.decReq
      ∧ s.requestRecord.port.compReq = s.port.compReq ∧ s.requestRecord.walker.st = s.walker.st
      ∧ s.requestRecord.walker.cur = s.walker.cur ∧ s.requestRecord.walker.holder = s.walker.holder
      ∧ s.requestRecord.walker.task = s.walker.task ∧ s.requestRecord.walker.job = s.walker.job
      ∧ s.requestRecord.walker.capture = s.walker.capture ∧ s.requestRecord.walker.retiring = s.walker.retiring
      ∧ s.requestRecord.walker.reread = s.walker.reread := by
  simp only [State.requestRecord]
  repeat' split
  all_goals simp [Kept, SameHeap, SamePlanes, SameShow, SameNotes]

@[simp] theorem toReading_frame (s : State) (a : Word) (h : Option Word) :
    Kept (s.toReading a h) s
      ∧ SameHeap (s.toReading a h) s ∧ SamePlanes (s.toReading a h) s ∧ SameShow (s.toReading a h) s
      ∧ SameNotes (s.toReading a h) s ∧ (s.toReading a h).palette = s.palette ∧ (s.toReading a h).nav = s.nav
      ∧ (s.toReading a h).port.flight = s.port.flight ∧ (s.toReading a h).port.lfReq = s.port.lfReq
      ∧ (s.toReading a h).port.decReq = s.port.decReq ∧ (s.toReading a h).port.compReq = s.port.compReq
      ∧ (s.toReading a h).walker.capture = s.walker.capture ∧ (s.toReading a h).walker.retiring = s.walker.retiring
      ∧ (s.toReading a h).walker.reread = s.walker.reread := by
  simp only [State.toReading]
  repeat' split
  all_goals simp [Kept, SameHeap, SamePlanes, SameShow, SameNotes]

@[simp] theorem dealt_frame (s : State) :
    Kept s.dealt s ∧ SameHeap s.dealt s ∧ SamePlanes s.dealt s
      ∧ SameShow s.dealt s ∧ SameNotes s.dealt s ∧ s.dealt.palette = s.palette ∧ s.dealt.nav = s.nav
      ∧ s.dealt.port.flight = s.port.flight ∧ s.dealt.port.lfReq = s.port.lfReq ∧ s.dealt.port.decReq = s.port.decReq
      ∧ s.dealt.port.compReq = s.port.compReq ∧ s.dealt.walker.cur = s.walker.cur ∧ s.dealt.walker.holder = s.walker.holder
      ∧ s.dealt.walker.asked = s.walker.asked ∧ s.dealt.walker.capture = s.walker.capture
      ∧ s.dealt.walker.retiring = s.walker.retiring ∧ s.dealt.walker.reread = s.walker.reread := by
  simp only [State.dealt]
  repeat' split
  all_goals simp [Kept, SameHeap, SamePlanes, SameShow, SameNotes]

@[simp] theorem endTask_frame (s : State) (o : TaskOutcome) (k : Nat) (l : List (Nat × Byte)) :
    Kept (s.endTask o k l) s
      ∧ SameHeap (s.endTask o k l) s ∧ SamePlanes (s.endTask o k l) s ∧ SameShow (s.endTask o k l) s
      ∧ SameNotes (s.endTask o k l) s ∧ (s.endTask o k l).palette = s.palette ∧ (s.endTask o k l).nav = s.nav
      ∧ (s.endTask o k l).port.flight = s.port.flight ∧ (s.endTask o k l).port.lfReq = s.port.lfReq
      ∧ (s.endTask o k l).port.decReq = s.port.decReq ∧ (s.endTask o k l).port.compReq = s.port.compReq
      ∧ (s.endTask o k l).walker.cur = s.walker.cur ∧ (s.endTask o k l).walker.holder = s.walker.holder
      ∧ (s.endTask o k l).walker.asked = s.walker.asked ∧ (s.endTask o k l).walker.capture = s.walker.capture
      ∧ (s.endTask o k l).walker.reread = s.walker.reread := by
  simp only [State.endTask]
  repeat' split
  all_goals simp [Kept, SameHeap, SamePlanes, SameShow, SameNotes]

@[simp] theorem stall_frame (s : State) :
    Kept s.stall s ∧ SameHeap s.stall s ∧ SamePlanes s.stall s
      ∧ SameShow s.stall s ∧ SameNotes s.stall s ∧ s.stall.palette = s.palette ∧ s.stall.port = s.port ∧ s.stall.nav = s.nav
      ∧ s.stall.walker.cur = s.walker.cur ∧ s.stall.walker.holder = s.walker.holder ∧ s.stall.walker.asked = s.walker.asked
      ∧ s.stall.walker.task = s.walker.task ∧ s.stall.walker.job = s.walker.job ∧ s.stall.walker.capture = s.walker.capture
      ∧ s.stall.walker.retiring = s.walker.retiring ∧ s.stall.walker.reread = s.walker.reread := by
  simp only [State.stall]
  repeat' split
  all_goals simp [Kept, SameHeap, SamePlanes, SameShow, SameNotes]

@[simp] theorem walkerFault_frame (s : State) (c : Capture) :
    Kept (s.walkerFault c) s ∧ SameHeap (s.walkerFault c) s
      ∧ SamePlanes (s.walkerFault c) s ∧ SameShow (s.walkerFault c) s ∧ (s.walkerFault c).palette = s.palette
      ∧ (s.walkerFault c).port = s.port ∧ (s.walkerFault c).nav = s.nav ∧ (s.walkerFault c).walker.st = s.walker.st
      ∧ (s.walkerFault c).walker.cur = s.walker.cur ∧ (s.walkerFault c).walker.holder = s.walker.holder
      ∧ (s.walkerFault c).walker.asked = s.walker.asked ∧ (s.walkerFault c).walker.task = s.walker.task
      ∧ (s.walkerFault c).walker.job = s.walker.job ∧ (s.walkerFault c).walker.retiring = s.walker.retiring
      ∧ (s.walkerFault c).walker.reread = s.walker.reread ∧ (s.walkerFault c).notices.cursor = s.notices.cursor
      ∧ (s.walkerFault c).notices.writing = s.notices.writing ∧ (s.walkerFault c).notices.seq = s.notices.seq
      ∧ (s.walkerFault c).notices.reread = s.notices.reread := by
  simp only [State.walkerFault]
  repeat' split
  all_goals simp [Kept, SameHeap, SamePlanes, SameShow, SameNotes]

@[simp] theorem readFault_frame (s : State) (a : Word) (h : Option Word) :
    Kept (s.readFault a h) s
      ∧ SameHeap (s.readFault a h) s ∧ SamePlanes (s.readFault a h) s ∧ SameShow (s.readFault a h) s
      ∧ (s.readFault a h).palette = s.palette ∧ (s.readFault a h).port = s.port ∧ (s.readFault a h).nav = s.nav
      ∧ (s.readFault a h).walker.cur = s.walker.cur ∧ (s.readFault a h).walker.holder = s.walker.holder
      ∧ (s.readFault a h).walker.retiring = s.walker.retiring ∧ (s.readFault a h).notices.cursor = s.notices.cursor
      ∧ (s.readFault a h).notices.writing = s.notices.writing ∧ (s.readFault a h).notices.seq = s.notices.seq
      ∧ (s.readFault a h).notices.reread = s.notices.reread := by
  simp only [State.readFault]
  repeat' split
  all_goals simp [Kept, SameHeap, SamePlanes, SameShow, SameNotes]

@[simp] theorem promptWalker_frame (s : State) :
    Kept s.promptWalker s ∧ SameHeap s.promptWalker s
      ∧ SamePlanes s.promptWalker s ∧ SameShow s.promptWalker s ∧ SameNotes s.promptWalker s
      ∧ s.promptWalker.palette = s.palette ∧ s.promptWalker.nav = s.nav ∧ s.promptWalker.port.flight = s.port.flight
      ∧ s.promptWalker.port.lfReq = s.port.lfReq ∧ s.promptWalker.port.decReq = s.port.decReq
      ∧ s.promptWalker.port.compReq = s.port.compReq ∧ s.promptWalker.walker.st = s.walker.st
      ∧ s.promptWalker.walker.cur = s.walker.cur ∧ s.promptWalker.walker.holder = s.walker.holder
      ∧ s.promptWalker.walker.asked = s.walker.asked ∧ s.promptWalker.walker.task = s.walker.task
      ∧ s.promptWalker.walker.job = s.walker.job ∧ s.promptWalker.walker.capture = s.walker.capture
      ∧ s.promptWalker.walker.retiring = s.walker.retiring := by
  simp only [State.promptWalker]
  repeat' split
  all_goals simp [Kept, SameHeap, SamePlanes, SameShow, SameNotes]

@[simp] theorem promptAnchor_frame (s : State) :
    Kept s.promptAnchor s ∧ SameHeap s.promptAnchor s
      ∧ SamePlanes s.promptAnchor s ∧ SameShow s.promptAnchor s ∧ s.promptAnchor.attention = s.attention
      ∧ s.promptAnchor.stats = s.stats ∧ s.promptAnchor.palette = s.palette ∧ s.promptAnchor.nav = s.nav
      ∧ s.promptAnchor.walker = s.walker ∧ s.promptAnchor.port.flight = s.port.flight
      ∧ s.promptAnchor.port.lfReq = s.port.lfReq ∧ s.promptAnchor.port.decReq = s.port.decReq
      ∧ s.promptAnchor.port.compReq = s.port.compReq ∧ s.promptAnchor.notices.cursor = s.notices.cursor
      ∧ s.promptAnchor.notices.queue = s.notices.queue ∧ s.promptAnchor.notices.writing = s.notices.writing
      ∧ s.promptAnchor.notices.seq = s.notices.seq := by
  simp only [State.promptAnchor]
  repeat' split
  all_goals simp [Kept, SameHeap, SamePlanes, SameShow, SameNotes]

@[simp] theorem dropFlight_frame (s : State) (f : User → Bool) :
    Kept (s.dropFlight f) s ∧ SameHeap (s.dropFlight f) s
      ∧ SamePlanes (s.dropFlight f) s ∧ SameShow (s.dropFlight f) s ∧ SameNotes (s.dropFlight f) s
      ∧ (s.dropFlight f).palette = s.palette ∧ (s.dropFlight f).nav = s.nav ∧ (s.dropFlight f).walker = s.walker
      ∧ (s.dropFlight f).port.lfReq = s.port.lfReq ∧ (s.dropFlight f).port.decReq = s.port.decReq
      ∧ (s.dropFlight f).port.compReq = s.port.compReq ∧ (s.dropFlight f).port.walkerQ = s.port.walkerQ := by
  simp only [State.dropFlight]
  repeat' split
  all_goals simp [Kept, SameHeap, SamePlanes, SameShow, SameNotes]

/-! ### Holds -/

@[simp] theorem addHold_frame (s : State) (x : SlotId) :
    Kept (s.addHold x) s ∧ SameHeap (s.addHold x) s
      ∧ (s.addHold x).slide = s.slide ∧ (s.addHold x).menu = s.menu ∧ (s.addHold x).jump = s.jump
      ∧ (s.addHold x).drawnViews = s.drawnViews ∧ SameShow (s.addHold x) s ∧ SameNotes (s.addHold x) s
      ∧ (s.addHold x).palette = s.palette ∧ (s.addHold x).port = s.port ∧ (s.addHold x).nav = s.nav
      ∧ (s.addHold x).walker = s.walker := by
  simp only [State.addHold]
  repeat' split
  all_goals simp [Kept, SameHeap, SamePlanes, SameShow, SameNotes]

@[simp] theorem releaseHold_frame (s : State) (x : SlotId) :
    Kept (s.releaseHold x) s ∧ SameHeap (s.releaseHold x) s
      ∧ (s.releaseHold x).slide = s.slide ∧ (s.releaseHold x).menu = s.menu ∧ (s.releaseHold x).jump = s.jump
      ∧ (s.releaseHold x).drawnViews = s.drawnViews ∧ SameShow (s.releaseHold x) s ∧ SameNotes (s.releaseHold x) s
      ∧ (s.releaseHold x).palette = s.palette ∧ (s.releaseHold x).port = s.port ∧ (s.releaseHold x).nav = s.nav
      ∧ (s.releaseHold x).walker = s.walker := by
  simp only [State.releaseHold]
  repeat' split
  all_goals simp [Kept, SameHeap, SamePlanes, SameShow, SameNotes]

@[simp] theorem releaseOf_frame (s : State) (x : Option SlotId) :
    Kept (s.release? x) s ∧ SameHeap (s.release? x) s
      ∧ (s.release? x).slide = s.slide ∧ (s.release? x).menu = s.menu ∧ (s.release? x).jump = s.jump
      ∧ (s.release? x).drawnViews = s.drawnViews ∧ SameShow (s.release? x) s ∧ SameNotes (s.release? x) s
      ∧ (s.release? x).palette = s.palette ∧ (s.release? x).port = s.port ∧ (s.release? x).nav = s.nav
      ∧ (s.release? x).walker = s.walker := by
  cases x <;> simp [Kept, SameHeap, SamePlanes, SameShow, SameNotes, State.release?]

/-! ### The heap -/

/-- A halt changes a compactor's phase and what it remembers of it. -/
@[simp] theorem halted_frame (c : Compactor) : c.halted.task = c.task ∧ c.halted.low = c.low ∧ c.halted.move = c.move
    ∧ c.halted.moved = c.moved ∧ c.halted.skipped = c.skipped ∧ c.halted.frameSeen = c.frameSeen := by
  simp only [Compactor.halted]
  split <;> simp

@[simp] theorem scanAgain_frame (s : State) :
    Kept s.scanAgain s ∧ s.scanAgain.heap = s.heap ∧ SamePlanes s.scanAgain s
      ∧ SameShow s.scanAgain s ∧ SameNotes s.scanAgain s ∧ s.scanAgain.palette = s.palette ∧ s.scanAgain.port = s.port
      ∧ s.scanAgain.nav = s.nav ∧ s.scanAgain.walker = s.walker ∧ s.scanAgain.compactor.task = s.compactor.task := by
  simp only [State.scanAgain]
  repeat' split
  all_goals simp [Kept, SameHeap, SamePlanes, SameShow, SameNotes]

@[simp] theorem abandonMove_frame (s : State) (m : Move) :
    Kept (s.abandonMove m) s ∧ SamePlanes (s.abandonMove m) s
      ∧ SameShow (s.abandonMove m) s ∧ SameNotes (s.abandonMove m) s ∧ (s.abandonMove m).palette = s.palette
      ∧ (s.abandonMove m).nav = s.nav ∧ (s.abandonMove m).walker = s.walker ∧ (s.abandonMove m).port.lfReq = s.port.lfReq
      ∧ (s.abandonMove m).port.decReq = s.port.decReq ∧ (s.abandonMove m).port.walkerQ = s.port.walkerQ
      ∧ (s.abandonMove m).heap.dir = s.heap.dir ∧ (s.abandonMove m).heap.loads = s.heap.loads
      ∧ (s.abandonMove m).heap.decode = s.heap.decode ∧ (s.abandonMove m).heap.view = s.heap.view
      ∧ (s.abandonMove m).compactor.task = s.compactor.task := by
  simp only [State.abandonMove]
  repeat' split
  all_goals simp [Kept, SameHeap, SamePlanes, SameShow, SameNotes]

@[simp] theorem emptyEntry_frame (s : State) (i : Byte) :
    Kept (s.emptyEntry i) s ∧ SamePlanes (s.emptyEntry i) s
      ∧ SameShow (s.emptyEntry i) s ∧ SameNotes (s.emptyEntry i) s ∧ (s.emptyEntry i).palette = s.palette
      ∧ (s.emptyEntry i).nav = s.nav ∧ (s.emptyEntry i).walker = s.walker ∧ (s.emptyEntry i).port.lfReq = s.port.lfReq
      ∧ (s.emptyEntry i).port.decReq = s.port.decReq ∧ (s.emptyEntry i).port.walkerQ = s.port.walkerQ
      ∧ (s.emptyEntry i).heap.loads = s.heap.loads ∧ (s.emptyEntry i).heap.decode = s.heap.decode
      ∧ (s.emptyEntry i).heap.view = s.heap.view ∧ (s.emptyEntry i).compactor.task = s.compactor.task := by
  simp only [State.emptyEntry]
  repeat' split
  all_goals simp [Kept, SameHeap, SamePlanes, SameShow, SameNotes]

@[simp] theorem incUse_frame (s : State) (i : Byte) :
    Kept (s.incUse i) s ∧ (s.incUse i).compactor = s.compactor
      ∧ SamePlanes (s.incUse i) s ∧ SameShow (s.incUse i) s ∧ SameNotes (s.incUse i) s ∧ (s.incUse i).palette = s.palette
      ∧ (s.incUse i).port = s.port ∧ (s.incUse i).nav = s.nav ∧ (s.incUse i).walker = s.walker
      ∧ (s.incUse i).heap.extents = s.heap.extents ∧ (s.incUse i).heap.loads = s.heap.loads
      ∧ (s.incUse i).heap.decode = s.heap.decode ∧ (s.incUse i).heap.view = s.heap.view := by
  simp only [State.incUse]
  repeat' split
  all_goals simp [Kept, SameHeap, SamePlanes, SameShow, SameNotes]

@[simp] theorem decUse_frame (s : State) (i : Byte) :
    Kept (s.decUse i) s ∧ SamePlanes (s.decUse i) s
      ∧ SameShow (s.decUse i) s ∧ SameNotes (s.decUse i) s ∧ (s.decUse i).palette = s.palette ∧ (s.decUse i).nav = s.nav
      ∧ (s.decUse i).walker = s.walker ∧ (s.decUse i).port.lfReq = s.port.lfReq ∧ (s.decUse i).port.decReq = s.port.decReq
      ∧ (s.decUse i).port.walkerQ = s.port.walkerQ ∧ (s.decUse i).heap.loads = s.heap.loads
      ∧ (s.decUse i).heap.decode = s.heap.decode ∧ (s.decUse i).heap.view = s.heap.view
      ∧ (s.decUse i).compactor.task = s.compactor.task := by
  simp only [State.decUse]
  repeat' split
  all_goals simp [Kept, SameHeap, SamePlanes, SameShow, SameNotes]

@[simp] theorem endLoad_frame (s : State) (i : Byte) (o : TaskOutcome) (k : Nat) :
    Kept (s.endLoad i o k) s
      ∧ (s.endLoad i o k).compactor = s.compactor ∧ SamePlanes (s.endLoad i o k) s ∧ SameShow (s.endLoad i o k) s
      ∧ SameNotes (s.endLoad i o k) s ∧ (s.endLoad i o k).palette = s.palette ∧ (s.endLoad i o k).nav = s.nav
      ∧ (s.endLoad i o k).port.flight = s.port.flight ∧ (s.endLoad i o k).port.lfReq = s.port.lfReq
      ∧ (s.endLoad i o k).port.decReq = s.port.decReq ∧ (s.endLoad i o k).port.compReq = s.port.compReq
      ∧ (s.endLoad i o k).walker.st = s.walker.st ∧ (s.endLoad i o k).walker.cur = s.walker.cur
      ∧ (s.endLoad i o k).walker.holder = s.walker.holder ∧ (s.endLoad i o k).walker.asked = s.walker.asked
      ∧ (s.endLoad i o k).walker.task = s.walker.task ∧ (s.endLoad i o k).walker.job = s.walker.job
      ∧ (s.endLoad i o k).walker.capture = s.walker.capture ∧ (s.endLoad i o k).walker.reread = s.walker.reread
      ∧ (s.endLoad i o k).heap.dir = s.heap.dir ∧ (s.endLoad i o k).heap.extents = s.heap.extents
      ∧ (s.endLoad i o k).heap.decode = s.heap.decode ∧ (s.endLoad i o k).heap.view = s.heap.view := by
  simp only [State.endLoad]
  repeat' split
  all_goals simp [Kept, SameHeap, SamePlanes, SameShow, SameNotes]

@[simp] theorem cancelLoad_frame (s : State) (i : Byte) :
    Kept (s.cancelLoad i) s
      ∧ (s.cancelLoad i).compactor = s.compactor ∧ SamePlanes (s.cancelLoad i) s ∧ SameShow (s.cancelLoad i) s
      ∧ SameNotes (s.cancelLoad i) s ∧ (s.cancelLoad i).palette = s.palette ∧ (s.cancelLoad i).nav = s.nav
      ∧ (s.cancelLoad i).port.lfReq = s.port.lfReq ∧ (s.cancelLoad i).port.compReq = s.port.compReq
      ∧ (s.cancelLoad i).walker.st = s.walker.st ∧ (s.cancelLoad i).walker.cur = s.walker.cur
      ∧ (s.cancelLoad i).walker.holder = s.walker.holder ∧ (s.cancelLoad i).walker.asked = s.walker.asked
      ∧ (s.cancelLoad i).walker.task = s.walker.task ∧ (s.cancelLoad i).walker.job = s.walker.job
      ∧ (s.cancelLoad i).walker.capture = s.walker.capture ∧ (s.cancelLoad i).walker.reread = s.walker.reread
      ∧ (s.cancelLoad i).heap.dir = s.heap.dir ∧ (s.cancelLoad i).heap.extents = s.heap.extents
      ∧ (s.cancelLoad i).heap.view = s.heap.view := by
  simp only [State.cancelLoad]
  repeat' split
  all_goals simp [Kept, SameHeap, SamePlanes, SameShow, SameNotes]

@[simp] theorem judgeLoad_frame (s : State) (t : Task) :
    Kept (s.judgeLoad t) s ∧ SameHeap (s.judgeLoad t) s
      ∧ SamePlanes (s.judgeLoad t) s ∧ SameShow (s.judgeLoad t) s ∧ SameNotes (s.judgeLoad t) s
      ∧ (s.judgeLoad t).palette = s.palette ∧ (s.judgeLoad t).nav = s.nav ∧ (s.judgeLoad t).port.flight = s.port.flight
      ∧ (s.judgeLoad t).port.lfReq = s.port.lfReq ∧ (s.judgeLoad t).port.decReq = s.port.decReq
      ∧ (s.judgeLoad t).port.compReq = s.port.compReq ∧ (s.judgeLoad t).walker.cur = s.walker.cur
      ∧ (s.judgeLoad t).walker.holder = s.walker.holder ∧ (s.judgeLoad t).walker.asked = s.walker.asked
      ∧ (s.judgeLoad t).walker.capture = s.walker.capture ∧ (s.judgeLoad t).walker.reread = s.walker.reread := by
  simp only [State.judgeLoad]
  repeat' split
  all_goals simp [Kept, SameHeap, SamePlanes, SameShow, SameNotes]

@[simp] theorem acceptLoad_frame (s : State) (t : Task) :
    Kept (s.acceptLoad t) s
      ∧ (s.acceptLoad t).compactor = s.compactor ∧ SamePlanes (s.acceptLoad t) s ∧ SameShow (s.acceptLoad t) s
      ∧ SameNotes (s.acceptLoad t) s ∧ (s.acceptLoad t).palette = s.palette ∧ (s.acceptLoad t).nav = s.nav
      ∧ (s.acceptLoad t).port.flight = s.port.flight ∧ (s.acceptLoad t).port.lfReq = s.port.lfReq
      ∧ (s.acceptLoad t).port.decReq = s.port.decReq ∧ (s.acceptLoad t).port.compReq = s.port.compReq
      ∧ (s.acceptLoad t).walker.cur = s.walker.cur ∧ (s.acceptLoad t).walker.holder = s.walker.holder
      ∧ (s.acceptLoad t).walker.asked = s.walker.asked ∧ (s.acceptLoad t).walker.capture = s.walker.capture
      ∧ (s.acceptLoad t).walker.retiring = s.walker.retiring ∧ (s.acceptLoad t).walker.reread = s.walker.reread
      ∧ (s.acceptLoad t).heap.extents = s.heap.extents ∧ (s.acceptLoad t).heap.decode = s.heap.decode
      ∧ (s.acceptLoad t).heap.view = s.heap.view := by
  simp only [State.acceptLoad]
  repeat' split
  all_goals simp [Kept, SameHeap, SamePlanes, SameShow, SameNotes]

@[simp] theorem loadHeaderCame_frame (s : State) (t : Task) (g : Gather) :
    Kept (s.loadHeaderCame t g) s
      ∧ (s.loadHeaderCame t g).compactor = s.compactor ∧ SamePlanes (s.loadHeaderCame t g) s
      ∧ SameShow (s.loadHeaderCame t g) s ∧ SameNotes (s.loadHeaderCame t g) s ∧ (s.loadHeaderCame t g).palette = s.palette
      ∧ (s.loadHeaderCame t g).nav = s.nav ∧ (s.loadHeaderCame t g).port.flight = s.port.flight
      ∧ (s.loadHeaderCame t g).port.lfReq = s.port.lfReq ∧ (s.loadHeaderCame t g).port.decReq = s.port.decReq
      ∧ (s.loadHeaderCame t g).port.compReq = s.port.compReq ∧ (s.loadHeaderCame t g).walker.cur = s.walker.cur
      ∧ (s.loadHeaderCame t g).walker.holder = s.walker.holder ∧ (s.loadHeaderCame t g).walker.asked = s.walker.asked
      ∧ (s.loadHeaderCame t g).walker.capture = s.walker.capture ∧ (s.loadHeaderCame t g).walker.reread = s.walker.reread
      ∧ (s.loadHeaderCame t g).heap.extents = s.heap.extents ∧ (s.loadHeaderCame t g).heap.decode = s.heap.decode
      ∧ (s.loadHeaderCame t g).heap.view = s.heap.view := by
  simp only [State.loadHeaderCame]
  repeat' split
  all_goals simp [Kept, SameHeap, SamePlanes, SameShow, SameNotes]

@[simp] theorem freeEntry_frame (s : State) (i : Byte) :
    Kept (s.freeEntry i) s ∧ SamePlanes (s.freeEntry i) s
      ∧ SameShow (s.freeEntry i) s ∧ SameNotes (s.freeEntry i) s ∧ (s.freeEntry i).palette = s.palette
      ∧ (s.freeEntry i).nav = s.nav ∧ (s.freeEntry i).port.lfReq = s.port.lfReq ∧ (s.freeEntry i).walker.st = s.walker.st
      ∧ (s.freeEntry i).walker.cur = s.walker.cur ∧ (s.freeEntry i).walker.holder = s.walker.holder
      ∧ (s.freeEntry i).walker.asked = s.walker.asked ∧ (s.freeEntry i).walker.task = s.walker.task
      ∧ (s.freeEntry i).walker.job = s.walker.job ∧ (s.freeEntry i).walker.capture = s.walker.capture
      ∧ (s.freeEntry i).walker.reread = s.walker.reread ∧ (s.freeEntry i).heap.view = s.heap.view
      ∧ (s.freeEntry i).compactor.task = s.compactor.task := by
  simp only [State.freeEntry]
  repeat' split
  all_goals simp [Kept, SameHeap, SamePlanes, SameShow, SameNotes]

@[simp] theorem judgeFree_frame (s : State) (t : Task) :
    Kept (s.judgeFree t) s ∧ SamePlanes (s.judgeFree t) s
      ∧ SameShow (s.judgeFree t) s ∧ SameNotes (s.judgeFree t) s ∧ (s.judgeFree t).palette = s.palette
      ∧ (s.judgeFree t).nav = s.nav ∧ (s.judgeFree t).port.lfReq = s.port.lfReq ∧ (s.judgeFree t).walker.cur = s.walker.cur
      ∧ (s.judgeFree t).walker.holder = s.walker.holder ∧ (s.judgeFree t).walker.asked = s.walker.asked
      ∧ (s.judgeFree t).walker.capture = s.walker.capture ∧ (s.judgeFree t).walker.reread = s.walker.reread
      ∧ (s.judgeFree t).heap.view = s.heap.view ∧ (s.judgeFree t).compactor.task = s.compactor.task := by
  simp only [State.judgeFree]
  repeat' split
  all_goals simp [Kept, SameHeap, SamePlanes, SameShow, SameNotes]

@[simp] theorem decodeFault_frame (s : State) (i : Byte) (k : Nat) (o : TaskOutcome) :
    Kept (s.decodeFault i k o) s
      ∧ (s.decodeFault i k o).compactor = s.compactor ∧ SamePlanes (s.decodeFault i k o) s
      ∧ SameShow (s.decodeFault i k o) s ∧ SameNotes (s.decodeFault i k o) s ∧ (s.decodeFault i k o).palette = s.palette
      ∧ (s.decodeFault i k o).nav = s.nav ∧ (s.decodeFault i k o).port.flight = s.port.flight
      ∧ (s.decodeFault i k o).port.lfReq = s.port.lfReq ∧ (s.decodeFault i k o).port.decReq = s.port.decReq
      ∧ (s.decodeFault i k o).port.compReq = s.port.compReq ∧ (s.decodeFault i k o).walker.st = s.walker.st
      ∧ (s.decodeFault i k o).walker.cur = s.walker.cur ∧ (s.decodeFault i k o).walker.holder = s.walker.holder
      ∧ (s.decodeFault i k o).walker.asked = s.walker.asked ∧ (s.decodeFault i k o).walker.task = s.walker.task
      ∧ (s.decodeFault i k o).walker.job = s.walker.job ∧ (s.decodeFault i k o).walker.capture = s.walker.capture
      ∧ (s.decodeFault i k o).walker.reread = s.walker.reread ∧ (s.decodeFault i k o).heap.view = s.heap.view := by
  simp only [State.decodeFault]
  repeat' split
  all_goals simp [Kept, SameHeap, SamePlanes, SameShow, SameNotes]

@[simp] theorem decodeDone_frame (s : State) (i : Byte) (b : Bool) :
    Kept (s.decodeDone i b) s
      ∧ (s.decodeDone i b).compactor = s.compactor ∧ SamePlanes (s.decodeDone i b) s ∧ SameShow (s.decodeDone i b) s
      ∧ SameNotes (s.decodeDone i b) s ∧ (s.decodeDone i b).palette = s.palette ∧ (s.decodeDone i b).nav = s.nav
      ∧ (s.decodeDone i b).port.flight = s.port.flight ∧ (s.decodeDone i b).port.lfReq = s.port.lfReq
      ∧ (s.decodeDone i b).port.decReq = s.port.decReq ∧ (s.decodeDone i b).port.compReq = s.port.compReq
      ∧ (s.decodeDone i b).walker.st = s.walker.st ∧ (s.decodeDone i b).walker.cur = s.walker.cur
      ∧ (s.decodeDone i b).walker.holder = s.walker.holder ∧ (s.decodeDone i b).walker.asked = s.walker.asked
      ∧ (s.decodeDone i b).walker.task = s.walker.task ∧ (s.decodeDone i b).walker.job = s.walker.job
      ∧ (s.decodeDone i b).walker.capture = s.walker.capture ∧ (s.decodeDone i b).walker.reread = s.walker.reread
      ∧ (s.decodeDone i b).heap.extents = s.heap.extents ∧ (s.decodeDone i b).heap.view = s.heap.view := by
  simp only [State.decodeDone]
  repeat' split
  all_goals simp [Kept, SameHeap, SamePlanes, SameShow, SameNotes]

@[simp] theorem decodeNext_frame (s : State) (d : Decode) :
    Kept (s.decodeNext d) s
      ∧ (s.decodeNext d).compactor = s.compactor ∧ SamePlanes (s.decodeNext d) s ∧ SameShow (s.decodeNext d) s
      ∧ SameNotes (s.decodeNext d) s ∧ (s.decodeNext d).palette = s.palette ∧ (s.decodeNext d).nav = s.nav
      ∧ (s.decodeNext d).port.flight = s.port.flight ∧ (s.decodeNext d).port.lfReq = s.port.lfReq
      ∧ (s.decodeNext d).port.compReq = s.port.compReq ∧ (s.decodeNext d).walker.st = s.walker.st
      ∧ (s.decodeNext d).walker.cur = s.walker.cur ∧ (s.decodeNext d).walker.holder = s.walker.holder
      ∧ (s.decodeNext d).walker.asked = s.walker.asked ∧ (s.decodeNext d).walker.task = s.walker.task
      ∧ (s.decodeNext d).walker.job = s.walker.job ∧ (s.decodeNext d).walker.capture = s.walker.capture
      ∧ (s.decodeNext d).walker.reread = s.walker.reread ∧ (s.decodeNext d).heap.extents = s.heap.extents
      ∧ (s.decodeNext d).heap.view = s.heap.view := by
  simp only [State.decodeNext]
  repeat' split
  all_goals simp [Kept, SameHeap, SamePlanes, SameShow, SameNotes]

@[simp] theorem decodeBytes_frame (s : State) (d : Decode) :
    Kept (s.decodeBytes d) s
      ∧ (s.decodeBytes d).compactor = s.compactor ∧ SamePlanes (s.decodeBytes d) s ∧ SameShow (s.decodeBytes d) s
      ∧ SameNotes (s.decodeBytes d) s ∧ (s.decodeBytes d).palette = s.palette ∧ (s.decodeBytes d).nav = s.nav
      ∧ (s.decodeBytes d).port.flight = s.port.flight ∧ (s.decodeBytes d).port.lfReq = s.port.lfReq
      ∧ (s.decodeBytes d).port.compReq = s.port.compReq ∧ (s.decodeBytes d).walker.st = s.walker.st
      ∧ (s.decodeBytes d).walker.cur = s.walker.cur ∧ (s.decodeBytes d).walker.holder = s.walker.holder
      ∧ (s.decodeBytes d).walker.asked = s.walker.asked ∧ (s.decodeBytes d).walker.task = s.walker.task
      ∧ (s.decodeBytes d).walker.job = s.walker.job ∧ (s.decodeBytes d).walker.capture = s.walker.capture
      ∧ (s.decodeBytes d).walker.reread = s.walker.reread ∧ (s.decodeBytes d).heap.view = s.heap.view := by
  simp only [State.decodeBytes]
  repeat' split
  all_goals simp [Kept, SameHeap, SamePlanes, SameShow, SameNotes]

@[simp] theorem decodeHeader_frame (s : State) (d : Decode) (l : List Byte) :
    Kept (s.decodeHeader d l) s
      ∧ (s.decodeHeader d l).compactor = s.compactor ∧ SamePlanes (s.decodeHeader d l) s ∧ SameShow (s.decodeHeader d l) s
      ∧ SameNotes (s.decodeHeader d l) s ∧ (s.decodeHeader d l).palette = s.palette ∧ (s.decodeHeader d l).nav = s.nav
      ∧ (s.decodeHeader d l).port.flight = s.port.flight ∧ (s.decodeHeader d l).port.lfReq = s.port.lfReq
      ∧ (s.decodeHeader d l).port.compReq = s.port.compReq ∧ (s.decodeHeader d l).walker.st = s.walker.st
      ∧ (s.decodeHeader d l).walker.cur = s.walker.cur ∧ (s.decodeHeader d l).walker.holder = s.walker.holder
      ∧ (s.decodeHeader d l).walker.asked = s.walker.asked ∧ (s.decodeHeader d l).walker.task = s.walker.task
      ∧ (s.decodeHeader d l).walker.job = s.walker.job ∧ (s.decodeHeader d l).walker.capture = s.walker.capture
      ∧ (s.decodeHeader d l).walker.reread = s.walker.reread ∧ (s.decodeHeader d l).heap.view = s.heap.view := by
  simp only [State.decodeHeader]
  repeat' split
  all_goals simp [Kept, SameHeap, SamePlanes, SameShow, SameNotes]

@[simp] theorem takeLoad_frame (s : State) :
    Kept s.takeLoad s ∧ s.takeLoad.compactor = s.compactor
      ∧ SamePlanes s.takeLoad s ∧ SameShow s.takeLoad s ∧ SameNotes s.takeLoad s ∧ s.takeLoad.palette = s.palette
      ∧ s.takeLoad.nav = s.nav ∧ s.takeLoad.walker = s.walker ∧ s.takeLoad.port.flight = s.port.flight
      ∧ s.takeLoad.port.lfReq = s.port.lfReq ∧ s.takeLoad.port.compReq = s.port.compReq
      ∧ s.takeLoad.port.walkerQ = s.port.walkerQ ∧ s.takeLoad.heap.dir = s.heap.dir
      ∧ s.takeLoad.heap.extents = s.heap.extents ∧ s.takeLoad.heap.loads = s.heap.loads ∧ s.takeLoad.heap.view = s.heap.view := by
  simp only [State.takeLoad]
  repeat' split
  all_goals simp [Kept, SameHeap, SamePlanes, SameShow, SameNotes]

@[simp] theorem decoderHeaderCame_frame (s : State) (e : Bool) (f : Flight) :
    Kept (s.decoderHeaderCame e f) s
      ∧ (s.decoderHeaderCame e f).compactor = s.compactor ∧ SamePlanes (s.decoderHeaderCame e f) s
      ∧ SameShow (s.decoderHeaderCame e f) s ∧ SameNotes (s.decoderHeaderCame e f) s
      ∧ (s.decoderHeaderCame e f).palette = s.palette ∧ (s.decoderHeaderCame e f).nav = s.nav
      ∧ (s.decoderHeaderCame e f).port.flight = s.port.flight ∧ (s.decoderHeaderCame e f).port.lfReq = s.port.lfReq
      ∧ (s.decoderHeaderCame e f).port.compReq = s.port.compReq ∧ (s.decoderHeaderCame e f).walker.st = s.walker.st
      ∧ (s.decoderHeaderCame e f).walker.cur = s.walker.cur ∧ (s.decoderHeaderCame e f).walker.holder = s.walker.holder
      ∧ (s.decoderHeaderCame e f).walker.asked = s.walker.asked ∧ (s.decoderHeaderCame e f).walker.task = s.walker.task
      ∧ (s.decoderHeaderCame e f).walker.job = s.walker.job ∧ (s.decoderHeaderCame e f).walker.capture = s.walker.capture
      ∧ (s.decoderHeaderCame e f).walker.reread = s.walker.reread ∧ (s.decoderHeaderCame e f).heap.view = s.heap.view := by
  simp only [State.decoderHeaderCame]
  repeat' split
  all_goals simp [Kept, SameHeap, SamePlanes, SameShow, SameNotes]

@[simp] theorem decoderCodeCame_frame (s : State) (e : Bool) (f : Flight) :
    Kept (s.decoderCodeCame e f) s
      ∧ (s.decoderCodeCame e f).compactor = s.compactor ∧ SamePlanes (s.decoderCodeCame e f) s
      ∧ SameShow (s.decoderCodeCame e f) s ∧ SameNotes (s.decoderCodeCame e f) s
      ∧ (s.decoderCodeCame e f).palette = s.palette ∧ (s.decoderCodeCame e f).nav = s.nav
      ∧ (s.decoderCodeCame e f).port.flight = s.port.flight ∧ (s.decoderCodeCame e f).port.lfReq = s.port.lfReq
      ∧ (s.decoderCodeCame e f).port.compReq = s.port.compReq ∧ (s.decoderCodeCame e f).walker.st = s.walker.st
      ∧ (s.decoderCodeCame e f).walker.cur = s.walker.cur ∧ (s.decoderCodeCame e f).walker.holder = s.walker.holder
      ∧ (s.decoderCodeCame e f).walker.asked = s.walker.asked ∧ (s.decoderCodeCame e f).walker.task = s.walker.task
      ∧ (s.decoderCodeCame e f).walker.job = s.walker.job ∧ (s.decoderCodeCame e f).walker.capture = s.walker.capture
      ∧ (s.decoderCodeCame e f).walker.reread = s.walker.reread ∧ (s.decoderCodeCame e f).heap.view = s.heap.view := by
  simp only [State.decoderCodeCame]
  repeat' split
  all_goals simp [Kept, SameHeap, SamePlanes, SameShow, SameNotes]

@[simp] theorem decoderWrote_frame (s : State) (e : Bool) (f : Flight) :
    Kept (s.decoderWrote e f) s
      ∧ (s.decoderWrote e f).compactor = s.compactor ∧ SamePlanes (s.decoderWrote e f) s ∧ SameShow (s.decoderWrote e f) s
      ∧ SameNotes (s.decoderWrote e f) s ∧ (s.decoderWrote e f).palette = s.palette ∧ (s.decoderWrote e f).nav = s.nav
      ∧ (s.decoderWrote e f).port.flight = s.port.flight ∧ (s.decoderWrote e f).port.lfReq = s.port.lfReq
      ∧ (s.decoderWrote e f).port.compReq = s.port.compReq ∧ (s.decoderWrote e f).walker.st = s.walker.st
      ∧ (s.decoderWrote e f).walker.cur = s.walker.cur ∧ (s.decoderWrote e f).walker.holder = s.walker.holder
      ∧ (s.decoderWrote e f).walker.asked = s.walker.asked ∧ (s.decoderWrote e f).walker.task = s.walker.task
      ∧ (s.decoderWrote e f).walker.job = s.walker.job ∧ (s.decoderWrote e f).walker.capture = s.walker.capture
      ∧ (s.decoderWrote e f).walker.reread = s.walker.reread ∧ (s.decoderWrote e f).heap.view = s.heap.view := by
  simp only [State.decoderWrote]
  repeat' split
  all_goals simp [Kept, SameHeap, SamePlanes, SameShow, SameNotes]

/-! ### The compactor -/

@[simp] theorem beginCopy_frame (s : State) (m : Move) :
    Kept (s.beginCopy m) s ∧ (s.beginCopy m).heap = s.heap
      ∧ SamePlanes (s.beginCopy m) s ∧ SameShow (s.beginCopy m) s ∧ SameNotes (s.beginCopy m) s
      ∧ (s.beginCopy m).palette = s.palette ∧ (s.beginCopy m).nav = s.nav ∧ (s.beginCopy m).walker = s.walker
      ∧ (s.beginCopy m).port.flight = s.port.flight ∧ (s.beginCopy m).port.lfReq = s.port.lfReq
      ∧ (s.beginCopy m).port.decReq = s.port.decReq ∧ (s.beginCopy m).port.walkerQ = s.port.walkerQ
      ∧ (s.beginCopy m).compactor.task = s.compactor.task ∧ (s.beginCopy m).compactor.move = s.compactor.move := by
  simp only [State.beginCopy]
  repeat' split
  all_goals simp [Kept, SameHeap, SamePlanes, SameShow, SameNotes]

@[simp] theorem endCompaction_frame (s : State) (o : TaskOutcome) (k : Nat) :
    Kept (s.endCompaction o k) s
      ∧ SamePlanes (s.endCompaction o k) s ∧ SameShow (s.endCompaction o k) s ∧ SameNotes (s.endCompaction o k) s
      ∧ (s.endCompaction o k).palette = s.palette ∧ (s.endCompaction o k).nav = s.nav
      ∧ (s.endCompaction o k).port.flight = s.port.flight ∧ (s.endCompaction o k).port.lfReq = s.port.lfReq
      ∧ (s.endCompaction o k).port.decReq = s.port.decReq ∧ (s.endCompaction o k).port.compReq = s.port.compReq
      ∧ (s.endCompaction o k).walker.st = s.walker.st ∧ (s.endCompaction o k).walker.cur = s.walker.cur
      ∧ (s.endCompaction o k).walker.holder = s.walker.holder ∧ (s.endCompaction o k).walker.asked = s.walker.asked
      ∧ (s.endCompaction o k).walker.task = s.walker.task ∧ (s.endCompaction o k).walker.job = s.walker.job
      ∧ (s.endCompaction o k).walker.capture = s.walker.capture ∧ (s.endCompaction o k).walker.reread = s.walker.reread
      ∧ (s.endCompaction o k).heap.dir = s.heap.dir ∧ (s.endCompaction o k).heap.extents = s.heap.extents
      ∧ (s.endCompaction o k).heap.decode = s.heap.decode ∧ (s.endCompaction o k).heap.view = s.heap.view := by
  simp only [State.endCompaction]
  repeat' split
  all_goals simp [Kept, SameHeap, SamePlanes, SameShow, SameNotes]

@[simp] theorem judgeCompact_frame (s : State) (t : Task) :
    Kept (s.judgeCompact t) s ∧ (s.judgeCompact t).heap = s.heap
      ∧ SamePlanes (s.judgeCompact t) s ∧ SameShow (s.judgeCompact t) s ∧ SameNotes (s.judgeCompact t) s
      ∧ (s.judgeCompact t).palette = s.palette ∧ (s.judgeCompact t).nav = s.nav
      ∧ (s.judgeCompact t).port.flight = s.port.flight ∧ (s.judgeCompact t).port.lfReq = s.port.lfReq
      ∧ (s.judgeCompact t).port.decReq = s.port.decReq ∧ (s.judgeCompact t).port.compReq = s.port.compReq
      ∧ (s.judgeCompact t).walker.cur = s.walker.cur ∧ (s.judgeCompact t).walker.holder = s.walker.holder
      ∧ (s.judgeCompact t).walker.asked = s.walker.asked ∧ (s.judgeCompact t).walker.capture = s.walker.capture
      ∧ (s.judgeCompact t).walker.retiring = s.walker.retiring ∧ (s.judgeCompact t).walker.reread = s.walker.reread := by
  simp only [State.judgeCompact]
  repeat' split
  all_goals simp [Kept, SameHeap, SamePlanes, SameShow, SameNotes]

@[simp] theorem reserve_frame (s : State) (i : Byte) (e : DirEntry) :
    Kept (s.reserve i e) s
      ∧ SamePlanes (s.reserve i e) s ∧ SameShow (s.reserve i e) s ∧ SameNotes (s.reserve i e) s
      ∧ (s.reserve i e).palette = s.palette ∧ (s.reserve i e).nav = s.nav ∧ (s.reserve i e).walker = s.walker
      ∧ (s.reserve i e).port.flight = s.port.flight ∧ (s.reserve i e).port.lfReq = s.port.lfReq
      ∧ (s.reserve i e).port.decReq = s.port.decReq ∧ (s.reserve i e).port.walkerQ = s.port.walkerQ
      ∧ (s.reserve i e).heap.loads = s.heap.loads ∧ (s.reserve i e).heap.decode = s.heap.decode
      ∧ (s.reserve i e).heap.view = s.heap.view ∧ (s.reserve i e).compactor.task = s.compactor.task := by
  simp only [State.reserve]
  repeat' split
  all_goals simp [Kept, SameHeap, SamePlanes, SameShow, SameNotes]

@[simp] theorem scanStep_frame (s : State) :
    Kept s.scanStep s ∧ SamePlanes s.scanStep s ∧ SameShow s.scanStep s
      ∧ SameNotes s.scanStep s ∧ s.scanStep.palette = s.palette ∧ s.scanStep.nav = s.nav
      ∧ s.scanStep.port.flight = s.port.flight ∧ s.scanStep.port.lfReq = s.port.lfReq
      ∧ s.scanStep.port.decReq = s.port.decReq ∧ s.scanStep.walker.st = s.walker.st ∧ s.scanStep.walker.cur = s.walker.cur
      ∧ s.scanStep.walker.holder = s.walker.holder ∧ s.scanStep.walker.asked = s.walker.asked
      ∧ s.scanStep.walker.task = s.walker.task ∧ s.scanStep.walker.job = s.walker.job
      ∧ s.scanStep.walker.capture = s.walker.capture ∧ s.scanStep.walker.reread = s.walker.reread
      ∧ s.scanStep.heap.decode = s.heap.decode ∧ s.scanStep.heap.view = s.heap.view := by
  simp only [State.scanStep]
  repeat' split
  all_goals simp [Kept, SameHeap, SamePlanes, SameShow, SameNotes]

@[simp] theorem withdraw_frame (s : State) (m : Move) :
    Kept (s.withdraw m) s ∧ SamePlanes (s.withdraw m) s
      ∧ SameShow (s.withdraw m) s ∧ SameNotes (s.withdraw m) s ∧ (s.withdraw m).palette = s.palette
      ∧ (s.withdraw m).port = s.port ∧ (s.withdraw m).nav = s.nav ∧ (s.withdraw m).walker = s.walker
      ∧ (s.withdraw m).heap.loads = s.heap.loads ∧ (s.withdraw m).heap.decode = s.heap.decode
      ∧ (s.withdraw m).heap.view = s.heap.view ∧ (s.withdraw m).compactor.task = s.compactor.task := by
  simp only [State.withdraw]
  repeat' split
  all_goals simp [Kept, SameHeap, SamePlanes, SameShow, SameNotes]

@[simp] theorem confirmMove_frame (s : State) :
    Kept s.confirmMove s ∧ SamePlanes s.confirmMove s
      ∧ SameShow s.confirmMove s ∧ SameNotes s.confirmMove s ∧ s.confirmMove.palette = s.palette ∧ s.confirmMove.nav = s.nav
      ∧ s.confirmMove.walker = s.walker ∧ s.confirmMove.port.flight = s.port.flight
      ∧ s.confirmMove.port.lfReq = s.port.lfReq ∧ s.confirmMove.port.decReq = s.port.decReq
      ∧ s.confirmMove.port.walkerQ = s.port.walkerQ ∧ s.confirmMove.heap.loads = s.heap.loads
      ∧ s.confirmMove.heap.decode = s.heap.decode ∧ s.confirmMove.heap.view = s.heap.view
      ∧ s.confirmMove.compactor.task = s.compactor.task := by
  simp only [State.confirmMove]
  repeat' split
  all_goals simp [Kept, SameHeap, SamePlanes, SameShow, SameNotes]

@[simp] theorem compError_frame (s : State) (m : Move) :
    Kept (s.compError m) s ∧ SamePlanes (s.compError m) s
      ∧ SameShow (s.compError m) s ∧ SameNotes (s.compError m) s ∧ (s.compError m).palette = s.palette
      ∧ (s.compError m).nav = s.nav ∧ (s.compError m).port.flight = s.port.flight
      ∧ (s.compError m).port.lfReq = s.port.lfReq ∧ (s.compError m).port.decReq = s.port.decReq
      ∧ (s.compError m).port.compReq = s.port.compReq ∧ (s.compError m).walker.st = s.walker.st
      ∧ (s.compError m).walker.cur = s.walker.cur ∧ (s.compError m).walker.holder = s.walker.holder
      ∧ (s.compError m).walker.asked = s.walker.asked ∧ (s.compError m).walker.task = s.walker.task
      ∧ (s.compError m).walker.job = s.walker.job ∧ (s.compError m).walker.capture = s.walker.capture
      ∧ (s.compError m).walker.reread = s.walker.reread ∧ (s.compError m).heap.decode = s.heap.decode
      ∧ (s.compError m).heap.view = s.heap.view := by
  simp only [State.compError]
  repeat' split
  all_goals simp [Kept, SameHeap, SamePlanes, SameShow, SameNotes]

@[simp] theorem compReadCame_frame (s : State) (e : Bool) (f : Flight) :
    Kept (s.compReadCame e f) s
      ∧ SamePlanes (s.compReadCame e f) s ∧ SameShow (s.compReadCame e f) s ∧ SameNotes (s.compReadCame e f) s
      ∧ (s.compReadCame e f).palette = s.palette ∧ (s.compReadCame e f).nav = s.nav
      ∧ (s.compReadCame e f).port.flight = s.port.flight ∧ (s.compReadCame e f).port.lfReq = s.port.lfReq
      ∧ (s.compReadCame e f).port.decReq = s.port.decReq ∧ (s.compReadCame e f).walker.st = s.walker.st
      ∧ (s.compReadCame e f).walker.cur = s.walker.cur ∧ (s.compReadCame e f).walker.holder = s.walker.holder
      ∧ (s.compReadCame e f).walker.asked = s.walker.asked ∧ (s.compReadCame e f).walker.task = s.walker.task
      ∧ (s.compReadCame e f).walker.job = s.walker.job ∧ (s.compReadCame e f).walker.capture = s.walker.capture
      ∧ (s.compReadCame e f).walker.reread = s.walker.reread ∧ (s.compReadCame e f).heap.decode = s.heap.decode
      ∧ (s.compReadCame e f).heap.view = s.heap.view := by
  simp only [State.compReadCame]
  repeat' split
  all_goals simp [Kept, SameHeap, SamePlanes, SameShow, SameNotes]

@[simp] theorem compWrote_frame (s : State) (e : Bool) (f : Flight) :
    Kept (s.compWrote e f) s
      ∧ SamePlanes (s.compWrote e f) s ∧ SameShow (s.compWrote e f) s ∧ SameNotes (s.compWrote e f) s
      ∧ (s.compWrote e f).palette = s.palette ∧ (s.compWrote e f).nav = s.nav
      ∧ (s.compWrote e f).port.flight = s.port.flight ∧ (s.compWrote e f).port.lfReq = s.port.lfReq
      ∧ (s.compWrote e f).port.decReq = s.port.decReq ∧ (s.compWrote e f).walker.st = s.walker.st
      ∧ (s.compWrote e f).walker.cur = s.walker.cur ∧ (s.compWrote e f).walker.holder = s.walker.holder
      ∧ (s.compWrote e f).walker.asked = s.walker.asked ∧ (s.compWrote e f).walker.task = s.walker.task
      ∧ (s.compWrote e f).walker.job = s.walker.job ∧ (s.compWrote e f).walker.capture = s.walker.capture
      ∧ (s.compWrote e f).walker.reread = s.walker.reread ∧ (s.compWrote e f).heap.decode = s.heap.decode
      ∧ (s.compWrote e f).heap.view = s.heap.view := by
  simp only [State.compWrote]
  repeat' split
  all_goals simp [Kept, SameHeap, SamePlanes, SameShow, SameNotes]

@[simp] theorem applySwitch_frame (s : State) :
    Kept s.applySwitch s ∧ SamePlanes s.applySwitch s
      ∧ SameShow s.applySwitch s ∧ SameNotes s.applySwitch s ∧ s.applySwitch.palette = s.palette
      ∧ s.applySwitch.port = s.port ∧ s.applySwitch.nav = s.nav ∧ s.applySwitch.walker = s.walker
      ∧ s.applySwitch.heap.loads = s.heap.loads ∧ s.applySwitch.heap.decode = s.heap.decode
      ∧ s.applySwitch.heap.view = s.heap.view ∧ s.applySwitch.compactor.task = s.compactor.task := by
  simp only [State.applySwitch]
  repeat' split
  all_goals simp [Kept, SameHeap, SamePlanes, SameShow, SameNotes]

/-! ### Palettes and pages -/

@[simp] theorem judgeLoadPalette_frame (s : State) (t : Task) :
    Kept (s.judgeLoadPalette t) s
      ∧ SameHeap (s.judgeLoadPalette t) s ∧ SamePlanes (s.judgeLoadPalette t) s ∧ SameShow (s.judgeLoadPalette t) s
      ∧ SameNotes (s.judgeLoadPalette t) s ∧ (s.judgeLoadPalette t).palette = s.palette ∧ (s.judgeLoadPalette t).nav = s.nav
      ∧ (s.judgeLoadPalette t).port.flight = s.port.flight ∧ (s.judgeLoadPalette t).port.lfReq = s.port.lfReq
      ∧ (s.judgeLoadPalette t).port.decReq = s.port.decReq ∧ (s.judgeLoadPalette t).port.compReq = s.port.compReq
      ∧ (s.judgeLoadPalette t).walker.cur = s.walker.cur ∧ (s.judgeLoadPalette t).walker.holder = s.walker.holder
      ∧ (s.judgeLoadPalette t).walker.asked = s.walker.asked ∧ (s.judgeLoadPalette t).walker.capture = s.walker.capture
      ∧ (s.judgeLoadPalette t).walker.reread = s.walker.reread := by
  simp only [State.judgeLoadPalette]
  repeat' split
  all_goals simp [Kept, SameHeap, SamePlanes, SameShow, SameNotes]

@[simp] theorem acceptPalette_frame (s : State) (t : Task) (l : List Byte) :
    Kept (s.acceptPalette t l) s
      ∧ SameHeap (s.acceptPalette t l) s ∧ SamePlanes (s.acceptPalette t l) s ∧ SameShow (s.acceptPalette t l) s
      ∧ SameNotes (s.acceptPalette t l) s ∧ (s.acceptPalette t l).nav = s.nav
      ∧ (s.acceptPalette t l).port.flight = s.port.flight ∧ (s.acceptPalette t l).port.lfReq = s.port.lfReq
      ∧ (s.acceptPalette t l).port.decReq = s.port.decReq ∧ (s.acceptPalette t l).port.compReq = s.port.compReq
      ∧ (s.acceptPalette t l).walker.cur = s.walker.cur ∧ (s.acceptPalette t l).walker.holder = s.walker.holder
      ∧ (s.acceptPalette t l).walker.asked = s.walker.asked ∧ (s.acceptPalette t l).walker.capture = s.walker.capture
      ∧ (s.acceptPalette t l).walker.retiring = s.walker.retiring ∧ (s.acceptPalette t l).walker.reread = s.walker.reread := by
  simp only [State.acceptPalette]
  repeat' split
  all_goals simp [Kept, SameHeap, SamePlanes, SameShow, SameNotes]

@[simp] theorem retireAll_frame (s : State) (o : TaskOutcome) (k : Nat) (l : List TaskRef) :
    Kept (s.retireAll o k l) s
      ∧ SameHeap (s.retireAll o k l) s ∧ SamePlanes (s.retireAll o k l) s ∧ SameShow (s.retireAll o k l) s
      ∧ SameNotes (s.retireAll o k l) s ∧ (s.retireAll o k l).palette = s.palette ∧ (s.retireAll o k l).nav = s.nav
      ∧ (s.retireAll o k l).port.flight = s.port.flight ∧ (s.retireAll o k l).port.lfReq = s.port.lfReq
      ∧ (s.retireAll o k l).port.decReq = s.port.decReq ∧ (s.retireAll o k l).port.compReq = s.port.compReq
      ∧ (s.retireAll o k l).walker.st = s.walker.st ∧ (s.retireAll o k l).walker.cur = s.walker.cur
      ∧ (s.retireAll o k l).walker.holder = s.walker.holder ∧ (s.retireAll o k l).walker.asked = s.walker.asked
      ∧ (s.retireAll o k l).walker.task = s.walker.task ∧ (s.retireAll o k l).walker.job = s.walker.job
      ∧ (s.retireAll o k l).walker.capture = s.walker.capture ∧ (s.retireAll o k l).walker.reread = s.walker.reread := by
  induction l generalizing s with
  | nil => simp [Kept, SameHeap, SamePlanes, SameShow, SameNotes, State.retireAll]
  | cons r rs ih => simp [Kept, SameHeap, SamePlanes, SameShow, SameNotes, State.retireAll, ih]

@[simp] theorem applyPalettes_frame (s : State) :
    Kept s.applyPalettes s ∧ SameHeap s.applyPalettes s
      ∧ SamePlanes s.applyPalettes s ∧ SameShow s.applyPalettes s ∧ SameNotes s.applyPalettes s
      ∧ s.applyPalettes.nav = s.nav ∧ s.applyPalettes.port.flight = s.port.flight
      ∧ s.applyPalettes.port.lfReq = s.port.lfReq ∧ s.applyPalettes.port.decReq = s.port.decReq
      ∧ s.applyPalettes.port.compReq = s.port.compReq ∧ s.applyPalettes.walker.st = s.walker.st
      ∧ s.applyPalettes.walker.cur = s.walker.cur ∧ s.applyPalettes.walker.holder = s.walker.holder
      ∧ s.applyPalettes.walker.asked = s.walker.asked ∧ s.applyPalettes.walker.task = s.walker.task
      ∧ s.applyPalettes.walker.job = s.walker.job ∧ s.applyPalettes.walker.capture = s.walker.capture
      ∧ s.applyPalettes.walker.reread = s.walker.reread := by
  simp only [State.applyPalettes]
  repeat' split
  all_goals simp [Kept, SameHeap, SamePlanes, SameShow, SameNotes]

@[simp] theorem failStage_frame (s : State) (t : Task) (o : TaskOutcome) (k : Nat) :
    Kept (s.failStage t o k) s
      ∧ SameHeap (s.failStage t o k) s ∧ (s.failStage t o k).slide = s.slide ∧ (s.failStage t o k).menu = s.menu
      ∧ (s.failStage t o k).jump = s.jump ∧ (s.failStage t o k).drawnViews = s.drawnViews ∧ SameShow (s.failStage t o k) s
      ∧ SameNotes (s.failStage t o k) s ∧ (s.failStage t o k).palette = s.palette ∧ (s.failStage t o k).nav = s.nav
      ∧ (s.failStage t o k).port.flight = s.port.flight ∧ (s.failStage t o k).port.lfReq = s.port.lfReq
      ∧ (s.failStage t o k).port.decReq = s.port.decReq ∧ (s.failStage t o k).port.compReq = s.port.compReq
      ∧ (s.failStage t o k).walker.cur = s.walker.cur ∧ (s.failStage t o k).walker.holder = s.walker.holder
      ∧ (s.failStage t o k).walker.asked = s.walker.asked ∧ (s.failStage t o k).walker.capture = s.walker.capture
      ∧ (s.failStage t o k).walker.reread = s.walker.reread := by
  simp only [State.failStage]
  repeat' split
  all_goals simp [Kept, SameHeap, SamePlanes, SameShow, SameNotes]

@[simp] theorem judgeStage_frame (s : State) (t : Task) :
    Kept (s.judgeStage t) s ∧ SameHeap (s.judgeStage t) s
      ∧ (s.judgeStage t).slide = s.slide ∧ (s.judgeStage t).menu = s.menu ∧ (s.judgeStage t).jump = s.jump
      ∧ (s.judgeStage t).drawnViews = s.drawnViews ∧ SameShow (s.judgeStage t) s ∧ SameNotes (s.judgeStage t) s
      ∧ (s.judgeStage t).palette = s.palette ∧ (s.judgeStage t).nav = s.nav ∧ (s.judgeStage t).port.flight = s.port.flight
      ∧ (s.judgeStage t).port.lfReq = s.port.lfReq ∧ (s.judgeStage t).port.decReq = s.port.decReq
      ∧ (s.judgeStage t).port.compReq = s.port.compReq ∧ (s.judgeStage t).walker.cur = s.walker.cur
      ∧ (s.judgeStage t).walker.holder = s.walker.holder ∧ (s.judgeStage t).walker.asked = s.walker.asked
      ∧ (s.judgeStage t).walker.capture = s.walker.capture ∧ (s.judgeStage t).walker.reread = s.walker.reread := by
  simp only [State.judgeStage]
  repeat' split
  all_goals simp [Kept, SameHeap, SamePlanes, SameShow, SameNotes]

@[simp] theorem pageHeaderCame_frame (s : State) (t : Task) (l : List Byte) :
    Kept (s.pageHeaderCame t l) s
      ∧ SameHeap (s.pageHeaderCame t l) s ∧ (s.pageHeaderCame t l).slide = s.slide ∧ (s.pageHeaderCame t l).menu = s.menu
      ∧ (s.pageHeaderCame t l).jump = s.jump ∧ (s.pageHeaderCame t l).drawnViews = s.drawnViews
      ∧ SameShow (s.pageHeaderCame t l) s ∧ SameNotes (s.pageHeaderCame t l) s ∧ (s.pageHeaderCame t l).palette = s.palette
      ∧ (s.pageHeaderCame t l).nav = s.nav ∧ (s.pageHeaderCame t l).port.flight = s.port.flight
      ∧ (s.pageHeaderCame t l).port.lfReq = s.port.lfReq ∧ (s.pageHeaderCame t l).port.decReq = s.port.decReq
      ∧ (s.pageHeaderCame t l).port.compReq = s.port.compReq ∧ (s.pageHeaderCame t l).walker.cur = s.walker.cur
      ∧ (s.pageHeaderCame t l).walker.holder = s.walker.holder ∧ (s.pageHeaderCame t l).walker.asked = s.walker.asked
      ∧ (s.pageHeaderCame t l).walker.capture = s.walker.capture ∧ (s.pageHeaderCame t l).walker.reread = s.walker.reread := by
  simp only [State.pageHeaderCame]
  repeat' split
  all_goals simp [Kept, SameHeap, SamePlanes, SameShow, SameNotes]

@[simp] theorem incAll_frame (s : State) (l : List Byte) :
    Kept (s.incAll l) s ∧ (s.incAll l).compactor = s.compactor
      ∧ SamePlanes (s.incAll l) s ∧ SameShow (s.incAll l) s ∧ SameNotes (s.incAll l) s ∧ (s.incAll l).palette = s.palette
      ∧ (s.incAll l).port = s.port ∧ (s.incAll l).nav = s.nav ∧ (s.incAll l).walker = s.walker
      ∧ (s.incAll l).heap.extents = s.heap.extents ∧ (s.incAll l).heap.loads = s.heap.loads
      ∧ (s.incAll l).heap.decode = s.heap.decode ∧ (s.incAll l).heap.view = s.heap.view := by
  induction l generalizing s with
  | nil => simp [Kept, SameHeap, SamePlanes, SameShow, SameNotes, State.incAll]
  | cons r rs ih => simp [Kept, SameHeap, SamePlanes, SameShow, SameNotes, State.incAll, ih]

@[simp] theorem decAll_frame (s : State) (l : List Byte) :
    Kept (s.decAll l) s ∧ SamePlanes (s.decAll l) s
      ∧ SameShow (s.decAll l) s ∧ SameNotes (s.decAll l) s ∧ (s.decAll l).palette = s.palette ∧ (s.decAll l).nav = s.nav
      ∧ (s.decAll l).walker = s.walker ∧ (s.decAll l).port.lfReq = s.port.lfReq ∧ (s.decAll l).port.decReq = s.port.decReq
      ∧ (s.decAll l).port.walkerQ = s.port.walkerQ ∧ (s.decAll l).heap.loads = s.heap.loads
      ∧ (s.decAll l).heap.decode = s.heap.decode ∧ (s.decAll l).heap.view = s.heap.view
      ∧ (s.decAll l).compactor.task = s.compactor.task := by
  induction l generalizing s with
  | nil => simp [Kept, SameHeap, SamePlanes, SameShow, SameNotes, State.decAll]
  | cons r rs ih => simp [Kept, SameHeap, SamePlanes, SameShow, SameNotes, State.decAll, ih]

@[simp] theorem pageCame_frame (s : State) (t : Task) (l : List Byte) :
    Kept (s.pageCame t l) s
      ∧ (s.pageCame t l).compactor = s.compactor ∧ (s.pageCame t l).slide = s.slide ∧ (s.pageCame t l).menu = s.menu
      ∧ (s.pageCame t l).jump = s.jump ∧ (s.pageCame t l).drawnViews = s.drawnViews ∧ SameShow (s.pageCame t l) s
      ∧ SameNotes (s.pageCame t l) s ∧ (s.pageCame t l).palette = s.palette ∧ (s.pageCame t l).nav = s.nav
      ∧ (s.pageCame t l).port.flight = s.port.flight ∧ (s.pageCame t l).port.lfReq = s.port.lfReq
      ∧ (s.pageCame t l).port.decReq = s.port.decReq ∧ (s.pageCame t l).port.compReq = s.port.compReq
      ∧ (s.pageCame t l).walker.cur = s.walker.cur ∧ (s.pageCame t l).walker.holder = s.walker.holder
      ∧ (s.pageCame t l).walker.asked = s.walker.asked ∧ (s.pageCame t l).walker.capture = s.walker.capture
      ∧ (s.pageCame t l).walker.reread = s.walker.reread ∧ (s.pageCame t l).heap.extents = s.heap.extents
      ∧ (s.pageCame t l).heap.loads = s.heap.loads ∧ (s.pageCame t l).heap.decode = s.heap.decode
      ∧ (s.pageCame t l).heap.view = s.heap.view := by
  simp only [State.pageCame]
  repeat' split
  all_goals simp [Kept, SameHeap, SamePlanes, SameShow, SameNotes]

@[simp] theorem judgeDiscard_frame (s : State) (t : Task) :
    Kept (s.judgeDiscard t) s
      ∧ (s.judgeDiscard t).slide = s.slide ∧ (s.judgeDiscard t).menu = s.menu ∧ (s.judgeDiscard t).jump = s.jump
      ∧ (s.judgeDiscard t).drawnViews = s.drawnViews ∧ SameShow (s.judgeDiscard t) s ∧ SameNotes (s.judgeDiscard t) s
      ∧ (s.judgeDiscard t).palette = s.palette ∧ (s.judgeDiscard t).nav = s.nav
      ∧ (s.judgeDiscard t).port.lfReq = s.port.lfReq ∧ (s.judgeDiscard t).port.decReq = s.port.decReq
      ∧ (s.judgeDiscard t).walker.cur = s.walker.cur ∧ (s.judgeDiscard t).walker.holder = s.walker.holder
      ∧ (s.judgeDiscard t).walker.asked = s.walker.asked ∧ (s.judgeDiscard t).walker.capture = s.walker.capture
      ∧ (s.judgeDiscard t).walker.reread = s.walker.reread ∧ (s.judgeDiscard t).heap.loads = s.heap.loads
      ∧ (s.judgeDiscard t).heap.decode = s.heap.decode ∧ (s.judgeDiscard t).heap.view = s.heap.view
      ∧ (s.judgeDiscard t).compactor.task = s.compactor.task := by
  simp only [State.judgeDiscard]
  repeat' split
  all_goals simp [Kept, SameHeap, SamePlanes, SameShow, SameNotes]

/-! ### Planes -/

@[simp] theorem insertOp_frame (s : State) (p : PlaneId) (x : Option SlotId) (t : Task) :
    Kept (s.insertOp p x t) s
      ∧ SameHeap (s.insertOp p x t) s ∧ (s.insertOp p x t).slots = s.slots ∧ (s.insertOp p x t).jump = s.jump
      ∧ (s.insertOp p x t).drawnViews = s.drawnViews ∧ SameShow (s.insertOp p x t) s ∧ SameNotes (s.insertOp p x t) s
      ∧ (s.insertOp p x t).palette = s.palette ∧ (s.insertOp p x t).nav = s.nav
      ∧ (s.insertOp p x t).port.flight = s.port.flight ∧ (s.insertOp p x t).port.lfReq = s.port.lfReq
      ∧ (s.insertOp p x t).port.decReq = s.port.decReq ∧ (s.insertOp p x t).port.compReq = s.port.compReq
      ∧ (s.insertOp p x t).walker.cur = s.walker.cur ∧ (s.insertOp p x t).walker.holder = s.walker.holder
      ∧ (s.insertOp p x t).walker.asked = s.walker.asked ∧ (s.insertOp p x t).walker.capture = s.walker.capture
      ∧ (s.insertOp p x t).walker.retiring = s.walker.retiring ∧ (s.insertOp p x t).walker.reread = s.walker.reread := by
  simp only [State.insertOp]
  repeat' split
  all_goals simp [Kept, SameHeap, SamePlanes, SameShow, SameNotes]

@[simp] theorem judgeShow_frame (s : State) (t : Task) :
    Kept (s.judgeShow t) s ∧ SameHeap (s.judgeShow t) s
      ∧ (s.judgeShow t).jump = s.jump ∧ (s.judgeShow t).drawnViews = s.drawnViews ∧ SameShow (s.judgeShow t) s
      ∧ SameNotes (s.judgeShow t) s ∧ (s.judgeShow t).palette = s.palette ∧ (s.judgeShow t).nav = s.nav
      ∧ (s.judgeShow t).port.flight = s.port.flight ∧ (s.judgeShow t).port.lfReq = s.port.lfReq
      ∧ (s.judgeShow t).port.decReq = s.port.decReq ∧ (s.judgeShow t).port.compReq = s.port.compReq
      ∧ (s.judgeShow t).walker.cur = s.walker.cur ∧ (s.judgeShow t).walker.holder = s.walker.holder
      ∧ (s.judgeShow t).walker.asked = s.walker.asked ∧ (s.judgeShow t).walker.capture = s.walker.capture
      ∧ (s.judgeShow t).walker.reread = s.walker.reread := by
  simp only [State.judgeShow]
  repeat' split
  all_goals simp [Kept, SameHeap, SamePlanes, SameShow, SameNotes]

@[simp] theorem judgeHide_frame (s : State) (t : Task) :
    Kept (s.judgeHide t) s ∧ SameHeap (s.judgeHide t) s
      ∧ (s.judgeHide t).slots = s.slots ∧ (s.judgeHide t).jump = s.jump ∧ (s.judgeHide t).drawnViews = s.drawnViews
      ∧ SameShow (s.judgeHide t) s ∧ SameNotes (s.judgeHide t) s ∧ (s.judgeHide t).palette = s.palette
      ∧ (s.judgeHide t).nav = s.nav ∧ (s.judgeHide t).port.flight = s.port.flight
      ∧ (s.judgeHide t).port.lfReq = s.port.lfReq ∧ (s.judgeHide t).port.decReq = s.port.decReq
      ∧ (s.judgeHide t).port.compReq = s.port.compReq ∧ (s.judgeHide t).walker.cur = s.walker.cur
      ∧ (s.judgeHide t).walker.holder = s.walker.holder ∧ (s.judgeHide t).walker.asked = s.walker.asked
      ∧ (s.judgeHide t).walker.capture = s.walker.capture ∧ (s.judgeHide t).walker.reread = s.walker.reread := by
  simp only [State.judgeHide]
  repeat' split
  all_goals simp [Kept, SameHeap, SamePlanes, SameShow, SameNotes]

@[simp] theorem cancelAll_frame (s : State) (l : List SchedEntry) :
    Kept (s.cancelAll l) s ∧ SameHeap (s.cancelAll l) s
      ∧ (s.cancelAll l).slide = s.slide ∧ (s.cancelAll l).menu = s.menu ∧ (s.cancelAll l).jump = s.jump
      ∧ (s.cancelAll l).drawnViews = s.drawnViews ∧ SameShow (s.cancelAll l) s ∧ SameNotes (s.cancelAll l) s
      ∧ (s.cancelAll l).palette = s.palette ∧ (s.cancelAll l).nav = s.nav ∧ (s.cancelAll l).port.flight = s.port.flight
      ∧ (s.cancelAll l).port.lfReq = s.port.lfReq ∧ (s.cancelAll l).port.decReq = s.port.decReq
      ∧ (s.cancelAll l).port.compReq = s.port.compReq ∧ (s.cancelAll l).walker.st = s.walker.st
      ∧ (s.cancelAll l).walker.cur = s.walker.cur ∧ (s.cancelAll l).walker.holder = s.walker.holder
      ∧ (s.cancelAll l).walker.asked = s.walker.asked ∧ (s.cancelAll l).walker.task = s.walker.task
      ∧ (s.cancelAll l).walker.job = s.walker.job ∧ (s.cancelAll l).walker.capture = s.walker.capture
      ∧ (s.cancelAll l).walker.reread = s.walker.reread := by
  induction l generalizing s with
  | nil => simp [Kept, SameHeap, SamePlanes, SameShow, SameNotes, State.cancelAll]
  | cons e es ih =>
    unfold State.cancelAll
    split <;> simp [Kept, SameHeap, SamePlanes, SameShow, SameNotes, ih]

@[simp] theorem judgeClear_frame (s : State) (t : Task) :
    Kept (s.judgeClear t) s ∧ SameHeap (s.judgeClear t) s
      ∧ (s.judgeClear t).jump = s.jump ∧ (s.judgeClear t).drawnViews = s.drawnViews ∧ SameShow (s.judgeClear t) s
      ∧ SameNotes (s.judgeClear t) s ∧ (s.judgeClear t).palette = s.palette ∧ (s.judgeClear t).nav = s.nav
      ∧ (s.judgeClear t).port.flight = s.port.flight ∧ (s.judgeClear t).port.lfReq = s.port.lfReq
      ∧ (s.judgeClear t).port.decReq = s.port.decReq ∧ (s.judgeClear t).port.compReq = s.port.compReq
      ∧ (s.judgeClear t).walker.cur = s.walker.cur ∧ (s.judgeClear t).walker.holder = s.walker.holder
      ∧ (s.judgeClear t).walker.asked = s.walker.asked ∧ (s.judgeClear t).walker.capture = s.walker.capture
      ∧ (s.judgeClear t).walker.reread = s.walker.reread := by
  simp only [State.judgeClear]
  repeat' split
  all_goals simp [Kept, SameHeap, SamePlanes, SameShow, SameNotes]

@[simp] theorem setContent_frame (s : State) (p : PlaneId) (c : Content) :
    Kept (s.setContent p c) s
      ∧ SameHeap (s.setContent p c) s ∧ (s.setContent p c).slots = s.slots ∧ (s.setContent p c).jump = s.jump
      ∧ (s.setContent p c).drawnViews = s.drawnViews ∧ SameShow (s.setContent p c) s ∧ SameNotes (s.setContent p c) s
      ∧ (s.setContent p c).palette = s.palette ∧ (s.setContent p c).port = s.port ∧ (s.setContent p c).nav = s.nav
      ∧ (s.setContent p c).walker = s.walker := by
  simp only [State.setContent]
  repeat' split
  all_goals simp [Kept, SameHeap, SamePlanes, SameShow, SameNotes]

@[simp] theorem setMark_frame (s : State) (p : PlaneId) :
    Kept (s.setMark p) s ∧ SameHeap (s.setMark p) s
      ∧ (s.setMark p).slots = s.slots ∧ (s.setMark p).jump = s.jump ∧ (s.setMark p).drawnViews = s.drawnViews
      ∧ SameShow (s.setMark p) s ∧ SameNotes (s.setMark p) s ∧ (s.setMark p).palette = s.palette
      ∧ (s.setMark p).port = s.port ∧ (s.setMark p).nav = s.nav ∧ (s.setMark p).walker = s.walker := by
  simp only [State.setMark]
  repeat' split
  all_goals simp [Kept, SameHeap, SamePlanes, SameShow, SameNotes]

@[simp] theorem settle_frame (s : State) (p : PlaneId) :
    Kept (s.settle p) s ∧ SameHeap (s.settle p) s
      ∧ (s.settle p).jump = s.jump ∧ (s.settle p).drawnViews = s.drawnViews ∧ SameShow (s.settle p) s
      ∧ SameNotes (s.settle p) s ∧ (s.settle p).palette = s.palette ∧ (s.settle p).port = s.port ∧ (s.settle p).nav = s.nav
      ∧ (s.settle p).walker = s.walker := by
  simp only [State.settle]
  repeat' split
  all_goals simp [Kept, SameHeap, SamePlanes, SameShow, SameNotes]

@[simp] theorem beginShow_frame (s : State) (p : PlaneId) (x : SlotId) (b : Option Nat) :
    Kept (s.beginShow p x b) s
      ∧ SameHeap (s.beginShow p x b) s ∧ (s.beginShow p x b).jump = s.jump ∧ (s.beginShow p x b).drawnViews = s.drawnViews
      ∧ SameShow (s.beginShow p x b) s ∧ SameNotes (s.beginShow p x b) s ∧ (s.beginShow p x b).palette = s.palette
      ∧ (s.beginShow p x b).port = s.port ∧ (s.beginShow p x b).nav = s.nav ∧ (s.beginShow p x b).walker = s.walker := by
  simp only [State.beginShow]
  repeat' split
  all_goals simp [Kept, SameHeap, SamePlanes, SameShow, SameNotes]

@[simp] theorem beginHide_frame (s : State) (p : PlaneId) (b : Option Nat) :
    Kept (s.beginHide p b) s
      ∧ SameHeap (s.beginHide p b) s ∧ (s.beginHide p b).jump = s.jump ∧ (s.beginHide p b).drawnViews = s.drawnViews
      ∧ SameShow (s.beginHide p b) s ∧ SameNotes (s.beginHide p b) s ∧ (s.beginHide p b).palette = s.palette
      ∧ (s.beginHide p b).port = s.port ∧ (s.beginHide p b).nav = s.nav ∧ (s.beginHide p b).walker = s.walker := by
  simp only [State.beginHide]
  repeat' split
  all_goals simp [Kept, SameHeap, SamePlanes, SameShow, SameNotes]

@[simp] theorem beginHead_frame (s : State) (p : PlaneId) :
    Kept (s.beginHead p) s ∧ SameHeap (s.beginHead p) s
      ∧ (s.beginHead p).jump = s.jump ∧ (s.beginHead p).drawnViews = s.drawnViews ∧ SameShow (s.beginHead p) s
      ∧ SameNotes (s.beginHead p) s ∧ (s.beginHead p).palette = s.palette ∧ (s.beginHead p).nav = s.nav
      ∧ (s.beginHead p).port.flight = s.port.flight ∧ (s.beginHead p).port.lfReq = s.port.lfReq
      ∧ (s.beginHead p).port.decReq = s.port.decReq ∧ (s.beginHead p).port.compReq = s.port.compReq
      ∧ (s.beginHead p).walker.st = s.walker.st ∧ (s.beginHead p).walker.cur = s.walker.cur
      ∧ (s.beginHead p).walker.holder = s.walker.holder ∧ (s.beginHead p).walker.asked = s.walker.asked
      ∧ (s.beginHead p).walker.task = s.walker.task ∧ (s.beginHead p).walker.job = s.walker.job
      ∧ (s.beginHead p).walker.capture = s.walker.capture ∧ (s.beginHead p).walker.reread = s.walker.reread := by
  simp only [State.beginHead]
  repeat' split
  all_goals simp [Kept, SameHeap, SamePlanes, SameShow, SameNotes]

@[simp] theorem publish_frame (s : State) (p : PlaneId) :
    Kept (s.publish p) s ∧ SameHeap (s.publish p) s
      ∧ (s.publish p).slots = s.slots ∧ (s.publish p).jump = s.jump ∧ (s.publish p).drawnViews = s.drawnViews
      ∧ (s.publish p).composer = s.composer ∧ SameNotes (s.publish p) s ∧ (s.publish p).palette = s.palette
      ∧ (s.publish p).port = s.port ∧ (s.publish p).nav = s.nav ∧ (s.publish p).walker = s.walker := by
  simp only [State.publish]
  repeat' split
  all_goals simp [Kept, SameHeap, SamePlanes, SameShow, SameNotes]

@[simp] theorem planeOps_frame (s : State) (p : PlaneId) :
    Kept (s.planeOps p) s ∧ SameHeap (s.planeOps p) s
      ∧ (s.planeOps p).slots = s.slots ∧ (s.planeOps p).jump = s.jump ∧ (s.planeOps p).drawnViews = s.drawnViews
      ∧ (s.planeOps p).composer = s.composer ∧ SameNotes (s.planeOps p) s ∧ (s.planeOps p).palette = s.palette
      ∧ (s.planeOps p).port = s.port ∧ (s.planeOps p).nav = s.nav ∧ (s.planeOps p).walker = s.walker := by
  simp only [State.planeOps]
  repeat' split
  all_goals simp [Kept, SameHeap, SamePlanes, SameShow, SameNotes]

@[simp] theorem planeAdvance_frame (s : State) (p : PlaneId) :
    Kept (s.planeAdvance p) s ∧ SameHeap (s.planeAdvance p) s
      ∧ (s.planeAdvance p).slots = s.slots ∧ (s.planeAdvance p).jump = s.jump ∧ (s.planeAdvance p).drawnViews = s.drawnViews
      ∧ (s.planeAdvance p).composer = s.composer ∧ SameNotes (s.planeAdvance p) s ∧ (s.planeAdvance p).palette = s.palette
      ∧ (s.planeAdvance p).port = s.port ∧ (s.planeAdvance p).nav = s.nav ∧ (s.planeAdvance p).walker = s.walker := by
  simp only [State.planeAdvance]
  repeat' split
  all_goals simp [Kept, SameHeap, SamePlanes, SameShow, SameNotes]

@[simp] theorem planeBegin_frame (s : State) (p : PlaneId) :
    Kept (s.planeBegin p) s ∧ SameHeap (s.planeBegin p) s
      ∧ (s.planeBegin p).slots = s.slots ∧ (s.planeBegin p).jump = s.jump ∧ (s.planeBegin p).drawnViews = s.drawnViews
      ∧ (s.planeBegin p).composer = s.composer ∧ SameNotes (s.planeBegin p) s ∧ (s.planeBegin p).palette = s.palette
      ∧ (s.planeBegin p).port = s.port ∧ (s.planeBegin p).nav = s.nav ∧ (s.planeBegin p).walker = s.walker := by
  simp only [State.planeBegin]
  repeat' split
  all_goals simp [Kept, SameHeap, SamePlanes, SameShow, SameNotes]

@[simp] theorem endTransition_frame (s : State) (p : PlaneId) :
    Kept (s.endTransition p) s
      ∧ SameHeap (s.endTransition p) s ∧ (s.endTransition p).jump = s.jump ∧ (s.endTransition p).drawnViews = s.drawnViews
      ∧ (s.endTransition p).composer = s.composer ∧ SameNotes (s.endTransition p) s
      ∧ (s.endTransition p).palette = s.palette ∧ (s.endTransition p).port = s.port ∧ (s.endTransition p).nav = s.nav
      ∧ (s.endTransition p).walker = s.walker := by
  simp only [State.endTransition]
  repeat' split
  all_goals simp [Kept, SameHeap, SamePlanes, SameShow, SameNotes]

@[simp] theorem beginOperation_frame (s : State) (p : PlaneId) :
    Kept (s.beginOperation p) s
      ∧ SameHeap (s.beginOperation p) s ∧ (s.beginOperation p).jump = s.jump
      ∧ (s.beginOperation p).drawnViews = s.drawnViews ∧ (s.beginOperation p).composer = s.composer
      ∧ SameNotes (s.beginOperation p) s ∧ (s.beginOperation p).palette = s.palette ∧ (s.beginOperation p).nav = s.nav
      ∧ (s.beginOperation p).port.flight = s.port.flight ∧ (s.beginOperation p).port.lfReq = s.port.lfReq
      ∧ (s.beginOperation p).port.decReq = s.port.decReq ∧ (s.beginOperation p).port.compReq = s.port.compReq
      ∧ (s.beginOperation p).walker.st = s.walker.st ∧ (s.beginOperation p).walker.cur = s.walker.cur
      ∧ (s.beginOperation p).walker.holder = s.walker.holder ∧ (s.beginOperation p).walker.asked = s.walker.asked
      ∧ (s.beginOperation p).walker.task = s.walker.task ∧ (s.beginOperation p).walker.job = s.walker.job
      ∧ (s.beginOperation p).walker.capture = s.walker.capture ∧ (s.beginOperation p).walker.reread = s.walker.reread := by
  simp only [State.beginOperation]
  repeat' split
  all_goals simp [Kept, SameHeap, SamePlanes, SameShow, SameNotes]

@[simp] theorem applyJump_frame (s : State) (j : Jump) :
    Kept (s.applyJump j) s ∧ SameHeap (s.applyJump j) s
      ∧ (s.applyJump j).drawnViews = s.drawnViews ∧ SameShow (s.applyJump j) s ∧ (s.applyJump j).palette = s.palette
      ∧ (s.applyJump j).port = s.port ∧ (s.applyJump j).nav = s.nav ∧ (s.applyJump j).walker = s.walker
      ∧ (s.applyJump j).notices.cursor = s.notices.cursor ∧ (s.applyJump j).notices.writing = s.notices.writing
      ∧ (s.applyJump j).notices.seq = s.notices.seq ∧ (s.applyJump j).notices.reread = s.notices.reread := by
  simp only [State.applyJump]
  repeat' split
  all_goals simp [Kept, SameHeap, SamePlanes, SameShow, SameNotes]

@[simp] theorem jumpStep_frame (s : State) :
    Kept s.jumpStep s ∧ SameHeap s.jumpStep s
      ∧ s.jumpStep.drawnViews = s.drawnViews ∧ s.jumpStep.composer = s.composer ∧ s.jumpStep.palette = s.palette
      ∧ s.jumpStep.port = s.port ∧ s.jumpStep.nav = s.nav ∧ s.jumpStep.walker = s.walker
      ∧ s.jumpStep.notices.cursor = s.notices.cursor ∧ s.jumpStep.notices.writing = s.notices.writing
      ∧ s.jumpStep.notices.seq = s.notices.seq ∧ s.jumpStep.notices.reread = s.notices.reread := by
  simp only [State.jumpStep]
  repeat' split
  all_goals simp [Kept, SameHeap, SamePlanes, SameShow, SameNotes]

/-! ### The navigation unit -/

@[simp] theorem enter_frame (s : State) (d : PageDef) (v : VisState) (n : Nat) :
    Kept (s.enter d v n) s
      ∧ SameHeap (s.enter d v n) s ∧ SamePlanes (s.enter d v n) s ∧ SameShow (s.enter d v n) s ∧ SameNotes (s.enter d v n) s
      ∧ (s.enter d v n).palette = s.palette ∧ (s.enter d v n).port = s.port ∧ (s.enter d v n).walker = s.walker
      ∧ (s.enter d v n).nav.word = s.nav.word ∧ (s.enter d v n).nav.queue = s.nav.queue
      ∧ (s.enter d v n).nav.judged = s.nav.judged ∧ (s.enter d v n).nav.activation = s.nav.activation
      ∧ (s.enter d v n).nav.digit = s.nav.digit := by
  simp only [State.enter]
  repeat' split
  all_goals simp [Kept, SameHeap, SamePlanes, SameShow, SameNotes]

@[simp] theorem moveSel_frame (s : State) (d : PageDef) (o : Option Nat) :
    Kept (s.moveSel d o) s
      ∧ SameHeap (s.moveSel d o) s ∧ SamePlanes (s.moveSel d o) s ∧ SameShow (s.moveSel d o) s ∧ SameNotes (s.moveSel d o) s
      ∧ (s.moveSel d o).palette = s.palette ∧ (s.moveSel d o).port = s.port ∧ (s.moveSel d o).walker = s.walker
      ∧ (s.moveSel d o).nav.word = s.nav.word ∧ (s.moveSel d o).nav.queue = s.nav.queue
      ∧ (s.moveSel d o).nav.judged = s.nav.judged ∧ (s.moveSel d o).nav.activation = s.nav.activation
      ∧ (s.moveSel d o).nav.digit = s.nav.digit := by
  simp only [State.moveSel]
  split
  · simp [Kept, SameHeap, SamePlanes, SameShow, SameNotes]
  · cases s.nav.selected <;> cases o <;> simp [Kept, SameHeap, SamePlanes, SameShow, SameNotes]

@[simp] theorem maintain_frame (s : State) (d : PageDef) :
    Kept (s.maintain d) s ∧ SameHeap (s.maintain d) s
      ∧ SamePlanes (s.maintain d) s ∧ SameShow (s.maintain d) s ∧ SameNotes (s.maintain d) s
      ∧ (s.maintain d).palette = s.palette ∧ (s.maintain d).port = s.port ∧ (s.maintain d).walker = s.walker
      ∧ (s.maintain d).nav.word = s.nav.word ∧ (s.maintain d).nav.queue = s.nav.queue
      ∧ (s.maintain d).nav.judged = s.nav.judged ∧ (s.maintain d).nav.activation = s.nav.activation
      ∧ (s.maintain d).nav.digit = s.nav.digit := by
  simp only [State.maintain]
  repeat' split
  all_goals simp [Kept, SameHeap, SamePlanes, SameShow, SameNotes]

@[simp] theorem deliverJump_frame (s : State) (x : SlotId) (n : Nat) (y : SlotId) :
    Kept (s.deliverJump x n y) s
      ∧ SameHeap (s.deliverJump x n y) s ∧ (s.deliverJump x n y).slide = s.slide ∧ (s.deliverJump x n y).menu = s.menu
      ∧ (s.deliverJump x n y).drawnViews = s.drawnViews ∧ SameShow (s.deliverJump x n y) s
      ∧ (s.deliverJump x n y).palette = s.palette ∧ (s.deliverJump x n y).port = s.port ∧ (s.deliverJump x n y).nav = s.nav
      ∧ (s.deliverJump x n y).walker = s.walker ∧ (s.deliverJump x n y).notices.cursor = s.notices.cursor
      ∧ (s.deliverJump x n y).notices.writing = s.notices.writing ∧ (s.deliverJump x n y).notices.seq = s.notices.seq
      ∧ (s.deliverJump x n y).notices.reread = s.notices.reread := by
  simp only [State.deliverJump]
  repeat' split
  all_goals simp [Kept, SameHeap, SamePlanes, SameShow, SameNotes]

@[simp] theorem act_frame (s : State) (x : SlotId) (n : Nat) (a : Action) :
    Kept (s.act x n a) s
      ∧ SameHeap (s.act x n a) s ∧ (s.act x n a).slide = s.slide ∧ (s.act x n a).menu = s.menu
      ∧ (s.act x n a).drawnViews = s.drawnViews ∧ SameShow (s.act x n a) s ∧ (s.act x n a).palette = s.palette
      ∧ (s.act x n a).port = s.port ∧ (s.act x n a).walker = s.walker ∧ (s.act x n a).nav.queue = s.nav.queue
      ∧ (s.act x n a).nav.judged = s.nav.judged ∧ (s.act x n a).nav.activation = s.nav.activation
      ∧ (s.act x n a).nav.digit = s.nav.digit ∧ (s.act x n a).notices.cursor = s.notices.cursor
      ∧ (s.act x n a).notices.writing = s.notices.writing ∧ (s.act x n a).notices.seq = s.notices.seq
      ∧ (s.act x n a).notices.reread = s.notices.reread := by
  simp only [State.act]
  repeat' split
  all_goals simp [Kept, SameHeap, SamePlanes, SameShow, SameNotes]

@[simp] theorem endActivation_frame (s : State) (x : SlotId) (d : PageDef) (n : Nat) :
    Kept (s.endActivation x d n) s
      ∧ SameHeap (s.endActivation x d n) s ∧ (s.endActivation x d n).slide = s.slide ∧ (s.endActivation x d n).menu = s.menu
      ∧ (s.endActivation x d n).drawnViews = s.drawnViews ∧ SameShow (s.endActivation x d n) s
      ∧ (s.endActivation x d n).palette = s.palette ∧ (s.endActivation x d n).port = s.port
      ∧ (s.endActivation x d n).walker = s.walker ∧ (s.endActivation x d n).nav.queue = s.nav.queue
      ∧ (s.endActivation x d n).nav.judged = s.nav.judged ∧ (s.endActivation x d n).nav.digit = s.nav.digit
      ∧ (s.endActivation x d n).notices.cursor = s.notices.cursor
      ∧ (s.endActivation x d n).notices.writing = s.notices.writing ∧ (s.endActivation x d n).notices.seq = s.notices.seq
      ∧ (s.endActivation x d n).notices.reread = s.notices.reread := by
  simp only [State.endActivation]
  repeat' split
  all_goals simp [Kept, SameHeap, SamePlanes, SameShow, SameNotes]

@[simp] theorem activate_frame (s : State) (x : SlotId) (d : PageDef) (n : Nat) :
    Kept (s.activate x d n) s
      ∧ SameHeap (s.activate x d n) s ∧ (s.activate x d n).slide = s.slide ∧ (s.activate x d n).menu = s.menu
      ∧ (s.activate x d n).drawnViews = s.drawnViews ∧ SameShow (s.activate x d n) s
      ∧ (s.activate x d n).palette = s.palette ∧ (s.activate x d n).port = s.port ∧ (s.activate x d n).walker = s.walker
      ∧ (s.activate x d n).nav.queue = s.nav.queue ∧ (s.activate x d n).nav.judged = s.nav.judged
      ∧ (s.activate x d n).nav.digit = s.nav.digit ∧ (s.activate x d n).notices.cursor = s.notices.cursor
      ∧ (s.activate x d n).notices.writing = s.notices.writing ∧ (s.activate x d n).notices.seq = s.notices.seq
      ∧ (s.activate x d n).notices.reread = s.notices.reread := by
  simp only [State.activate]
  repeat' split
  all_goals simp [Kept, SameHeap, SamePlanes, SameShow, SameNotes]

@[simp] theorem endDigit_frame (s : State) (e : DigitEntry) :
    Kept (s.endDigit e).1 s ∧ SameHeap (s.endDigit e).1 s
      ∧ (s.endDigit e).1.slide = s.slide ∧ (s.endDigit e).1.menu = s.menu ∧ (s.endDigit e).1.drawnViews = s.drawnViews
      ∧ SameShow (s.endDigit e).1 s ∧ (s.endDigit e).1.palette = s.palette ∧ (s.endDigit e).1.port = s.port
      ∧ (s.endDigit e).1.walker = s.walker ∧ (s.endDigit e).1.nav.queue = s.nav.queue
      ∧ (s.endDigit e).1.nav.judged = s.nav.judged ∧ (s.endDigit e).1.notices.cursor = s.notices.cursor
      ∧ (s.endDigit e).1.notices.writing = s.notices.writing ∧ (s.endDigit e).1.notices.seq = s.notices.seq
      ∧ (s.endDigit e).1.notices.reread = s.notices.reread := by
  simp only [State.endDigit]
  repeat' split
  all_goals simp [Kept, SameHeap, SamePlanes, SameShow, SameNotes]

@[simp] theorem retireKey_frame (s : State) (k : Key) (n : Nat) :
    Kept (s.retireKey k n) s
      ∧ SameHeap (s.retireKey k n) s ∧ SamePlanes (s.retireKey k n) s ∧ SameShow (s.retireKey k n) s
      ∧ SameNotes (s.retireKey k n) s ∧ (s.retireKey k n).palette = s.palette ∧ (s.retireKey k n).nav = s.nav
      ∧ (s.retireKey k n).port.flight = s.port.flight ∧ (s.retireKey k n).port.lfReq = s.port.lfReq
      ∧ (s.retireKey k n).port.decReq = s.port.decReq ∧ (s.retireKey k n).port.compReq = s.port.compReq
      ∧ (s.retireKey k n).walker.st = s.walker.st ∧ (s.retireKey k n).walker.cur = s.walker.cur
      ∧ (s.retireKey k n).walker.holder = s.walker.holder ∧ (s.retireKey k n).walker.asked = s.walker.asked
      ∧ (s.retireKey k n).walker.task = s.walker.task ∧ (s.retireKey k n).walker.job = s.walker.job
      ∧ (s.retireKey k n).walker.capture = s.walker.capture ∧ (s.retireKey k n).walker.reread = s.walker.reread := by
  unfold State.retireKey
  cases k.task <;> simp [Kept, SameHeap, SamePlanes, SameShow, SameNotes]

@[simp] theorem consumed_frame (s : State) (d : PageDef) (k : Key) :
    Kept (s.consumed d k) s
      ∧ SameHeap (s.consumed d k) s ∧ SamePlanes (s.consumed d k) s ∧ SameShow (s.consumed d k) s
      ∧ SameNotes (s.consumed d k) s ∧ (s.consumed d k).palette = s.palette ∧ (s.consumed d k).port.flight = s.port.flight
      ∧ (s.consumed d k).port.lfReq = s.port.lfReq ∧ (s.consumed d k).port.decReq = s.port.decReq
      ∧ (s.consumed d k).port.compReq = s.port.compReq ∧ (s.consumed d k).walker.st = s.walker.st
      ∧ (s.consumed d k).walker.cur = s.walker.cur ∧ (s.consumed d k).walker.holder = s.walker.holder
      ∧ (s.consumed d k).walker.asked = s.walker.asked ∧ (s.consumed d k).walker.task = s.walker.task
      ∧ (s.consumed d k).walker.job = s.walker.job ∧ (s.consumed d k).walker.capture = s.walker.capture
      ∧ (s.consumed d k).walker.reread = s.walker.reread ∧ (s.consumed d k).nav.word = s.nav.word
      ∧ (s.consumed d k).nav.queue = s.nav.queue ∧ (s.consumed d k).nav.judged = s.nav.judged
      ∧ (s.consumed d k).nav.activation = s.nav.activation ∧ (s.consumed d k).nav.digit = s.nav.digit := by
  simp only [State.consumed]
  repeat' split
  all_goals simp [Kept, SameHeap, SamePlanes, SameShow, SameNotes]

@[simp] theorem passed_frame (s : State) (k : Key) :
    Kept (s.passed k) s ∧ SameHeap (s.passed k) s
      ∧ SamePlanes (s.passed k) s ∧ SameShow (s.passed k) s ∧ (s.passed k).palette = s.palette ∧ (s.passed k).nav = s.nav
      ∧ (s.passed k).port.flight = s.port.flight ∧ (s.passed k).port.lfReq = s.port.lfReq
      ∧ (s.passed k).port.decReq = s.port.decReq ∧ (s.passed k).port.compReq = s.port.compReq
      ∧ (s.passed k).walker.st = s.walker.st ∧ (s.passed k).walker.cur = s.walker.cur
      ∧ (s.passed k).walker.holder = s.walker.holder ∧ (s.passed k).walker.asked = s.walker.asked
      ∧ (s.passed k).walker.task = s.walker.task ∧ (s.passed k).walker.job = s.walker.job
      ∧ (s.passed k).walker.capture = s.walker.capture ∧ (s.passed k).walker.reread = s.walker.reread
      ∧ (s.passed k).notices.cursor = s.notices.cursor ∧ (s.passed k).notices.writing = s.notices.writing
      ∧ (s.passed k).notices.seq = s.notices.seq ∧ (s.passed k).notices.reread = s.notices.reread := by
  simp only [State.passed]
  repeat' split
  all_goals simp [Kept, SameHeap, SamePlanes, SameShow, SameNotes]

@[simp] theorem directionKey_frame (s : State) (x : SlotId) (d : PageDef) (r : Button → Nat) (k : Key) :
      Kept (s.directionKey x d r k) s ∧ SameHeap (s.directionKey x d r k) s ∧ (s.directionKey x d r k).slide = s.slide
      ∧ (s.directionKey x d r k).menu = s.menu ∧ (s.directionKey x d r k).drawnViews = s.drawnViews
      ∧ SameShow (s.directionKey x d r k) s ∧ (s.directionKey x d r k).palette = s.palette
      ∧ (s.directionKey x d r k).port.flight = s.port.flight ∧ (s.directionKey x d r k).port.lfReq = s.port.lfReq
      ∧ (s.directionKey x d r k).port.decReq = s.port.decReq ∧ (s.directionKey x d r k).port.compReq = s.port.compReq
      ∧ (s.directionKey x d r k).walker.st = s.walker.st ∧ (s.directionKey x d r k).walker.cur = s.walker.cur
      ∧ (s.directionKey x d r k).walker.holder = s.walker.holder ∧ (s.directionKey x d r k).walker.asked = s.walker.asked
      ∧ (s.directionKey x d r k).walker.task = s.walker.task ∧ (s.directionKey x d r k).walker.job = s.walker.job
      ∧ (s.directionKey x d r k).walker.capture = s.walker.capture
      ∧ (s.directionKey x d r k).walker.reread = s.walker.reread ∧ (s.directionKey x d r k).nav.queue = s.nav.queue
      ∧ (s.directionKey x d r k).nav.judged = s.nav.judged ∧ (s.directionKey x d r k).nav.digit = s.nav.digit
      ∧ (s.directionKey x d r k).notices.cursor = s.notices.cursor
      ∧ (s.directionKey x d r k).notices.writing = s.notices.writing ∧ (s.directionKey x d r k).notices.seq = s.notices.seq
      ∧ (s.directionKey x d r k).notices.reread = s.notices.reread := by
  simp only [State.directionKey]
  repeat' split
  all_goals simp [Kept, SameHeap, SamePlanes, SameShow, SameNotes]

@[simp] theorem okKey_frame (s : State) (x : SlotId) (d : PageDef) (k : Key) :
    Kept (s.okKey x d k) s
      ∧ SameHeap (s.okKey x d k) s ∧ (s.okKey x d k).slide = s.slide ∧ (s.okKey x d k).menu = s.menu
      ∧ (s.okKey x d k).drawnViews = s.drawnViews ∧ SameShow (s.okKey x d k) s ∧ (s.okKey x d k).palette = s.palette
      ∧ (s.okKey x d k).port.flight = s.port.flight ∧ (s.okKey x d k).port.lfReq = s.port.lfReq
      ∧ (s.okKey x d k).port.decReq = s.port.decReq ∧ (s.okKey x d k).port.compReq = s.port.compReq
      ∧ (s.okKey x d k).walker.st = s.walker.st ∧ (s.okKey x d k).walker.cur = s.walker.cur
      ∧ (s.okKey x d k).walker.holder = s.walker.holder ∧ (s.okKey x d k).walker.asked = s.walker.asked
      ∧ (s.okKey x d k).walker.task = s.walker.task ∧ (s.okKey x d k).walker.job = s.walker.job
      ∧ (s.okKey x d k).walker.capture = s.walker.capture ∧ (s.okKey x d k).walker.reread = s.walker.reread
      ∧ (s.okKey x d k).nav.queue = s.nav.queue ∧ (s.okKey x d k).nav.judged = s.nav.judged
      ∧ (s.okKey x d k).nav.digit = s.nav.digit ∧ (s.okKey x d k).notices.cursor = s.notices.cursor
      ∧ (s.okKey x d k).notices.writing = s.notices.writing ∧ (s.okKey x d k).notices.seq = s.notices.seq
      ∧ (s.okKey x d k).notices.reread = s.notices.reread := by
  simp only [State.okKey]
  repeat' split
  all_goals simp [Kept, SameHeap, SamePlanes, SameShow, SameNotes]

@[simp] theorem digitKey_frame (s : State) (x : SlotId) (d : PageDef) (n : Nat) (k : Key) :
    Kept (s.digitKey x d n k) s
      ∧ SameHeap (s.digitKey x d n k) s ∧ (s.digitKey x d n k).slide = s.slide ∧ (s.digitKey x d n k).menu = s.menu
      ∧ (s.digitKey x d n k).drawnViews = s.drawnViews ∧ SameShow (s.digitKey x d n k) s
      ∧ (s.digitKey x d n k).palette = s.palette ∧ (s.digitKey x d n k).port.flight = s.port.flight
      ∧ (s.digitKey x d n k).port.lfReq = s.port.lfReq ∧ (s.digitKey x d n k).port.decReq = s.port.decReq
      ∧ (s.digitKey x d n k).port.compReq = s.port.compReq ∧ (s.digitKey x d n k).walker.st = s.walker.st
      ∧ (s.digitKey x d n k).walker.cur = s.walker.cur ∧ (s.digitKey x d n k).walker.holder = s.walker.holder
      ∧ (s.digitKey x d n k).walker.asked = s.walker.asked ∧ (s.digitKey x d n k).walker.task = s.walker.task
      ∧ (s.digitKey x d n k).walker.job = s.walker.job ∧ (s.digitKey x d n k).walker.capture = s.walker.capture
      ∧ (s.digitKey x d n k).walker.reread = s.walker.reread ∧ (s.digitKey x d n k).nav.queue = s.nav.queue
      ∧ (s.digitKey x d n k).nav.judged = s.nav.judged ∧ (s.digitKey x d n k).notices.cursor = s.notices.cursor
      ∧ (s.digitKey x d n k).notices.writing = s.notices.writing ∧ (s.digitKey x d n k).notices.seq = s.notices.seq
      ∧ (s.digitKey x d n k).notices.reread = s.notices.reread := by
  simp only [State.digitKey]
  repeat' split
  all_goals simp [Kept, SameHeap, SamePlanes, SameShow, SameNotes]

@[simp] theorem handleKey_frame (s : State) (k : Key) :
    Kept (s.handleKey k) s ∧ SameHeap (s.handleKey k) s
      ∧ (s.handleKey k).slide = s.slide ∧ (s.handleKey k).menu = s.menu ∧ (s.handleKey k).drawnViews = s.drawnViews
      ∧ SameShow (s.handleKey k) s ∧ (s.handleKey k).palette = s.palette ∧ (s.handleKey k).port.flight = s.port.flight
      ∧ (s.handleKey k).port.lfReq = s.port.lfReq ∧ (s.handleKey k).port.decReq = s.port.decReq
      ∧ (s.handleKey k).port.compReq = s.port.compReq ∧ (s.handleKey k).walker.st = s.walker.st
      ∧ (s.handleKey k).walker.cur = s.walker.cur ∧ (s.handleKey k).walker.holder = s.walker.holder
      ∧ (s.handleKey k).walker.asked = s.walker.asked ∧ (s.handleKey k).walker.task = s.walker.task
      ∧ (s.handleKey k).walker.job = s.walker.job ∧ (s.handleKey k).walker.capture = s.walker.capture
      ∧ (s.handleKey k).walker.reread = s.walker.reread ∧ (s.handleKey k).nav.queue = s.nav.queue
      ∧ (s.handleKey k).nav.judged = s.nav.judged ∧ (s.handleKey k).notices.cursor = s.notices.cursor
      ∧ (s.handleKey k).notices.writing = s.notices.writing ∧ (s.handleKey k).notices.seq = s.notices.seq
      ∧ (s.handleKey k).notices.reread = s.notices.reread := by
  simp only [State.handleKey]
  repeat' split
  all_goals simp [Kept, SameHeap, SamePlanes, SameShow, SameNotes]

@[simp] theorem secondDigit_frame (s : State) (e : DigitEntry) (n : Nat) (k : Key) :
    Kept (s.secondDigit e n k) s
      ∧ SameHeap (s.secondDigit e n k) s ∧ (s.secondDigit e n k).slide = s.slide ∧ (s.secondDigit e n k).menu = s.menu
      ∧ (s.secondDigit e n k).drawnViews = s.drawnViews ∧ SameShow (s.secondDigit e n k) s
      ∧ (s.secondDigit e n k).palette = s.palette ∧ (s.secondDigit e n k).port.flight = s.port.flight
      ∧ (s.secondDigit e n k).port.lfReq = s.port.lfReq ∧ (s.secondDigit e n k).port.decReq = s.port.decReq
      ∧ (s.secondDigit e n k).port.compReq = s.port.compReq ∧ (s.secondDigit e n k).walker.st = s.walker.st
      ∧ (s.secondDigit e n k).walker.cur = s.walker.cur ∧ (s.secondDigit e n k).walker.holder = s.walker.holder
      ∧ (s.secondDigit e n k).walker.asked = s.walker.asked ∧ (s.secondDigit e n k).walker.task = s.walker.task
      ∧ (s.secondDigit e n k).walker.job = s.walker.job ∧ (s.secondDigit e n k).walker.capture = s.walker.capture
      ∧ (s.secondDigit e n k).walker.reread = s.walker.reread ∧ (s.secondDigit e n k).nav.queue = s.nav.queue
      ∧ (s.secondDigit e n k).nav.judged = s.nav.judged ∧ (s.secondDigit e n k).notices.cursor = s.notices.cursor
      ∧ (s.secondDigit e n k).notices.writing = s.notices.writing ∧ (s.secondDigit e n k).notices.seq = s.notices.seq
      ∧ (s.secondDigit e n k).notices.reread = s.notices.reread := by
  simp only [State.secondDigit]
  repeat' split
  all_goals simp [Kept, SameHeap, SamePlanes, SameShow, SameNotes]

@[simp] theorem handleSelect_frame (s : State) (n : Nat) (a : Bool) (t : TaskRef) :
    Kept (s.handleSelect n a t) s
      ∧ SameHeap (s.handleSelect n a t) s ∧ (s.handleSelect n a t).slide = s.slide ∧ (s.handleSelect n a t).menu = s.menu
      ∧ (s.handleSelect n a t).drawnViews = s.drawnViews ∧ SameShow (s.handleSelect n a t) s
      ∧ (s.handleSelect n a t).palette = s.palette ∧ (s.handleSelect n a t).port.flight = s.port.flight
      ∧ (s.handleSelect n a t).port.lfReq = s.port.lfReq ∧ (s.handleSelect n a t).port.decReq = s.port.decReq
      ∧ (s.handleSelect n a t).port.compReq = s.port.compReq ∧ (s.handleSelect n a t).walker.st = s.walker.st
      ∧ (s.handleSelect n a t).walker.cur = s.walker.cur ∧ (s.handleSelect n a t).walker.holder = s.walker.holder
      ∧ (s.handleSelect n a t).walker.asked = s.walker.asked ∧ (s.handleSelect n a t).walker.task = s.walker.task
      ∧ (s.handleSelect n a t).walker.job = s.walker.job ∧ (s.handleSelect n a t).walker.capture = s.walker.capture
      ∧ (s.handleSelect n a t).walker.reread = s.walker.reread ∧ (s.handleSelect n a t).nav.queue = s.nav.queue
      ∧ (s.handleSelect n a t).nav.judged = s.nav.judged ∧ (s.handleSelect n a t).nav.digit = s.nav.digit
      ∧ (s.handleSelect n a t).notices.cursor = s.notices.cursor
      ∧ (s.handleSelect n a t).notices.writing = s.notices.writing ∧ (s.handleSelect n a t).notices.seq = s.notices.seq
      ∧ (s.handleSelect n a t).notices.reread = s.notices.reread := by
  simp only [State.handleSelect]
  repeat' split
  all_goals simp [Kept, SameHeap, SamePlanes, SameShow, SameNotes]

@[simp] theorem handleItem_frame (s : State) (i : KeyItem) :
    Kept (s.handleItem i) s ∧ SameHeap (s.handleItem i) s
      ∧ (s.handleItem i).slide = s.slide ∧ (s.handleItem i).menu = s.menu ∧ (s.handleItem i).drawnViews = s.drawnViews
      ∧ SameShow (s.handleItem i) s ∧ (s.handleItem i).palette = s.palette ∧ (s.handleItem i).port.flight = s.port.flight
      ∧ (s.handleItem i).port.lfReq = s.port.lfReq ∧ (s.handleItem i).port.decReq = s.port.decReq
      ∧ (s.handleItem i).port.compReq = s.port.compReq ∧ (s.handleItem i).walker.st = s.walker.st
      ∧ (s.handleItem i).walker.cur = s.walker.cur ∧ (s.handleItem i).walker.holder = s.walker.holder
      ∧ (s.handleItem i).walker.asked = s.walker.asked ∧ (s.handleItem i).walker.task = s.walker.task
      ∧ (s.handleItem i).walker.job = s.walker.job ∧ (s.handleItem i).walker.capture = s.walker.capture
      ∧ (s.handleItem i).walker.reread = s.walker.reread ∧ (s.handleItem i).nav.queue = s.nav.queue
      ∧ (s.handleItem i).nav.judged = s.nav.judged ∧ (s.handleItem i).notices.cursor = s.notices.cursor
      ∧ (s.handleItem i).notices.writing = s.notices.writing ∧ (s.handleItem i).notices.seq = s.notices.seq
      ∧ (s.handleItem i).notices.reread = s.notices.reread := by
  simp only [State.handleItem]
  repeat' split
  all_goals simp [Kept, SameHeap, SamePlanes, SameShow, SameNotes]

@[simp] theorem takeItem_frame (s : State) :
    Kept s.takeItem s ∧ SameHeap s.takeItem s ∧ s.takeItem.slide = s.slide
      ∧ s.takeItem.menu = s.menu ∧ s.takeItem.drawnViews = s.drawnViews ∧ SameShow s.takeItem s
      ∧ s.takeItem.palette = s.palette ∧ s.takeItem.port.flight = s.port.flight ∧ s.takeItem.port.lfReq = s.port.lfReq
      ∧ s.takeItem.port.decReq = s.port.decReq ∧ s.takeItem.port.compReq = s.port.compReq
      ∧ s.takeItem.walker.st = s.walker.st ∧ s.takeItem.walker.cur = s.walker.cur
      ∧ s.takeItem.walker.holder = s.walker.holder ∧ s.takeItem.walker.asked = s.walker.asked
      ∧ s.takeItem.walker.task = s.walker.task ∧ s.takeItem.walker.job = s.walker.job
      ∧ s.takeItem.walker.capture = s.walker.capture ∧ s.takeItem.walker.reread = s.walker.reread
      ∧ s.takeItem.nav.judged = s.nav.judged ∧ s.takeItem.notices.cursor = s.notices.cursor
      ∧ s.takeItem.notices.writing = s.notices.writing ∧ s.takeItem.notices.seq = s.notices.seq
      ∧ s.takeItem.notices.reread = s.notices.reread := by
  simp only [State.takeItem]
  repeat' split
  all_goals simp [Kept, SameHeap, SamePlanes, SameShow, SameNotes]

@[simp] theorem joinItem_frame (s : State) (i : KeyItem) :
    Kept (s.joinItem i) s ∧ SameHeap (s.joinItem i) s
      ∧ SamePlanes (s.joinItem i) s ∧ SameShow (s.joinItem i) s ∧ SameNotes (s.joinItem i) s
      ∧ (s.joinItem i).palette = s.palette ∧ (s.joinItem i).port.flight = s.port.flight
      ∧ (s.joinItem i).port.lfReq = s.port.lfReq ∧ (s.joinItem i).port.decReq = s.port.decReq
      ∧ (s.joinItem i).port.compReq = s.port.compReq ∧ (s.joinItem i).walker.cur = s.walker.cur
      ∧ (s.joinItem i).walker.holder = s.walker.holder ∧ (s.joinItem i).walker.asked = s.walker.asked
      ∧ (s.joinItem i).walker.capture = s.walker.capture ∧ (s.joinItem i).walker.retiring = s.walker.retiring
      ∧ (s.joinItem i).walker.reread = s.walker.reread ∧ (s.joinItem i).nav.word = s.nav.word
      ∧ (s.joinItem i).nav.judged = s.nav.judged ∧ (s.joinItem i).nav.activation = s.nav.activation
      ∧ (s.joinItem i).nav.digit = s.nav.digit := by
  simp only [State.joinItem]
  repeat' split
  all_goals simp [Kept, SameHeap, SamePlanes, SameShow, SameNotes]

@[simp] theorem judgeSelect_frame (s : State) (t : Task) :
    Kept (s.judgeSelect t) s ∧ SameHeap (s.judgeSelect t) s
      ∧ SamePlanes (s.judgeSelect t) s ∧ SameShow (s.judgeSelect t) s ∧ SameNotes (s.judgeSelect t) s
      ∧ (s.judgeSelect t).palette = s.palette ∧ (s.judgeSelect t).port.flight = s.port.flight
      ∧ (s.judgeSelect t).port.lfReq = s.port.lfReq ∧ (s.judgeSelect t).port.decReq = s.port.decReq
      ∧ (s.judgeSelect t).port.compReq = s.port.compReq ∧ (s.judgeSelect t).walker.cur = s.walker.cur
      ∧ (s.judgeSelect t).walker.holder = s.walker.holder ∧ (s.judgeSelect t).walker.asked = s.walker.asked
      ∧ (s.judgeSelect t).walker.capture = s.walker.capture ∧ (s.judgeSelect t).walker.retiring = s.walker.retiring
      ∧ (s.judgeSelect t).walker.reread = s.walker.reread ∧ (s.judgeSelect t).nav.word = s.nav.word
      ∧ (s.judgeSelect t).nav.judged = s.nav.judged ∧ (s.judgeSelect t).nav.activation = s.nav.activation
      ∧ (s.judgeSelect t).nav.digit = s.nav.digit := by
  simp only [State.judgeSelect]
  repeat' split
  all_goals simp [Kept, SameHeap, SamePlanes, SameShow, SameNotes]

@[simp] theorem judgeInject_frame (s : State) (t : Task) :
    Kept (s.judgeInject t) s ∧ SameHeap (s.judgeInject t) s
      ∧ SamePlanes (s.judgeInject t) s ∧ SameShow (s.judgeInject t) s ∧ SameNotes (s.judgeInject t) s
      ∧ (s.judgeInject t).palette = s.palette ∧ (s.judgeInject t).port.flight = s.port.flight
      ∧ (s.judgeInject t).port.lfReq = s.port.lfReq ∧ (s.judgeInject t).port.decReq = s.port.decReq
      ∧ (s.judgeInject t).port.compReq = s.port.compReq ∧ (s.judgeInject t).walker.cur = s.walker.cur
      ∧ (s.judgeInject t).walker.holder = s.walker.holder ∧ (s.judgeInject t).walker.asked = s.walker.asked
      ∧ (s.judgeInject t).walker.capture = s.walker.capture ∧ (s.judgeInject t).walker.retiring = s.walker.retiring
      ∧ (s.judgeInject t).walker.reread = s.walker.reread ∧ (s.judgeInject t).nav.word = s.nav.word
      ∧ (s.judgeInject t).nav.judged = s.nav.judged ∧ (s.judgeInject t).nav.activation = s.nav.activation
      ∧ (s.judgeInject t).nav.digit = s.nav.digit := by
  simp only [State.judgeInject]
  repeat' split
  all_goals simp [Kept, SameHeap, SamePlanes, SameShow, SameNotes]

@[simp] theorem lineKey_frame (s : State) (c : Byte) :
    Kept (s.lineKey c) s ∧ SameHeap (s.lineKey c) s
      ∧ SamePlanes (s.lineKey c) s ∧ SameShow (s.lineKey c) s ∧ (s.lineKey c).attention = s.attention
      ∧ (s.lineKey c).notices = s.notices ∧ (s.lineKey c).palette = s.palette ∧ (s.lineKey c).port = s.port
      ∧ (s.lineKey c).walker = s.walker ∧ (s.lineKey c).nav.word = s.nav.word ∧ (s.lineKey c).nav.judged = s.nav.judged
      ∧ (s.lineKey c).nav.activation = s.nav.activation ∧ (s.lineKey c).nav.digit = s.nav.digit := by
  simp only [State.lineKey]
  repeat' split
  all_goals simp [Kept, SameHeap, SamePlanes, SameShow, SameNotes]

@[simp] theorem judgeSetState_frame (s : State) (t : Task) :
    Kept (s.judgeSetState t) s ∧ SameHeap (s.judgeSetState t) s
      ∧ SamePlanes (s.judgeSetState t) s ∧ SameShow (s.judgeSetState t) s ∧ SameNotes (s.judgeSetState t) s
      ∧ (s.judgeSetState t).palette = s.palette ∧ (s.judgeSetState t).port.flight = s.port.flight
      ∧ (s.judgeSetState t).port.lfReq = s.port.lfReq ∧ (s.judgeSetState t).port.decReq = s.port.decReq
      ∧ (s.judgeSetState t).port.compReq = s.port.compReq ∧ (s.judgeSetState t).walker.cur = s.walker.cur
      ∧ (s.judgeSetState t).walker.holder = s.walker.holder ∧ (s.judgeSetState t).walker.asked = s.walker.asked
      ∧ (s.judgeSetState t).walker.capture = s.walker.capture ∧ (s.judgeSetState t).walker.reread = s.walker.reread
      ∧ (s.judgeSetState t).nav.queue = s.nav.queue ∧ (s.judgeSetState t).nav.judged = s.nav.judged
      ∧ (s.judgeSetState t).nav.activation = s.nav.activation ∧ (s.judgeSetState t).nav.digit = s.nav.digit := by
  simp only [State.judgeSetState]
  repeat' split
  all_goals simp [Kept, SameHeap, SamePlanes, SameShow, SameNotes]

@[simp] theorem enterPage_frame (s : State) (d : PageDef) :
    Kept (s.enterPage d) s ∧ SameHeap (s.enterPage d) s
      ∧ SamePlanes (s.enterPage d) s ∧ SameShow (s.enterPage d) s ∧ SameNotes (s.enterPage d) s
      ∧ (s.enterPage d).palette = s.palette ∧ (s.enterPage d).port = s.port ∧ (s.enterPage d).walker = s.walker
      ∧ (s.enterPage d).nav.word = s.nav.word ∧ (s.enterPage d).nav.queue = s.nav.queue
      ∧ (s.enterPage d).nav.judged = s.nav.judged := by
  simp only [State.enterPage]
  repeat' split
  all_goals simp [Kept, SameHeap, SamePlanes, SameShow, SameNotes]

@[simp] theorem leavePage_frame (s : State) :
    Kept s.leavePage s ∧ SameHeap s.leavePage s ∧ SamePlanes s.leavePage s
      ∧ SameShow s.leavePage s ∧ SameNotes s.leavePage s ∧ s.leavePage.palette = s.palette ∧ s.leavePage.port = s.port
      ∧ s.leavePage.walker = s.walker ∧ s.leavePage.nav.word = s.nav.word ∧ s.leavePage.nav.queue = s.nav.queue
      ∧ s.leavePage.nav.judged = s.nav.judged := by
  simp only [State.leavePage]
  repeat' split
  all_goals simp [Kept, SameHeap, SamePlanes, SameShow, SameNotes]

@[simp] theorem navPublish_frame (s : State) :
    Kept s.navPublish s ∧ SameHeap s.navPublish s ∧ SamePlanes s.navPublish s
      ∧ s.navPublish.composer = s.composer ∧ SameNotes s.navPublish s ∧ s.navPublish.palette = s.palette
      ∧ s.navPublish.port = s.port ∧ s.navPublish.walker = s.walker ∧ s.navPublish.nav.word = s.nav.word
      ∧ s.navPublish.nav.queue = s.nav.queue ∧ s.navPublish.nav.judged = s.nav.judged
      ∧ s.navPublish.nav.activation = s.nav.activation ∧ s.navPublish.nav.digit = s.nav.digit := by
  simp only [State.navPublish]
  repeat' split
  all_goals simp [Kept, SameHeap, SamePlanes, SameShow, SameNotes]

@[simp] theorem navTimeout_frame (s : State) :
    Kept s.navTimeout s ∧ SameHeap s.navTimeout s ∧ SamePlanes s.navTimeout s
      ∧ s.navTimeout.composer = s.composer ∧ SameNotes s.navTimeout s ∧ s.navTimeout.palette = s.palette
      ∧ s.navTimeout.port = s.port ∧ s.navTimeout.walker = s.walker ∧ s.navTimeout.nav.word = s.nav.word
      ∧ s.navTimeout.nav.queue = s.nav.queue ∧ s.navTimeout.nav.judged = s.nav.judged
      ∧ s.navTimeout.nav.activation = s.nav.activation ∧ s.navTimeout.nav.digit = s.nav.digit := by
  simp only [State.navTimeout]
  repeat' split
  all_goals simp [Kept, SameHeap, SamePlanes, SameShow, SameNotes]

@[simp] theorem navDigit_frame (s : State) :
    Kept s.navDigit s ∧ SameHeap s.navDigit s ∧ SamePlanes s.navDigit s
      ∧ s.navDigit.composer = s.composer ∧ SameNotes s.navDigit s ∧ s.navDigit.palette = s.palette
      ∧ s.navDigit.port = s.port ∧ s.navDigit.walker = s.walker ∧ s.navDigit.nav.word = s.nav.word
      ∧ s.navDigit.nav.queue = s.nav.queue ∧ s.navDigit.nav.judged = s.nav.judged
      ∧ s.navDigit.nav.activation = s.nav.activation := by
  simp only [State.navDigit]
  repeat' split
  all_goals simp [Kept, SameHeap, SamePlanes, SameShow, SameNotes]

@[simp] theorem navAdvance_frame (s : State) (d : PageDef) :
    Kept (s.navAdvance d) s ∧ SameHeap (s.navAdvance d) s
      ∧ SamePlanes (s.navAdvance d) s ∧ (s.navAdvance d).composer = s.composer ∧ SameNotes (s.navAdvance d) s
      ∧ (s.navAdvance d).palette = s.palette ∧ (s.navAdvance d).port = s.port ∧ (s.navAdvance d).walker = s.walker
      ∧ (s.navAdvance d).nav.word = s.nav.word ∧ (s.navAdvance d).nav.queue = s.nav.queue
      ∧ (s.navAdvance d).nav.judged = s.nav.judged ∧ (s.navAdvance d).nav.activation = s.nav.activation := by
  simp only [State.navAdvance]
  repeat' split
  all_goals simp [Kept, SameHeap, SamePlanes, SameShow, SameNotes]

@[simp] theorem navJudge_frame (s : State) (v : FrameView) :
    Kept (s.navJudge v) s ∧ SameHeap (s.navJudge v) s
      ∧ SamePlanes (s.navJudge v) s ∧ (s.navJudge v).composer = s.composer ∧ SameNotes (s.navJudge v) s
      ∧ (s.navJudge v).palette = s.palette ∧ (s.navJudge v).port = s.port ∧ (s.navJudge v).walker = s.walker
      ∧ (s.navJudge v).nav.word = s.nav.word ∧ (s.navJudge v).nav.queue = s.nav.queue := by
  simp only [State.navJudge]
  repeat' split
  all_goals simp [Kept, SameHeap, SamePlanes, SameShow, SameNotes]

@[simp] theorem navRun_frame (s : State) :
    Kept s.navRun s ∧ SameHeap s.navRun s ∧ SamePlanes s.navRun s
      ∧ s.navRun.composer = s.composer ∧ SameNotes s.navRun s ∧ s.navRun.palette = s.palette ∧ s.navRun.port = s.port
      ∧ s.navRun.walker = s.walker ∧ s.navRun.nav.word = s.nav.word ∧ s.navRun.nav.queue = s.nav.queue := by
  simp only [State.navRun]
  repeat' split
  all_goals simp [Kept, SameHeap, SamePlanes, SameShow, SameNotes]

@[simp] theorem navActEnd_frame (s : State) :
    Kept s.navActEnd s ∧ SameHeap s.navActEnd s ∧ s.navActEnd.slide = s.slide
      ∧ s.navActEnd.menu = s.menu ∧ s.navActEnd.drawnViews = s.drawnViews ∧ s.navActEnd.composer = s.composer
      ∧ s.navActEnd.palette = s.palette ∧ s.navActEnd.port = s.port ∧ s.navActEnd.walker = s.walker
      ∧ s.navActEnd.nav.queue = s.nav.queue ∧ s.navActEnd.nav.judged = s.nav.judged
      ∧ s.navActEnd.notices.cursor = s.notices.cursor ∧ s.navActEnd.notices.writing = s.notices.writing
      ∧ s.navActEnd.notices.seq = s.notices.seq ∧ s.navActEnd.notices.reread = s.notices.reread := by
  simp only [State.navActEnd]
  repeat' split
  all_goals simp [Kept, SameHeap, SamePlanes, SameShow, SameNotes]

@[simp] theorem navExpiry_frame (s : State) :
    Kept s.navExpiry s ∧ SameHeap s.navExpiry s ∧ s.navExpiry.slide = s.slide
      ∧ s.navExpiry.menu = s.menu ∧ s.navExpiry.drawnViews = s.drawnViews ∧ s.navExpiry.composer = s.composer
      ∧ s.navExpiry.palette = s.palette ∧ s.navExpiry.port = s.port ∧ s.navExpiry.walker = s.walker
      ∧ s.navExpiry.nav.queue = s.nav.queue ∧ s.navExpiry.nav.judged = s.nav.judged
      ∧ s.navExpiry.notices.cursor = s.notices.cursor ∧ s.navExpiry.notices.writing = s.notices.writing
      ∧ s.navExpiry.notices.seq = s.notices.seq ∧ s.navExpiry.notices.reread = s.notices.reread := by
  simp only [State.navExpiry]
  repeat' split
  all_goals simp [Kept, SameHeap, SamePlanes, SameShow, SameNotes]

@[simp] theorem fireTimeout_frame (s : State) (x : SlotId) (d : PageDef) :
    Kept (s.fireTimeout x d) s
      ∧ SameHeap (s.fireTimeout x d) s ∧ (s.fireTimeout x d).slide = s.slide ∧ (s.fireTimeout x d).menu = s.menu
      ∧ (s.fireTimeout x d).drawnViews = s.drawnViews ∧ SameShow (s.fireTimeout x d) s
      ∧ (s.fireTimeout x d).palette = s.palette ∧ (s.fireTimeout x d).port = s.port ∧ (s.fireTimeout x d).walker = s.walker
      ∧ (s.fireTimeout x d).nav.queue = s.nav.queue ∧ (s.fireTimeout x d).nav.judged = s.nav.judged
      ∧ (s.fireTimeout x d).nav.digit = s.nav.digit ∧ (s.fireTimeout x d).notices.cursor = s.notices.cursor
      ∧ (s.fireTimeout x d).notices.writing = s.notices.writing ∧ (s.fireTimeout x d).notices.seq = s.notices.seq
      ∧ (s.fireTimeout x d).notices.reread = s.notices.reread := by
  simp only [State.fireTimeout]
  repeat' split
  all_goals simp [Kept, SameHeap, SamePlanes, SameShow, SameNotes]

@[simp] theorem navFire_frame (s : State) :
    Kept s.navFire s ∧ SameHeap s.navFire s ∧ s.navFire.slide = s.slide
      ∧ s.navFire.menu = s.menu ∧ s.navFire.drawnViews = s.drawnViews ∧ s.navFire.composer = s.composer
      ∧ s.navFire.palette = s.palette ∧ s.navFire.port = s.port ∧ s.navFire.walker = s.walker
      ∧ s.navFire.nav.queue = s.nav.queue ∧ s.navFire.nav.judged = s.nav.judged ∧ s.navFire.nav.digit = s.nav.digit
      ∧ s.navFire.notices.cursor = s.notices.cursor ∧ s.navFire.notices.writing = s.notices.writing
      ∧ s.navFire.notices.seq = s.notices.seq ∧ s.navFire.notices.reread = s.notices.reread := by
  simp only [State.navFire]
  repeat' split
  all_goals simp [Kept, SameHeap, SamePlanes, SameShow, SameNotes]

/-! ### The composer -/

@[simp] theorem beginLine_frame (s : State) (p : PlaneId) :
    Kept (s.beginLine p) s ∧ SameHeap (s.beginLine p) s
      ∧ SamePlanes (s.beginLine p) s ∧ (s.beginLine p).work = s.work ∧ (s.beginLine p).attention = s.attention
      ∧ (s.beginLine p).notices = s.notices ∧ (s.beginLine p).palette = s.palette ∧ (s.beginLine p).port = s.port
      ∧ (s.beginLine p).nav = s.nav ∧ (s.beginLine p).walker = s.walker := by
  simp only [State.beginLine]
  repeat' split
  all_goals simp [Kept, SameHeap, SamePlanes, SameShow, SameNotes]

@[simp] theorem beginLines_frame (s : State) (p : PlaneId) (n : Nat) :
    Kept (State.beginLines p n s) s
      ∧ SameHeap (State.beginLines p n s) s ∧ SamePlanes (State.beginLines p n s) s ∧ (State.beginLines p n s).work = s.work
      ∧ (State.beginLines p n s).attention = s.attention ∧ (State.beginLines p n s).notices = s.notices
      ∧ (State.beginLines p n s).palette = s.palette ∧ (State.beginLines p n s).port = s.port
      ∧ (State.beginLines p n s).nav = s.nav ∧ (State.beginLines p n s).walker = s.walker := by
  induction n generalizing s with
  | zero => simp [Kept, SameHeap, SamePlanes, SameShow, SameNotes, State.beginLines]
  | succ n ih => simp [Kept, SameHeap, SamePlanes, SameShow, SameNotes, State.beginLines, ih]

@[simp] theorem lfPresent_frame (s : State) :
    Kept s.lfPresent s ∧ SameHeap s.lfPresent s ∧ SamePlanes s.lfPresent s
      ∧ s.lfPresent.work = s.work ∧ SameNotes s.lfPresent s ∧ s.lfPresent.palette = s.palette ∧ s.lfPresent.nav = s.nav
      ∧ s.lfPresent.walker = s.walker ∧ s.lfPresent.port.flight = s.port.flight ∧ s.lfPresent.port.decReq = s.port.decReq
      ∧ s.lfPresent.port.compReq = s.port.compReq ∧ s.lfPresent.port.walkerQ = s.port.walkerQ := by
  simp only [State.lfPresent]
  repeat' split
  all_goals simp [Kept, SameHeap, SamePlanes, SameShow, SameNotes]

@[simp] theorem mapSpan_frame (s : State) (p : PlaneId) (y i : Nat) (f : SpanFetch → SpanFetch) :
      Kept (s.mapSpan p y i f) s ∧ SameHeap (s.mapSpan p y i f) s ∧ SamePlanes (s.mapSpan p y i f) s
      ∧ (s.mapSpan p y i f).work = s.work ∧ SameNotes (s.mapSpan p y i f) s ∧ (s.mapSpan p y i f).palette = s.palette
      ∧ (s.mapSpan p y i f).port = s.port ∧ (s.mapSpan p y i f).nav = s.nav ∧ (s.mapSpan p y i f).walker = s.walker := by
  simp only [State.mapSpan]
  repeat' split
  all_goals simp [Kept, SameHeap, SamePlanes, SameShow, SameNotes]

@[simp] theorem lineCame_frame (s : State) (e : Bool) (f : Flight) :
    Kept (s.lineCame e f) s
      ∧ SameHeap (s.lineCame e f) s ∧ SamePlanes (s.lineCame e f) s ∧ (s.lineCame e f).work = s.work
      ∧ SameNotes (s.lineCame e f) s ∧ (s.lineCame e f).palette = s.palette ∧ (s.lineCame e f).port = s.port
      ∧ (s.lineCame e f).nav = s.nav ∧ (s.lineCame e f).walker = s.walker := by
  simp only [State.lineCame]
  repeat' split
  all_goals simp [Kept, SameHeap, SamePlanes, SameShow, SameNotes]

@[simp] theorem judgeLine_frame (s : State) (p : PlaneId) (y : Nat) :
    Kept (s.judgeLine p y) s
      ∧ SameHeap (s.judgeLine p y) s ∧ SamePlanes (s.judgeLine p y) s ∧ (s.judgeLine p y).work = s.work
      ∧ (s.judgeLine p y).attention = s.attention ∧ (s.judgeLine p y).notices = s.notices
      ∧ (s.judgeLine p y).palette = s.palette ∧ (s.judgeLine p y).nav = s.nav ∧ (s.judgeLine p y).walker = s.walker
      ∧ (s.judgeLine p y).port.flight = s.port.flight ∧ (s.judgeLine p y).port.decReq = s.port.decReq
      ∧ (s.judgeLine p y).port.compReq = s.port.compReq ∧ (s.judgeLine p y).port.walkerQ = s.port.walkerQ := by
  simp only [State.judgeLine]
  repeat' split
  all_goals simp [Kept, SameHeap, SamePlanes, SameShow, SameNotes]

@[simp] theorem freeLines_frame (s : State) (p : PlaneId) (y : Nat) :
    Kept (s.freeLines p y) s
      ∧ SameHeap (s.freeLines p y) s ∧ SamePlanes (s.freeLines p y) s ∧ (s.freeLines p y).work = s.work
      ∧ (s.freeLines p y).attention = s.attention ∧ (s.freeLines p y).notices = s.notices
      ∧ (s.freeLines p y).palette = s.palette ∧ (s.freeLines p y).port = s.port ∧ (s.freeLines p y).nav = s.nav
      ∧ (s.freeLines p y).walker = s.walker := by
  simp only [State.freeLines]
  repeat' split
  all_goals simp [Kept, SameHeap, SamePlanes, SameShow, SameNotes]

@[simp] theorem lineStart_frame (s : State) :
    Kept s.lineStart s ∧ SameHeap s.lineStart s ∧ SamePlanes s.lineStart s
      ∧ s.lineStart.work = s.work ∧ s.lineStart.attention = s.attention ∧ s.lineStart.notices = s.notices
      ∧ s.lineStart.palette = s.palette ∧ s.lineStart.nav = s.nav ∧ s.lineStart.walker = s.walker
      ∧ s.lineStart.port.flight = s.port.flight ∧ s.lineStart.port.decReq = s.port.decReq
      ∧ s.lineStart.port.compReq = s.port.compReq ∧ s.lineStart.port.walkerQ = s.port.walkerQ := by
  simp only [State.lineStart]
  repeat' split
  all_goals simp [Kept, SameHeap, SamePlanes, SameShow, SameNotes]

@[simp] theorem pixelClock_frame (s : State) :
    Kept s.pixelClock s ∧ SameHeap s.pixelClock s ∧ SamePlanes s.pixelClock s
      ∧ s.pixelClock.work = s.work ∧ SameNotes s.pixelClock s ∧ s.pixelClock.palette = s.palette
      ∧ s.pixelClock.port = s.port ∧ s.pixelClock.nav = s.nav ∧ s.pixelClock.walker = s.walker := by
  simp only [State.pixelClock]
  repeat' split
  all_goals simp [Kept, SameHeap, SamePlanes, SameShow, SameNotes]

@[simp] theorem closeFrame_frame (s : State) :
    Kept s.closeFrame s ∧ SameHeap s.closeFrame s ∧ SamePlanes s.closeFrame s
      ∧ s.closeFrame.work = s.work ∧ s.closeFrame.palette = s.palette ∧ s.closeFrame.nav = s.nav
      ∧ s.closeFrame.walker = s.walker ∧ s.closeFrame.port.decReq = s.port.decReq
      ∧ s.closeFrame.port.compReq = s.port.compReq ∧ s.closeFrame.port.walkerQ = s.port.walkerQ
      ∧ s.closeFrame.notices.cursor = s.notices.cursor ∧ s.closeFrame.notices.writing = s.notices.writing
      ∧ s.closeFrame.notices.seq = s.notices.seq ∧ s.closeFrame.notices.reread = s.notices.reread := by
  simp only [State.closeFrame]
  repeat' split
  all_goals simp [Kept, SameHeap, SamePlanes, SameShow, SameNotes]

@[simp] theorem compRun_frame (s : State) :
    Kept s.compRun s ∧ SameHeap s.compRun s ∧ SamePlanes s.compRun s
      ∧ s.compRun.attention = s.attention ∧ s.compRun.notices = s.notices ∧ s.compRun.palette = s.palette
      ∧ s.compRun.nav = s.nav ∧ s.compRun.walker = s.walker ∧ s.compRun.port.flight = s.port.flight
      ∧ s.compRun.port.decReq = s.port.decReq ∧ s.compRun.port.compReq = s.port.compReq
      ∧ s.compRun.port.walkerQ = s.port.walkerQ := by
  simp only [State.compRun]
  repeat' split
  all_goals simp [Kept, SameHeap, SamePlanes, SameShow, SameNotes]

/-! ### Frame-start work -/

@[simp] theorem viewTaken_frame (s : State) :
    Kept s.viewTaken s ∧ s.viewTaken.compactor = s.compactor
      ∧ SamePlanes s.viewTaken s ∧ s.viewTaken.composer = s.composer ∧ SameNotes s.viewTaken s
      ∧ s.viewTaken.palette = s.palette ∧ s.viewTaken.port = s.port ∧ s.viewTaken.nav = s.nav
      ∧ s.viewTaken.walker = s.walker ∧ s.viewTaken.heap.dir = s.heap.dir ∧ s.viewTaken.heap.extents = s.heap.extents
      ∧ s.viewTaken.heap.loads = s.heap.loads ∧ s.viewTaken.heap.decode = s.heap.decode := by
  simp only [State.viewTaken]
  repeat' split
  all_goals simp [Kept, SameHeap, SamePlanes, SameShow, SameNotes]

@[simp] theorem heapRun_frame (s : State) :
    Kept s.heapRun s ∧ s.heapRun.compactor = s.compactor
      ∧ SamePlanes s.heapRun s ∧ s.heapRun.composer = s.composer ∧ SameNotes s.heapRun s ∧ s.heapRun.palette = s.palette
      ∧ s.heapRun.port = s.port ∧ s.heapRun.nav = s.nav ∧ s.heapRun.walker = s.walker ∧ s.heapRun.heap.dir = s.heap.dir
      ∧ s.heapRun.heap.extents = s.heap.extents ∧ s.heapRun.heap.loads = s.heap.loads
      ∧ s.heapRun.heap.decode = s.heap.decode := by
  simp only [State.heapRun]
  repeat' split
  all_goals simp [Kept, SameHeap, SamePlanes, SameShow, SameNotes]

@[simp] theorem planeRun_frame (s : State) (p : PlaneId) :
    Kept (s.planeRun p) s ∧ SameHeap (s.planeRun p) s
      ∧ (s.planeRun p).slots = s.slots ∧ (s.planeRun p).jump = s.jump ∧ (s.planeRun p).drawnViews = s.drawnViews
      ∧ (s.planeRun p).composer = s.composer ∧ SameNotes (s.planeRun p) s ∧ (s.planeRun p).palette = s.palette
      ∧ (s.planeRun p).port = s.port ∧ (s.planeRun p).nav = s.nav ∧ (s.planeRun p).walker = s.walker := by
  simp only [State.planeRun]
  repeat' split
  all_goals simp [Kept, SameHeap, SamePlanes, SameShow, SameNotes]

@[simp] theorem noteViews_frame (s : State) :
    Kept s.noteViews s ∧ SameHeap s.noteViews s ∧ s.noteViews.slots = s.slots
      ∧ s.noteViews.slide = s.slide ∧ s.noteViews.menu = s.menu ∧ s.noteViews.jump = s.jump ∧ SameShow s.noteViews s
      ∧ SameNotes s.noteViews s ∧ s.noteViews.palette = s.palette ∧ s.noteViews.port = s.port ∧ s.noteViews.nav = s.nav
      ∧ s.noteViews.walker = s.walker := by
  simp only [State.noteViews]
  repeat' split
  all_goals simp [Kept, SameHeap, SamePlanes, SameShow, SameNotes]

@[simp] theorem navRunIf_frame (s : State) :
    Kept s.navRunIf s ∧ SameHeap s.navRunIf s ∧ SamePlanes s.navRunIf s
      ∧ s.navRunIf.composer = s.composer ∧ SameNotes s.navRunIf s ∧ s.navRunIf.palette = s.palette
      ∧ s.navRunIf.port = s.port ∧ s.navRunIf.walker = s.walker ∧ s.navRunIf.nav.word = s.nav.word
      ∧ s.navRunIf.nav.queue = s.nav.queue := by
  simp only [State.navRunIf]
  repeat' split
  all_goals simp [Kept, SameHeap, SamePlanes, SameShow, SameNotes]

@[simp] theorem compRunIf_frame (s : State) :
    Kept s.compRunIf s ∧ SameHeap s.compRunIf s ∧ SamePlanes s.compRunIf s
      ∧ s.compRunIf.attention = s.attention ∧ s.compRunIf.notices = s.notices ∧ s.compRunIf.palette = s.palette
      ∧ s.compRunIf.nav = s.nav ∧ s.compRunIf.walker = s.walker ∧ s.compRunIf.port.flight = s.port.flight
      ∧ s.compRunIf.port.decReq = s.port.decReq ∧ s.compRunIf.port.compReq = s.port.compReq
      ∧ s.compRunIf.port.walkerQ = s.port.walkerQ := by
  simp only [State.compRunIf]
  repeat' split
  all_goals simp [Kept, SameHeap, SamePlanes, SameShow, SameNotes]

@[simp] theorem advanceWork_frame (s : State) :
    Kept s.advanceWork s ∧ s.advanceWork.compactor = s.compactor
      ∧ s.advanceWork.slots = s.slots ∧ s.advanceWork.jump = s.jump ∧ s.advanceWork.attention = s.attention
      ∧ s.advanceWork.notices = s.notices ∧ s.advanceWork.palette = s.palette ∧ s.advanceWork.walker = s.walker
      ∧ s.advanceWork.port.flight = s.port.flight ∧ s.advanceWork.port.decReq = s.port.decReq
      ∧ s.advanceWork.port.compReq = s.port.compReq ∧ s.advanceWork.port.walkerQ = s.port.walkerQ
      ∧ s.advanceWork.heap.dir = s.heap.dir ∧ s.advanceWork.heap.extents = s.heap.extents
      ∧ s.advanceWork.heap.loads = s.heap.loads ∧ s.advanceWork.heap.decode = s.heap.decode
      ∧ s.advanceWork.nav.word = s.nav.word ∧ s.advanceWork.nav.queue = s.nav.queue := by
  simp only [State.advanceWork]
  repeat' split
  all_goals simp [Kept, SameHeap, SamePlanes, SameShow, SameNotes]

@[simp] theorem switchStep_frame (s : State) :
    Kept s.switchStep s ∧ s.switchStep.slots = s.slots
      ∧ s.switchStep.jump = s.jump ∧ s.switchStep.attention = s.attention ∧ s.switchStep.notices = s.notices
      ∧ s.switchStep.palette = s.palette ∧ s.switchStep.walker = s.walker ∧ s.switchStep.port.flight = s.port.flight
      ∧ s.switchStep.port.decReq = s.port.decReq ∧ s.switchStep.port.compReq = s.port.compReq
      ∧ s.switchStep.port.walkerQ = s.port.walkerQ ∧ s.switchStep.heap.loads = s.heap.loads
      ∧ s.switchStep.heap.decode = s.heap.decode ∧ s.switchStep.nav.word = s.nav.word ∧ s.switchStep.nav.queue = s.nav.queue
      ∧ s.switchStep.compactor.task = s.compactor.task := by
  simp only [State.switchStep]
  repeat' split
  all_goals simp [Kept, SameHeap, SamePlanes, SameShow, SameNotes]

@[simp] theorem paletteStep_frame (s : State) :
    Kept s.paletteStep s ∧ s.paletteStep.compactor = s.compactor
      ∧ s.paletteStep.slots = s.slots ∧ s.paletteStep.jump = s.jump ∧ s.paletteStep.attention = s.attention
      ∧ s.paletteStep.notices = s.notices ∧ s.paletteStep.port.flight = s.port.flight
      ∧ s.paletteStep.port.decReq = s.port.decReq ∧ s.paletteStep.port.compReq = s.port.compReq
      ∧ s.paletteStep.walker.st = s.walker.st ∧ s.paletteStep.walker.cur = s.walker.cur
      ∧ s.paletteStep.walker.holder = s.walker.holder ∧ s.paletteStep.walker.asked = s.walker.asked
      ∧ s.paletteStep.walker.task = s.walker.task ∧ s.paletteStep.walker.job = s.walker.job
      ∧ s.paletteStep.walker.capture = s.walker.capture ∧ s.paletteStep.walker.reread = s.walker.reread
      ∧ s.paletteStep.heap.dir = s.heap.dir ∧ s.paletteStep.heap.extents = s.heap.extents
      ∧ s.paletteStep.heap.loads = s.heap.loads ∧ s.paletteStep.heap.decode = s.heap.decode
      ∧ s.paletteStep.nav.word = s.nav.word ∧ s.paletteStep.nav.queue = s.nav.queue := by
  simp only [State.paletteStep]
  repeat' split
  all_goals simp [Kept, SameHeap, SamePlanes, SameShow, SameNotes]

@[simp] theorem transStep_frame (s : State) (p : PlaneId) :
    Kept (s.transStep p) s
      ∧ (s.transStep p).compactor = s.compactor ∧ (s.transStep p).jump = s.jump ∧ (s.transStep p).attention = s.attention
      ∧ (s.transStep p).notices = s.notices ∧ (s.transStep p).palette = s.palette ∧ (s.transStep p).walker = s.walker
      ∧ (s.transStep p).port.flight = s.port.flight ∧ (s.transStep p).port.decReq = s.port.decReq
      ∧ (s.transStep p).port.compReq = s.port.compReq ∧ (s.transStep p).port.walkerQ = s.port.walkerQ
      ∧ (s.transStep p).heap.dir = s.heap.dir ∧ (s.transStep p).heap.extents = s.heap.extents
      ∧ (s.transStep p).heap.loads = s.heap.loads ∧ (s.transStep p).heap.decode = s.heap.decode
      ∧ (s.transStep p).nav.word = s.nav.word ∧ (s.transStep p).nav.queue = s.nav.queue := by
  simp only [State.transStep]
  repeat' split
  all_goals simp [Kept, SameHeap, SamePlanes, SameShow, SameNotes]

@[simp] theorem opStep_frame (s : State) (p : PlaneId) :
    Kept (s.opStep p) s ∧ (s.opStep p).compactor = s.compactor
      ∧ (s.opStep p).jump = s.jump ∧ (s.opStep p).attention = s.attention ∧ (s.opStep p).notices = s.notices
      ∧ (s.opStep p).palette = s.palette ∧ (s.opStep p).port.flight = s.port.flight
      ∧ (s.opStep p).port.decReq = s.port.decReq ∧ (s.opStep p).port.compReq = s.port.compReq
      ∧ (s.opStep p).walker.st = s.walker.st ∧ (s.opStep p).walker.cur = s.walker.cur
      ∧ (s.opStep p).walker.holder = s.walker.holder ∧ (s.opStep p).walker.asked = s.walker.asked
      ∧ (s.opStep p).walker.task = s.walker.task ∧ (s.opStep p).walker.job = s.walker.job
      ∧ (s.opStep p).walker.capture = s.walker.capture ∧ (s.opStep p).walker.reread = s.walker.reread
      ∧ (s.opStep p).heap.dir = s.heap.dir ∧ (s.opStep p).heap.extents = s.heap.extents
      ∧ (s.opStep p).heap.loads = s.heap.loads ∧ (s.opStep p).heap.decode = s.heap.decode
      ∧ (s.opStep p).nav.word = s.nav.word ∧ (s.opStep p).nav.queue = s.nav.queue := by
  simp only [State.opStep]
  repeat' split
  all_goals simp [Kept, SameHeap, SamePlanes, SameShow, SameNotes]

@[simp] theorem jumpApplyStep_frame (s : State) :
    Kept s.jumpApplyStep s ∧ s.jumpApplyStep.compactor = s.compactor
      ∧ s.jumpApplyStep.palette = s.palette ∧ s.jumpApplyStep.walker = s.walker
      ∧ s.jumpApplyStep.port.flight = s.port.flight ∧ s.jumpApplyStep.port.decReq = s.port.decReq
      ∧ s.jumpApplyStep.port.compReq = s.port.compReq ∧ s.jumpApplyStep.port.walkerQ = s.port.walkerQ
      ∧ s.jumpApplyStep.heap.dir = s.heap.dir ∧ s.jumpApplyStep.heap.extents = s.heap.extents
      ∧ s.jumpApplyStep.heap.loads = s.heap.loads ∧ s.jumpApplyStep.heap.decode = s.heap.decode
      ∧ s.jumpApplyStep.nav.word = s.nav.word ∧ s.jumpApplyStep.nav.queue = s.nav.queue
      ∧ s.jumpApplyStep.notices.cursor = s.notices.cursor ∧ s.jumpApplyStep.notices.writing = s.notices.writing
      ∧ s.jumpApplyStep.notices.seq = s.notices.seq ∧ s.jumpApplyStep.notices.reread = s.notices.reread := by
  simp only [State.jumpApplyStep]
  repeat' split
  all_goals simp [Kept, SameHeap, SamePlanes, SameShow, SameNotes]

@[simp] theorem actEndStep_frame (s : State) :
    Kept s.actEndStep s ∧ s.actEndStep.compactor = s.compactor
      ∧ s.actEndStep.palette = s.palette ∧ s.actEndStep.walker = s.walker ∧ s.actEndStep.port.flight = s.port.flight
      ∧ s.actEndStep.port.decReq = s.port.decReq ∧ s.actEndStep.port.compReq = s.port.compReq
      ∧ s.actEndStep.port.walkerQ = s.port.walkerQ ∧ s.actEndStep.heap.dir = s.heap.dir
      ∧ s.actEndStep.heap.extents = s.heap.extents ∧ s.actEndStep.heap.loads = s.heap.loads
      ∧ s.actEndStep.heap.decode = s.heap.decode ∧ s.actEndStep.nav.queue = s.nav.queue
      ∧ s.actEndStep.notices.cursor = s.notices.cursor ∧ s.actEndStep.notices.writing = s.notices.writing
      ∧ s.actEndStep.notices.seq = s.notices.seq ∧ s.actEndStep.notices.reread = s.notices.reread := by
  simp only [State.actEndStep]
  repeat' split
  all_goals simp [Kept, SameHeap, SamePlanes, SameShow, SameNotes]

@[simp] theorem expiryStep_frame (s : State) :
    Kept s.expiryStep s ∧ s.expiryStep.compactor = s.compactor
      ∧ s.expiryStep.palette = s.palette ∧ s.expiryStep.walker = s.walker ∧ s.expiryStep.port.flight = s.port.flight
      ∧ s.expiryStep.port.decReq = s.port.decReq ∧ s.expiryStep.port.compReq = s.port.compReq
      ∧ s.expiryStep.port.walkerQ = s.port.walkerQ ∧ s.expiryStep.heap.dir = s.heap.dir
      ∧ s.expiryStep.heap.extents = s.heap.extents ∧ s.expiryStep.heap.loads = s.heap.loads
      ∧ s.expiryStep.heap.decode = s.heap.decode ∧ s.expiryStep.nav.queue = s.nav.queue
      ∧ s.expiryStep.notices.cursor = s.notices.cursor ∧ s.expiryStep.notices.writing = s.notices.writing
      ∧ s.expiryStep.notices.seq = s.notices.seq ∧ s.expiryStep.notices.reread = s.notices.reread := by
  simp only [State.expiryStep]
  repeat' split
  all_goals simp [Kept, SameHeap, SamePlanes, SameShow, SameNotes]

@[simp] theorem timeoutStep_frame (s : State) :
    Kept s.timeoutStep s ∧ s.timeoutStep.compactor = s.compactor
      ∧ s.timeoutStep.palette = s.palette ∧ s.timeoutStep.walker = s.walker ∧ s.timeoutStep.port.flight = s.port.flight
      ∧ s.timeoutStep.port.decReq = s.port.decReq ∧ s.timeoutStep.port.compReq = s.port.compReq
      ∧ s.timeoutStep.port.walkerQ = s.port.walkerQ ∧ s.timeoutStep.heap.dir = s.heap.dir
      ∧ s.timeoutStep.heap.extents = s.heap.extents ∧ s.timeoutStep.heap.loads = s.heap.loads
      ∧ s.timeoutStep.heap.decode = s.heap.decode ∧ s.timeoutStep.nav.queue = s.nav.queue
      ∧ s.timeoutStep.notices.cursor = s.notices.cursor ∧ s.timeoutStep.notices.writing = s.notices.writing
      ∧ s.timeoutStep.notices.seq = s.notices.seq ∧ s.timeoutStep.notices.reread = s.notices.reread := by
  simp only [State.timeoutStep]
  repeat' split
  all_goals simp [Kept, SameHeap, SamePlanes, SameShow, SameNotes]

@[simp] theorem workRound_frame (s : State) :
    Kept s.workRound s ∧ s.workRound.port.flight = s.port.flight
      ∧ s.workRound.port.decReq = s.port.decReq ∧ s.workRound.port.compReq = s.port.compReq
      ∧ s.workRound.walker.st = s.walker.st ∧ s.workRound.walker.cur = s.walker.cur
      ∧ s.workRound.walker.holder = s.walker.holder ∧ s.workRound.walker.asked = s.walker.asked
      ∧ s.workRound.walker.task = s.walker.task ∧ s.workRound.walker.job = s.walker.job
      ∧ s.workRound.walker.capture = s.walker.capture ∧ s.workRound.walker.reread = s.walker.reread
      ∧ s.workRound.heap.loads = s.heap.loads ∧ s.workRound.heap.decode = s.heap.decode
      ∧ s.workRound.nav.queue = s.nav.queue ∧ s.workRound.notices.cursor = s.notices.cursor
      ∧ s.workRound.notices.writing = s.notices.writing ∧ s.workRound.notices.seq = s.notices.seq
      ∧ s.workRound.notices.reread = s.notices.reread ∧ s.workRound.compactor.task = s.compactor.task := by
  simp only [State.workRound]
  repeat' split
  all_goals simp [Kept, SameHeap, SamePlanes, SameShow, SameNotes]

@[simp] theorem workRounds_frame (s : State) (n : Nat) :
    Kept (State.workRounds n s) s
      ∧ (State.workRounds n s).port.flight = s.port.flight ∧ (State.workRounds n s).port.decReq = s.port.decReq
      ∧ (State.workRounds n s).port.compReq = s.port.compReq ∧ (State.workRounds n s).walker.st = s.walker.st
      ∧ (State.workRounds n s).walker.cur = s.walker.cur ∧ (State.workRounds n s).walker.holder = s.walker.holder
      ∧ (State.workRounds n s).walker.asked = s.walker.asked ∧ (State.workRounds n s).walker.task = s.walker.task
      ∧ (State.workRounds n s).walker.job = s.walker.job ∧ (State.workRounds n s).walker.capture = s.walker.capture
      ∧ (State.workRounds n s).walker.reread = s.walker.reread ∧ (State.workRounds n s).heap.loads = s.heap.loads
      ∧ (State.workRounds n s).heap.decode = s.heap.decode ∧ (State.workRounds n s).nav.queue = s.nav.queue
      ∧ (State.workRounds n s).notices.cursor = s.notices.cursor
      ∧ (State.workRounds n s).notices.writing = s.notices.writing ∧ (State.workRounds n s).notices.seq = s.notices.seq
      ∧ (State.workRounds n s).notices.reread = s.notices.reread ∧ (State.workRounds n s).compactor.task = s.compactor.task := by
  induction n generalizing s with
  | zero => simp [Kept, SameHeap, SamePlanes, SameShow, SameNotes, State.workRounds]
  | succ n ih =>
    unfold State.workRounds
    split
    · simp [Kept, SameHeap, SamePlanes, SameShow, SameNotes]
    · simp [Kept, SameHeap, SamePlanes, SameShow, SameNotes, ih]

@[simp] theorem finishWork_frame (s : State) :
    Kept s.finishWork s ∧ s.finishWork.port.flight = s.port.flight
      ∧ s.finishWork.port.decReq = s.port.decReq ∧ s.finishWork.port.compReq = s.port.compReq
      ∧ s.finishWork.walker.st = s.walker.st ∧ s.finishWork.walker.cur = s.walker.cur
      ∧ s.finishWork.walker.holder = s.walker.holder ∧ s.finishWork.walker.asked = s.walker.asked
      ∧ s.finishWork.walker.task = s.walker.task ∧ s.finishWork.walker.job = s.walker.job
      ∧ s.finishWork.walker.capture = s.walker.capture ∧ s.finishWork.walker.reread = s.walker.reread
      ∧ s.finishWork.heap.loads = s.heap.loads ∧ s.finishWork.heap.decode = s.heap.decode
      ∧ s.finishWork.nav.queue = s.nav.queue ∧ s.finishWork.notices.cursor = s.notices.cursor
      ∧ s.finishWork.notices.writing = s.notices.writing ∧ s.finishWork.notices.seq = s.notices.seq
      ∧ s.finishWork.notices.reread = s.notices.reread ∧ s.finishWork.compactor.task = s.compactor.task := by
  simp only [State.finishWork]
  repeat' split
  all_goals simp [Kept, SameHeap, SamePlanes, SameShow, SameNotes]

@[simp] theorem workGoesOn_frame (s : State) :
    Kept s.workGoesOn s ∧ s.workGoesOn.compactor = s.compactor
      ∧ s.workGoesOn.slots = s.slots ∧ s.workGoesOn.jump = s.jump ∧ s.workGoesOn.attention = s.attention
      ∧ s.workGoesOn.notices = s.notices ∧ s.workGoesOn.palette = s.palette ∧ s.workGoesOn.walker = s.walker
      ∧ s.workGoesOn.port.flight = s.port.flight ∧ s.workGoesOn.port.decReq = s.port.decReq
      ∧ s.workGoesOn.port.compReq = s.port.compReq ∧ s.workGoesOn.port.walkerQ = s.port.walkerQ
      ∧ s.workGoesOn.heap.dir = s.heap.dir ∧ s.workGoesOn.heap.extents = s.heap.extents
      ∧ s.workGoesOn.heap.loads = s.heap.loads ∧ s.workGoesOn.heap.decode = s.heap.decode
      ∧ s.workGoesOn.nav.word = s.nav.word ∧ s.workGoesOn.nav.queue = s.nav.queue := by
  simp only [State.workGoesOn]
  repeat' split
  all_goals simp [Kept, SameHeap, SamePlanes, SameShow, SameNotes]

/-! ### Grants, the walker, notices and the key line -/

@[simp] theorem popRetirement_frame (s : State) :
    Kept s.popRetirement s ∧ SameHeap s.popRetirement s
      ∧ SamePlanes s.popRetirement s ∧ SameShow s.popRetirement s ∧ SameNotes s.popRetirement s
      ∧ s.popRetirement.palette = s.palette ∧ s.popRetirement.nav = s.nav ∧ s.popRetirement.port.flight = s.port.flight
      ∧ s.popRetirement.port.lfReq = s.port.lfReq ∧ s.popRetirement.port.decReq = s.port.decReq
      ∧ s.popRetirement.port.compReq = s.port.compReq ∧ s.popRetirement.walker.st = s.walker.st
      ∧ s.popRetirement.walker.cur = s.walker.cur ∧ s.popRetirement.walker.holder = s.walker.holder
      ∧ s.popRetirement.walker.task = s.walker.task ∧ s.popRetirement.walker.job = s.walker.job
      ∧ s.popRetirement.walker.capture = s.walker.capture ∧ s.popRetirement.walker.reread = s.walker.reread := by
  simp only [State.popRetirement]
  repeat' split
  all_goals simp [Kept, SameHeap, SamePlanes, SameShow, SameNotes]

@[simp] theorem onGrant_frame (s : State) (u : User) :
    Kept (s.onGrant u) s ∧ SameHeap (s.onGrant u) s
      ∧ SamePlanes (s.onGrant u) s ∧ (s.onGrant u).work = s.work ∧ (s.onGrant u).attention = s.attention
      ∧ (s.onGrant u).stats = s.stats ∧ (s.onGrant u).palette = s.palette ∧ (s.onGrant u).nav = s.nav
      ∧ (s.onGrant u).port.flight = s.port.flight ∧ (s.onGrant u).port.decReq = s.port.decReq
      ∧ (s.onGrant u).port.compReq = s.port.compReq ∧ (s.onGrant u).walker.st = s.walker.st
      ∧ (s.onGrant u).walker.cur = s.walker.cur ∧ (s.onGrant u).walker.holder = s.walker.holder
      ∧ (s.onGrant u).walker.task = s.walker.task ∧ (s.onGrant u).walker.job = s.walker.job
      ∧ (s.onGrant u).walker.capture = s.walker.capture ∧ (s.onGrant u).notices.cursor = s.notices.cursor
      ∧ (s.onGrant u).notices.queue = s.notices.queue ∧ (s.onGrant u).notices.writing = s.notices.writing
      ∧ (s.onGrant u).notices.seq = s.notices.seq := by
  simp only [State.onGrant]
  repeat' split
  all_goals simp [Kept, SameHeap, SamePlanes, SameShow, SameNotes]

@[simp] theorem judgeSnapshot_frame (s : State) (t : Task) :
    Kept (s.judgeSnapshot t) s ∧ SameHeap (s.judgeSnapshot t) s
      ∧ SamePlanes (s.judgeSnapshot t) s ∧ SameShow (s.judgeSnapshot t) s ∧ (s.judgeSnapshot t).attention = s.attention
      ∧ (s.judgeSnapshot t).notices = s.notices ∧ (s.judgeSnapshot t).palette = s.palette ∧ (s.judgeSnapshot t).nav = s.nav
      ∧ (s.judgeSnapshot t).port.flight = s.port.flight ∧ (s.judgeSnapshot t).port.lfReq = s.port.lfReq
      ∧ (s.judgeSnapshot t).port.decReq = s.port.decReq ∧ (s.judgeSnapshot t).port.compReq = s.port.compReq
      ∧ (s.judgeSnapshot t).walker.cur = s.walker.cur ∧ (s.judgeSnapshot t).walker.holder = s.walker.holder
      ∧ (s.judgeSnapshot t).walker.asked = s.walker.asked ∧ (s.judgeSnapshot t).walker.capture = s.walker.capture
      ∧ (s.judgeSnapshot t).walker.reread = s.walker.reread := by
  simp only [State.judgeSnapshot]
  repeat' split
  all_goals simp [Kept, SameHeap, SamePlanes, SameShow, SameNotes]

@[simp] theorem recordCame_frame (s : State) (e : Bool) (f : Flight) :
    Kept (s.recordCame e f) s
      ∧ SameHeap (s.recordCame e f) s ∧ SamePlanes (s.recordCame e f) s ∧ SameShow (s.recordCame e f) s
      ∧ (s.recordCame e f).palette = s.palette ∧ (s.recordCame e f).nav = s.nav
      ∧ (s.recordCame e f).port.flight = s.port.flight ∧ (s.recordCame e f).port.lfReq = s.port.lfReq
      ∧ (s.recordCame e f).port.decReq = s.port.decReq ∧ (s.recordCame e f).port.compReq = s.port.compReq
      ∧ (s.recordCame e f).walker.cur = s.walker.cur ∧ (s.recordCame e f).walker.holder = s.walker.holder
      ∧ (s.recordCame e f).notices.cursor = s.notices.cursor ∧ (s.recordCame e f).notices.writing = s.notices.writing
      ∧ (s.recordCame e f).notices.seq = s.notices.seq ∧ (s.recordCame e f).notices.reread = s.notices.reread := by
  simp only [State.recordCame]
  repeat' split
  all_goals simp [Kept, SameHeap, SamePlanes, SameShow, SameNotes]

@[simp] theorem beginWait_frame (s : State) :
    Kept s.beginWait s ∧ SameHeap s.beginWait s ∧ SamePlanes s.beginWait s
      ∧ SameShow s.beginWait s ∧ SameNotes s.beginWait s ∧ s.beginWait.palette = s.palette ∧ s.beginWait.port = s.port
      ∧ s.beginWait.nav = s.nav ∧ s.beginWait.walker.cur = s.walker.cur ∧ s.beginWait.walker.holder = s.walker.holder
      ∧ s.beginWait.walker.asked = s.walker.asked ∧ s.beginWait.walker.task = s.walker.task
      ∧ s.beginWait.walker.job = s.walker.job ∧ s.beginWait.walker.capture = s.walker.capture
      ∧ s.beginWait.walker.retiring = s.walker.retiring ∧ s.beginWait.walker.reread = s.walker.reread := by
  simp only [State.beginWait]
  repeat' split
  all_goals simp [Kept, SameHeap, SamePlanes, SameShow, SameNotes]

@[simp] theorem judgeWait_frame (s : State) (t : Task) :
    Kept (s.judgeWait t) s ∧ SameHeap (s.judgeWait t) s
      ∧ SamePlanes (s.judgeWait t) s ∧ SameShow (s.judgeWait t) s ∧ SameNotes (s.judgeWait t) s
      ∧ (s.judgeWait t).palette = s.palette ∧ (s.judgeWait t).nav = s.nav ∧ (s.judgeWait t).port.flight = s.port.flight
      ∧ (s.judgeWait t).port.lfReq = s.port.lfReq ∧ (s.judgeWait t).port.decReq = s.port.decReq
      ∧ (s.judgeWait t).port.compReq = s.port.compReq ∧ (s.judgeWait t).walker.cur = s.walker.cur
      ∧ (s.judgeWait t).walker.holder = s.walker.holder ∧ (s.judgeWait t).walker.asked = s.walker.asked
      ∧ (s.judgeWait t).walker.capture = s.walker.capture ∧ (s.judgeWait t).walker.reread = s.walker.reread := by
  simp only [State.judgeWait]
  repeat' split
  all_goals simp [Kept, SameHeap, SamePlanes, SameShow, SameNotes]

@[simp] theorem recheckWait_frame (s : State) :
    Kept s.recheckWait s ∧ SameHeap s.recheckWait s
      ∧ SamePlanes s.recheckWait s ∧ SameShow s.recheckWait s ∧ SameNotes s.recheckWait s
      ∧ s.recheckWait.palette = s.palette ∧ s.recheckWait.nav = s.nav ∧ s.recheckWait.port.flight = s.port.flight
      ∧ s.recheckWait.port.lfReq = s.port.lfReq ∧ s.recheckWait.port.decReq = s.port.decReq
      ∧ s.recheckWait.port.compReq = s.port.compReq ∧ s.recheckWait.walker.cur = s.walker.cur
      ∧ s.recheckWait.walker.holder = s.walker.holder ∧ s.recheckWait.walker.asked = s.walker.asked
      ∧ s.recheckWait.walker.capture = s.walker.capture ∧ s.recheckWait.walker.reread = s.walker.reread := by
  simp only [State.recheckWait]
  repeat' split
  all_goals simp [Kept, SameHeap, SamePlanes, SameShow, SameNotes]

@[simp] theorem judgeStalled_frame (s : State) (t : Task) :
    Kept (s.judgeStalled t) s ∧ (s.judgeStalled t).heap = s.heap
      ∧ (s.judgeStalled t).jump = s.jump ∧ (s.judgeStalled t).drawnViews = s.drawnViews ∧ SameShow (s.judgeStalled t) s
      ∧ SameNotes (s.judgeStalled t) s ∧ (s.judgeStalled t).palette = s.palette
      ∧ (s.judgeStalled t).port.flight = s.port.flight ∧ (s.judgeStalled t).port.lfReq = s.port.lfReq
      ∧ (s.judgeStalled t).port.decReq = s.port.decReq ∧ (s.judgeStalled t).port.compReq = s.port.compReq
      ∧ (s.judgeStalled t).walker.cur = s.walker.cur ∧ (s.judgeStalled t).walker.holder = s.walker.holder
      ∧ (s.judgeStalled t).walker.asked = s.walker.asked ∧ (s.judgeStalled t).walker.capture = s.walker.capture
      ∧ (s.judgeStalled t).walker.reread = s.walker.reread ∧ (s.judgeStalled t).nav.word = s.nav.word
      ∧ (s.judgeStalled t).nav.judged = s.nav.judged ∧ (s.judgeStalled t).nav.activation = s.nav.activation
      ∧ (s.judgeStalled t).nav.digit = s.nav.digit := by
  simp only [State.judgeStalled]
  repeat' split
  all_goals simp [Kept, SameHeap, SamePlanes, SameShow, SameNotes]

@[simp] theorem retryStall_frame (s : State) :
    Kept s.retryStall s ∧ s.retryStall.heap = s.heap
      ∧ s.retryStall.jump = s.jump ∧ s.retryStall.drawnViews = s.drawnViews ∧ SameShow s.retryStall s
      ∧ SameNotes s.retryStall s ∧ s.retryStall.palette = s.palette ∧ s.retryStall.port.flight = s.port.flight
      ∧ s.retryStall.port.lfReq = s.port.lfReq ∧ s.retryStall.port.decReq = s.port.decReq
      ∧ s.retryStall.port.compReq = s.port.compReq ∧ s.retryStall.walker.cur = s.walker.cur
      ∧ s.retryStall.walker.holder = s.walker.holder ∧ s.retryStall.walker.asked = s.walker.asked
      ∧ s.retryStall.walker.capture = s.walker.capture ∧ s.retryStall.walker.reread = s.walker.reread
      ∧ s.retryStall.nav.word = s.nav.word ∧ s.retryStall.nav.judged = s.nav.judged
      ∧ s.retryStall.nav.activation = s.nav.activation ∧ s.retryStall.nav.digit = s.nav.digit := by
  simp only [State.retryStall]
  repeat' split
  all_goals simp [Kept, SameHeap, SamePlanes, SameShow, SameNotes]

@[simp] theorem parkAgain_frame (s : State) :
    Kept s.parkAgain s ∧ SameHeap s.parkAgain s ∧ SamePlanes s.parkAgain s
      ∧ SameShow s.parkAgain s ∧ SameNotes s.parkAgain s ∧ s.parkAgain.palette = s.palette ∧ s.parkAgain.nav = s.nav
      ∧ s.parkAgain.port.flight = s.port.flight ∧ s.parkAgain.port.lfReq = s.port.lfReq
      ∧ s.parkAgain.port.decReq = s.port.decReq ∧ s.parkAgain.port.compReq = s.port.compReq
      ∧ s.parkAgain.walker.cur = s.walker.cur ∧ s.parkAgain.walker.holder = s.walker.holder
      ∧ s.parkAgain.walker.asked = s.walker.asked ∧ s.parkAgain.walker.task = s.walker.task
      ∧ s.parkAgain.walker.job = s.walker.job ∧ s.parkAgain.walker.capture = s.walker.capture
      ∧ s.parkAgain.walker.retiring = s.walker.retiring := by
  simp only [State.parkAgain]
  repeat' split
  all_goals simp [Kept, SameHeap, SamePlanes, SameShow, SameNotes]

@[simp] theorem park_frame (s : State) :
    Kept s.park s ∧ SameHeap s.park s ∧ SamePlanes s.park s ∧ SameShow s.park s
      ∧ SameNotes s.park s ∧ s.park.palette = s.palette ∧ s.park.nav = s.nav ∧ s.park.port.flight = s.port.flight
      ∧ s.park.port.lfReq = s.port.lfReq ∧ s.park.port.decReq = s.port.decReq ∧ s.park.port.compReq = s.port.compReq
      ∧ s.park.walker.cur = s.walker.cur ∧ s.park.walker.holder = s.walker.holder ∧ s.park.walker.asked = s.walker.asked
      ∧ s.park.walker.task = s.walker.task ∧ s.park.walker.job = s.walker.job ∧ s.park.walker.capture = s.walker.capture
      ∧ s.park.walker.retiring = s.walker.retiring := by
  simp only [State.park]
  repeat' split
  all_goals simp [Kept, SameHeap, SamePlanes, SameShow, SameNotes]

@[simp] theorem followLink_frame (s : State) (a : Word) :
    Kept (s.followLink a) s ∧ SameHeap (s.followLink a) s
      ∧ SamePlanes (s.followLink a) s ∧ SameShow (s.followLink a) s ∧ SameNotes (s.followLink a) s
      ∧ (s.followLink a).palette = s.palette ∧ (s.followLink a).nav = s.nav ∧ (s.followLink a).port.flight = s.port.flight
      ∧ (s.followLink a).port.lfReq = s.port.lfReq ∧ (s.followLink a).port.decReq = s.port.decReq
      ∧ (s.followLink a).port.compReq = s.port.compReq ∧ (s.followLink a).walker.capture = s.walker.capture
      ∧ (s.followLink a).walker.retiring = s.walker.retiring := by
  simp only [State.followLink]
  repeat' split
  all_goals simp [Kept, SameHeap, SamePlanes, SameShow, SameNotes]

@[simp] theorem judgeLink_frame (s : State) (b : Bool) (l : List Byte) :
    Kept (s.judgeLink b l) s
      ∧ SameHeap (s.judgeLink b l) s ∧ SamePlanes (s.judgeLink b l) s ∧ SameShow (s.judgeLink b l) s
      ∧ (s.judgeLink b l).palette = s.palette ∧ (s.judgeLink b l).nav = s.nav
      ∧ (s.judgeLink b l).port.flight = s.port.flight ∧ (s.judgeLink b l).port.lfReq = s.port.lfReq
      ∧ (s.judgeLink b l).port.decReq = s.port.decReq ∧ (s.judgeLink b l).port.compReq = s.port.compReq
      ∧ (s.judgeLink b l).walker.retiring = s.walker.retiring ∧ (s.judgeLink b l).notices.cursor = s.notices.cursor
      ∧ (s.judgeLink b l).notices.writing = s.notices.writing ∧ (s.judgeLink b l).notices.seq = s.notices.seq
      ∧ (s.judgeLink b l).notices.reread = s.notices.reread := by
  simp only [State.judgeLink]
  repeat' split
  all_goals simp [Kept, SameHeap, SamePlanes, SameShow, SameNotes]

@[simp] theorem linkCame_frame (s : State) (e : Bool) (f : Flight) :
    Kept (s.linkCame e f) s
      ∧ SameHeap (s.linkCame e f) s ∧ SamePlanes (s.linkCame e f) s ∧ SameShow (s.linkCame e f) s
      ∧ (s.linkCame e f).palette = s.palette ∧ (s.linkCame e f).nav = s.nav ∧ (s.linkCame e f).port.flight = s.port.flight
      ∧ (s.linkCame e f).port.lfReq = s.port.lfReq ∧ (s.linkCame e f).port.decReq = s.port.decReq
      ∧ (s.linkCame e f).port.compReq = s.port.compReq ∧ (s.linkCame e f).walker.retiring = s.walker.retiring
      ∧ (s.linkCame e f).notices.cursor = s.notices.cursor ∧ (s.linkCame e f).notices.writing = s.notices.writing
      ∧ (s.linkCame e f).notices.seq = s.notices.seq ∧ (s.linkCame e f).notices.reread = s.notices.reread := by
  simp only [State.linkCame]
  repeat' split
  all_goals simp [Kept, SameHeap, SamePlanes, SameShow, SameNotes]

@[simp] theorem writeFault_frame (s : State) (r : Retirement) :
    Kept (s.writeFault r) s ∧ SameHeap (s.writeFault r) s
      ∧ SamePlanes (s.writeFault r) s ∧ SameShow (s.writeFault r) s ∧ (s.writeFault r).palette = s.palette
      ∧ (s.writeFault r).port = s.port ∧ (s.writeFault r).nav = s.nav ∧ (s.writeFault r).walker.st = s.walker.st
      ∧ (s.writeFault r).walker.cur = s.walker.cur ∧ (s.writeFault r).walker.holder = s.walker.holder
      ∧ (s.writeFault r).walker.asked = s.walker.asked ∧ (s.writeFault r).walker.task = s.walker.task
      ∧ (s.writeFault r).walker.job = s.walker.job ∧ (s.writeFault r).walker.retiring = s.walker.retiring
      ∧ (s.writeFault r).walker.reread = s.walker.reread ∧ (s.writeFault r).notices.cursor = s.notices.cursor
      ∧ (s.writeFault r).notices.writing = s.notices.writing ∧ (s.writeFault r).notices.seq = s.notices.seq
      ∧ (s.writeFault r).notices.reread = s.notices.reread := by
  simp only [State.writeFault]
  repeat' split
  all_goals simp [Kept, SameHeap, SamePlanes, SameShow, SameNotes]

@[simp] theorem askOutcome_frame (s : State) (r : Retirement) (o : TaskOutcome) (b : Byte) :
    Kept (s.askOutcome r o b) s
      ∧ SameHeap (s.askOutcome r o b) s ∧ SamePlanes (s.askOutcome r o b) s ∧ SameShow (s.askOutcome r o b) s
      ∧ SameNotes (s.askOutcome r o b) s ∧ (s.askOutcome r o b).palette = s.palette ∧ (s.askOutcome r o b).nav = s.nav
      ∧ (s.askOutcome r o b).walker = s.walker ∧ (s.askOutcome r o b).port.flight = s.port.flight
      ∧ (s.askOutcome r o b).port.lfReq = s.port.lfReq ∧ (s.askOutcome r o b).port.decReq = s.port.decReq
      ∧ (s.askOutcome r o b).port.compReq = s.port.compReq := by
  simp only [State.askOutcome]
  repeat' split
  all_goals simp [Kept, SameHeap, SamePlanes, SameShow, SameNotes]

@[simp] theorem resultsCame_frame (s : State) (e : Bool) (f : Flight) :
    Kept (s.resultsCame e f) s
      ∧ SameHeap (s.resultsCame e f) s ∧ SamePlanes (s.resultsCame e f) s ∧ SameShow (s.resultsCame e f) s
      ∧ (s.resultsCame e f).palette = s.palette ∧ (s.resultsCame e f).nav = s.nav
      ∧ (s.resultsCame e f).port.flight = s.port.flight ∧ (s.resultsCame e f).port.lfReq = s.port.lfReq
      ∧ (s.resultsCame e f).port.decReq = s.port.decReq ∧ (s.resultsCame e f).port.compReq = s.port.compReq
      ∧ (s.resultsCame e f).walker.st = s.walker.st ∧ (s.resultsCame e f).walker.cur = s.walker.cur
      ∧ (s.resultsCame e f).walker.holder = s.walker.holder ∧ (s.resultsCame e f).walker.asked = s.walker.asked
      ∧ (s.resultsCame e f).walker.task = s.walker.task ∧ (s.resultsCame e f).walker.job = s.walker.job
      ∧ (s.resultsCame e f).walker.retiring = s.walker.retiring ∧ (s.resultsCame e f).walker.reread = s.walker.reread
      ∧ (s.resultsCame e f).notices.cursor = s.notices.cursor ∧ (s.resultsCame e f).notices.writing = s.notices.writing
      ∧ (s.resultsCame e f).notices.seq = s.notices.seq ∧ (s.resultsCame e f).notices.reread = s.notices.reread := by
  simp only [State.resultsCame]
  repeat' split
  all_goals simp [Kept, SameHeap, SamePlanes, SameShow, SameNotes]

@[simp] theorem outcomeCame_frame (s : State) (e : Bool) (f : Flight) :
    Kept (s.outcomeCame e f) s
      ∧ SameHeap (s.outcomeCame e f) s ∧ SamePlanes (s.outcomeCame e f) s ∧ SameShow (s.outcomeCame e f) s
      ∧ (s.outcomeCame e f).palette = s.palette ∧ (s.outcomeCame e f).port = s.port ∧ (s.outcomeCame e f).nav = s.nav
      ∧ (s.outcomeCame e f).walker.st = s.walker.st ∧ (s.outcomeCame e f).walker.cur = s.walker.cur
      ∧ (s.outcomeCame e f).walker.holder = s.walker.holder ∧ (s.outcomeCame e f).walker.asked = s.walker.asked
      ∧ (s.outcomeCame e f).walker.task = s.walker.task ∧ (s.outcomeCame e f).walker.job = s.walker.job
      ∧ (s.outcomeCame e f).walker.retiring = s.walker.retiring ∧ (s.outcomeCame e f).walker.reread = s.walker.reread
      ∧ (s.outcomeCame e f).notices.cursor = s.notices.cursor ∧ (s.outcomeCame e f).notices.writing = s.notices.writing
      ∧ (s.outcomeCame e f).notices.seq = s.notices.seq ∧ (s.outcomeCame e f).notices.reread = s.notices.reread := by
  simp only [State.outcomeCame]
  repeat' split
  all_goals simp [Kept, SameHeap, SamePlanes, SameShow, SameNotes]

@[simp] theorem restartWalker_frame (s : State) (a : Word) :
    Kept (s.restartWalker a) s ∧ SameHeap (s.restartWalker a) s
      ∧ SamePlanes (s.restartWalker a) s ∧ SameShow (s.restartWalker a) s ∧ SameNotes (s.restartWalker a) s
      ∧ (s.restartWalker a).palette = s.palette ∧ (s.restartWalker a).nav = s.nav
      ∧ (s.restartWalker a).port.flight = s.port.flight ∧ (s.restartWalker a).port.lfReq = s.port.lfReq
      ∧ (s.restartWalker a).port.decReq = s.port.decReq ∧ (s.restartWalker a).port.compReq = s.port.compReq
      ∧ (s.restartWalker a).walker.retiring = s.walker.retiring ∧ (s.restartWalker a).walker.reread = s.walker.reread := by
  simp only [State.restartWalker]
  repeat' split
  all_goals simp [Kept, SameHeap, SamePlanes, SameShow, SameNotes]

@[simp] theorem pokeWalker_frame (s : State) (a : Word) :
    Kept (s.pokeWalker a) s ∧ SameHeap (s.pokeWalker a) s
      ∧ SamePlanes (s.pokeWalker a) s ∧ SameShow (s.pokeWalker a) s ∧ SameNotes (s.pokeWalker a) s
      ∧ (s.pokeWalker a).palette = s.palette ∧ (s.pokeWalker a).nav = s.nav ∧ (s.pokeWalker a).port.flight = s.port.flight
      ∧ (s.pokeWalker a).port.lfReq = s.port.lfReq ∧ (s.pokeWalker a).port.decReq = s.port.decReq
      ∧ (s.pokeWalker a).port.compReq = s.port.compReq ∧ (s.pokeWalker a).walker.retiring = s.walker.retiring := by
  simp only [State.pokeWalker]
  repeat' split
  all_goals simp [Kept, SameHeap, SamePlanes, SameShow, SameNotes]

@[simp] theorem poke_frame (s : State) (a : Word) :
    Kept (s.poke a) s ∧ SameHeap (s.poke a) s ∧ SamePlanes (s.poke a) s
      ∧ SameShow (s.poke a) s ∧ (s.poke a).attention = s.attention ∧ (s.poke a).stats = s.stats
      ∧ (s.poke a).palette = s.palette ∧ (s.poke a).nav = s.nav ∧ (s.poke a).port.flight = s.port.flight
      ∧ (s.poke a).port.lfReq = s.port.lfReq ∧ (s.poke a).port.decReq = s.port.decReq
      ∧ (s.poke a).port.compReq = s.port.compReq ∧ (s.poke a).walker.retiring = s.walker.retiring
      ∧ (s.poke a).notices.cursor = s.notices.cursor ∧ (s.poke a).notices.queue = s.notices.queue
      ∧ (s.poke a).notices.writing = s.notices.writing ∧ (s.poke a).notices.seq = s.notices.seq := by
  simp only [State.poke]
  repeat' split
  all_goals simp [Kept, SameHeap, SamePlanes, SameShow, SameNotes]

@[simp] theorem haltWalker_frame (s : State) :
    Kept s.haltWalker s ∧ SameHeap s.haltWalker s ∧ SamePlanes s.haltWalker s
      ∧ SameShow s.haltWalker s ∧ SameNotes s.haltWalker s ∧ s.haltWalker.palette = s.palette ∧ s.haltWalker.port = s.port
      ∧ s.haltWalker.nav = s.nav ∧ s.haltWalker.walker.cur = s.walker.cur ∧ s.haltWalker.walker.holder = s.walker.holder
      ∧ s.haltWalker.walker.asked = s.walker.asked ∧ s.haltWalker.walker.task = s.walker.task
      ∧ s.haltWalker.walker.job = s.walker.job ∧ s.haltWalker.walker.capture = s.walker.capture
      ∧ s.haltWalker.walker.retiring = s.walker.retiring ∧ s.haltWalker.walker.reread = s.walker.reread := by
  simp only [State.haltWalker]
  repeat' split
  all_goals simp [Kept, SameHeap, SamePlanes, SameShow, SameNotes]

@[simp] theorem resumeWalker_frame (s : State) :
    Kept s.resumeWalker s ∧ SameHeap s.resumeWalker s
      ∧ SamePlanes s.resumeWalker s ∧ SameShow s.resumeWalker s ∧ SameNotes s.resumeWalker s
      ∧ s.resumeWalker.palette = s.palette ∧ s.resumeWalker.nav = s.nav ∧ s.resumeWalker.port.flight = s.port.flight
      ∧ s.resumeWalker.port.lfReq = s.port.lfReq ∧ s.resumeWalker.port.decReq = s.port.decReq
      ∧ s.resumeWalker.port.compReq = s.port.compReq ∧ s.resumeWalker.walker.capture = s.walker.capture
      ∧ s.resumeWalker.walker.retiring = s.walker.retiring := by
  simp only [State.resumeWalker]
  repeat' split
  all_goals simp [Kept, SameHeap, SamePlanes, SameShow, SameNotes]

@[simp] theorem takeNotice_frame (s : State) :
    Kept s.takeNotice s ∧ SameHeap s.takeNotice s ∧ SamePlanes s.takeNotice s
      ∧ SameShow s.takeNotice s ∧ s.takeNotice.attention = s.attention ∧ s.takeNotice.stats = s.stats
      ∧ s.takeNotice.palette = s.palette ∧ s.takeNotice.nav = s.nav ∧ s.takeNotice.walker = s.walker
      ∧ s.takeNotice.port.flight = s.port.flight ∧ s.takeNotice.port.lfReq = s.port.lfReq
      ∧ s.takeNotice.port.decReq = s.port.decReq ∧ s.takeNotice.port.compReq = s.port.compReq
      ∧ s.takeNotice.notices.cursor = s.notices.cursor ∧ s.takeNotice.notices.seq = s.notices.seq
      ∧ s.takeNotice.notices.reread = s.notices.reread := by
  simp only [State.takeNotice]
  repeat' split
  all_goals simp [Kept, SameHeap, SamePlanes, SameShow, SameNotes]

@[simp] theorem dropNotice_frame (s : State) (w : Writing) :
    Kept (s.dropNotice w) s ∧ SameHeap (s.dropNotice w) s
      ∧ SamePlanes (s.dropNotice w) s ∧ SameShow (s.dropNotice w) s ∧ (s.dropNotice w).palette = s.palette
      ∧ (s.dropNotice w).port = s.port ∧ (s.dropNotice w).nav = s.nav ∧ (s.dropNotice w).walker = s.walker
      ∧ (s.dropNotice w).notices.cursor = s.notices.cursor ∧ (s.dropNotice w).notices.queue = s.notices.queue
      ∧ (s.dropNotice w).notices.seq = s.notices.seq ∧ (s.dropNotice w).notices.reread = s.notices.reread := by
  simp only [State.dropNotice]
  repeat' split
  all_goals simp [Kept, SameHeap, SamePlanes, SameShow, SameNotes]

@[simp] theorem contentsCame_frame (s : State) (e : Bool) (f : Flight) :
    Kept (s.contentsCame e f) s
      ∧ SameHeap (s.contentsCame e f) s ∧ SamePlanes (s.contentsCame e f) s ∧ SameShow (s.contentsCame e f) s
      ∧ (s.contentsCame e f).palette = s.palette ∧ (s.contentsCame e f).nav = s.nav ∧ (s.contentsCame e f).walker = s.walker
      ∧ (s.contentsCame e f).port.flight = s.port.flight ∧ (s.contentsCame e f).port.lfReq = s.port.lfReq
      ∧ (s.contentsCame e f).port.decReq = s.port.decReq ∧ (s.contentsCame e f).port.compReq = s.port.compReq
      ∧ (s.contentsCame e f).notices.cursor = s.notices.cursor ∧ (s.contentsCame e f).notices.queue = s.notices.queue
      ∧ (s.contentsCame e f).notices.seq = s.notices.seq ∧ (s.contentsCame e f).notices.reread = s.notices.reread := by
  simp only [State.contentsCame]
  repeat' split
  all_goals simp [Kept, SameHeap, SamePlanes, SameShow, SameNotes]

@[simp] theorem stateCame_frame (s : State) (e : Bool) (f : Flight) :
    Kept (s.stateCame e f) s
      ∧ SameHeap (s.stateCame e f) s ∧ SamePlanes (s.stateCame e f) s ∧ SameShow (s.stateCame e f) s
      ∧ (s.stateCame e f).stats = s.stats ∧ (s.stateCame e f).palette = s.palette ∧ (s.stateCame e f).nav = s.nav
      ∧ (s.stateCame e f).walker = s.walker ∧ (s.stateCame e f).port.flight = s.port.flight
      ∧ (s.stateCame e f).port.lfReq = s.port.lfReq ∧ (s.stateCame e f).port.decReq = s.port.decReq
      ∧ (s.stateCame e f).port.compReq = s.port.compReq ∧ (s.stateCame e f).notices.cursor = s.notices.cursor
      ∧ (s.stateCame e f).notices.queue = s.notices.queue ∧ (s.stateCame e f).notices.reread = s.notices.reread := by
  simp only [State.stateCame]
  repeat' split
  all_goals simp [Kept, SameHeap, SamePlanes, SameShow, SameNotes]

@[simp] theorem noticeLinkCame_frame (s : State) (e : Bool) (f : Flight) :
    Kept (s.noticeLinkCame e f) s
      ∧ SameHeap (s.noticeLinkCame e f) s ∧ SamePlanes (s.noticeLinkCame e f) s ∧ SameShow (s.noticeLinkCame e f) s
      ∧ (s.noticeLinkCame e f).stats = s.stats ∧ (s.noticeLinkCame e f).palette = s.palette
      ∧ (s.noticeLinkCame e f).nav = s.nav ∧ (s.noticeLinkCame e f).walker = s.walker
      ∧ (s.noticeLinkCame e f).port.flight = s.port.flight ∧ (s.noticeLinkCame e f).port.lfReq = s.port.lfReq
      ∧ (s.noticeLinkCame e f).port.decReq = s.port.decReq ∧ (s.noticeLinkCame e f).port.compReq = s.port.compReq
      ∧ (s.noticeLinkCame e f).notices.queue = s.notices.queue ∧ (s.noticeLinkCame e f).notices.seq = s.notices.seq := by
  simp only [State.noticeLinkCame]
  repeat' split
  all_goals simp [Kept, SameHeap, SamePlanes, SameShow, SameNotes]

@[simp] theorem judgeFrame_frame (s : State) (c : Byte) (m e : Bool) :
    (s.judgeFrame c m e).pending = s.pending
      ∧ (s.judgeFrame c m e).mem = s.mem ∧ (s.judgeFrame c m e).free = s.free ∧ (s.judgeFrame c m e).run = s.run
      ∧ (s.judgeFrame c m e).timer = s.timer ∧ SameHeap (s.judgeFrame c m e) s ∧ SamePlanes (s.judgeFrame c m e) s
      ∧ SameShow (s.judgeFrame c m e) s ∧ (s.judgeFrame c m e).attention = s.attention
      ∧ (s.judgeFrame c m e).notices = s.notices ∧ (s.judgeFrame c m e).palette = s.palette
      ∧ (s.judgeFrame c m e).port = s.port ∧ (s.judgeFrame c m e).walker = s.walker
      ∧ (s.judgeFrame c m e).nav.word = s.nav.word ∧ (s.judgeFrame c m e).nav.judged = s.nav.judged
      ∧ (s.judgeFrame c m e).nav.activation = s.nav.activation ∧ (s.judgeFrame c m e).nav.digit = s.nav.digit := by
  simp only [State.judgeFrame]
  repeat' split
  all_goals simp [Kept, SameHeap, SamePlanes, SameShow, SameNotes]

end Sys2Proof.Machine
end

