-- ==== Sys2Proof/Laws/Memory.lean ====
section
/-! SUPPORT. Shared memory: every operation keeps the canonical form, what a byte reads as after each, and how a burst's
completion ends. -/

namespace Sys2Proof.Machine

/-! ### The canonical form -/

theorem memWfFrom_mono {lo hi : Nat} {m : Mem} (h : lo ≤ hi) (w : memWfFrom hi m = true) : memWfFrom lo m = true := by
  cases m with
  | nil => rfl
  | cons c m =>
    obtain ⟨x, y⟩ := c
    simp only [memWfFrom, Bool.and_eq_true, decide_eq_true_eq] at w ⊢
    exact ⟨⟨by omega, w.1.2⟩, w.2⟩

theorem memWrite_wfFrom (m : Mem) (a : Nat) (b : Byte) (lo : Nat) (h : lo ≤ a) (w : memWfFrom lo m = true) :
    memWfFrom lo (memWrite m a b) = true := by
  induction m generalizing lo with
  | nil => unfold memWrite; split <;> simp_all [memWfFrom]
  | cons c m ih =>
    obtain ⟨x, y⟩ := c
    simp only [memWfFrom, Bool.and_eq_true, decide_eq_true_eq] at w
    obtain ⟨⟨h1, h2⟩, h3⟩ := w
    unfold memWrite
    split
    · split
      · simp [memWfFrom, h1, h2, h3]
      · rename_i h4 h5
        have : a + 1 ≤ x := h4
        simp [memWfFrom, h, h2, h3, h5, this]
    · split
      · split
        · exact memWfFrom_mono (by omega) h3
        · rename_i h4 h5 h6
          subst h5
          simp [memWfFrom, h, h6, h3]
      · rename_i h4 h5
        simp only [memWfFrom, Bool.and_eq_true, decide_eq_true_eq]
        exact ⟨⟨h1, h2⟩, ih (x + 1) (by omega) h3⟩

theorem memWrite_wf (m : Mem) (a : Nat) (b : Byte) (w : m.wf = true) : (memWrite m a b).wf = true :=
  memWrite_wfFrom m a b 0 (Nat.zero_le a) w

theorem memWriteSel_wf (m : Mem) (block : Nat) (l : List (Nat × Byte)) (w : m.wf = true) :
    (memWriteSel m block l).wf = true := by
  induction l generalizing m with
  | nil => exact w
  | cons c l ih => exact ih _ (memWrite_wf m _ _ w)

theorem memHost_wf (m : Mem) (l : List Host.Cell) (w : m.wf = true) : (memHost m l).wf = true := by
  induction l generalizing m with
  | nil => exact w
  | cons c l ih =>
    obtain ⟨a, b⟩ := c
    unfold memHost
    apply ih
    split
    · exact memWrite_wf m a b w
    · exact w

theorem memUnknown_wf (m : Mem) (block n : Nat) (l : List (Nat × Byte)) (w : m.wf = true) :
    (memUnknown m block n l).wf = true := by
  induction l generalizing m n with
  | nil => exact w
  | cons c l ih => exact ih _ _ (memWrite_wf m _ _ w)

theorem written_wf (b : Burst) (ok : Bool) (m : Mem) (w : m.wf = true) : (b.written ok m).wf = true := by
  unfold Burst.written
  split
  · split
    · exact memWriteSel_wf m _ _ w
    · exact w
  · exact w

/-! ### Reading after writing -/

/-- A byte below every listed address reads as an unlisted one. -/
theorem memRead_below (m : Mem) (lo a : Nat) (w : memWfFrom lo m = true) (h : a < lo) : memRead m a = Config.unlistedByte := by
  induction m generalizing lo with
  | nil => rfl
  | cons c m ih =>
    obtain ⟨x, y⟩ := c
    simp only [memWfFrom, Bool.and_eq_true, decide_eq_true_eq] at w
    unfold memRead
    rw [if_neg (by omega)]
    exact ih (x + 1) w.2 (by omega)

theorem memRead_write_other (m : Mem) (a c : Nat) (b : Byte) (h : c ≠ a) : memRead (memWrite m a b) c = memRead m c := by
  induction m with
  | nil => unfold memWrite; split <;> simp [memRead, h]
  | cons p m ih =>
    obtain ⟨x, y⟩ := p
    unfold memWrite
    split
    · split <;> simp [memRead, h]
    · split
      · rename_i h5
        subst h5
        split <;> simp [memRead, h]
      · simp [memRead, ih]

theorem memRead_write_self (m : Mem) (a : Nat) (b : Byte) (lo : Nat) (w : memWfFrom lo m = true) :
    memRead (memWrite m a b) a = b := by
  induction m generalizing lo with
  | nil => unfold memWrite; split <;> simp_all [memRead]
  | cons p m ih =>
    obtain ⟨x, y⟩ := p
    simp only [memWfFrom, Bool.and_eq_true, decide_eq_true_eq] at w
    unfold memWrite
    split
    · rename_i h4
      split
      · rename_i h5
        rw [memRead, if_neg (by omega), memRead_below m (x + 1) a w.2 (by omega), h5]
      · simp [memRead]
    · split
      · rename_i h5
        subst h5
        split
        · rename_i h6
          rw [memRead_below m (a + 1) a w.2 (by omega), h6]
        · simp [memRead]
      · rename_i h5
        rw [memRead, if_neg h5]
        exact ih (x + 1) w.2

theorem memRead_writeSel_other (m : Mem) (block c : Nat) (l : List (Nat × Byte)) (h : ∀ x ∈ l, c ≠ block + x.1) :
    memRead (memWriteSel m block l) c = memRead m c := by
  induction l generalizing m with
  | nil => rfl
  | cons x l ih =>
    simp only [memWriteSel]
    rw [ih _ fun y hy => h y (List.mem_cons_of_mem _ hy), memRead_write_other _ _ _ _ (h x List.mem_cons_self)]

theorem memRead_unknown_other (m : Mem) (block c n : Nat) (l : List (Nat × Byte)) (h : ∀ x ∈ l, c ≠ block + x.1) :
    memRead (memUnknown m block n l) c = memRead m c := by
  induction l generalizing m n with
  | nil => rfl
  | cons x l ih =>
    simp only [memUnknown]
    rw [ih _ _ fun y hy => h y (List.mem_cons_of_mem _ hy), memRead_write_other _ _ _ _ (h x List.mem_cons_self)]

theorem memRead_host_other (m : Mem) (c : Nat) (l : List Host.Cell) (h : ∀ x ∈ l, x.1 < 2 ^ 32 → c ≠ x.1) :
    memRead (memHost m l) c = memRead m c := by
  induction l generalizing m with
  | nil => rfl
  | cons x l ih =>
    obtain ⟨a, b⟩ := x
    unfold memHost
    rw [ih _ fun y hy => h y (List.mem_cons_of_mem _ hy)]
    split
    · rename_i h1
      exact memRead_write_other _ _ _ _ (h (a, b) List.mem_cons_self h1)
    · rfl

/-- A write burst's bytes read back, the mask selecting no byte twice. -/
theorem memRead_writeSel_self (m : Mem) (block : Nat) (l : List (Nat × Byte)) (w : m.wf = true) (nd : (l.map (·.1)).Nodup)
    (x : Nat × Byte) (hx : x ∈ l) : memRead (memWriteSel m block l) (block + x.1) = x.2 := by
  induction l generalizing m with
  | nil => cases hx
  | cons y l ih =>
    obtain ⟨o, b⟩ := y
    simp only [List.map_cons, List.nodup_cons] at nd
    simp only [memWriteSel]
    cases List.mem_cons.mp hx with
    | inl e =>
      subst e
      rw [memRead_writeSel_other]
      · exact memRead_write_self m _ b 0 w
      · intro z hz e
        exact nd.1 (List.mem_map.mpr ⟨z, hz, by simp only at e; omega⟩)
    | inr e => exact ih _ (memWrite_wf m _ _ w) nd.2 e

/-! ### Completions -/

/-- What the end of a burst leaves alone. -/
@[simp] theorem land_fields (f : Flight) (e : Bool) (s : State) :
    (s.land f e).pending = s.pending ∧ (s.land f e).run = s.run ∧ (s.land f e).timer = s.timer
      ∧ (s.land f e).port = { s.port with flight := none } := by
  simp only [State.land]
  repeat' split
  all_goals simp

/-- A burst that ends well, or a read, leaves only the port changed. -/
theorem land_eq (f : Flight) (e : Bool) (s : State) (h : f.burst.sel = none ∨ e = false ∨ f.refused = true) :
    s.land f e = { s with port := { s.port with flight := none } } := by
  simp only [State.land]
  split
  · rename_i h1 h2
    rcases h with h | h | h
    · simp [h] at h1
    · simp [h] at h2
    · simp [h] at h2
  · rfl
  · rfl

theorem land_wf (f : Flight) (e : Bool) (s : State) (w : s.mem.wf = true) : (s.land f e).mem.wf = true := by
  simp only [State.land]
  split
  · exact memUnknown_wf _ _ _ _ w
  · exact w
  · exact w

/-- The completion of a burst that is under way, whose bytes are wanted. -/
theorem complete_wanted (p : User → Bool) (e : Bool) (k : Flight → State → State) (s : State) (f : Flight)
    (hf : s.port.flight = some f) (hp : p f.burst.user = true) (hd : f.dropped = false) :
    s.complete p e k = k f (s.land f e) := by
  simp [State.complete, hf, hp, hd]

end Sys2Proof.Machine
end

