-- ==== Sys2Proof/Laws/RunControl.lean ====
section
/-! SUPPORT. What the passing of time, a frame start, a grant and the operations of run control leave alone. -/

namespace Sys2Proof.Machine

/-! ### Time and frame starts -/

@[simp] theorem loseSync_rest (s : State) :
    s.loseSync.pending = s.pending ∧ s.loseSync.mem = s.mem ∧ s.loseSync.free = s.free ∧ s.loseSync.run = s.run
      ∧ s.loseSync.port = s.port ∧ s.loseSync.walker = s.walker ∧ s.loseSync.heap = s.heap ∧ s.loseSync.nav = s.nav
      ∧ s.loseSync.slots = s.slots ∧ s.loseSync.slide = s.slide ∧ s.loseSync.menu = s.menu ∧ s.loseSync.jump = s.jump
      ∧ s.loseSync.palette = s.palette ∧ s.loseSync.compactor = s.compactor ∧ s.loseSync.composer = s.composer
      ∧ s.loseSync.work = s.work ∧ s.loseSync.drawnViews = s.drawnViews ∧ s.loseSync.keyline = s.keyline
      ∧ s.loseSync.timer = { s.timer with lost := true, latch := true, forced := true }
      ∧ s.loseSync.notices.cursor = s.notices.cursor ∧ s.loseSync.notices.seq = s.notices.seq
      ∧ s.loseSync.notices.writing = s.notices.writing ∧ s.loseSync.notices.reread = s.notices.reread := by
  simp [State.loseSync]

/-- A count of ticks changes the tick count and the receiver's count alone. -/
theorem countTicks_eq (n : Nat) (s : State) :
    s.countTicks n = { s with timer := { s.timer with tick := (s.countTicks n).timer.tick },
                              keyline := { s.keyline with recv := (s.countTicks n).keyline.recv } } := by
  unfold State.countTicks
  split <;> simp

@[simp] theorem passTicks_rest (n : Nat) (s : State) :
    (s.passTicks n).pending = s.pending ∧ (s.passTicks n).mem = s.mem ∧ (s.passTicks n).free = s.free
      ∧ (s.passTicks n).run = s.run ∧ (s.passTicks n).port = s.port ∧ (s.passTicks n).walker = s.walker
      ∧ (s.passTicks n).heap = s.heap ∧ (s.passTicks n).nav = s.nav ∧ (s.passTicks n).slots = s.slots
      ∧ (s.passTicks n).slide = s.slide ∧ (s.passTicks n).menu = s.menu ∧ (s.passTicks n).jump = s.jump
      ∧ (s.passTicks n).palette = s.palette ∧ (s.passTicks n).compactor = s.compactor
      ∧ (s.passTicks n).composer = s.composer ∧ (s.passTicks n).work = s.work
      ∧ (s.passTicks n).drawnViews = s.drawnViews
      ∧ (s.passTicks n).notices.cursor = s.notices.cursor ∧ (s.passTicks n).notices.seq = s.notices.seq
      ∧ (s.passTicks n).notices.writing = s.notices.writing ∧ (s.passTicks n).notices.reread = s.notices.reread := by
  unfold State.passTicks
  rw [countTicks_eq]
  split <;> simp

@[simp] theorem acceptFrame_rest (s : State) :
    s.acceptFrame.pending = s.pending ∧ s.acceptFrame.mem = s.mem ∧ s.acceptFrame.free = s.free ∧ s.acceptFrame.run = s.run
      ∧ s.acceptFrame.timer = s.timer.accepted ∧ s.acceptFrame.port.accounts = s.port.accounts := by
  simp only [State.acceptFrame]
  split <;> simp

@[simp] theorem frameStart_rest (s : State) :
    s.frameStart.pending = s.pending ∧ s.frameStart.mem = s.mem ∧ s.frameStart.free = s.free ∧ s.frameStart.run = s.run
      ∧ s.frameStart.port.accounts = s.port.accounts := by
  unfold State.frameStart
  repeat' split
  all_goals simp

/-! ### Run control -/

@[simp] theorem readSetup_rest (b : Bool) (g : Gather) (s : State) :
    (s.readSetup b g).pending = s.pending ∧ (s.readSetup b g).mem = s.mem ∧ (s.readSetup b g).free = s.free
      ∧ (s.readSetup b g).run = { s.run with reading := some { resume := b, gather := g } }
      ∧ (s.readSetup b g).port.accounts = s.port.accounts := by
  simp [State.readSetup]

@[simp] theorem started_rest (f : Fixed) (t : Tunables) (s : State) :
    (s.started f t).pending = s.pending ∧ (s.started f t).mem = s.mem ∧ (s.started f t).free = s.free
      ∧ (s.started f t).run = { s.run with state := .running, fixed := some f, tun := some t, reading := none }
      ∧ (s.started f t).port.accounts = ⟨0, 0, 0, 0⟩ := by
  simp [State.started]

@[simp] theorem resumed_rest (t : Tunables) (s : State) :
    (s.resumed t).pending = s.pending ∧ (s.resumed t).mem = s.mem ∧ (s.resumed t).free = s.free
      ∧ (s.resumed t).run = { s.run with state := .running, refusal := 0, tun := some t, reading := none }
      ∧ (s.resumed t).port.accounts = clipAccounts s.port.accounts t.arb := by
  simp [State.resumed]

@[simp] theorem resetBlocks_rest (c : ResetCause) (b : Bool) (s : State) :
    (s.resetBlocks c b).pending = s.pending ∧ (s.resetBlocks c b).mem = s.mem ∧ (s.resetBlocks c b).free = s.free
      ∧ (s.resetBlocks c b).run = { cause := c, pinHeld := b } ∧ (s.resetBlocks c b).port.accounts = ⟨0, 0, 0, 0⟩ :=
  ⟨rfl, rfl, rfl, rfl, rfl⟩

theorem startCommand_rest (s : State) :
    s.startCommand.pending = s.pending ∧ s.startCommand.mem = s.mem ∧ s.startCommand.free = s.free
      ∧ s.startCommand.port.accounts = s.port.accounts := by
  simp only [State.startCommand, State.beginStart, State.beginResume]
  repeat' split
  all_goals simp

theorem haltCommand_rest (s : State) :
    s.haltCommand.pending = s.pending ∧ s.haltCommand.mem = s.mem ∧ s.haltCommand.free = s.free
      ∧ s.haltCommand.port.accounts = s.port.accounts := by
  unfold State.haltCommand
  split <;> simp

@[simp] theorem writeControl_rest (v : Word) (s : State) :
    (s.writeControl v).pending = s.pending ∧ (s.writeControl v).mem = s.mem ∧ (s.writeControl v).free = s.free := by
  simp only [State.writeControl, State.softReset]
  repeat' split
  all_goals simp [startCommand_rest, haltCommand_rest]

@[simp] theorem writeAttention_rest (v : Word) (s : State) :
    (s.writeAttention v).pending = s.pending ∧ (s.writeAttention v).mem = s.mem ∧ (s.writeAttention v).free = s.free
      ∧ (s.writeAttention v).run = s.run ∧ (s.writeAttention v).port = s.port := by
  simp only [State.writeAttention]
  split <;> simp

@[simp] theorem writeCause_rest (v : Word) (s : State) :
    (s.writeCause v).pending = s.pending ∧ (s.writeCause v).mem = s.mem ∧ (s.writeCause v).free = s.free
      ∧ (s.writeCause v).port = s.port := by
  unfold State.writeCause
  split <;> simp

@[simp] theorem writeSetup_rest (v : Word) (s : State) :
    (s.writeSetup v).pending = s.pending ∧ (s.writeSetup v).mem = s.mem ∧ (s.writeSetup v).free = s.free
      ∧ (s.writeSetup v).port = s.port := by
  unfold State.writeSetup
  split <;> simp

@[simp] theorem writeRegister_rest (r : Reg) (v : Word) (s : State) :
    (s.writeRegister r v).pending = s.pending ∧ (s.writeRegister r v).mem = s.mem ∧ (s.writeRegister r v).free = s.free := by
  unfold State.writeRegister
  split <;> simp

@[simp] theorem startRead_rest (e : Bool) (f : Flight) (s : State) :
    (s.startRead e f).pending = s.pending ∧ (s.startRead e f).mem = s.mem ∧ (s.startRead e f).free = s.free := by
  simp only [State.startRead, State.judgeStart, State.refuseStart]
  repeat' split
  all_goals simp

@[simp] theorem resumeRead_rest (e : Bool) (f : Flight) (s : State) :
    (s.resumeRead e f).pending = s.pending ∧ (s.resumeRead e f).mem = s.mem ∧ (s.resumeRead e f).free = s.free := by
  simp only [State.resumeRead, State.judgeResume, State.refuseResume]
  repeat' split
  all_goals simp

/-! ### A grant -/

@[simp] theorem grant_rest (r : Requester) (t : Tier) (b : Burst) (s : State) :
    (s.grant r t b).pending = s.pending ∧ (s.grant r t b).free = s.free ∧ (s.grant r t b).run = s.run
      ∧ (s.grant r t b).timer = s.timer ∧ (s.grant r t b).mem = b.written (s.carries r b) s.mem
      ∧ (s.grant r t b).port.accounts = s.accountsAfter r := by
  simp [State.grant]

theorem arbitrate_cases (s : State) :
    s.arbitrate = s ∨ ∃ r t b, s.port.flight = none ∧ s.choice = some (r, t) ∧ s.waitingReq r = some b
      ∧ s.arbitrate = s.grant r t b := by
  unfold State.arbitrate
  split
  · split
    · exact Or.inr ⟨_, _, _, by assumption, by assumption, by assumption, rfl⟩
    · exact Or.inl rfl
  · exact Or.inl rfl

end Sys2Proof.Machine
end

