-- ==== Sys2Proof/Laws/Commands.lean ====
section
/-! SUPPORT. What the commands leave alone that neither reset, start, halt, resume, grant nor count time. -/

set_option linter.unusedTactic false
set_option maxHeartbeats 4000000

namespace Sys2Proof.Machine

/-- The queue, run control, the frame timer and the accounts are as before. -/
abbrev Quiet (t s : State) : Prop :=
  t.pending = s.pending ∧ t.run = s.run ∧ t.timer = s.timer ∧ t.port.accounts = s.port.accounts

theorem complete_quiet (p : User → Bool) (e : Bool) (k : Flight → State → State) (s : State)
    (h : ∀ f x, Quiet (k f x) x) : Quiet (s.complete p e k) s := by
  unfold State.complete
  split
  · split
    · split
      · simp [Quiet]
      · rename_i f _ _ _
        simpa [Quiet] using h f (s.land f e)
    · simp [Quiet]
  · simp [Quiet]

/-- A completion keeps what its parts keep. -/
theorem complete_keeps {P : State → Prop} (p : User → Bool) (e : Bool) (k : Flight → State → State) (s : State)
    (h0 : P s) (hl : ∀ f, P (s.land f e)) (hk : ∀ f x, P x → P (k f x)) : P (s.complete p e k) := by
  unfold State.complete
  split
  · split
    · split
      · exact hl _
      · exact hk _ _ (hl _)
    · exact h0
  · exact h0

/-- The commands of run control, of time and of the arbiter. -/
def Outer : Instr → Bool
  | .powerOnReset | .resetPin | .resetPinRelease | .softReset _ | .start _ | .halt _ | .haltComplete | .startReadsComplete _
  | .resumeReadsComplete _ | .attentionWrite _ | .resetCauseWrite _ | .registerWrite _ _ _ | .frameStart _ | .syncLoss _
  | .keyFrame _ _ _ _ | .falseStart _ | .burstGrant _ => true
  | _ => false

/-- Every other command answers a next state with the queue, run control, the frame timer and the accounts as before. -/
theorem exec_quiet (c : Instr) (s : State) (h : Outer c = false) : ∃ t, exec c s = .next t ∧ Quiet t s := by
  cases c
  all_goals try (exact Bool.noConfusion h)
  all_goals refine ⟨_, rfl, ?_⟩
  all_goals try (apply complete_quiet; intro f x)
  all_goals try (repeat' split)
  all_goals try (simp [Quiet]; done)
  all_goals (simp only []; split <;> simp [Quiet])

/-- Every other command leaves shared memory as it was, but for the bytes of a write that ends in an error response. -/
theorem exec_mem (c : Instr) (s : State) (h : Outer c = false) :
    ∃ t, exec c s = .next t ∧ (t.mem = s.mem ∨ ∃ f sel, s.port.flight = some f ∧ f.burst.sel = some sel ∧ f.refused = false
      ∧ t.mem = memUnknown s.mem f.burst.block s.free sel) := by
  have hc : ∀ (p : User → Bool) (e : Bool) (k : Flight → State → State), (∀ f x, (k f x).mem = x.mem) →
      ((s.complete p e k).mem = s.mem ∨ ∃ f sel, s.port.flight = some f ∧ f.burst.sel = some sel ∧ f.refused = false
        ∧ (s.complete p e k).mem = memUnknown s.mem f.burst.block s.free sel) := by
    intro p e k hk
    unfold State.complete
    split
    · rename_i f hf
      have hl : ∀ x : State, x.mem = (s.land f e).mem → (x.mem = s.mem ∨ ∃ g sel, s.port.flight = some g ∧ g.burst.sel = some sel
          ∧ g.refused = false ∧ x.mem = memUnknown s.mem g.burst.block s.free sel) := by
        intro x hx
        rw [hx]
        simp only [State.land]
        split
        · exact Or.inr ⟨f, _, hf, by assumption, by simp_all, rfl⟩
        · exact Or.inl rfl
        · exact Or.inl rfl
      split
      · split
        · exact hl _ rfl
        · exact hl _ (hk _ _)
      · exact Or.inl rfl
    · exact Or.inl rfl
  cases c
  all_goals try (exact Bool.noConfusion h)
  all_goals refine ⟨_, rfl, ?_⟩
  all_goals first | (apply hc; intro f x) | refine Or.inl ?_
  all_goals try (repeat' split)
  all_goals try (simp; done)
  all_goals (simp only []; split <;> simp)

end Sys2Proof.Machine
end

