-- ==== Sys2Proof/Laws/Tasks.lean ====
section
/-! SUPPORT. How a task leaves the walker, in the words the statements use: retirement, handover, refusal, stall. -/

namespace Sys2Proof.Machine

/-- A retirement joins the tail of the list; the port may be asked for its results burst. -/
theorem retire_eq (t : TaskRef) (o : TaskOutcome) (k : Nat) (l : List (Nat × Byte)) (s : State) :
    s.retire t o k l = { s with
      walker := { s.walker with retiring := s.walker.retiring ++ [s.retirement t o (BitVec.ofNat 8 k) l] }
      port := { s.port with walkerQ := (s.retire t o k l).port.walkerQ } } := by
  simp only [State.retire, State.retirement]
  split <;> simp [State.askResults, State.ask]

/-- What a retirement adds to the list. -/
@[simp] theorem retire_retiring (s : State) (t : TaskRef) (o : TaskOutcome) (k : Nat) (l : List (Nat × Byte)) :
    (s.retire t o k l).walker.retiring = s.walker.retiring ++ [s.retirement t o (BitVec.ofNat 8 k) l] := by
  rw [retire_eq]

/-- The results burst is asked for exactly when the list was empty (R179). -/
theorem retire_walkerQ (s : State) (t : TaskRef) (o : TaskOutcome) (k : Nat) (l : List (Nat × Byte)) :
    (s.retire t o k l).port.walkerQ = s.port.walkerQ ++ s.asksAtRetire (s.retirement t o (BitVec.ofNat 8 k) l) := by
  simp only [State.retire, State.retirement, State.asksAtRetire, Retirement.burst]
  split <;> simp_all

/-- The walker is done with its task. -/
theorem dealt_eq (s : State) :
    s.dealt = { s with
      walker := { s.walker with
        task := none, job := .judge, st := if s.run.state = .halting then .halted .link else .linking }
      port := { s.port with walkerQ := s.dealt.port.walkerQ } } := by
  simp only [State.dealt]
  split <;> simp_all [State.askLink, State.ask]

/-- The link of the current record is read unless the part is HALTING. -/
theorem dealt_walkerQ (s : State) : s.dealt.port.walkerQ = s.port.walkerQ ++ s.asksForLink := by
  simp only [State.dealt, State.asksForLink]
  split <;> simp_all [State.askLink, State.ask]

theorem dealt_dealt (s : State) : s.Dealt s.dealt := by
  rw [dealt_eq]
  exact ⟨rfl, rfl, rfl⟩

theorem dealt_handsOver (s : State) : s.HandsOver s.dealt := by
  refine ⟨?_, dealt_dealt s, dealt_walkerQ s⟩
  rw [dealt_eq]

/-- The task in hand ends with one retirement. -/
theorem endTask_eq (s : State) (o : TaskOutcome) (k : Nat) (l : List (Nat × Byte)) (t : Task) (h : s.walker.task = some t) :
    s.endTask o k l = { s with
      walker := { s.walker with
        task := none, job := .judge, st := if s.run.state = .halting then .halted .link else .linking,
        retiring := s.walker.retiring ++ [s.retirement t.ref o (BitVec.ofNat 8 k) l] }
      port := { s.port with walkerQ := (s.endTask o k l).port.walkerQ } } := by
  simp only [State.endTask, h]
  rw [dealt_eq, retire_eq]

/-- What a task's end asks for at the port: its results burst, when it stands first, and then the link. -/
theorem endTask_walkerQ (s : State) (o : TaskOutcome) (k : Nat) (l : List (Nat × Byte)) (t : Task) (h : s.walker.task = some t) :
    (s.endTask o k l).port.walkerQ =
      s.port.walkerQ ++ s.asksAtRetire (s.retirement t.ref o (BitVec.ofNat 8 k) l) ++ s.asksForLink := by
  simp only [State.endTask, h, dealt_walkerQ, retire_walkerQ]
  rw [retire_eq]
  rfl

theorem endTask_ends (s : State) (o : TaskOutcome) (k : Nat) (l : List (Nat × Byte)) (t : Task) (h : s.walker.task = some t) :
    s.Ends (s.endTask o k l) t.ref o (BitVec.ofNat 8 k) l := by
  refine ⟨?_, ?_, endTask_walkerQ s o k l t h⟩
  all_goals rw [endTask_eq s o k l t h]
  exact ⟨rfl, rfl, rfl⟩

theorem endTask_onlyWalker (s : State) (o : TaskOutcome) (k : Nat) (l : List (Nat × Byte)) : s.OnlyWalker (s.endTask o k l) := by
  cases h : s.walker.task with
  | none => simp [State.endTask, h, State.OnlyWalker]
  | some t =>
    rw [endTask_eq s o k l t h]
    rfl

/-- A task that ends with nothing else changed is refused. -/
theorem endTask_refuses (s : State) (o : TaskOutcome) (k : Nat) (t : Task) (h : s.walker.task = some t) :
    s.Refuses (s.endTask o k []) t.ref o (BitVec.ofNat 8 k) :=
  ⟨endTask_ends s o k [] t h, endTask_onlyWalker s o k []⟩

theorem stall_stalls (s : State) : s.Stalls s.stall := by
  unfold State.Stalls State.stall
  split <;> simp_all

/-- What having a task of a kind in hand means. -/
theorem inHand_eq {s : State} {k : Nat} {t : Task} (h : s.inHand k = some t) :
    s.walker.task = some t ∧ s.walker.st = .working ∧ s.walker.job = .judge ∧ t.ref.kind.toNat = k := by
  unfold State.inHand at h
  split at h
  · split at h <;> simp_all
  · simp at h

/-- A burst that met an error response, or was refused by the port. -/
theorem failed_true {f : Flight} {err : Bool} (h : ¬ (f.refused = false ∧ err = false)) : f.failed err = true := by
  unfold Flight.failed
  cases h1 : f.refused <;> cases err <;> simp_all

theorem failed_false {f : Flight} {err : Bool} (h : f.refused = false ∧ err = false) : f.failed err = false := by
  simp [Flight.failed, h]

/-- A read that lands leaves only the port changed. -/
theorem landingRead_complete {s : State} {f : Flight} {u : User} (h : s.LandingRead f u) (p : User → Bool) (hp : p u = true)
    (e : Bool) (k : Flight → State → State) : s.complete p e k = k f s.landed := by
  obtain ⟨⟨hf, hd⟩, hu, hs⟩ := h
  rw [complete_wanted p e k s f hf (by rw [hu]; exact hp) hd, land_eq f e s (Or.inl hs)]
  rfl

@[simp] theorem landed_fields (s : State) :
    s.landed.pending = s.pending ∧ s.landed.mem = s.mem ∧ s.landed.free = s.free ∧ s.landed.run = s.run
      ∧ s.landed.attention = s.attention ∧ s.landed.timer = s.timer ∧ s.landed.heap = s.heap
      ∧ s.landed.compactor = s.compactor ∧ s.landed.palette = s.palette ∧ s.landed.slots = s.slots
      ∧ s.landed.slide = s.slide ∧ s.landed.menu = s.menu ∧ s.landed.jump = s.jump ∧ s.landed.drawnViews = s.drawnViews
      ∧ s.landed.composer = s.composer ∧ s.landed.port = { s.port with flight := none } ∧ s.landed.stats = s.stats
      ∧ s.landed.nav = s.nav ∧ s.landed.keyline = s.keyline ∧ s.landed.walker = s.walker
      ∧ s.landed.notices = s.notices ∧ s.landed.work = s.work := by
  simp [State.landed]

/-! ### Directory entries, slots and planes by number -/

/-- An entry is read from the directory alone. -/
theorem entry_congr {s t : State} (h : t.heap.dir = s.heap.dir) (i : Byte) : t.entry i = s.entry i := by
  simp [State.entry, h]

theorem slot_congr {s t : State} (h : t.slots = s.slots) (i : SlotId) : t.slot i = s.slot i := by
  simp [State.slot, h]

theorem plane_congr {s t : State} (h1 : t.slide = s.slide) (h2 : t.menu = s.menu) (q : PlaneId) : t.plane q = s.plane q := by
  cases q <;> simp [State.plane, h1, h2]

/-- A slot's number gives the slot. -/
theorem slotOf_val (p : SlotId) : slotOf p.val = some p := by
  simp [slotOf]

theorem slotOf_none (n : Nat) (h : 5 < n) : slotOf n = none := by
  simp [slotOf]
  omega

theorem planeOf_none (n : Nat) (h : 1 < n) : planeOf n = none := by
  unfold planeOf
  rw [if_neg (by omega), if_neg (by omega)]

/-- Holds after an add: one more on a STAGED slot, no other change (R57). -/
theorem addHold_holds (s : State) (x y : SlotId) :
    ((s.addHold x).slot y).holds = (s.slot y).holds + if y = x ∧ s.staged x = true then 1 else 0 := by
  unfold State.addHold State.staged
  split
  · rename_i h
    by_cases e : y = x
    · subst e
      simp [h, Slot.holds]
    · rw [setSlot_slot_other _ _ _ _ e]
      simp [e]
  · simp
  · simp

/-- Holds after a release (R57). -/
theorem releaseHold_holds (s : State) (x y : SlotId) :
    ((s.releaseHold x).slot y).holds = (s.slot y).holds - if y = x then 1 else 0 := by
  unfold State.releaseHold
  split
  · rename_i h
    by_cases e : y = x
    · subst e
      simp [h, Slot.holds]
    · rw [setSlot_slot_other _ _ _ _ e]
      simp [e]
  · rename_i h
    by_cases e : y = x
    · subst e
      simp [h, Slot.holds]
    · simp [e]
  · rename_i h
    by_cases e : y = x
    · subst e
      simp [h, Slot.holds]
    · simp [e]

end Sys2Proof.Machine
end

