-- ==== Sys2Proof/Laws/Compose.lean ====
section
/-! SUPPORT. What the composer's operations do and leave alone: a page's spans, the stack of a pixel, the lines begun; and the
ticks of a command that take a loss of sync with them. -/

namespace Sys2Proof.Machine

/-! ### Time -/

/-- What the next `n` ticks do to the sync watch. -/
theorem lossPassed_watched (s : State) (n : Nat) : s.Watched n (if s.lossPassed n then s.loseSync else s) := by
  have h : s.lossPassed n = true ↔
      (s.active = true ∧ s.timer.armed = true ∧ s.timer.lost = false ∧ 3 * s.interval < s.timer.tick + n) := by
    simp [State.lossPassed, State.watching, and_assoc]
  refine ⟨fun k => ?_, fun k => ?_⟩
  · rw [if_pos (h.2 k)]
    rfl
  · rw [if_neg (fun j => k (h.1 j))]

/-- The ticks of an active part are counted on the state that a loss within them leaves. -/
theorem passTicks_active (s : State) (n : Nat) (h : s.active = true) :
    s.passTicks n =
      let u := if s.lossPassed n then s.loseSync else s
      { u with timer := { u.timer with tick := min (s.timer.tick + n) (3 * s.interval) },
               keyline := { u.keyline with recv := s.keyline.recv.pass s.keyDiv n } } := by
  have hl : s.loseSync.active = true := by simpa [State.active] using h
  simp only [State.passTicks]
  split
  · simp [State.countTicks, hl, State.interval, State.keyDiv]
  · simp [State.countTicks, h]

/-! ### Span tables and pixels -/

/-- The spans of a page, placement by placement (R94). -/
theorem placementSpans_eq (s : State) (d : PageDef) (pv : Option PageView) (role : SpanRole) :
    ∀ (l : List Placement) (i : Nat), s.placementSpans d pv role i l = (l.zipIdx i).filterMap fun p =>
      (drawnObject d pv p.2 p.1).bind fun o => (s.objView o).bind (spanOf s.planeSize.1 s.planeSize.2 role p.1 o)
  | [], _ => rfl
  | p :: ps, i => by
    simp only [State.placementSpans, List.zipIdx_cons, List.filterMap_cons, placementSpans_eq s d pv role ps]
    cases drawnObject d pv i p with
    | none => simp
    | some o =>
      simp only [Option.bind_some]
      cases (s.objView o).bind (spanOf s.planeSize.1 s.planeSize.2 role p o) <;> simp

/-- The last span of a line lies on top of those before it (R108). -/
theorem stack_append (s : State) (x : Nat) (l : List SpanFetch) (f : SpanFetch) : s.stack x (l ++ [f]) =
    if f.span.left ≤ x ∧ x < f.span.left + f.span.width then (s.spanColour f x).over (s.stack x l) else s.stack x l := by
  unfold State.stack
  rw [List.filter_append, List.foldl_append]
  by_cases h : f.span.left ≤ x ∧ x < f.span.left + f.span.width <;> simp [h]

/-! ### The lookahead -/

/-- A request of line fetch changes the port's slot for it and the record of the plane. -/
theorem lfPresent_eq (s : State) :
    s.lfPresent = { s with port := { s.port with lfReq := s.lfPresent.port.lfReq },
                           composer := { s.composer with lastPlane := s.lfPresent.composer.lastPlane } } := by
  unfold State.lfPresent
  (repeat' split) <;> rfl

/-- A line begun changes the drops and its plane's raster, whose span table stands. -/
theorem beginLine_eq (p : PlaneId) (s : State) :
    s.beginLine p = { s with composer := (s.beginLine p).composer, stats := { s.stats with drops := (s.beginLine p).stats.drops } }
      ∧ (s.beginLine p).composer.marker = s.composer.marker
      ∧ (∀ q, ((s.beginLine p).raster q).spans = (s.raster q).spans)
      ∧ ∀ q, q ≠ p → (s.beginLine p).raster q = s.raster q := by
  simp only [State.beginLine]
  split
  · cases p <;> refine ⟨rfl, rfl, ?_, ?_⟩ <;> intro q <;> cases q <;> simp [State.raster, State.setRaster]
  · exact ⟨rfl, rfl, fun _ => rfl, fun _ _ => rfl⟩

/-- Lines begun one after another change what one line begun changes. -/
theorem beginLines_eq (p : PlaneId) : ∀ (n : Nat) (s : State),
    (∃ c d, State.beginLines p n s = { s with composer := c, stats := { s.stats with drops := d } })
      ∧ (State.beginLines p n s).composer.marker = s.composer.marker
      ∧ (∀ q, ((State.beginLines p n s).raster q).spans = (s.raster q).spans)
      ∧ ∀ q, q ≠ p → (State.beginLines p n s).raster q = s.raster q
  | 0, s => ⟨⟨s.composer, s.stats.drops, rfl⟩, rfl, fun _ => rfl, fun _ _ => rfl⟩
  | n + 1, s => by
    obtain ⟨a1, a2, a3, a4⟩ := beginLine_eq p s
    obtain ⟨⟨c, d, b1⟩, b2, b3, b4⟩ := beginLines_eq p n (s.beginLine p)
    rw [State.beginLines]
    refine ⟨⟨c, d, ?_⟩, b2.trans a2, fun q => (b3 q).trans (a3 q), fun q h => (b4 q h).trans (a4 q h)⟩
    rw [b1, a1]

/-- A raster replaced is read back; the other plane's stands. -/
theorem setRaster_raster (s : State) (p : PlaneId) (r : Raster) (q : PlaneId) :
    (s.setRaster p r).raster q = if q = p then r else s.raster q := by
  cases p <;> cases q <;> rfl

/-- A request of line fetch leaves the rasters alone. -/
theorem lfPresent_raster (s : State) (q : PlaneId) : s.lfPresent.raster q = s.raster q := by
  rw [lfPresent_eq]
  cases q <;> rfl

/-- A line begun joins the plane's buffers, at or past the lowest line not yet begun (R101). -/
theorem beginLine_bufs (p : PlaneId) (s : State) : ∃ new, ((s.beginLine p).raster p).bufs = (s.raster p).bufs ++ new
    ∧ (∀ b ∈ new, (s.raster p).next ≤ b.line) ∧ (s.raster p).next ≤ ((s.beginLine p).raster p).next := by
  simp only [State.beginLine]
  split
  · have h (x : State) (c d) :
        ({ x with composer := { x.composer with drops := c }, stats := d } : State).raster p = x.raster p := by
      cases p <;> rfl
    rw [h, setRaster_raster, if_pos rfl]
    refine ⟨_, rfl, fun b hb => ?_, Nat.le_succ _⟩
    simp at hb
    rw [hb]
  · exact ⟨[], by simp, by simp, Nat.le_refl _⟩

/-- Lines begun one after another join the plane's buffers (R101). -/
theorem beginLines_bufs (p : PlaneId) : ∀ (n : Nat) (s : State),
    ∃ new, ((State.beginLines p n s).raster p).bufs = (s.raster p).bufs ++ new ∧ ∀ b ∈ new, (s.raster p).next ≤ b.line
  | 0, s => ⟨[], by simp [State.beginLines], by simp⟩
  | n + 1, s => by
    obtain ⟨l1, a1, a2, a3⟩ := beginLine_bufs p s
    obtain ⟨l2, b1, b2⟩ := beginLines_bufs p n (s.beginLine p)
    refine ⟨l1 ++ l2, by rw [State.beginLines, b1, a1, List.append_assoc], fun b hb => ?_⟩
    rcases List.mem_append.1 hb with h | h
    · exact a2 b h
    · exact Nat.le_trans a3 (b2 b h)

/-- A line judged changes the buffers of that line alone (R104). -/
theorem judgeLine_raster (p : PlaneId) (y : Nat) (s : State) (q : PlaneId) : (s.judgeLine p y).raster q =
    if q = p then { s.raster q with bufs := (s.raster q).bufs.map fun x => if x.line = y then x.judge else x }
    else s.raster q := by
  simp only [State.judgeLine]
  split
  · split
    all_goals
      show (State.setRaster s p _).raster q = _
      rw [setRaster_raster]
      by_cases e : q = p
      · subst e; simp
      · simp [e]
  · rename_i hf
    by_cases e : q = p
    · subst e
      have : (s.raster q).bufs.map (fun x => if x.line = y then x.judge else x) = (s.raster q).bufs := by
        conv_rhs => rw [← List.map_id (s.raster q).bufs]
        refine List.map_congr_left fun b hb => ?_
        have hn := List.find?_eq_none.1 hf b hb
        rw [if_neg (by simpa using hn)]
        rfl
      rw [if_pos rfl, this]
    · simp [e]

/-- The buffers of the lines before are freed, and further lines join (R101). -/
theorem freeLines_bufs (p : PlaneId) (y : Nat) (s : State) :
    (∃ new, ((s.freeLines p y).raster p).bufs = (s.raster p).bufs.filter (fun b => decide (y ≤ b.line)) ++ new
      ∧ ∀ b ∈ new, (s.raster p).next ≤ b.line)
      ∧ ∀ q, q ≠ p → (s.freeLines p y).raster q = s.raster q := by
  simp only [State.freeLines]
  constructor
  · have := beginLines_bufs p Config.lineBuffers
      (s.setRaster p { s.raster p with bufs := (s.raster p).bufs.filter fun b => decide (y ≤ b.line) })
    rwa [setRaster_raster, if_pos rfl] at this
  · intro q h
    rw [(beginLines_eq p _ _).2.2.2 q h, setRaster_raster, if_neg h]

/-- Lines begun leave the port and the record of the plane last requested for. -/
theorem beginLines_request (p : PlaneId) : ∀ (n : Nat) (s : State), (State.beginLines p n s).port = s.port
    ∧ (State.beginLines p n s).composer.lastPlane = s.composer.lastPlane
  | 0, _ => ⟨rfl, rfl⟩
  | n + 1, s => by
    have h := beginLines_request p n (s.beginLine p)
    have hp : (s.beginLine p).port = s.port := by rw [(beginLine_eq p s).1]
    have hl : (s.beginLine p).composer.lastPlane = s.composer.lastPlane := by
      simp only [State.beginLine]
      split
      · cases p <;> rfl
      · rfl
    exact ⟨h.1.trans hp, h.2.trans hl⟩

/-! ### Frame starts -/

/-- A burst given up stays under way, its bytes not to be used (R116). -/
theorem dropFlight_port (p : User → Bool) (s : State) : (s.dropFlight p).port =
    { s.port with flight := s.port.flight.map fun f => if p f.burst.user then { f with dropped := true } else f } := by
  unfold State.dropFlight
  cases h : s.port.flight with
  | none =>
    simp only [Option.map_none]
    rw [← h]
  | some f =>
    simp only [Option.map_some]
    split
    · rfl
    · rw [← h]

/-- A frame that is closed leaves both lookaheads empty, the plane turn at the menu plane and the counts at 0 (R93). -/
theorem closeFrame_composer (s : State) : s.closeFrame.composer =
    { s.composer with
      slide := { s.composer.slide with bufs := [], next := 0 }, menu := { s.composer.menu with bufs := [], next := 0 },
      lastPlane := .menu, lineStarted := false, line := 0, pixel := 0, underruns := 0, drops := 0 } := by
  unfold State.closeFrame State.dropFlight
  dsimp only
  split
  · split <;> rfl
  · rfl

/-- The request of line fetch is withdrawn, and a burst of line fetch under way is given up (R93). -/
theorem closeFrame_port (s : State) : s.closeFrame.port =
    { s.port with
      lfReq := none,
      flight := s.port.flight.map fun f => if f.burst.user.ofLine then { f with dropped := true } else f } := by
  unfold State.closeFrame
  rw [dropFlight_port]
  dsimp only
  split
  · split <;> simp
  · rfl

/-- The composer's steps 3 and 4 end with line fetch presenting its request, from none and the plane turn it stood at (R93). -/
theorem compRun_presents (s : State) (h : s.port.lfReq = none) : s.compRun = State.lfPresent { s.compRun with
    port := { s.compRun.port with lfReq := none },
    composer := { s.compRun.composer with lastPlane := s.composer.lastPlane } } := by
  unfold State.compRun
  dsimp only
  generalize hz : State.beginLines .menu _ _ = z
  have h1 : z.port.lfReq = none := by rw [← hz, (beginLines_request _ _ _).1, (beginLines_request _ _ _).1, h]
  have h2 : z.composer.lastPlane = s.composer.lastPlane := by
    rw [← hz, (beginLines_request _ _ _).2, (beginLines_request _ _ _).2]
  have h3 : z = { z.lfPresent with
      port := { z.lfPresent.port with lfReq := none },
      composer := { z.lfPresent.composer with lastPlane := s.composer.lastPlane } } := by
    rw [lfPresent_eq]
    dsimp only
    rw [← h1, ← h2]
  rw [← h3]

end Sys2Proof.Machine
end

