-- ==== Sys2Proof/Laws/Nav.lean ====
section
/-! SUPPORT. What the navigation unit's shared operations do and leave alone: records, moves of the selection, actions, the
end and the beginning of an activation, keys consumed and passed; and the heads of schedules. -/

set_option maxHeartbeats 1000000

namespace Sys2Proof.Machine

/-! ### Records and the selection (R139, R141) -/

/-- One record replaced. -/
theorem recs_get (v : Vector ButtonRec 24) (i : Nat) (r : ButtonRec) (k : Fin 24) :
    (v.setIfInBounds i r).get k = if k.val = i then r else v.get k := by
  simp only [Vector.get_eq_getElem]
  rw [Vector.getElem_setIfInBounds]
  simp [eq_comm]

/-- A button that enters a visual state has its record at the start; no other record changes (R139). -/
theorem enter_get (s : State) (d : PageDef) (v : VisState) (i : Nat) (k : Fin 24) :
    (s.enter d v i).nav.buttons.get k =
      if k.val = i then (d.buttons[i]?.map fun b => b.atStart v).getD (s.nav.buttons.get k) else s.nav.buttons.get k := by
  unfold State.enter State.setRec
  cases h : d.buttons[i]? with
  | none => simp
  | some b => simp [recs_get]

/-- Only records change when a button enters a visual state. -/
theorem enter_eq (s : State) (d : PageDef) (v : VisState) (i : Nat) :
    s.enter d v i = { s with nav := { s.nav with buttons := (s.enter d v i).nav.buttons } } := by
  unfold State.enter State.setRec
  split <;> rfl

/-- A move of the selection changes the selection and records alone (R141). -/
theorem moveSel_eq (s : State) (d : PageDef) (t : Option Nat) :
    s.moveSel d t = { s with nav := { s.nav with selected := t, buttons := (s.moveSel d t).nav.buttons } } := by
  unfold State.moveSel
  split
  · rename_i h; subst h; rfl
  · rcases s.nav.selected with _ | o <;> rcases t with _ | n <;> dsimp only [Option.elim]
    · rw [enter_eq]
    · rw [enter_eq]
    · rw [enter_eq]; dsimp only; rw [enter_eq s]

/-- The records after a move of the selection (R141). -/
theorem moveSel_records (s : State) (d : PageDef) (x : Option Nat) : s.MovesRecords (s.moveSel d x) d x := by
  unfold State.MovesRecords State.moveSel
  refine ⟨fun h => by rw [if_pos h], fun h k => ?_⟩
  rw [if_neg h]
  rcases hs : s.nav.selected with _ | o <;> rcases x with _ | n <;> dsimp only [Option.elim]
  · exact absurd hs h
  · rw [enter_get]
    by_cases e : k.val = n
    · subst e; rw [if_pos rfl]; cases d.buttons[k.val]? <;> simp
    · rw [if_neg e]; cases d.buttons[k.val]? <;> simp [Ne.symm e]
  · simp only [enter_get]
    by_cases e : k.val = o
    · subst e; rw [if_pos rfl]; cases d.buttons[k.val]? <;> simp
    · rw [if_neg e]; cases d.buttons[k.val]? <;> simp [Ne.symm e]
  · have ho : o ≠ n := fun e => h (by rw [hs, e])
    simp only [enter_get]
    by_cases e : k.val = n
    · subst e; rw [if_pos rfl, if_neg ho.symm]; cases d.buttons[k.val]? <;> simp
    · rw [if_neg e]
      by_cases e2 : k.val = o
      · subst e2; rw [if_pos rfl]; cases d.buttons[k.val]? <;> simp [Ne.symm e]
      · rw [if_neg e2]; cases d.buttons[k.val]? <;> simp [Ne.symm e, Ne.symm e2]

/-- The records after a move of the selection to a button, wherever it stood (R141). -/
theorem moveSel_get (s : State) (d : PageDef) (x : Nat) (k : Fin 24) : (s.moveSel d (some x)).nav.buttons.get k =
    match d.buttons[k.val]? with
    | none => s.nav.buttons.get k
    | some y =>
      if k.val = x then (if s.nav.selected = some x then s.nav.buttons.get k else y.atStart .selected)
      else if s.nav.selected = some k.val then y.atStart .normal
      else s.nav.buttons.get k := by
  have h := moveSel_records s d (some x)
  by_cases e : s.nav.selected = some x
  · rw [h.1 e, e]
    cases d.buttons[k.val]? with
    | none => rfl
    | some y => by_cases ek : k.val = x <;> simp [ek, Ne.symm]
  · rw [h.2 e k]
    cases d.buttons[k.val]? with
    | none => rfl
    | some y => by_cases ek : k.val = x <;> simp [ek, e]; intro z; exact absurd z.symm ek

/-- A move of the selection. -/
theorem moveSel_selects (s : State) (d : PageDef) (x : Nat) : s.Selects (s.moveSel d (some x)) d x := by
  have h := moveSel_records s d (some x)
  revert h
  generalize hu : s.moveSel d (some x) = u
  intro h
  refine ⟨?_, ?_, ?_, ?_, ?_, ?_, h⟩
  all_goals rw [← hu, moveSel_eq]

/-- Nothing differs but what the selection, an activation and the actions change. -/
def NavOnly (s t : State) : Prop :=
  t = { s with nav := { s.nav with word := t.nav.word, selected := t.nav.selected, buttons := t.nav.buttons,
                                   activation := t.nav.activation },
               jump := t.jump, slots := t.slots, notices := t.notices, attention := t.attention, stats := t.stats }

theorem NavOnly.trans {a b c : State} (h : NavOnly a b) (k : NavOnly b c) : NavOnly a c := by
  unfold NavOnly at *
  rw [h] at k
  rw [k]

/-- A submission changes the notices, the flags and the counters alone (R188). -/
theorem submit_eq (s : State) (b : NoticeBody) :
    s.submit b = { s with notices := (s.submit b).notices, attention := (s.submit b).attention,
                          stats := (s.submit b).stats } := by
  unfold State.submit; split <;> rfl
theorem nav_submit (s : State) (b : NoticeBody) : NavOnly s (s.submit b) := by
  unfold NavOnly; rw [submit_eq]
/-- An add changes the slots alone. -/
theorem addHold_eq (s : State) (x : SlotId) : s.addHold x = { s with slots := (s.addHold x).slots } := by
  unfold State.addHold; split <;> rfl
/-- A release changes the slots alone. -/
theorem releaseHold_eq (s : State) (x : SlotId) : s.releaseHold x = { s with slots := (s.releaseHold x).slots } := by
  unfold State.releaseHold; split <;> rfl
theorem nav_moveSel (s : State) (d : PageDef) (t : Option Nat) : NavOnly s (s.moveSel d t) := by
  unfold NavOnly; rw [moveSel_eq]
theorem nav_enter (s : State) (d : PageDef) (v i) : NavOnly s (s.enter d v i) := by
  unfold NavOnly; rw [enter_eq]
theorem nav_maintain (s : State) (d : PageDef) : NavOnly s (s.maintain d) := by
  unfold State.maintain; repeat' split
  · rfl
  · exact nav_moveSel _ _ _
  · exact nav_moveSel _ _ _
theorem nav_act (s : State) (slot b a) : NavOnly s (s.act slot b a) := by
  cases a with
  | none => rfl
  | notify c => exact nav_submit _ _
  | toggle m => exact NavOnly.trans (by unfold NavOnly; rfl) (nav_submit _ _)
  | jump x =>
    unfold State.act State.deliverJump NavOnly
    dsimp only
    split
    · rename_i o ho
      rw [addHold_eq, submit_eq]; dsimp only
      split
      · rw [releaseHold_eq]
      · rfl
    · rw [addHold_eq]
theorem nav_end (s : State) (slot d b) : NavOnly s (s.endActivation slot d b) := by
  unfold State.endActivation
  split
  · rename_i y hy
    dsimp only
    refine NavOnly.trans ((nav_act s slot b y.act1).trans (nav_act _ slot b y.act2)) ?_
    refine NavOnly.trans (b := _) ?_ (nav_maintain _ _)
    generalize State.act slot b y.act2 (State.act slot b y.act1 s) = u
    have h : NavOnly u { u with nav := { u.nav with activation := none } } := by unfold NavOnly; rfl
    split
    · exact h.trans (nav_enter _ _ _ _)
    · exact h.trans (nav_moveSel _ _ _)
  · unfold NavOnly; rfl

/-- The word an action leaves (R145 to R147). -/
theorem act_word (s : State) (slot b a) : (s.act slot b a).nav.word = a.onWord s.nav.word := by
  cases a with
  | none => rfl
  | notify c => rw [State.act, submit_eq]; rfl
  | toggle m => rw [State.act, submit_eq]; rfl
  | jump x =>
    unfold State.act State.deliverJump; dsimp only
    rw [addHold_eq]; dsimp only
    split
    · rw [submit_eq]; dsimp only; split
      · rw [releaseHold_eq]; rfl
      · rfl
    · rfl
/-- An action leaves the selection alone. -/
theorem act_sel (s : State) (slot b a) : (s.act slot b a).nav.selected = s.nav.selected := by
  cases a with
  | none => rfl
  | notify c => rw [State.act, submit_eq]
  | toggle m => rw [State.act, submit_eq]
  | jump x =>
    unfold State.act State.deliverJump; dsimp only
    rw [addHold_eq]; dsimp only
    split
    · rw [submit_eq]; dsimp only; split
      · rw [releaseHold_eq]
      · rfl
    · rfl
theorem act_timer (s : State) (slot b a) : (s.act slot b a).timer = s.timer := by
  have := nav_act s slot b a; rw [this]
/-- A notice that finds room joins the tail (R188). -/
theorem submit_queue (s : State) (x) (h : s.notices.queue.length < 8) :
    (s.submit x).notices.queue = s.notices.queue ++ [{ body := x, stamp := s.timer.stamp }] := by
  unfold State.submit; rw [if_pos (show _ < Config.maxNotices from h)]
/-- The notices an action submits (R145 to R147, R90). -/
theorem act_notices (s : State) (slot b a) (h : s.notices.queue.length < 8) :
    (s.act slot b a).notices.queue =
      s.notices.queue ++ (s.actionNotices slot b s.nav.word a).map (fun x => { body := x, stamp := s.timer.stamp }) := by
  cases a with
  | none => simp [State.act, State.actionNotices]
  | notify c => simp [State.act, State.actionNotices, submit_queue, h]
  | toggle m => simp [State.act, State.actionNotices, submit_queue, h]
  | jump x =>
    unfold State.act State.deliverJump State.actionNotices; dsimp only
    rw [addHold_eq]; dsimp only
    cases hj : s.jump with
    | none => simp
    | some o =>
      dsimp only
      split
      · rw [submit_queue]
        · rw [releaseHold_eq]; simp
        · rw [releaseHold_eq]; exact h
      · rw [submit_queue _ _ h]; simp
/-- An action submits at most one notice. -/
theorem actionNotices_len (s : State) (slot b w a) : (s.actionNotices slot b w a).length ≤ 1 := by
  cases a <;> simp [State.actionNotices]
/-- An action that is no JUMP leaves the pending jump and the slots alone. -/
theorem act_nojump (s : State) (slot b a) (h : a.isJump = false) :
    (s.act slot b a).jump = s.jump ∧ (s.act slot b a).slots = s.slots := by
  cases a with
  | none => exact ⟨rfl,rfl⟩
  | notify c => rw [State.act, submit_eq]; exact ⟨rfl,rfl⟩
  | toggle m => rw [State.act, submit_eq]; exact ⟨rfl,rfl⟩
  | jump x => simp [Action.isJump] at h
theorem staged_congr {s t : State} (h : t.slots = s.slots) (x) : t.staged x = s.staged x := by
  unfold State.staged; rw [slot_congr h]
/-- A release leaves every definition as it stands. -/
theorem releaseHold_page (s : State) (x p) : (s.releaseHold x).page p = s.page p := by
  unfold State.releaseHold State.page
  split
  · rename_i h
    by_cases e : p = x
    · subst e; simp [h, Slot.page?]
    · rw [setSlot_slot_other _ _ _ _ e]
  · rfl
  · rfl
/-- An add leaves every definition as it stands. -/
theorem addHold_page (s : State) (x p) : (s.addHold x).page p = s.page p := by
  unfold State.addHold State.page
  split
  · rename_i h
    by_cases e : p = x
    · subst e; simp [h, Slot.page?]
    · rw [setSlot_slot_other _ _ _ _ e]
  · rfl
  · rfl
/-- A release leaves every slot staged or not, as it was. -/
theorem releaseHold_staged (s : State) (x p) : (s.releaseHold x).staged p = s.staged p := by
  have := releaseHold_page s x p
  have st : ∀ (u : State), u.staged p = (u.page p).isSome := by
    intro u; unfold State.staged State.page; cases u.slot p <;> rfl
  rw [st, st, this]
/-- A hold count set again on a slot whose count has been set. -/
@[simp] theorem withHolds_then (x : Slot) (n : Nat) (f : Nat → Nat) :
    (x.withHolds n).withHolds (f (x.withHolds n).holds) = x.withHolds (f n) := by
  cases x <;> rfl
@[simp] theorem withHolds_self (x : Slot) : x.withHolds x.holds = x := by cases x <;> rfl

/-- A slot after a release (R57). -/
theorem releaseHold_slot (s : State) (x p : SlotId) :
    (s.releaseHold x).slot p = (s.slot p).withHolds ((s.slot p).holds - if x = p then 1 else 0) := by
  unfold State.releaseHold
  split
  · rename_i h
    by_cases e : p = x
    · subst e; simp [h, Slot.withHolds, Slot.holds]
    · rw [setSlot_slot_other _ _ _ _ e, if_neg (fun k => e k.symm)]; simp
  all_goals
    rename_i h
    by_cases e : x = p
    · subst e; rw [h]; rfl
    · simp [e]

/-- A slot after an add (R57). -/
theorem addHold_slot (s : State) (x p : SlotId) :
    (s.addHold x).slot p = (s.slot p).withHolds ((s.slot p).holds + if p = x ∧ s.staged x = true then 1 else 0) := by
  unfold State.addHold State.staged
  split
  · rename_i h
    by_cases e : p = x
    · subst e; simp [h, Slot.withHolds, Slot.holds]
    · rw [setSlot_slot_other _ _ _ _ e]; simp [e]
  all_goals
    rename_i h
    by_cases e : p = x
    · subst e; rw [h]; rfl
    · simp [e]

/-- A JUMP delivers the pending jump, the older one giving up its hold (R90, R147). -/
theorem act_jump (s : State) (slot b x) :
    (s.act slot b (.jump x)).jump = some { target := x, held := s.staged x, button := b, slot := slot }
      ∧ ∀ p, (s.act slot b (.jump x)).slot p = (s.slot p).withHolds
            (((s.slot p).holds - (if s.jump.any (fun o => o.held && decide (o.target = p)) then 1 else 0))
              + (if p = x ∧ s.staged x = true then 1 else 0)) := by
  have hs : ∀ (u : State) (n : NoticeBody), (u.submit n).slots = u.slots := fun u n => by rw [submit_eq]
  unfold State.act State.deliverJump
  cases hj : s.jump with
  | none => exact ⟨rfl, fun p => (addHold_slot s x p).trans (by simp)⟩
  | some o =>
    dsimp only
    cases ho : o.held with
    | true =>
      simp only [if_true]
      refine ⟨by rw [staged_congr (hs _ _), releaseHold_staged], fun p => ?_⟩
      refine (addHold_slot _ x p).trans ?_
      rw [slot_congr (hs _ _), staged_congr (hs _ _), releaseHold_staged, releaseHold_slot]
      rw [withHolds_then (s.slot p) _ (fun n => n + if p = x ∧ s.staged x = true then 1 else 0)]
      simp [ho]
    | false =>
      simp only [Bool.false_eq_true, if_false]
      refine ⟨by rw [staged_congr (hs _ _)], fun p => ?_⟩
      refine (addHold_slot _ x p).trans ?_
      rw [slot_congr (hs _ _), staged_congr (hs _ _)]
      simp [ho]

/-- An action leaves the records alone. -/
theorem act_buttons (s : State) (slot b a) : (s.act slot b a).nav.buttons = s.nav.buttons := by
  cases a with
  | none => rfl
  | notify c => rw [State.act, submit_eq]
  | toggle m => rw [State.act, submit_eq]
  | jump x =>
    unfold State.act State.deliverJump; dsimp only
    rw [addHold_eq]; dsimp only
    split
    · rw [submit_eq]; dsimp only; split
      · rw [releaseHold_eq]
      · rfl
    · rfl

@[simp] theorem ButtonRec.published_false (r : ButtonRec) : r.published false = r := by
  simp [ButtonRec.published]

/-- A button that the page has is visible as its own item says (R133). -/
theorem visible_some {d : PageDef} {w : Word} {b : Nat} {y : Button} (h : d.buttons[b]? = some y) :
    d.visible w b = y.visible w := by
  simp [PageDef.visible, h]

/-- Maintenance changes the selection and records alone (R142). -/
theorem maintain_eq (s : State) (d) : s.maintain d =
    { s with nav := { s.nav with selected := (s.maintain d).nav.selected, buttons := (s.maintain d).nav.buttons } } := by
  unfold State.maintain; repeat' split
  · rfl
  · rw [moveSel_eq]
  · rw [moveSel_eq]
theorem moveSel_sel (s : State) (d t) : (s.moveSel d t).nav.selected = t := by rw [moveSel_eq]
/-- The selection that maintenance leaves (R142). -/
theorem maintain_sel (s : State) (d) : (s.maintain d).nav.selected =
    match s.nav.selected with
    | some b => if d.visible s.nav.word b then some b else d.entryChoice s.nav.word
    | none => d.entryChoice s.nav.word := by
  unfold State.maintain
  cases h : s.nav.selected with
  | none => exact moveSel_sel _ _ _
  | some b =>
    dsimp only
    split
    · exact h
    · exact moveSel_sel _ _ _

/-- An activation that ends has its actions run (R144). -/
theorem endActivation_runs (s : State) (slot d b y) (hy : d.buttons[b]? = some y) (hs : s.nav.selected = some b)
    (hj : ¬ (y.act1.isJump = true ∧ y.act2.isJump = true)) : s.ActionsRun (s.endActivation slot d b) slot d b y false := by
  let s1 := (s.act slot b y.act1).act slot b y.act2
  let s2 : State := { s1 with nav := { s1.nav with activation := none } }
  let s3 : State := if y.visible s2.nav.word then s2.enter d .selected b else s2.moveSel d (d.entryChoice s2.nav.word)
  have e : s.endActivation slot d b = s3.maintain d := by
    unfold State.endActivation; rw [hy]
  have h3 : s3 = { s2 with nav := { s2.nav with selected := s3.nav.selected, buttons := s3.nav.buttons } } := by
    show (ite _ _ _ : State) = _
    split
    · rw [enter_eq]
      have : s3 = s2.enter d .selected b := if_pos (by assumption)
      rw [this]; conv_rhs => rw [enter_eq]
    · rw [moveSel_eq]
      have : s3 = s2.moveSel d (d.entryChoice s2.nav.word) := if_neg (by assumption)
      rw [this]; conv_rhs => rw [moveSel_eq]
  have w1 : s1.nav.word = y.act2.onWord (y.act1.onWord s.nav.word) := by
    show (State.act slot b y.act2 _).nav.word = _
    rw [act_word, act_word]
  have sel1 : s1.nav.selected = some b := by
    show (State.act slot b y.act2 _).nav.selected = _
    rw [act_sel, act_sel, hs]
  have w3 : s3.nav.word = s1.nav.word := by rw [h3]
  have sel3 : s3.nav.selected = if y.visible s1.nav.word then some b else d.entryChoice s1.nav.word := by
    show (ite _ _ _ : State).nav.selected = _
    show (if y.visible s1.nav.word then s2.enter d .selected b
      else s2.moveSel d (d.entryChoice s1.nav.word)).nav.selected = _
    split
    · rw [enter_eq]; exact sel1
    · rw [moveSel_eq]
  have ev : ∀ i, d.entryChoice s1.nav.word = some i → d.visible s1.nav.word i = true := by
    intro i hi
    unfold PageDef.entryChoice at hi
    have ff : ∀ (l : List Button) k i, firstFrom (Button.visible s1.nav.word) k l = some i →
        k ≤ i ∧ ∃ z, l[i - k]? = some z ∧ z.visible s1.nav.word = true := by
      intro l
      induction l with
      | nil => intro k i h; simp [firstFrom] at h
      | cons a as ih =>
        intro k i h
        simp only [firstFrom] at h
        split at h
        · cases h; exact ⟨Nat.le_refl _, a, by simp, by assumption⟩
        · obtain ⟨h1, z, h2, h3⟩ := ih _ _ h
          refine ⟨by omega, z, ?_, h3⟩
          have : i - k = (i - (k+1)) + 1 := by omega
          rw [this]; simpa using h2
    have g : ∀ i, firstFrom (Button.visible s1.nav.word) 0 d.buttons = some i → d.visible s1.nav.word i = true := by
      intro i h
      obtain ⟨-, z, h2, h3⟩ := ff _ _ _ h
      rw [visible_some (by simpa using h2)]; exact h3
    split at hi
    · split at hi
      · cases hi; assumption
      · exact g _ hi
    · exact g _ hi
  have self : (s3.maintain d).nav.selected = s3.nav.selected := by
    rw [maintain_sel, w3, sel3]
    by_cases hv : y.visible s1.nav.word = true
    · rw [if_pos hv]; dsimp only; rw [if_pos (by rw [visible_some hy]; exact hv)]
    · rw [if_neg hv]
      cases he : d.entryChoice s1.nav.word with
      | none => rfl
      | some c => dsimp only; rw [if_pos (ev c he)]
  have wf : (s3.maintain d).nav.word = s1.nav.word := by rw [maintain_eq]; exact w3
  have rest : (s3.maintain d).jump = s1.jump ∧ (s3.maintain d).slots = s1.slots ∧ (s3.maintain d).notices = s1.notices
      ∧ (s3.maintain d).nav.activation = none := by
    rw [maintain_eq, h3]; exact ⟨rfl, rfl, rfl, rfl⟩
  rw [e]
  refine ⟨by rw [wf, w1], rest.2.2.2, ?_, ?_, ?_, ?_, ?_, ?_⟩
  · intro hn
    rw [rest.2.2.1]
    show (State.act slot b y.act2 _).notices.queue = _
    have l1 := actionNotices_len s slot b s.nav.word y.act1
    have n1 := act_notices s slot b y.act1 (by omega)
    rw [act_notices _ _ _ _ (by rw [n1]; simp; omega), n1, act_timer]
    rw [act_word]
    have : (s.act slot b y.act1).actionNotices slot b (y.act1.onWord s.nav.word) y.act2 =
        s.actionNotices slot b (y.act1.onWord s.nav.word) y.act2 := by
      cases h2 : y.act2 with
      | none => rfl
      | notify c => rfl
      | toggle m => rfl
      | jump x =>
        have : y.act1.isJump = false := by
          cases h1 : y.act1.isJump
          · rfl
          · exact absurd ⟨h1, by rw [h2]; rfl⟩ hj
        unfold State.actionNotices; rw [(act_nojump s slot b _ this).1]
    rw [this]; simp
  · intro hv; rw [wf] at hv; rw [self, sel3, if_pos hv]
  · intro hv; rw [wf] at hv; rw [self, sel3, if_neg (by simp [hv]), wf]
  · intro k
    have b1 : s1.nav.buttons = s.nav.buttons := by
      show (State.act slot b y.act2 _).nav.buttons = _
      rw [act_buttons, act_buttons]
    have bm : (s3.maintain d).nav.buttons = s3.nav.buttons := by
      unfold State.maintain
      split
      · split
        · rfl
        · rename_i c hc hv
          have hx := maintain_sel s3 d
          rw [hc] at hx; dsimp only at hx; rw [if_neg hv, self, hc] at hx
          rw [State.moveSel, if_pos (hc.trans hx)]
      · rename_i hc
        have hx := maintain_sel s3 d
        rw [hc] at hx; dsimp only at hx; rw [self, hc] at hx
        rw [State.moveSel, if_pos (hc.trans hx)]
    rw [bm, self, sel3]
    simp only [ButtonRec.published_false, hs]
    show (if y.visible s1.nav.word then s2.enter d .selected b
      else s2.moveSel d (d.entryChoice s1.nav.word)).nav.buttons.get k = _
    by_cases hv : y.visible s1.nav.word = true
    · rw [if_pos hv, if_pos hv, enter_get]
      show (if k.val = b then _ else s1.nav.buttons.get k) = _
      rw [b1]
      by_cases ek : k.val = b
      · rw [ek, hy]; simp
      · cases d.buttons[k.val]? <;> simp [ek, Ne.symm ek]
    · rw [if_neg hv, if_neg hv]
      have hne : s2.nav.selected ≠ d.entryChoice s1.nav.word := by
        show s1.nav.selected ≠ _
        rw [sel1]
        intro hb
        have := ev b hb.symm
        rw [visible_some hy] at this
        exact hv this
      rw [(moveSel_records s2 d _).2 hne k]
      show (match d.buttons[k.val]? with | none => s1.nav.buttons.get k | some _ => _) = _
      cases d.buttons[k.val]? with
      | none => simp [b1]
      | some z =>
        dsimp only
        show (if _ then _ else if s1.nav.selected = some k.val then _ else s1.nav.buttons.get k) = _
        rw [sel1, b1]
        by_cases ek : b = k.val
        · simp [ek]
        · simp [ek, Ne.symm ek]
  · intro j1 j2
    rw [rest.1, rest.2.1]
    have a2 := act_nojump (s.act slot b y.act1) slot b _ j2
    have a1 := act_nojump s slot b _ j1
    exact ⟨a2.1.trans a1.1, a2.2.trans a1.2⟩
  · intro x hx
    have sl : ∀ p, (s3.maintain d).slot p = s1.slot p := fun p => slot_congr rest.2.1 p
    simp only [rest.1, sl]
    rcases hx with hx | hx
    · have j2 : y.act2.isJump = false := by
        cases h1 : y.act2.isJump
        · rfl
        · exact absurd ⟨by rw [hx]; rfl, h1⟩ hj
      have a2 := act_nojump (s.act slot b y.act1) slot b _ j2
      have b1 := act_jump s slot b x
      rw [← hx] at b1
      refine ⟨a2.1.trans b1.1, fun p => ?_⟩
      rw [← b1.2 p, slot_congr (show s1.slots = _ from a2.2)]
    · have j1 : y.act1.isJump = false := by
        cases h1 : y.act1.isJump
        · rfl
        · exact absurd ⟨h1, by rw [hx]; rfl⟩ hj
      have a1 := act_nojump s slot b _ j1
      have b1 := act_jump (s.act slot b y.act1) slot b x
      have hs1 : s1 = (s.act slot b y.act1).act slot b (.jump x) := by show State.act slot b y.act2 _ = _; rw [hx]
      rw [staged_congr a1.2, a1.1] at b1
      rw [hs1]
      refine ⟨b1.1, fun p => ?_⟩
      rw [b1.2 p, slot_congr a1.2]

/-- An activation that begins, or ends at once (R143). -/
theorem activate_activates (s : State) (slot d b) : s.Activates (s.activate slot d b) slot d b false := by
  intro y hy
  have e : s.activate slot d b =
      let s1 := (s.moveSel d (some b)).enter d .activating b
      let s2 : State := { s1 with nav := { s1.nav with activation := some b } }
      if (livePairs y.activated).isEmpty then s2.endActivation slot d b else s2 := by
    unfold State.activate; rw [hy]; rfl
  rw [e]; dsimp only
  constructor
  · intro hne
    rw [if_neg (by simpa using hne)]
    refine ⟨?_, rfl, ?_, ?_, ?_, ?_, fun k => ?_⟩
    any_goals (rw [enter_eq, moveSel_eq]; done)
    simp only [ButtonRec.published_false]
    rw [enter_get]
    have m := moveSel_get s d b k
    by_cases ek : k.val = b
    · rw [if_pos ek, hy, ← ek]; rw [← ek] at hy; rw [hy]; simp
    · rw [if_neg ek, m]
      cases d.buttons[k.val]? <;> simp [ek]
  · intro he hj
    rw [if_pos (by simp [he])]
    generalize hu : (s.moveSel d (some b)).enter d .activating b = u
    have := endActivation_runs { u with nav := { u.nav with activation := some b } } slot d b y hy
      (by rw [← hu, enter_eq, moveSel_eq]) hj
    have moved : ∀ (k : Fin 24) (z : Button), d.buttons[k.val]? = some z → k.val ≠ b →
        u.nav.buttons.get k = if s.nav.selected = some k.val then z.atStart .normal else s.nav.buttons.get k := by
      intro k z hz ek
      rw [← hu, enter_get, if_neg ek, moveSel_get s d b k, hz]
      simp [ek]
    have kept : ∀ k : Fin 24, d.buttons[k.val]? = none → u.nav.buttons.get k = s.nav.buttons.get k := by
      intro k hz
      have ek : k.val ≠ b := fun e => by rw [e, hy] at hz; cases hz
      rw [← hu, enter_get, if_neg ek, moveSel_get s d b k, hz]
    have us : u.nav.selected = some b := by rw [← hu, enter_eq, moveSel_eq]
    revert this
    generalize State.endActivation _ _ _ _ = t
    intro ⟨a1, a2, a3, a4, a5, a6, a7, a8⟩
    have base : u = { s with nav := { s.nav with selected := u.nav.selected, buttons := u.nav.buttons } } := by
      rw [← hu, enter_eq, moveSel_eq]
    rw [base] at a1 a3 a7 a8
    refine ⟨a1, a2, a3, a4, a5, fun k => ?_, a7, a8⟩
    rw [a6 k]
    cases hz : d.buttons[k.val]? with
    | none => exact kept k hz
    | some z =>
      dsimp only
      rw [us]
      by_cases ek : k.val = b
      · simp [ek]
      · simp only [ek, Ne.symm ek, false_or, Option.some.injEq, if_false]
        rw [moved k z hz ek]

/-- An activation changes what the selection and the actions change. -/
theorem nav_activate (s : State) (slot d b) : NavOnly s (s.activate slot d b) := by
  unfold State.activate
  dsimp only
  split
  · generalize hu : (s.moveSel d (some b)).enter d .activating b = u
    have hs : NavOnly s u := hu ▸ (nav_moveSel s d (some b)).trans (nav_enter _ d .activating b)
    have h : NavOnly s { u with nav := { u.nav with activation := some b } } := hs.trans (by unfold NavOnly; rfl)
    split
    · exact h.trans (nav_end _ _ _ _)
    · exact h
  · unfold NavOnly; rfl

/-! ### Keys consumed and passed (R157, R164, R165) -/

/-- A task's key retires DONE; any other retires nothing. -/
theorem retireKey_eq (s : State) (k : Key) (n : Nat) : s.retireKey k n =
    { s with
      walker := { s.walker with
        retiring := s.walker.retiring ++ k.task.toList.map fun r => s.retirement r .done (BitVec.ofNat 8 n) [] },
      port := { s.port with walkerQ := (s.retireKey k n).port.walkerQ } } := by
  unfold State.retireKey
  cases k.task with
  | none => simp
  | some t => dsimp only [Option.elim]; rw [retire_eq]; simp [State.retirement]

/-- A consumed key sets the timeout and retires DONE with detail 1. -/
theorem consumed_eq (s : State) (d : PageDef) (k : Key) : s.consumed d k =
    { s with
      nav := { s.nav with timeout := d.timeout },
      walker := { s.walker with retiring := s.walker.retiring ++ k.task.toList.map fun r => s.retirement r .done 1 [] },
      port := { s.port with walkerQ := (s.consumed d k).port.walkerQ } } := by
  unfold State.consumed
  rw [retireKey_eq]
  rfl

/-- A passed key submits KEY_PASSED and retires DONE with detail 0. -/
theorem passed_eq (s : State) (k : Key) : s.passed k =
    { s with
      notices := (s.submit (.keyPassed k.code k.task.isSome s.navSlot)).notices,
      attention := (s.submit (.keyPassed k.code k.task.isSome s.navSlot)).attention,
      stats := (s.submit (.keyPassed k.code k.task.isSome s.navSlot)).stats,
      walker := { s.walker with retiring := s.walker.retiring ++ k.task.toList.map fun r => s.retirement r .done 0 [] },
      port := { s.port with walkerQ := (s.passed k).port.walkerQ } } := by
  unfold State.passed
  rw [retireKey_eq]
  unfold State.submit
  split <;> rfl

/-- A key taken from the head of the queue and passed. -/
theorem key_passes (s : State) (i : KeyItem) (rest : List KeyItem) (c : Byte) (src : Option TaskRef)
    (hq : s.nav.queue = i :: rest) : s.Passes ((s.popItem rest).passed { code := c, task := src }) c src := by
  unfold State.Passes
  rw [passed_eq]
  refine ⟨?_, rfl, rfl, fun h => ?_, rfl⟩
  · dsimp only [State.popItem]; rw [hq]; rfl
  · dsimp only
    rw [submit_queue _ _ (show (s.popItem rest).notices.queue.length < 8 from h)]
    rfl

/-! ### The head of a schedule (R81, R85) -/

@[simp] theorem SchedEntry.current_page (e : SchedEntry) : e.current.page = e.page := rfl
@[simp] theorem SchedEntry.current_blend (e : SchedEntry) : e.current.blend = e.blend := rfl
@[simp] theorem SchedEntry.current_due (e : SchedEntry) : e.current.due = e.due := rfl
@[simp] theorem SchedEntry.current_task (e : SchedEntry) : e.current.task = e.task := rfl
@[simp] theorem SchedEntry.current_later (e : SchedEntry) : e.current.later = false := rfl

/-- After an accepted frame start every entry is judged, the first one first (R79, R85). -/
theorem takeHead_current (l : List SchedEntry) :
    takeHead (l.map SchedEntry.current) = (l.map SchedEntry.current).head?.map fun e => (e, (l.map SchedEntry.current).tail) := by
  cases l <;> simp [takeHead]

/-- Entries inserted since the frame start are passed over. -/
theorem takeHead_pre (pre : List SchedEntry) (e : SchedEntry) (post : List SchedEntry) (h : ∀ x ∈ pre, x.later = true)
    (he : e.later = false) : takeHead (pre ++ e :: post) = some (e, pre ++ post) := by
  induction pre with
  | nil => simp [takeHead, he]
  | cons a as ih => simp [takeHead, h a (by simp), ih fun x hx => h x (by simp [hx])]

/-- The head and what is left of the schedule: the entries before the head were all inserted since the frame start. -/
theorem takeHead_some {l r : List SchedEntry} {e : SchedEntry} (h : takeHead l = some (e, r)) :
    ∃ pre post, l = pre ++ e :: post ∧ r = pre ++ post ∧ e.later = false ∧ ∀ x ∈ pre, x.later = true := by
  induction l generalizing e r with
  | nil => simp [takeHead] at h
  | cons a as ih =>
    simp only [takeHead] at h
    split at h
    · rename_i ha
      cases ht : takeHead as with
      | none => simp [ht] at h
      | some x =>
        obtain ⟨e', r'⟩ := x
        simp only [ht, Option.map_some, Option.some.injEq, Prod.mk.injEq] at h
        obtain ⟨rfl, rfl⟩ := h
        obtain ⟨pre, post, h1, h2, h3, h4⟩ := ih ht
        exact ⟨a :: pre, post, by rw [h1]; rfl, by rw [h2]; rfl, h3, fun x hx => by
          rcases List.mem_cons.1 hx with rfl | hx
          · exact ha
          · exact h4 x hx⟩
    · rename_i ha
      simp only [Option.some.injEq, Prod.mk.injEq] at h
      obtain ⟨rfl, rfl⟩ := h
      exact ⟨[], as, rfl, rfl, by simpa using ha, by simp⟩

/-- A schedule has no head exactly when every entry was inserted since the frame start. -/
theorem takeHead_none {l : List SchedEntry} : takeHead l = none ↔ ∀ x ∈ l, x.later = true := by
  induction l with
  | nil => simp [takeHead]
  | cons a as ih =>
    simp only [takeHead]
    split
    · simp_all
    · simp_all

end Sys2Proof.Machine
end

