-- ==== Sys2Proof/Laws/Work.lean ====
section
/-! SUPPORT. What the parts of frame-start work do: a move's end, a drawn test and the ticks before it, a plane's step 3, the holds that a
transition's end and an operation release, and the lines that line fetch begins. -/

namespace Sys2Proof.Machine

/-! ### The drawn test (R32) -/

/-- A state with the parts that time and notices change replaced. -/
def State.withTime (s : State) (a : Timer) (b : Attention) (c : Notices) (d : Stats) (e : KeyLine) : State :=
  { s with timer := a, attention := b, notices := c, stats := d, keyline := e }

/-- A state with the parts that a drawn test changes replaced. -/
def State.withMove (s : State) (h : Heap) (c : Compactor) (p : Port) : State := { s with heap := h, compactor := c, port := p }

theorem scanAgain_withTime (s : State) (a b c d e) : (s.withTime a b c d e).scanAgain = (s.scanAgain).withTime a b c d e := by
  rfl

theorem withdraw_withTime (s : State) (m : Move) (a b c d e) :
    (s.withTime a b c d e).withdraw m = (s.withdraw m).withTime a b c d e := by
  rfl

/-- Where a move's end leaves the compactor (R39). -/
theorem scanAgain_phase (s : State) : s.scanAgain.compactor.phase =
    if s.run.state = .halting ∧ s.regionLeft = true then .paused else .scanning := by
  unfold State.scanAgain
  dsimp only
  split <;> rfl

/-- Some entry holds a region at or above the low mark. -/
theorem regionLeft_iff (s : State) : s.regionLeft = true ↔ s.RegionRemains := by
  unfold State.regionLeft State.RegionRemains State.entry
  rw [List.any_eq_true]
  simp only [decide_eq_true_eq]
  constructor
  · rintro ⟨e, he, h⟩
    obtain ⟨i, hi, rfl⟩ := Vector.mem_toList_iff.1 he |> Vector.mem_iff_getElem.1
    exact ⟨BitVec.ofFin ⟨i, hi⟩, h⟩
  · rintro ⟨i, h⟩
    exact ⟨_, Vector.mem_toList_iff.2 (Vector.getElem_mem _), h⟩

/-- The end of a move keeps the low mark, counts and task, and ends in SCANNING or PAUSED as R39 says. -/
theorem scanAgain_scansOn (s : State) : s.ScansOn s.scanAgain s.scanAgain.RegionRemains := by
  have h : s.scanAgain.RegionRemains ↔ s.RegionRemains := by
    have hl : s.scanAgain.compactor.low = s.compactor.low := by
      unfold State.scanAgain
      dsimp only
      split <;> simp
    unfold State.RegionRemains State.entry
    rw [hl]
    rfl
  unfold State.ScansOn
  rw [h, scanAgain_phase, ← regionLeft_iff]
  refine ⟨fun a b => if_pos ⟨a, b⟩, fun a => if_neg fun b => ?_, ?_⟩
  · rcases a with a | a
    · exact a b.1
    · exact a b.2
  · unfold State.scanAgain
    dsimp only
    split <;> simp

/-- The entry of the move in hand gives up its region: the move is abandoned (R35, R39). -/
theorem emptyEntry_abandons (s : State) (m : Move) (h : s.compactor.move = some m) :
    s.AbandonsMove (s.emptyEntry m.id) (s.emptyEntry m.id).RegionRemains := by
  let e := s.entry m.id
  let u := (State.freeGranules e.offset e.count (s.abandonMove m)).setEntry m.id e.emptied
  have he : s.emptyEntry m.id = u.scanAgain := by
    unfold State.emptyEntry
    rw [h]
    exact if_pos rfl
  have hr : u.run = s.run := by
    show (s.abandonMove m).run = s.run
    simp
  have hc : u.compactor = s.compactor := by
    show (State.dropFlight User.ofCompactor _).compactor = _
    simp
  have hp : u.port = { s.port with
      compReq := none, flight := s.port.flight.map fun f => if f.burst.user.ofCompactor then { f with dropped := true } else f } := by
    show (State.dropFlight User.ofCompactor _).port = _
    rw [dropFlight_port]
  have ho : ∀ x : User, x.ofCompactor = true ↔ x = .compRead ∨ x = .compWrite := by
    intro x
    cases x <;> simp [User.ofCompactor]
  have hs := scanAgain_scansOn u
  have hk : u.scanAgain.port = u.port := by simp
  rw [he]
  unfold State.AbandonsMove
  unfold State.ScansOn at hs ⊢
  rw [hr] at hs
  rw [hk, hp]
  refine ⟨hs, ?_, ?_, ?_, ?_, rfl, ?_⟩
  · simp [State.scanAgain, ← hc, apply_ite]
  · simp [State.scanAgain, ← hc, apply_ite]
  · simp [State.scanAgain, ← hc, apply_ite]
  · simp [State.scanAgain, ← hc, apply_ite]
  · simp only [ho]

/-- A drawn test does not look at the parts that time and notices change. -/
theorem confirmMove_withTime (s : State) (a b c d e) :
    (s.withTime a b c d e).confirmMove = (s.confirmMove).withTime a b c d e := by
  unfold State.confirmMove
  have h1 : (s.withTime a b c d e).compactor = s.compactor := rfl
  have h2 : (s.withTime a b c d e).work = s.work := rfl
  have h3 (i) : (s.withTime a b c d e).drawn i = s.drawn i := rfl
  simp only [h1, h2, h3]
  split
  · split
    · split
      · exact withdraw_withTime s _ a b c d e
      · rfl
    · rfl
  · rfl

/-- A drawn test changes the heap, the compactor and its request alone. -/
theorem confirmMove_withMove (s : State) : ∃ h c p, s.confirmMove = s.withMove h c p := by
  unfold State.confirmMove
  split
  · split
    · split
      · exact ⟨_, _, _, rfl⟩
      · exact ⟨_, _, _, rfl⟩
    · exact ⟨_, _, _, rfl⟩
  · exact ⟨_, _, _, rfl⟩

/-- Ticks change the parts that time and notices change. -/
theorem passTicks_withTime (s : State) (n : Nat) : s.passTicks n = s.withTime (s.passTicks n).timer
    (s.passTicks n).attention (s.passTicks n).notices (s.passTicks n).stats (s.passTicks n).keyline := by
  unfold State.passTicks State.countTicks State.loseSync State.submit
  (repeat' split) <;> rfl

theorem countTicks_withMove (s : State) (n : Nat) (h c p) : (s.withMove h c p).countTicks n = (s.countTicks n).withMove h c p := by
  unfold State.countTicks
  split
  · rename_i h1
    rw [if_pos (show s.active = true from h1)]
    rfl
  · rename_i h1
    rw [if_neg (show ¬ s.active = true from h1)]

theorem submit_withMove (s : State) (b : NoticeBody) (h c p) : (s.withMove h c p).submit b = (s.submit b).withMove h c p := by
  unfold State.submit
  by_cases g : s.notices.queue.length < Config.maxNotices
  · rw [if_pos (show (s.withMove h c p).notices.queue.length < Config.maxNotices from g), if_pos g]
    rfl
  · rw [if_neg (show ¬ (s.withMove h c p).notices.queue.length < Config.maxNotices from g), if_neg g]
    rfl

/-- Ticks do not look at the parts that a drawn test changes. -/
theorem passTicks_withMove (s : State) (n : Nat) (h c p) : (s.withMove h c p).passTicks n = (s.passTicks n).withMove h c p := by
  have g : (s.withMove h c p).lossPassed n = s.lossPassed n := rfl
  unfold State.passTicks
  rw [g]
  split
  · rw [← countTicks_withMove]
    congr 1
    exact submit_withMove { s with timer := { s.timer with lost := true, latch := true, forced := true },
                                   attention := { s.attention with syncLost := true } } _ h c p
  · exact countTicks_withMove s n h c p

/-- A drawn test and the ticks of a command do not touch each other. -/
theorem confirmMove_passTicks (s : State) (n : Nat) : (s.passTicks n).confirmMove = (s.confirmMove).passTicks n := by
  obtain ⟨h, c, p, e⟩ := confirmMove_withMove s
  rw [passTicks_withTime, confirmMove_withTime, e, passTicks_withMove]
  conv_rhs => rw [passTicks_withTime s n]
  rfl

/-- A drawn test that has been made leaves none to be made. -/
theorem confirmMove_done (s : State) : s.confirmMove = s ∨ s.confirmMove.compactor.phase ≠ .confirming := by
  unfold State.confirmMove
  split
  · split
    · split
      · right
        simp only [State.withdraw, scanAgain_phase]
        split <;> simp
      · right
        simp [State.beginCopy, State.compRead]
    · exact .inl rfl
  · exact .inl rfl

/-- A drawn test made twice is made once. -/
theorem confirmMove_twice (s : State) : s.confirmMove.confirmMove = s.confirmMove := by
  rcases confirmMove_done s with h | h
  · rw [h, h]
  · conv_lhs => unfold State.confirmMove
    split
    · rename_i k _
      exact absurd k h
    · rfl

/-- FRAME_START of a frame start that is accepted (R62, R63). -/
theorem frameStart_accepts (s : State) (n : Nat) (h : s.AcceptsFrame n) :
    exec (.frameStart n) s = .next (s.passTicks n).acceptFrame := by
  obtain ⟨hw, ha, hi⟩ := h
  show Host.Outcome.next (s.finishWork.passTicks n).frameStart = _
  have hp := passTicks_active s n ha
  have a2 : (s.passTicks n).active = true := by
    rw [show (s.passTicks n).active = s.active by rw [passTicks_withTime]; rfl]
    exact ha
  congr 1
  unfold State.finishWork
  rw [if_pos hw]
  unfold State.frameStart
  rw [if_pos a2, if_pos]
  rw [hp]
  dsimp only
  split
  · simpa [State.loseSync, State.interval] using hi
  · simpa [State.interval] using hi

/-- A frame start makes a drawn test that was still to be made first (R32, log 3). -/
theorem acceptFrame_confirms (s : State) : s.acceptFrame = s.confirmMove.acceptFrame := by
  unfold State.acceptFrame
  rw [confirmMove_twice]

/-! ### The planes' part of the work (R79) -/

theorem setStage_stage (s : State) (p q g) : (s.setStage p g).stage q = if q = p then g else s.stage q := by
  cases p <;> cases q <;> rfl

theorem setPlane_stage (s : State) (p q g) : (s.setPlane p g).stage q = s.stage q := by
  cases p <;> cases q <;> rfl

theorem setPlane_plane (s : State) (p q g) : (s.setPlane p g).plane q = if q = p then g else s.plane q := by
  cases p <;> cases q <;> rfl

theorem setStage_plane (s : State) (p q g) : (s.setStage p g).plane q = s.plane q := by
  cases p <;> cases q <;> rfl

/-- What the navigation unit's and the composer's parts leave alone of the planes' work. -/
def SameStages (t s : State) : Prop :=
  t.work.slide = s.work.slide ∧ t.work.menu = s.work.menu ∧ t.slide = s.slide ∧ t.menu = s.menu

theorem SameStages.trans {a b c : State} (h : SameStages a b) (k : SameStages b c) : SameStages a c :=
  ⟨h.1.trans k.1, h.2.1.trans k.2.1, h.2.2.1.trans k.2.2.1, h.2.2.2.trans k.2.2.2⟩

/-- The composer's steps 3 and 4 are done: of the work outstanding only their own mark changes (R93). -/
theorem compRun_work (s : State) : s.compRun.work = { s.work with comp := false } := by
  simp only [State.compRun]
  rw [lfPresent_eq]
  dsimp only
  generalize hx : ({ s with
    composer := { s.composer with
      slide := { spans := s.slide.view.elim [] fun v => s.spanTable v.content },
      menu := { spans := s.menu.view.elim [] fun v => s.spanTable v.content }, marker := some s.timer.stamp },
    stats := { s.stats with frames := s.stats.frames + 1 },
    work := { s.work with comp := false } } : State) = x
  obtain ⟨⟨c, d, b1⟩, -⟩ := beginLines_eq .menu Config.lineBuffers (State.beginLines .slide Config.lineBuffers x)
  obtain ⟨⟨c', d', b2⟩, -⟩ := beginLines_eq .slide Config.lineBuffers x
  rw [b1, b2, ← hx]

theorem compRunIf_stages (s : State) : SameStages s.compRunIf s ∧ s.compRunIf.work.nav = s.work.nav := by
  unfold State.compRunIf
  split
  · exact ⟨⟨by rw [compRun_work], by rw [compRun_work], by simp, by simp⟩, by rw [compRun_work]⟩
  · exact ⟨⟨rfl, rfl, rfl, rfl⟩, rfl⟩

/-- Publishing the button views changes no plane's stage. -/
theorem navPublish_work (s : State) : s.navPublish.work = { s.work with nav := .idle } := by
  unfold State.navPublish
  (repeat' split) <;> rfl

theorem navTimeout_work (s : State) : s.navTimeout.work = { s.work with nav := s.navTimeout.work.nav } := by
  unfold State.navTimeout
  (repeat' split) <;> first | rfl | (rw [navPublish_work])

theorem navDigit_work (s : State) : s.navDigit.work = { s.work with nav := s.navDigit.work.nav } := by
  unfold State.navDigit
  (repeat' split) <;> first | rfl | exact navTimeout_work _

theorem navAdvance_work (s : State) (d : PageDef) : (s.navAdvance d).work = { s.work with nav := (s.navAdvance d).work.nav } := by
  unfold State.navAdvance
  dsimp only
  split
  · rfl
  · exact navDigit_work _

theorem navJudge_work (s : State) (v : FrameView) : (s.navJudge v).work = { s.work with nav := (s.navJudge v).work.nav } := by
  unfold State.navJudge
  dsimp only
  (repeat' split) <;> first | rw [navPublish_work]; rfl | (rw [navPublish_work]) | exact navDigit_work _ | exact navAdvance_work _ _

theorem navRunIf_stages (s : State) : SameStages s.navRunIf s := by
  unfold State.navRunIf
  split
  · unfold State.navRun
    split
    · rename_i v _
      have h := navJudge_frame s v
      exact ⟨by rw [navJudge_work], by rw [navJudge_work], by simp, by simp⟩
    · exact ⟨rfl, rfl, rfl, rfl⟩
  · exact ⟨rfl, rfl, rfl, rfl⟩

theorem planeOps_other (s : State) (p q : PlaneId) (h : q ≠ p) :
    (s.planeOps p).stage q = s.stage q ∧ (s.planeOps p).plane q = s.plane q := by
  unfold State.planeOps
  split
  · simp [setStage_stage, setStage_plane, h]
  · simp [State.publish, setStage_stage, setPlane_stage, setStage_plane, setPlane_plane, h]

theorem planeAdvance_other (s : State) (p q : PlaneId) (h : q ≠ p) :
    (s.planeAdvance p).stage q = s.stage q ∧ (s.planeAdvance p).plane q = s.plane q := by
  unfold State.planeAdvance
  dsimp only
  split
  · simp [setStage_stage, setStage_plane, State.setContent, setPlane_stage, setPlane_plane, h]
  · have := planeOps_other (s.setContent p (s.plane p).content.advanced.1) p q h
    simpa [State.setContent, setPlane_stage, setPlane_plane, h] using this

/-- A plane whose work has begun keeps its stage and itself while the blocks go on. -/
theorem planeRun_keeps (s : State) (p q : PlaneId) (h : s.stage q ≠ .begin) :
    (s.planeRun p).stage q = s.stage q ∧ (s.planeRun p).plane q = s.plane q := by
  unfold State.planeRun
  split
  · exact ⟨rfl, rfl⟩
  · split
    · rename_i hb
      have hne : q ≠ p := fun e => h (e ▸ hb)
      unfold State.planeBegin
      split
      · cases q
        · exact ⟨rfl, rfl⟩
        · exact absurd rfl hne
      · exact planeAdvance_other _ _ _ hne
      · exact planeAdvance_other _ _ _ hne
    all_goals exact ⟨rfl, rfl⟩

/-- A plane whose work has begun keeps its stage and itself while the blocks go on. -/
theorem advanceWork_keeps (s : State) (q : PlaneId) (h : s.stage q ≠ .begin) :
    s.advanceWork.stage q = s.stage q ∧ s.advanceWork.plane q = s.plane q := by
  have h1 : s.heapRun.stage q = s.stage q ∧ s.heapRun.plane q = s.plane q := by
    unfold State.heapRun
    split
    · cases q <;> exact ⟨rfl, rfl⟩
    · exact ⟨rfl, rfl⟩
  have h2 := planeRun_keeps s.heapRun .slide q (by rw [h1.1]; exact h)
  have h3 := planeRun_keeps (s.heapRun.planeRun .slide) .menu q (by rw [h2.1, h1.1]; exact h)
  let u := (s.heapRun.planeRun .slide).planeRun .menu
  have h4 : SameStages s.advanceWork u.noteViews := (compRunIf_stages _).1.trans (navRunIf_stages _)
  have h5 : SameStages u.noteViews u := by
    unfold State.noteViews
    split <;> exact ⟨rfl, rfl, rfl, rfl⟩
  obtain ⟨e1, e2, e3, e4⟩ := h4.trans h5
  refine ⟨?_, ?_⟩
  · refine Eq.trans ?_ (h3.1.trans (h2.1.trans h1.1))
    cases q
    · exact e1
    · exact e2
  · refine Eq.trans ?_ (h3.2.trans (h2.2.trans h1.2))
    cases q
    · exact e3
    · exact e4

/-- The unit's part of the work keeps its stage and the unit itself once it has begun. -/
theorem advanceWork_nav (s : State) (h : s.work.nav ≠ .await) :
    s.advanceWork.nav = s.nav ∧ s.advanceWork.work.nav = s.work.nav := by
  have hset (x : State) (p : PlaneId) (g) : (x.setStage p g).work.nav = x.work.nav := by cases p <;> rfl
  have hpl (x : State) (p : PlaneId) (g) : (x.setPlane p g).work.nav = x.work.nav := by cases p <;> rfl
  have ha (x : State) (p : PlaneId) : (x.planeAdvance p).work.nav = x.work.nav := by
    unfold State.planeAdvance State.planeOps State.publish State.setContent
    dsimp only
    (repeat' split) <;> simp only [hset, hpl]
  have hs (x : State) (p : PlaneId) : (x.planeRun p).work.nav = x.work.nav := by
    unfold State.planeRun State.planeBegin
    (repeat' split) <;> first | rfl | exact ha _ _
  have hh : s.heapRun.work.nav = s.work.nav := by
    unfold State.heapRun
    split <;> rfl
  let u := ((s.heapRun.planeRun .slide).planeRun .menu).noteViews
  have hu : u.work.nav = s.work.nav := by
    rw [show u.work = ((s.heapRun.planeRun .slide).planeRun .menu).work by simp [u], hs, hs, hh]
  have hun : u.nav = s.nav := by simp [u]
  have hr : u.navRunIf = u := by
    unfold State.navRunIf
    split
    · rename_i h1 _
      exact absurd (hu ▸ h1) h
    · rfl
  have e : s.advanceWork = u.navRunIf.compRunIf := rfl
  rw [e, hr, (compRunIf_stages u).2, hu]
  exact ⟨by simp [hun], rfl⟩

/-- Readiness looks at the entry view and at what a slot names, not at its holds (R24, R58). -/
theorem readySlot_congr (s u : State) (x : SlotId) (h1 : u.heap.view = s.heap.view)
    (h2 : (u.slot x).withHolds 0 = (s.slot x).withHolds 0) : u.readySlot x = s.readySlot x := by
  unfold State.readySlot State.objView State.staged
  rw [h1]
  cases hu : u.slot x <;> cases hs : s.slot x <;> simp_all [Slot.withHolds, Slot.named]

/-- Step 3 of R79 and what follows it. -/
theorem planeOps_spec (s u : State) (q : PlaneId) (hr : ∀ x, u.readySlot x = s.readySlot x) :
    s.OperatesOrPublishes (u.planeOps q).advanceWork q := by
  have hh : u.headBegins q = true ↔ ∃ pre e rest, (u.plane q).schedule = pre ++ e :: rest ∧ (∀ x ∈ pre, x.later = true)
      ∧ e.later = false ∧ reached u.timer.stamp e.due = true ∧ ∀ x, e.page = some x → s.readySlot x = true := by
    unfold State.headBegins
    cases ht : takeHead (u.plane q).schedule with
    | none =>
      rw [takeHead_none] at ht
      simp only [Bool.false_eq_true, false_iff]
      rintro ⟨pre, e, rest, he, hp, hl, -⟩
      have := ht e (by rw [he]; simp)
      simp_all
    | some v =>
      obtain ⟨e, r⟩ := v
      obtain ⟨pre, post, he, hrr, hl, hp⟩ := takeHead_some ht
      constructor
      · intro hb
        simp only [Bool.and_eq_true] at hb
        refine ⟨pre, e, post, he, hp, hl, hb.1, fun x hx => ?_⟩
        rw [← hr]
        simpa [hx] using hb.2
      · rintro ⟨pre', e', post', he', hp', hl', hd, hx⟩
        have h' := takeHead_pre pre' e' post' hp' hl'
        rw [he', h'] at ht
        cases ht
        simp only [hd, Bool.true_and]
        cases hpg : e.page with
        | none => rfl
        | some x => simpa [hr] using hx x hpg
  have hst : (u.planeOps q).stage q ≠ .begin := by
    unfold State.planeOps
    split
    · simp [setStage_stage]
    · simp [State.publish, setStage_stage]
  obtain ⟨k1, k2⟩ := advanceWork_keeps _ q hst
  have tm : (u.planeOps q).advanceWork.timer = u.timer := by simp
  have sched : ((u.planeOps q).plane q).schedule = (u.plane q).schedule := by
    unfold State.planeOps
    split
    · simp [setStage_plane]
    · simp [State.publish, setStage_plane]
  unfold State.OperatesOrPublishes State.HeadReady
  rw [k1, k2, tm, sched, ← hh]
  constructor
  · intro h
    unfold State.planeOps
    rw [if_pos h]
    simp [setStage_stage]
  · intro h
    unfold State.planeOps
    rw [if_neg h]
    simp [State.publish, setStage_stage, setStage_plane]

/-! ### Releases (R57) -/

theorem withHolds_withHolds (x : Slot) (n m : Nat) : (x.withHolds n).withHolds m = x.withHolds m := by cases x <;> rfl

/-- No release at all. -/
theorem releases_nil (s t : State) (h : t.slots = s.slots) : s.Releases t [] := by
  intro x
  simp [slot_congr h]

/-- Releases look at the slots alone. -/
theorem Releases.slots {s t u : State} {l : List (Option SlotId)} (h : s.Releases t l) (e : u.slots = t.slots) : s.Releases u l := by
  intro x
  rw [slot_congr e]
  exact h x

/-- One more release of a slot, if one is named. -/
theorem Releases.more {s u : State} {l : List (Option SlotId)} (h : s.Releases u l) (x : Option SlotId) :
    s.Releases (u.release? x) (l ++ [x]) := by
  cases x with
  | none =>
    intro y
    rw [show u.release? none = u from rfl, h y]
    simp [List.filter_append]
  | some x =>
    intro y
    rw [show u.release? (some x) = u.releaseHold x from rfl, releaseHold_slot, h y, List.filter_append, List.length_append]
    by_cases e : x = y
    · subst e
      simp [withHolds_withHolds]
      cases s.slot x <;> simp [Slot.withHolds, Slot.holds]
      omega
    · simp [e]

/-- Releases leave readiness alone under the same entry view. -/
theorem Releases.ready {s u : State} {l : List (Option SlotId)} (h : s.Releases u l) (hv : u.heap.view = s.heap.view) (x : SlotId) :
    u.readySlot x = s.readySlot x := by
  apply readySlot_congr _ _ _ hv
  rw [h x]
  simp [withHolds_withHolds]

/-- A transition that ends releases its outgoing role's hold (R80, R83). -/
theorem settle_releases (s : State) (q : PlaneId) : s.Releases (s.settle q) [(s.plane q).content.outgoing] := by
  have := Releases.more (releases_nil s (s.setContent q (Content.standing (s.plane q).content.settled)) (by cases q <;> rfl))
    (s.plane q).content.outgoing
  simpa [State.settle] using this

/-! ### The lookahead (R99, R101) -/

/-- The lines that line fetch begins one after another: as many as there are free buffers and lines left. -/
theorem beginLines_full (p : PlaneId) : ∀ (n : Nat) (s : State),
    let k := min n (min (4 - (s.raster p).bufs.length) (s.planeSize.2 - (s.raster p).next))
    let l := List.range' (s.raster p).next k
    let d := (l.map fun y => (covering y (s.raster p).spans).length - 16).sum
    let t := State.beginLines p n s
    t.raster p = { s.raster p with
        next := (s.raster p).next + k, bufs := (s.raster p).bufs ++ l.map (lineBegun (s.raster p).spans) }
      ∧ t.composer = { s.composer with slide := t.composer.slide, menu := t.composer.menu, drops := s.composer.drops + d }
      ∧ t = { s with composer := t.composer, stats := { s.stats with drops := s.stats.drops + BitVec.ofNat 32 d } }
  | 0, s => by simp [State.beginLines]
  | n + 1, s => by
    have ih := beginLines_full p n (s.beginLine p)
    have hz : (s.beginLine p).planeSize = s.planeSize := by rw [(beginLine_eq p s).1]; rfl
    dsimp only at ih ⊢
    rw [hz] at ih
    rw [State.beginLines]
    by_cases h : (s.raster p).next < s.planeSize.2 ∧ (s.raster p).bufs.length < 4
    · have hb : (s.beginLine p).raster p =
          { s.raster p with next := (s.raster p).next + 1,
                            bufs := (s.raster p).bufs ++ [lineBegun (s.raster p).spans (s.raster p).next] } := by
        unfold State.beginLine
        dsimp only
        rw [if_pos (show _ ∧ _ < Config.lineBuffers from h)]
        cases p <;> rfl
      have hd : (s.beginLine p).composer =
            { s.composer with
              slide := (s.beginLine p).composer.slide, menu := (s.beginLine p).composer.menu,
              drops := s.composer.drops + ((covering (s.raster p).next (s.raster p).spans).length - 16) }
          ∧ (s.beginLine p).stats = { s.stats with
              drops := s.stats.drops + BitVec.ofNat 32 ((covering (s.raster p).next (s.raster p).spans).length - 16) } := by
        unfold State.beginLine
        dsimp only
        rw [if_pos (show _ ∧ _ < Config.lineBuffers from h)]
        cases p <;> exact ⟨rfl, rfl⟩
      have he := (beginLine_eq p s).1
      obtain ⟨c, e, hu⟩ : ∃ c e, s.beginLine p = { s with composer := c, stats := e } := ⟨_, _, he⟩
      rw [hu] at ih hb hd ⊢
      clear he hu hz
      obtain ⟨i1, i2, i3⟩ := ih
      rw [hb] at i1 i2 i3
      simp only [List.length_append, List.length_singleton] at i1 i2 i3
      have hk : min (n + 1) (min (4 - (s.raster p).bufs.length) (s.planeSize.2 - (s.raster p).next)) =
          min n (min (4 - ((s.raster p).bufs.length + 1)) (s.planeSize.2 - ((s.raster p).next + 1))) + 1 := by omega
      rw [hk]
      generalize min n (min (4 - ((s.raster p).bufs.length + 1)) (s.planeSize.2 - ((s.raster p).next + 1))) = k at *
      rw [List.range'_succ]
      simp only [List.map_cons, List.sum_cons]
      refine ⟨?_, ?_, ?_⟩
      · rw [i1]
        simp
        omega
      · rw [i2]
        have h1 : c = _ := hd.1
        rw [h1]
        simp
        omega
      · rw [i3]
        have h1 : e = _ := hd.2
        rw [h1]
        simp only [BitVec.ofNat_add, ← BitVec.add_assoc]
    · have hb : s.beginLine p = s := by
        unfold State.beginLine
        dsimp only
        rw [if_neg (show ¬ (_ ∧ _ < Config.lineBuffers) from h)]
      rw [hb] at ih ⊢
      have hk : min (n + 1) (min (4 - (s.raster p).bufs.length) (s.planeSize.2 - (s.raster p).next)) =
          min n (min (4 - (s.raster p).bufs.length) (s.planeSize.2 - (s.raster p).next)) := by omega
      rw [hk]
      exact ih

end Sys2Proof.Machine
end

