-- ==== Sys2Proof/Laws/Finish.lean ====
section
/-! SUPPORT. The end of frame-start work: what each step leaves outstanding, that the model's rounds finish all of it, and that no command
brings the slide plane's work to a jump. -/

namespace Sys2Proof.Machine

/-! ### How far the blocks go on (log 3) -/

/-- Unchanged: the stages of the heap manager's and the palette store's work. -/
abbrev SameEarly (t s : State) : Prop := t.work.heap = s.work.heap ∧ t.work.palette = s.work.palette

theorem setStage_early (s : State) (p : PlaneId) (g : PlaneStage) : SameEarly (s.setStage p g) s := by
  cases p <;> exact ⟨rfl, rfl⟩

theorem planeOps_stage (s : State) (p : PlaneId) : (s.planeOps p).stage p = .ops ∨ (s.planeOps p).stage p = .idle := by
  unfold State.planeOps
  split
  · exact .inl (by simp [setStage_stage])
  · exact .inr (by simp [State.publish, setStage_stage])

theorem planeOps_schedule (s : State) (p : PlaneId) : ((s.planeOps p).plane p).schedule = (s.plane p).schedule := by
  unfold State.planeOps
  split
  · simp [setStage_plane]
  · simp [State.publish, setStage_plane]

theorem planeOps_early (s : State) (p : PlaneId) : SameEarly (s.planeOps p) s := by
  unfold State.planeOps
  split
  · exact setStage_early _ _ _
  · cases p <;> exact ⟨rfl, rfl⟩

theorem planeAdvance_stage (s : State) (p : PlaneId) :
    (s.planeAdvance p).stage p = .transEnd ∨ (s.planeAdvance p).stage p = .ops ∨ (s.planeAdvance p).stage p = .idle := by
  unfold State.planeAdvance
  dsimp only
  split
  · exact .inl (by simp [setStage_stage])
  · exact .inr (planeOps_stage _ p)

theorem planeAdvance_schedule (s : State) (p : PlaneId) : ((s.planeAdvance p).plane p).schedule = (s.plane p).schedule := by
  unfold State.planeAdvance
  dsimp only
  split
  · cases p <;> rfl
  · rw [planeOps_schedule]
    cases p <;> rfl

theorem planeAdvance_early (s : State) (p : PlaneId) : SameEarly (s.planeAdvance p) s := by
  unfold State.planeAdvance
  dsimp only
  split
  · cases p <;> exact ⟨rfl, rfl⟩
  · refine ⟨(planeOps_early _ p).1.trans ?_, (planeOps_early _ p).2.trans ?_⟩ <;> cases p <;> rfl

/-- What one plane's part of the work does: begun or not, only the menu plane comes to a jump, and no schedule changes. -/
theorem planeRun_spec (s : State) (p q : PlaneId) :
    SameEarly (s.planeRun p) s ∧ ((s.planeRun p).plane q).schedule = (s.plane q).schedule
      ∧ (q ≠ p → (s.planeRun p).stage q = s.stage q)
      ∧ (s.work.heap = false → (s.planeRun p).stage p ≠ .begin)
      ∧ (s.work.slide ≠ .jump → (s.planeRun p).work.slide ≠ .jump) := by
  have adv : (s.stage p = .begin) → SameEarly (s.planeAdvance p) s ∧ ((s.planeAdvance p).plane q).schedule = (s.plane q).schedule
      ∧ (q ≠ p → (s.planeAdvance p).stage q = s.stage q)
      ∧ (s.work.heap = false → (s.planeAdvance p).stage p ≠ .begin)
      ∧ (s.work.slide ≠ .jump → (s.planeAdvance p).work.slide ≠ .jump) := by
    intro hb
    have hs := planeAdvance_stage s p
    refine ⟨planeAdvance_early s p, ?_, fun h => (planeAdvance_other s p q h).1, fun _ e => by simp [e] at hs, fun h e => ?_⟩
    · by_cases h : q = p
      · subst h
        exact planeAdvance_schedule s q
      · rw [(planeAdvance_other s p q h).2]
    · cases p with
      | slide =>
        rw [show (s.planeAdvance .slide).stage .slide = (s.planeAdvance .slide).work.slide from rfl, e] at hs
        simp at hs
      | menu => exact h ((planeAdvance_other s .menu .slide (by decide)).1.symm.trans e)
  unfold State.planeRun
  split
  · rename_i hh
    exact ⟨⟨rfl, rfl⟩, rfl, fun _ => rfl, fun e => by simp [e] at hh, id⟩
  · split
    · rename_i hb
      unfold State.planeBegin
      split
      · refine ⟨⟨rfl, rfl⟩, by cases q <;> rfl, fun h => ?_, fun _ e => PlaneStage.noConfusion e, id⟩
        cases q
        · rfl
        · exact absurd rfl h
      · exact adv hb
      · exact adv hb
    all_goals
      rename_i hb
      exact ⟨⟨rfl, rfl⟩, rfl, fun _ => rfl, fun _ e => by simp [hb] at e, id⟩

theorem navRunIf_early (s : State) : SameEarly s.navRunIf s := by
  unfold State.navRunIf
  split
  · unfold State.navRun
    split
    · exact ⟨by rw [navJudge_work], by rw [navJudge_work]⟩
    · exact ⟨rfl, rfl⟩
  · exact ⟨rfl, rfl⟩

theorem navTimeout_stage (s : State) : s.navTimeout.work.nav = .timeout ∨ s.navTimeout.work.nav = .idle := by
  unfold State.navTimeout
  (repeat' split) <;> first | exact .inl rfl | exact .inr (by rw [navPublish_work])

theorem navDigit_stage (s : State) :
    s.navDigit.work.nav = .expiry ∨ s.navDigit.work.nav = .timeout ∨ s.navDigit.work.nav = .idle := by
  unfold State.navDigit
  (repeat' split) <;> first | exact .inl rfl | exact .inr (navTimeout_stage _)

theorem navJudge_stage (s : State) (v : FrameView) : (s.navJudge v).work.nav ≠ .await := by
  have hd (x : State) : x.navDigit.work.nav ≠ .await := by
    intro e
    have := navDigit_stage x
    simp [e] at this
  unfold State.navJudge State.navAdvance
  dsimp only
  (repeat' split) <;> first | exact hd _ | (rw [navPublish_work]; exact NavStage.noConfusion) | exact fun e => NavStage.noConfusion e

/-- The unit begins once the menu plane has published (R138). -/
theorem navRunIf_begins (s : State) : s.navRunIf.work.menu = .idle → s.navRunIf.work.nav ≠ .await := by
  unfold State.navRunIf
  split
  · intro _
    unfold State.navRun
    split
    · exact navJudge_stage s _
    · exact fun e => NavStage.noConfusion e
  · rename_i h
    exact fun hm hn => h hn hm

/-- What the blocks' going on from `s` to `t` does to the work outstanding: a switch that is due alone keeps the entry view waiting,
once that is taken both planes have begun, no plane but the menu plane comes to a jump, the navigation unit begins once the menu
plane is done, the composer's part is not what alone is left, and no schedule changes. -/
structure Advanced (s t : State) : Prop where
  heap : t.work.heap = true → s.work.heap = true ∧ s.compactor.phase = .switchPending
  palette : t.work.palette = s.work.palette
  schedule : ∀ q, (t.plane q).schedule = (s.plane q).schedule
  planes : t.work.heap = false → ∀ q, t.stage q ≠ .begin
  slide : s.work.slide ≠ .jump → t.work.slide ≠ .jump
  nav : t.work.menu = .idle → t.work.nav ≠ .await
  comp : t.work ≠ { comp := true }

theorem advanceWork_advanced (s : State) : Advanced s s.advanceWork := by
  rw [show s.advanceWork = (((s.heapRun.planeRun .slide).planeRun .menu).noteViews).navRunIf.compRunIf from rfl]
  have ha : (s.heapRun.work.heap = true → s.work.heap = true ∧ s.compactor.phase = .switchPending)
      ∧ s.heapRun.work.palette = s.work.palette ∧ s.heapRun.work.slide = s.work.slide
      ∧ ∀ q, (s.heapRun.plane q).schedule = (s.plane q).schedule := by
    unfold State.heapRun
    split
    · exact ⟨fun h => Bool.noConfusion h, rfl, rfl, fun q => by cases q <;> rfl⟩
    · rename_i h
      exact ⟨fun x => ⟨x, by_contra fun hp => h ⟨x, hp⟩⟩, rfl, rfl, fun _ => rfl⟩
  generalize s.heapRun = a at ha ⊢
  have hb (q) := planeRun_spec a .slide q
  generalize a.planeRun .slide = b at hb ⊢
  have hc (q) := planeRun_spec b .menu q
  generalize b.planeRun .menu = c at hc ⊢
  have hd : c.noteViews.work = c.work ∧ c.noteViews.slide = c.slide ∧ c.noteViews.menu = c.menu := by
    unfold State.noteViews
    split <;> exact ⟨rfl, rfl, rfl⟩
  generalize c.noteViews = d at hd ⊢
  obtain ⟨hd, hds, hdm⟩ := hd
  obtain ⟨n1, n2, n3, n4⟩ := navRunIf_stages d
  obtain ⟨n5, n6⟩ := navRunIf_early d
  have n7 := navRunIf_begins d
  generalize d.navRunIf = e at n1 n2 n3 n4 n5 n6 n7 ⊢
  obtain ⟨⟨f1, f2, f3, f4⟩, f5⟩ := compRunIf_stages e
  obtain ⟨f6, f7, f8⟩ : e.compRunIf.work.heap = e.work.heap ∧ e.compRunIf.work.palette = e.work.palette
      ∧ e.compRunIf.work ≠ { comp := true } := by
    unfold State.compRunIf
    split
    · rename_i h
      rw [compRun_work, h]
      exact ⟨rfl, rfl, by decide⟩
    · rename_i h
      exact ⟨rfl, rfl, h⟩
  generalize e.compRunIf = t at f1 f2 f3 f4 f5 f6 f7 f8 ⊢
  have heap : t.work.heap = a.work.heap := by rw [f6, n5, hd, (hc .slide).1.1, (hb .slide).1.1]
  have slide : t.work.slide = c.work.slide := by rw [f1, n1, hd]
  have menu : t.work.menu = c.work.menu := by rw [f2, n2, hd]
  refine ⟨fun h => ha.1 (heap ▸ h), ?_, fun q => ?_, fun h q => ?_, fun h => ?_, fun h => ?_, f8⟩
  · rw [f7, n6, hd, (hc .slide).1.2, (hb .slide).1.2, ha.2.1]
  · have hp : t.plane q = c.plane q := by
      cases q
      · exact f3.trans (n3.trans hds)
      · exact f4.trans (n4.trans hdm)
    rw [hp, (hc q).2.1, (hb q).2.1, ha.2.2.2]
  · have h0 : a.work.heap = false := heap ▸ h
    cases q
    · show t.work.slide ≠ _
      rw [slide]
      show c.stage .slide ≠ _
      rw [(hc .slide).2.2.1 (by decide)]
      exact (hb .slide).2.2.2.1 h0
    · show t.work.menu ≠ _
      rw [menu]
      exact (hc .menu).2.2.2.1 ((hb .slide).1.1.trans h0)
  · rw [slide]
    exact (hc .slide).2.2.2.2 ((hb .slide).2.2.2.2 (ha.2.2.1 ▸ h))
  · rw [f5]
    exact n7 (f2 ▸ h)


/-! ### The steps that finish the work (log 3) -/

/-- The work has gone past its beginning: the entry view is taken, both planes have begun, the navigation unit has once the menu
plane has published, and the composer is not what alone is left. -/
def State.Begun (s : State) : Prop :=
  s.work.heap = false ∧ s.work.slide ≠ .jump ∧ (∀ q, s.stage q ≠ .begin) ∧ (s.work.menu = .idle → s.work.nav ≠ .await)
    ∧ s.work ≠ { comp := true }

/-- A plane and its stage are unchanged. -/
abbrev SamePlane (t s : State) (q : PlaneId) : Prop := t.stage q = s.stage q ∧ t.plane q = s.plane q

/-- A plane is done, or fewer than `n` entries stand in its schedule. -/
def State.EntriesLeft (s : State) (q : PlaneId) (n : Nat) : Prop := s.stage q = .idle ∨ (s.plane q).schedule.length < n

theorem SamePlane.left {t s : State} {q : PlaneId} {n : Nat} (h : SamePlane t s q) (l : s.EntriesLeft q n) : t.EntriesLeft q n := by
  unfold State.EntriesLeft
  rw [h.1, h.2]
  exact l

theorem advanceWork_begun (u : State) (h : u.work.heap = false) (hj : u.work.slide ≠ .jump) : u.advanceWork.Begun := by
  have a := advanceWork_advanced u
  have hh : u.advanceWork.work.heap = false := by
    by_contra e
    have := (a.heap (by simpa using e)).1
    simp [h] at this
  exact ⟨hh, a.slide hj, a.planes hh, a.nav, a.comp⟩

theorem switchStep_begun (s : State) (hj : s.work.slide ≠ .jump) (hs : s.work.heap = true → s.compactor.phase = .switchPending)
    (hb : s.work.heap = false → s.Begun) :
    s.switchStep.Begun ∧ ∀ q, (s.switchStep.plane q).schedule = (s.plane q).schedule := by
  unfold State.switchStep
  split
  · refine ⟨advanceWork_begun _ rfl ?_, fun q => ?_⟩
    · show s.applySwitch.work.slide ≠ _
      simpa using hj
    · rw [(advanceWork_advanced _).schedule]
      cases q
      · show s.applySwitch.slide.schedule = _
        simp [State.plane]
      · show s.applySwitch.menu.schedule = _
        simp [State.plane]
  · rename_i h
    refine ⟨hb ?_, fun _ => rfl⟩
    by_contra e
    exact h ⟨by simpa using e, hs (by simpa using e)⟩

theorem paletteStep_begun (s : State) (h : s.Begun) :
    s.paletteStep.Begun ∧ s.paletteStep.work.palette = false ∧ ∀ q, SamePlane s.paletteStep s q := by
  unfold State.paletteStep
  split
  · have hw : s.applyPalettes.work = s.work ∧ s.applyPalettes.slide = s.slide ∧ s.applyPalettes.menu = s.menu := by simp
    dsimp only
    generalize s.applyPalettes = a at hw
    obtain ⟨hw, h1, h2⟩ := hw
    refine ⟨advanceWork_begun _ (by simp [hw, h.1]) (by simp [hw, h.2.1]), ?_, fun q => ?_⟩
    · rw [(advanceWork_advanced _).palette]
    · have := h.2.2.1 q
      obtain ⟨e1, e2⟩ := advanceWork_keeps { a with work := { a.work with palette := false } } q
        (by cases q <;> simpa [State.stage, hw] using this)
      unfold SamePlane
      rw [e1, e2]
      cases q <;> simp [State.stage, State.plane, hw, h1, h2]
  · rename_i hp
    exact ⟨h, by simpa using hp, fun _ => ⟨rfl, rfl⟩⟩

theorem release?_plane (s : State) (x : Option SlotId) (q : PlaneId) : (s.release? x).plane q = s.plane q := by
  cases x with
  | none => rfl
  | some x => cases q <;> simp [State.release?, State.plane]

theorem settle_other (s : State) (p q : PlaneId) (h : q ≠ p) : (s.settle p).plane q = s.plane q := by
  simp [State.settle, release?_plane, State.setContent, setPlane_plane, h]

theorem settle_schedule (s : State) (p : PlaneId) : ((s.settle p).plane p).schedule = (s.plane p).schedule := by
  simp [State.settle, release?_plane, State.setContent]

theorem stage_congr {t s : State} (h : t.work = s.work) (q : PlaneId) : t.stage q = s.stage q := by
  cases q <;> simp [State.stage, h]

/-- A step of one plane's work, before the blocks go on: the plane stands at `a`, and nothing else of the work differs. -/
structure PlaneStep (s u : State) (p : PlaneId) : Prop where
  early : SameEarly u s
  other : ∀ q, q ≠ p → SamePlane u s q
  begun : u.stage p ≠ .begin
  slide : u.stage p ≠ .jump

theorem PlaneStep.advance {s u : State} {p : PlaneId} (h : PlaneStep s u p) (hb : s.Begun) :
    u.advanceWork.Begun ∧ u.advanceWork.work.palette = s.work.palette ∧ SamePlane u.advanceWork u p
      ∧ ∀ q, q ≠ p → SamePlane u.advanceWork s q := by
  have hbegin (q) : u.stage q ≠ .begin := by
    by_cases e : q = p
    · exact e ▸ h.begun
    · rw [(h.other q e).1]
      exact hb.2.2.1 q
  have hj : u.work.slide ≠ .jump := by
    show u.stage .slide ≠ _
    by_cases e : PlaneId.slide = p
    · exact e ▸ h.slide
    · rw [(h.other _ e).1]
      exact hb.2.1
  refine ⟨advanceWork_begun u (h.early.1.trans hb.1) hj, (advanceWork_advanced u).palette.trans h.early.2,
    advanceWork_keeps u p (hbegin p), fun q hq => ?_⟩
  have := advanceWork_keeps u q (hbegin q)
  exact ⟨this.1.trans (h.other q hq).1, this.2.trans (h.other q hq).2⟩

theorem planeOps_planeStep (s u : State) (p : PlaneId) (hw : u.work = s.work) (ho : ∀ q, q ≠ p → u.plane q = s.plane q) :
    PlaneStep s (u.planeOps p) p where
  early := ⟨(planeOps_early u p).1.trans (by rw [hw]), (planeOps_early u p).2.trans (by rw [hw])⟩
  other q h := ⟨(planeOps_other u p q h).1.trans (stage_congr hw q), (planeOps_other u p q h).2.trans (ho q h)⟩
  begun e := by have := planeOps_stage u p; simp [e] at this
  slide e := by have := planeOps_stage u p; simp [e] at this

theorem transStep_spec (s : State) (p : PlaneId) (h : s.Begun) :
    (s.transStep p).Begun ∧ (s.transStep p).work.palette = s.work.palette ∧ (∀ q, q ≠ p → SamePlane (s.transStep p) s q)
      ∧ (s.transStep p).stage p ≠ .transEnd ∧ (s.stage p ≠ .jump → (s.transStep p).stage p ≠ .jump)
      ∧ ∀ n, s.EntriesLeft p n → (s.transStep p).EntriesLeft p n := by
  unfold State.transStep
  split
  · rename_i hs
    have hw : (s.settle p).work = s.work := by simp
    have hp := planeOps_planeStep s (s.settle p) p hw fun q hq => settle_other s p q hq
    obtain ⟨b, pal, own, oth⟩ := hp.advance h
    have hst := planeOps_stage (s.settle p) p
    rw [show State.planeOps p (s.settle p) = s.endTransition p from rfl] at b pal own oth hst
    refine ⟨b, pal, oth, fun e => ?_, fun _ e => ?_, fun n l => .inr ?_⟩
    · rw [own.1] at e
      simp [e] at hst
    · rw [own.1] at e
      simp [e] at hst
    · rw [own.2, show s.endTransition p = (s.settle p).planeOps p from rfl, planeOps_schedule, settle_schedule]
      rcases l with l | l
      · rw [hs] at l
        exact PlaneStage.noConfusion l
      · exact l
  all_goals
    rename_i hs
    exact ⟨h, rfl, fun _ _ => ⟨rfl, rfl⟩, by rw [hs]; exact PlaneStage.noConfusion, id, fun _ l => l⟩

/-- What begins changes no other plane, and no schedule. -/
theorem beginShow_plane (s : State) (p q : PlaneId) (x : SlotId) (b : Option Nat) :
    (q ≠ p → (s.beginShow p x b).plane q = s.plane q) ∧ ((s.beginShow p x b).plane q).schedule = (s.plane q).schedule := by
  unfold State.beginShow
  dsimp only
  (repeat' split) <;> cases p <;> cases q <;>
    simp [State.setMark, State.setContent, State.setPlane, State.plane]

theorem beginHide_plane (s : State) (p q : PlaneId) (b : Option Nat) :
    (q ≠ p → (s.beginHide p b).plane q = s.plane q) ∧ ((s.beginHide p b).plane q).schedule = (s.plane q).schedule := by
  unfold State.beginHide
  dsimp only
  (repeat' split) <;> cases p <;> cases q <;>
    simp [State.setContent, State.setPlane, State.plane]

theorem retire_plane (s : State) (t : TaskRef) (o : TaskOutcome) (k : Nat) (l : List (Nat × Byte)) (q : PlaneId) :
    (s.retire t o k l).plane q = s.plane q := by
  cases q <;> simp [State.plane]

/-- The head of a schedule begins: one entry leaves it (R81). -/
theorem beginHead_plane (s : State) (p : PlaneId) :
    (∀ q, q ≠ p → (s.beginHead p).plane q = s.plane q)
      ∧ (s.headBegins p = true → ((s.beginHead p).plane p).schedule.length + 1 = (s.plane p).schedule.length) := by
  unfold State.beginHead State.headBegins
  cases ht : takeHead (s.plane p).schedule with
  | none => exact ⟨fun _ _ => rfl, fun h => Bool.noConfusion h⟩
  | some v =>
    obtain ⟨e, es⟩ := v
    obtain ⟨pre, post, h1, h2, -⟩ := takeHead_some ht
    have hl : es.length + 1 = (s.plane p).schedule.length := by
      rw [h1, h2]
      simp
      omega
    dsimp only
    have hset (q) (hq : q ≠ p) : (s.setPlane p { s.plane p with schedule := es }).plane q = s.plane q := by
      simp [setPlane_plane, hq]
    have hown : ((s.setPlane p { s.plane p with schedule := es }).plane p).schedule = es := by
      simp 
    cases e.page with
    | none =>
      refine ⟨fun q hq => ?_, fun _ => ?_⟩
      · rw [retire_plane, (beginHide_plane _ p q _).1 hq, settle_other _ _ _ hq, hset q hq]
      · rw [retire_plane, (beginHide_plane _ p p _).2, settle_schedule, hown, hl]
    | some x =>
      refine ⟨fun q hq => ?_, fun _ => ?_⟩
      · rw [retire_plane, (beginShow_plane _ p q x _).1 hq, settle_other _ _ _ hq, hset q hq]
      · rw [retire_plane, (beginShow_plane _ p p x _).2, settle_schedule, hown, hl]

theorem publish_planeStep (s : State) (p : PlaneId) : PlaneStep s (s.publish p) p where
  early := by cases p <;> exact ⟨rfl, rfl⟩
  other q h := by simp [SamePlane, State.publish, setStage_stage, setPlane_stage, setStage_plane, setPlane_plane, h]
  begun e := by simp [State.publish, setStage_stage] at e
  slide e := by simp [State.publish, setStage_stage] at e

theorem opStep_spec (s : State) (p : PlaneId) (h : s.Begun) :
    (s.opStep p).Begun ∧ (s.opStep p).work.palette = s.work.palette ∧ (∀ q, q ≠ p → SamePlane (s.opStep p) s q)
      ∧ (s.stage p ≠ .jump → s.stage p ≠ .transEnd → ∀ n, s.EntriesLeft p (n + 1) → (s.opStep p).EntriesLeft p n) := by
  unfold State.opStep
  split
  · rename_i hs
    split
    · rename_i hb
      have hw : (s.beginHead p).work = s.work := by simp
      obtain ⟨h1, h2⟩ := beginHead_plane s p
      have hp := planeOps_planeStep s (s.beginHead p) p hw h1
      obtain ⟨b, pal, own, oth⟩ := hp.advance h
      refine ⟨b, pal, oth, fun _ _ n l => ?_⟩
      rcases l with l | l
      · rw [hs] at l
        exact PlaneStage.noConfusion l
      · refine own.left (.inr ?_)
        rw [planeOps_schedule]
        have := h2 hb
        omega
    · obtain ⟨b, pal, own, oth⟩ := (publish_planeStep s p).advance h
      exact ⟨b, pal, oth, fun _ _ n _ => own.left (.inl (by simp [State.publish, setStage_stage]))⟩
  all_goals
    rename_i hs
    refine ⟨h, rfl, fun _ _ => ⟨rfl, rfl⟩, fun h1 h2 n l => ?_⟩
    first
      | exact .inl hs
      | exact absurd hs (h.2.2.1 p)
      | exact absurd hs h1
      | exact absurd hs h2

theorem applyJump_plane (s : State) (j : Jump) :
    (s.applyJump j).slide = s.slide ∧ (s.applyJump j).menu.schedule = s.menu.schedule := by
  unfold State.applyJump
  split
  · simp [State.setMark, State.setContent, State.setPlane, State.plane, State.settle]
  · split <;> simp

theorem jumpApplyStep_spec (s : State) (h : s.Begun) :
    s.jumpApplyStep.Begun ∧ s.jumpApplyStep.work.palette = s.work.palette ∧ SamePlane s.jumpApplyStep s .slide
      ∧ s.jumpApplyStep.stage .menu ≠ .jump ∧ ∀ n, s.EntriesLeft .menu n → s.jumpApplyStep.EntriesLeft .menu n := by
  unfold State.jumpApplyStep
  split
  · rename_i hs
    have hu : ∃ u : State, s.jumpStep = u.planeAdvance .menu ∧ u.work = s.work ∧ u.slide = s.slide
        ∧ u.menu.schedule = s.menu.schedule := by
      unfold State.jumpStep
      cases s.jump with
      | none => exact ⟨s, rfl, rfl, rfl, rfl⟩
      | some j => exact ⟨s.applyJump j, rfl, by simp, (applyJump_plane s j).1, (applyJump_plane s j).2⟩
    obtain ⟨u, e, hw, h1, h2⟩ := hu
    rw [e]
    have hst := planeAdvance_stage u .menu
    have ho := planeAdvance_other u .menu .slide (by decide)
    have hp : PlaneStep s (u.planeAdvance .menu) .menu :=
      { early := ⟨(planeAdvance_early u .menu).1.trans (by rw [hw]), (planeAdvance_early u .menu).2.trans (by rw [hw])⟩
        other := fun q hq => by
          cases q
          · exact ⟨ho.1.trans (stage_congr hw _), ho.2.trans h1⟩
          · exact absurd rfl hq
        begun := fun x => by simp [x] at hst
        slide := fun x => by simp [x] at hst }
    obtain ⟨b, pal, own, oth⟩ := hp.advance h
    refine ⟨b, pal, oth _ (by decide), fun x => ?_, fun n l => own.left (.inr ?_)⟩
    · rw [own.1] at x
      simp [x] at hst
    · rw [planeAdvance_schedule]
      rcases l with l | l
      · rw [show s.stage .menu = s.work.menu from rfl, hs] at l
        exact PlaneStage.noConfusion l
      · show u.menu.schedule.length < n
        rw [h2]
        exact l
  all_goals
    rename_i hs
    exact ⟨h, rfl, ⟨rfl, rfl⟩, by rw [show s.stage .menu = s.work.menu from rfl, hs]; exact PlaneStage.noConfusion, fun _ l => l⟩

/-- A step of the navigation unit's work, before the blocks go on. -/
structure NavStep (s u : State) : Prop where
  work : u.work = { s.work with nav := u.work.nav }
  slide : u.slide = s.slide
  menu : u.menu = s.menu
  begun : u.work.nav ≠ .await

theorem NavStep.advance {s u : State} (h : NavStep s u) (hb : s.Begun) :
    u.advanceWork.Begun ∧ u.advanceWork.work.palette = s.work.palette ∧ u.advanceWork.work.nav = u.work.nav
      ∧ ∀ q, SamePlane u.advanceWork s q := by
  have hw := h.work
  have hst (q) : u.stage q = s.stage q := by
    cases q
    · show u.work.slide = _
      rw [hw]
      rfl
    · show u.work.menu = _
      rw [hw]
      rfl
  have hpl (q) : u.plane q = s.plane q := by
    cases q
    · exact h.slide
    · exact h.menu
  refine ⟨advanceWork_begun u (by rw [hw]; exact hb.1) (by rw [hw]; exact hb.2.1), ?_, (advanceWork_nav u h.begun).2, fun q => ?_⟩
  · rw [(advanceWork_advanced u).palette, hw]
  · have := advanceWork_keeps u q (by rw [hst]; exact hb.2.2.1 q)
    exact ⟨this.1.trans (hst q), this.2.trans (hpl q)⟩


theorem navDigit_step (s x : State) (hw : x.work = s.work) (hs : x.slide = s.slide) (hm : x.menu = s.menu) : NavStep s x.navDigit where
  work := by rw [navDigit_work, hw]
  slide := (show x.navDigit.slide = x.slide by simp).trans hs
  menu := (show x.navDigit.menu = x.menu by simp).trans hm
  begun e := by have := navDigit_stage x; simp [e] at this

theorem navActEnd_stage (s : State) :
    s.navActEnd.work.nav = .expiry ∨ s.navActEnd.work.nav = .timeout ∨ s.navActEnd.work.nav = .idle := navDigit_stage _

theorem actEndStep_spec (s : State) (h : s.Begun) :
    s.actEndStep.Begun ∧ s.actEndStep.work.palette = s.work.palette ∧ (∀ q, SamePlane s.actEndStep s q)
      ∧ s.actEndStep.work.nav ≠ .actEnd := by
  unfold State.actEndStep
  split
  · have hn : NavStep s s.navActEnd := by
      unfold State.navActEnd
      apply navDigit_step <;> (split <;> simp)
    obtain ⟨b, pal, nav, own⟩ := hn.advance h
    refine ⟨b, pal, own, fun e => ?_⟩
    rw [nav] at e
    have := navActEnd_stage s
    simp [e] at this
  all_goals
    rename_i hs
    exact ⟨h, rfl, fun _ => ⟨rfl, rfl⟩, by rw [hs]; exact NavStage.noConfusion⟩

theorem navExpiry_stage (s : State) : s.navExpiry.work.nav = .timeout ∨ s.navExpiry.work.nav = .idle := navTimeout_stage _

theorem expiryStep_spec (s : State) (h : s.Begun) :
    s.expiryStep.Begun ∧ s.expiryStep.work.palette = s.work.palette ∧ (∀ q, SamePlane s.expiryStep s q)
      ∧ (s.work.nav ≠ .actEnd → s.expiryStep.work.nav ≠ .actEnd) ∧ s.expiryStep.work.nav ≠ .expiry := by
  unfold State.expiryStep
  split
  · have hst := navExpiry_stage s
    have hn : NavStep s s.navExpiry := by
      refine ⟨?_, by simp, by simp, fun e => by simp [e] at hst⟩
      unfold State.navExpiry
      rw [navTimeout_work]
      split <;> simp
    obtain ⟨b, pal, nav, own⟩ := hn.advance h
    exact ⟨b, pal, own, fun _ e => by rw [nav] at e; simp [e] at hst, fun e => by rw [nav] at e; simp [e] at hst⟩
  all_goals
    rename_i hs
    exact ⟨h, rfl, fun _ => ⟨rfl, rfl⟩, id, by rw [hs]; exact NavStage.noConfusion⟩

theorem timeoutStep_spec (s : State) (h : s.Begun) :
    s.timeoutStep.Begun ∧ s.timeoutStep.work.palette = s.work.palette ∧ (∀ q, SamePlane s.timeoutStep s q)
      ∧ (s.work.nav ≠ .actEnd → s.work.nav ≠ .expiry → s.timeoutStep.work.nav = .idle ∨ s.timeoutStep.work.nav = .await) := by
  unfold State.timeoutStep
  split
  · have hw : s.navFire.work = { s.work with nav := .idle } := by
      unfold State.navFire
      rw [navPublish_work]
      split <;> simp
    have hn : NavStep s s.navFire := ⟨by rw [hw], by simp, by simp, by rw [hw]; exact NavStage.noConfusion⟩
    obtain ⟨b, pal, nav, own⟩ := hn.advance h
    exact ⟨b, pal, own, fun _ _ => .inl (nav.trans (by rw [hw]))⟩
  all_goals
    rename_i hs
    refine ⟨h, rfl, fun _ => ⟨rfl, rfl⟩, fun h1 h2 => ?_⟩
    first
      | exact .inl hs
      | exact .inr hs
      | exact absurd hs h1
      | exact absurd hs h2

/-- A state after a round: no application is outstanding, and the navigation unit is done once the menu plane is. -/
def State.Rounded (s : State) : Prop := s.Begun ∧ s.work.palette = false ∧ (s.work.menu = .idle → s.work.nav = .idle)

/-- The steps of a round after the switch: each plane gets one entry nearer to its end. -/
theorem workRound_spec (s : State) (h : s.switchStep.Begun) :
    s.workRound.Rounded ∧ ∀ q n, s.switchStep.EntriesLeft q (n + 1) → s.workRound.EntriesLeft q n := by
  rw [show s.workRound = (((((((((s.switchStep.paletteStep).transStep .slide).opStep .slide).jumpApplyStep).transStep .menu).opStep
    .menu).actEndStep).expiryStep).timeoutStep) from rfl]
  generalize s.switchStep = a at h ⊢
  obtain ⟨b0, pal, keep0⟩ := paletteStep_begun a h
  generalize a.paletteStep = b at b0 pal keep0 ⊢
  obtain ⟨c0, c1, c2, c3, c4, c5⟩ := transStep_spec b .slide b0
  generalize b.transStep .slide = c at c0 c1 c2 c3 c4 c5 ⊢
  obtain ⟨d0, d1, d2, d3⟩ := opStep_spec c .slide c0
  generalize c.opStep .slide = d at d0 d1 d2 d3 ⊢
  obtain ⟨e0, e1, e2, e3, e4⟩ := jumpApplyStep_spec d d0
  generalize d.jumpApplyStep = e at e0 e1 e2 e3 e4 ⊢
  obtain ⟨f0, f1, f2, f3, f4, f5⟩ := transStep_spec e .menu e0
  generalize e.transStep .menu = f at f0 f1 f2 f3 f4 f5 ⊢
  obtain ⟨g0, g1, g2, g3⟩ := opStep_spec f .menu f0
  generalize f.opStep .menu = g at g0 g1 g2 g3 ⊢
  obtain ⟨h0, h1, h2, h3⟩ := actEndStep_spec g g0
  generalize g.actEndStep = k at h0 h1 h2 h3 ⊢
  obtain ⟨i0, i1, i2, i3, i4⟩ := expiryStep_spec k h0
  generalize k.expiryStep = l at i0 i1 i2 i3 i4 ⊢
  obtain ⟨j0, j1, j2, j3⟩ := timeoutStep_spec l i0
  generalize l.timeoutStep = m at j0 j1 j2 j3 ⊢
  refine ⟨⟨j0, by rw [j1, i1, h1, g1, f1, e1, d1, c1, pal], fun hm => ?_⟩, fun q n hq => (j2 q).left ((i2 q).left ((h2 q).left ?_))⟩
  · rcases j3 (i3 h3) i4 with x | x
    · exact x
    · exact absurd x (j0.2.2.2.1 hm)
  · have hb := (keep0 q).left hq
    cases q
    · exact (g2 _ (by decide)).left ((f2 _ (by decide)).left (e2.left (d3 (c4 b0.2.1) c3 n (c5 _ hb))))
    · exact g3 (f4 e3) f3 n (f5 _ (e4 _ ((d2 _ (by decide)).left ((c2 _ (by decide)).left hb))))

theorem switchStep_idle (s : State) (h : s.work.heap = false) : s.switchStep = s := by
  unfold State.switchStep
  rw [if_neg (by simp [h])]

/-- With both planes done nothing is outstanding. -/
theorem rounded_done {s : State} (h : s.Rounded) (l : ∀ q, s.EntriesLeft q 0) : s.work = {} := by
  obtain ⟨⟨h1, -, -, -, h5⟩, h6, h7⟩ := h
  have hs : s.work.slide = .idle := by
    rcases l .slide with x | x
    · exact x
    · exact absurd x (Nat.not_lt_zero _)
  have hm : s.work.menu = .idle := by
    rcases l .menu with x | x
    · exact x
    · exact absurd x (Nat.not_lt_zero _)
  have hn := h7 hm
  generalize s.work = w at *
  obtain ⟨a, b, c, d, e, f⟩ := w
  simp_all

/-- As many rounds as the schedules hold entries finish the work. -/
theorem workRounds_done : ∀ (n : Nat) (s : State), s.Rounded → (∀ q, s.EntriesLeft q n) → (State.workRounds n s).work = {}
  | 0, _, h, l => rounded_done h l
  | n + 1, s, h, l => by
    rw [State.workRounds]
    split
    · assumption
    · have hs := switchStep_idle s h.1.1
      have := workRound_spec s (hs.symm ▸ h.1)
      rw [hs] at this
      exact workRounds_done n _ this.1 fun q => this.2 q n (l q)

/-- All the work of the last frame start is finished within the rounds that the model takes, unless it stands at a jump of the slide
plane, which no command brings about (R79, R88). -/
theorem finishWork_done (s : State) (hj : s.work.slide ≠ .jump) (hs : s.slide.schedule.length ≤ 8) (hm : s.menu.schedule.length ≤ 8) :
    s.finishWork.work = {} := by
  unfold State.finishWork
  split
  · assumption
  · have hl (q) : (s.advanceWork.plane q).schedule.length ≤ 8 := by
      rw [(advanceWork_advanced s).schedule]
      cases q
      · exact hs
      · exact hm
    have a := advanceWork_advanced s
    have hph : s.advanceWork.compactor = s.compactor := by simp
    generalize s.advanceWork = t at *
    rw [show Config.maxSchedule + 2 = 9 + 1 from rfl, State.workRounds]
    split
    · assumption
    · obtain ⟨b1, b2⟩ := switchStep_begun t (a.slide hj) (fun h => hph ▸ (a.heap h).2) fun h =>
        ⟨h, a.slide hj, a.planes h, a.nav, a.comp⟩
      obtain ⟨r1, r2⟩ := workRound_spec t b1
      refine workRounds_done 9 _ r1 fun q => r2 q 9 (.inr ?_)
      rw [b2]
      have := hl q
      omega


/-! ### No jump of the slide plane (R79, R88) -/

/-- A state whose slide plane stands where it stood before. -/
theorem noSlideJump_of_eq {s t : State} (h : s.work.slide ≠ .jump) (e : t.work.slide = s.work.slide) : t.work.slide ≠ .jump := by
  rw [e]
  exact h

theorem advanceWork_noSlideJump {s : State} (h : s.work.slide ≠ .jump) : s.advanceWork.work.slide ≠ .jump :=
  (advanceWork_advanced s).slide h

theorem planeOps_noSlideJump {s : State} (p : PlaneId) (h : s.work.slide ≠ .jump) : (s.planeOps p).work.slide ≠ .jump := by
  cases p with
  | slide =>
    intro e
    have := planeOps_stage s .slide
    rw [show (s.planeOps .slide).stage .slide = _ from e] at this
    simp at this
  | menu => exact fun e => h ((planeOps_other s .menu .slide (by decide)).1.symm.trans e)

theorem planeAdvance_noSlideJump {s : State} (p : PlaneId) (h : s.work.slide ≠ .jump) : (s.planeAdvance p).work.slide ≠ .jump := by
  cases p with
  | slide =>
    intro e
    have := planeAdvance_stage s .slide
    rw [show (s.planeAdvance .slide).stage .slide = _ from e] at this
    simp at this
  | menu => exact fun e => h ((planeAdvance_other s .menu .slide (by decide)).1.symm.trans e)

theorem switchStep_noSlideJump {s : State} (h : s.work.slide ≠ .jump) : s.switchStep.work.slide ≠ .jump := by
  unfold State.switchStep
  split
  · exact advanceWork_noSlideJump (noSlideJump_of_eq h (by simp [State.viewTaken, State.takeEntryView]))
  · exact h

theorem paletteStep_noSlideJump {s : State} (h : s.work.slide ≠ .jump) : s.paletteStep.work.slide ≠ .jump := by
  unfold State.paletteStep
  split
  · exact advanceWork_noSlideJump (noSlideJump_of_eq h (by simp))
  · exact h

theorem transStep_noSlideJump {s : State} (p : PlaneId) (h : s.work.slide ≠ .jump) : (s.transStep p).work.slide ≠ .jump := by
  unfold State.transStep
  split
  · exact advanceWork_noSlideJump (planeOps_noSlideJump p (noSlideJump_of_eq h (by simp)))
  all_goals exact h

theorem opStep_noSlideJump {s : State} (p : PlaneId) (h : s.work.slide ≠ .jump) : (s.opStep p).work.slide ≠ .jump := by
  unfold State.opStep
  split
  · refine advanceWork_noSlideJump ?_
    split
    · exact planeOps_noSlideJump p (noSlideJump_of_eq h (by simp))
    · cases p
      · exact PlaneStage.noConfusion
      · exact h
  all_goals exact h

theorem jumpApplyStep_noSlideJump {s : State} (h : s.work.slide ≠ .jump) : s.jumpApplyStep.work.slide ≠ .jump := by
  unfold State.jumpApplyStep
  split
  · refine advanceWork_noSlideJump (planeAdvance_noSlideJump .menu (noSlideJump_of_eq h ?_))
    split <;> simp
  all_goals exact h

theorem actEndStep_noSlideJump {s : State} (h : s.work.slide ≠ .jump) : s.actEndStep.work.slide ≠ .jump := by
  unfold State.actEndStep
  split
  · refine advanceWork_noSlideJump (noSlideJump_of_eq h ?_)
    unfold State.navActEnd
    rw [navDigit_work]
    split <;> simp
  all_goals exact h

theorem expiryStep_noSlideJump {s : State} (h : s.work.slide ≠ .jump) : s.expiryStep.work.slide ≠ .jump := by
  unfold State.expiryStep
  split
  · refine advanceWork_noSlideJump (noSlideJump_of_eq h ?_)
    unfold State.navExpiry
    rw [navTimeout_work]
    split <;> simp
  all_goals exact h

theorem timeoutStep_noSlideJump {s : State} (h : s.work.slide ≠ .jump) : s.timeoutStep.work.slide ≠ .jump := by
  unfold State.timeoutStep
  split
  · refine advanceWork_noSlideJump (noSlideJump_of_eq h ?_)
    unfold State.navFire
    rw [navPublish_work]
    split <;> simp
  all_goals exact h

theorem workRound_noSlideJump {s : State} (h : s.work.slide ≠ .jump) : s.workRound.work.slide ≠ .jump :=
  timeoutStep_noSlideJump <| expiryStep_noSlideJump <| actEndStep_noSlideJump <| opStep_noSlideJump _ <| transStep_noSlideJump _ <|
    jumpApplyStep_noSlideJump <| opStep_noSlideJump _ <| transStep_noSlideJump _ <| paletteStep_noSlideJump <| switchStep_noSlideJump h

theorem workRounds_noSlideJump : ∀ (n : Nat) {s : State}, s.work.slide ≠ .jump → (State.workRounds n s).work.slide ≠ .jump
  | 0, _, h => h
  | n + 1, s, h => by
    rw [State.workRounds]
    split
    · exact h
    · exact workRounds_noSlideJump n (workRound_noSlideJump h)

theorem finishWork_noSlideJump {s : State} (h : s.work.slide ≠ .jump) : s.finishWork.work.slide ≠ .jump := by
  unfold State.finishWork
  split
  · exact h
  · exact workRounds_noSlideJump _ (advanceWork_noSlideJump h)

theorem workGoesOn_noSlideJump {s : State} (h : s.work.slide ≠ .jump) : s.workGoesOn.work.slide ≠ .jump := by
  unfold State.workGoesOn
  split
  · exact advanceWork_noSlideJump h
  · exact h

theorem acceptFrame_noSlideJump (s : State) : s.acceptFrame.work.slide ≠ .jump := by
  unfold State.acceptFrame
  exact advanceWork_noSlideJump PlaneStage.noConfusion

theorem frameStart_noSlideJump {s : State} (h : s.work.slide ≠ .jump) : s.frameStart.work.slide ≠ .jump := by
  unfold State.frameStart
  split
  · split
    · exact acceptFrame_noSlideJump s
    · exact h
  · exact h

theorem writeControl_work (s : State) (v : Word) : (s.writeControl v).work = s.work ∨ (s.writeControl v).work = {} := by
  simp only [State.writeControl, State.softReset, State.startCommand, State.beginStart, State.beginResume, State.haltCommand,
    State.readSetup]
  (repeat' split) <;> first | exact .inr rfl | exact .inl (by simp)

theorem writeRegister_work (s : State) (r : Reg) (v : Word) : (s.writeRegister r v).work = s.work ∨ (s.writeRegister r v).work = {} := by
  unfold State.writeRegister State.writeSetup State.writeAttention State.writeCause
  dsimp only
  (repeat' split) <;> first | exact writeControl_work s v | exact .inl (by simp)

theorem noSlideJump_of_cases {s t : State} (h : s.work.slide ≠ .jump) (e : t.work = s.work ∨ t.work = {}) : t.work.slide ≠ .jump := by
  rcases e with e | e
  · exact noSlideJump_of_eq h (by rw [e])
  · rw [e]
    exact PlaneStage.noConfusion

theorem land_work (f : Flight) (e : Bool) (s : State) : (s.land f e).work = s.work := by
  unfold State.land
  dsimp only
  split <;> rfl

/-- No command brings the slide plane's work to a jump: jumps are the menu plane's alone (R79, R88). -/
theorem exec_noSlideJump (c : Instr) (s t : State) (h : s.work.slide ≠ .jump) (e : exec c s = .next t) : t.work.slide ≠ .jump := by
  have fw := finishWork_noSlideJump h
  have comp (p : User → Bool) (er : Bool) (k : Flight → State → State)
      (hk : ∀ f x, x.work.slide ≠ .jump → (k f x).work.slide ≠ .jump) : (s.complete p er k).work.slide ≠ .jump :=
    complete_keeps (P := fun x => x.work.slide ≠ .jump) p er k s h (fun f => by rw [land_work]; exact h) hk
  cases c
  all_goals
    obtain rfl := Host.Outcome.next.inj e
    clear e
  case powerOnReset => exact PlaneStage.noConfusion
  case resetPin => exact PlaneStage.noConfusion
  case softReset v => exact noSlideJump_of_cases h (writeControl_work s v)
  case start v => exact noSlideJump_of_cases h (writeControl_work s v)
  case halt v => exact noSlideJump_of_cases h (writeControl_work s v)
  case registerWrite r n v =>
    split
    · exact noSlideJump_of_cases h (writeRegister_work s r v)
    · exact h
  case frameStart n => exact frameStart_noSlideJump (noSlideJump_of_eq fw (by simp))
  case offsetSwitch => exact switchStep_noSlideJump h
  case paletteApply => exact paletteStep_noSlideJump h
  case transitionEnd p => exact transStep_noSlideJump p h
  case operationBegin p => exact opStep_noSlideJump p h
  case jumpApply => exact jumpApplyStep_noSlideJump h
  case activationEnd => exact actEndStep_noSlideJump h
  case digitWindowExpiry => exact expiryStep_noSlideJump h
  case pageTimeout => exact timeoutStep_noSlideJump h
  case lineStart =>
    split
    · exact noSlideJump_of_eq fw (by simp)
    · exact fw
  case pixelClock => exact noSlideJump_of_eq fw (by simp)
  case freeObject =>
    split
    · exact workGoesOn_noSlideJump (noSlideJump_of_eq h (by simp))
    · exact h
  case discardPage =>
    split
    · exact workGoesOn_noSlideJump (noSlideJump_of_eq h (by simp))
    · exact h
  case paletteReadComplete er =>
    apply comp
    intro f x hx
    dsimp only
    (repeat' split)
    · exact noSlideJump_of_eq hx (by simp)
    · exact noSlideJump_of_eq hx (by simp)
    · exact noSlideJump_of_eq (paletteStep_noSlideJump hx) (by simp)
    · exact hx
  case startReadsComplete er =>
    apply comp
    intro f x hx
    refine noSlideJump_of_eq hx ?_
    simp only [State.startRead, State.judgeStart, State.refuseStart, State.readSetup, State.started]
    (repeat' split) <;> simp
  case resumeReadsComplete er =>
    apply comp
    intro f x hx
    refine noSlideJump_of_eq hx ?_
    simp only [State.resumeRead, State.judgeResume, State.refuseResume, State.readSetup, State.resumed]
    (repeat' split) <;> simp
  case burstGrant l =>
    refine noSlideJump_of_eq h ?_
    rcases arbitrate_cases { s with mem := memHost s.mem l } with e | ⟨r, g, b, -, -, -, e⟩
    · exact congrArg (·.work.slide) e
    · refine (congrArg (·.work.slide) e).trans ?_
      simp [State.grant]
  all_goals try (apply comp; intro f x hx; refine noSlideJump_of_eq hx ?_; (try dsimp only); (repeat' split) <;> simp)
  all_goals refine noSlideJump_of_eq h ?_
  all_goals try (simp; done)
  all_goals try ((try dsimp only); (repeat' split) <;> simp)
  all_goals (simp only [State.writeAttention, State.writeCause]; split <;> rfl)

/-! ### The rounds are made of the step commands (log 3) -/

theorem runs_append : ∀ (l m : List Instr) (s u t : State), Runs l s u → Runs m u t → Runs (l ++ m) s t
  | [], m, s, u, t, h, k => by cases h; exact k
  | c :: cs, m, s, u, t, ⟨x, hx, h⟩, k => ⟨x, hx, runs_append cs m x u t h k⟩

/-- A round is each step command once. -/
theorem runs_round (s : State) : Runs workSteps s s.workRound :=
  ⟨_, rfl, _, rfl, _, rfl, _, rfl, _, rfl, _, rfl, _, rfl, _, rfl, _, rfl, _, rfl, rfl⟩

theorem runs_rounds : ∀ (n : Nat) (s : State), ∃ l, (∀ c ∈ l, c ∈ workSteps) ∧ Runs l s (State.workRounds n s)
  | 0, _ => ⟨[], by simp, rfl⟩
  | n + 1, s => by
    rw [State.workRounds]
    split
    · exact ⟨[], by simp, rfl⟩
    · obtain ⟨l, h, k⟩ := runs_rounds n s.workRound
      refine ⟨workSteps ++ l, fun c hc => ?_, runs_append _ _ _ _ _ (runs_round s) k⟩
      rcases List.mem_append.1 hc with x | x
      · exact x
      · exact h c x

end Sys2Proof.Machine
end

