-- ==== Sys2Proof/Laws/NavWork.lean ====
section
/-! SUPPORT. What the navigation unit's frame-start work leaves behind: the records, the live view and the frozen copy that it
publishes, the countdown of the digit window and the page timeout, and an activation with the positions published since. -/

namespace Sys2Proof.Machine

/-! ### Records and views -/

theorem recVector_get (l : List ButtonRec) (i : Fin 24) : (recVector l).get i = l.getD i.val {} := by
  simp [recVector, Vector.get_eq_getElem]

theorem entryRecs_get (sel : Option Nat) : ∀ (l : List Button) (i k : Nat) (y : Button), l[k]? = some y →
   (entryRecs sel i l)[k]? = some (y.atStart (if sel = some (i + k) then .selected else .normal))
  | [], _, _, _, h => by simp at h
  | b :: bs, i, 0, y, h => by simp at h; subst h; simp [entryRecs]
  | b :: bs, i, k + 1, y, h => by
    simp at h
    have := entryRecs_get sel bs (i+1) k y h
    have e : i + 1 + k = i + (k + 1) := by omega
    rw [e] at this; simp [entryRecs, this]

theorem advanceAll_get : ∀ (l : List Button) (rs : List ButtonRec) (k : Nat) (y : Button) (r : ButtonRec), l[k]? = some y → rs[k]? = some r →
   (advanceAll l rs).1[k]? = some (r.advance y).1
  | [], _, _, _, _, h, _ => by simp at h
  | b :: bs, [], _, _, _, _, h => by simp at h
  | b :: bs, r :: rs, 0, y, r', h, h' => by simp at h h'; subst h; subst h'; simp [advanceAll]
  | b :: bs, r :: rs, k + 1, y, r', h, h' => by
    simp at h h'
    have := advanceAll_get bs rs k y r' h h'
    simp [advanceAll, this]

theorem advanceAll_end : ∀ (l : List Button) (rs : List ButtonRec), (advanceAll l rs).2 = true ↔ ∃ (k : Nat) (y : Button) (r : ButtonRec), l[k]? = some y ∧ rs[k]? = some r ∧ (r.advance y).2 = true
  | [], _ => by simp [advanceAll]
  | b :: bs, [] => by simp [advanceAll]
  | b :: bs, r :: rs => by
    simp only [advanceAll, Bool.or_eq_true, advanceAll_end bs rs]
    constructor
    · rintro (h | ⟨k, y, r', h1, h2, h3⟩)
      · exact ⟨0, b, r, rfl, rfl, h⟩
      · exact ⟨k+1, y, r', by simpa only [List.getElem?_cons_succ] using h1, by simpa only [List.getElem?_cons_succ] using h2, h3⟩
    · rintro ⟨k, y, r', h1, h2, h3⟩
      cases k with
      | zero => simp at h1 h2; subst h1; subst h2; exact .inl h3
      | succ k => exact .inr ⟨k, y, r', by simpa only [List.getElem?_cons_succ] using h1, by simpa only [List.getElem?_cons_succ] using h2, h3⟩

theorem publishRecs_get : ∀ (l : List Button) (rs : List ButtonRec) (k : Nat) (r : ButtonRec), k < l.length → rs[k]? = some r →
   (publishRecs l rs)[k]? = some { r with pub := true }
  | [], _, _, _, h, _ => by simp at h
  | b :: bs, [], _, _, _, h => by simp at h
  | b :: bs, r :: rs, 0, r', h, h' => by simp at h'; subst h'; simp [publishRecs]
  | b :: bs, r :: rs, k + 1, r', h, h' => by
    simp at h h'
    simp [publishRecs, publishRecs_get bs rs k r' h h']

theorem toList_get (v : Vector ButtonRec 24) (i : Fin 24) : v.toList[i.val]? = some (v.get i) := by
  simp [Vector.get]

/-- Publishing on a navigation page (R138). -/
theorem navPublish_page (x : State) (p : SlotId) (d : PageDef) (h1 : x.navSlot = some p) (h2 : x.page p = some d) :
   let t := x.navPublish
   t = { x with nav := { x.nav with frozen := t.nav.frozen, live := some (x.liveView p d), buttons := recVector (publishRecs d.buttons x.nav.buttons.toList) }, work := { x.work with nav := .idle } } := by
  have h3 : x.navPage = some d := by simp [State.navPage, h1, h2]
  simp only [State.navPublish]
  simp only [h1, h3]
  rfl

theorem publishRecs_buttons (x : State) (d : PageDef) (i : Fin 24) (y : Button) (h : d.buttons[i.val]? = some y) :
   (recVector (publishRecs d.buttons x.nav.buttons.toList)).get i = { x.nav.buttons.get i with pub := true } := by
  rw [recVector_get, List.getD, publishRecs_get d.buttons _ i.val (x.nav.buttons.get i) (List.getElem?_eq_some_iff.1 h).1 (toList_get _ _)]
  rfl


theorem publishRecs_past : ∀ (l : List Button) (rs : List ButtonRec) (k : Nat), l.length ≤ k → (publishRecs l rs)[k]? = rs[k]?
  | [], _, _, _ => rfl
  | b :: bs, [], _, _ => by simp [publishRecs]
  | b :: bs, r :: rs, 0, h => by simp at h
  | b :: bs, r :: rs, k + 1, h => by simp at h; simp [publishRecs, publishRecs_past bs rs k h]
theorem publishRecs_keeps (x : State) (d : PageDef) (i : Fin 24) :
   (recVector (publishRecs d.buttons x.nav.buttons.toList)).get i = match d.buttons[i.val]? with | none => x.nav.buttons.get i | some _ => (x.nav.buttons.get i).published true := by
  cases h : d.buttons[i.val]? with
  | some y => rw [publishRecs_buttons x d i y h]; simp [ButtonRec.published]
  | none =>
    rw [recVector_get, List.getD, publishRecs_past _ _ _ (by simpa using h), toList_get]; rfl

theorem entryViews_get (w : Word) (sel : Option Nat) : ∀ (l : List Button) (i k : Nat) (y : Button), l[k]? = some y →
   (entryViews w sel i l)[k]? = some { visible := y.visible w, vis := if sel = some (i + k) then .selected else .normal, pair := 0 }
  | [], _, _, _, h => by simp at h
  | b :: bs, i, 0, y, h => by simp at h; subst h; simp [entryViews]
  | b :: bs, i, k + 1, y, h => by
    simp at h
    have := entryViews_get w sel bs (i+1) k y h
    have e : i + 1 + k = i + (k + 1) := by omega
    rw [e] at this; simp [entryViews, this]
theorem entryViews_len (w : Word) (sel : Option Nat) : ∀ (l : List Button) (i : Nat), (entryViews w sel i l).length = l.length
  | [], _ => rfl
  | b :: bs, i => by simp [entryViews, entryViews_len w sel bs]

/-- The frozen copy formed for a view is the one R137 asks for. -/
theorem frozenFor_shows (x t : State) (v : FrameView) (h1 : t.nav.frozen = x.frozenFor v) (h2 : t.nav.word = x.nav.word) (h3 : t.slots = x.slots) : t.ShowsFrozen v x.nav.frozen := by
  have hp (o) : t.page o = x.page o := by simp [State.page, slot_congr h3]
  have hout : ∀ o, v.content.outgoing = some o → o ∈ v.content.roles := by
    intro o h; cases hc : v.content <;> simp_all [Content.outgoing, Content.roles]
  refine ⟨?_, ?_, ?_, ?_⟩
  · intro f o hf ho hs
    rw [h1]; unfold State.frozenFor; simp [hf, ho, hs, hout o ho, Option.filter]
  · intro f hf ho hr
    rw [h1]; unfold State.frozenFor; simp [hf, ho, hr, Option.filter]
  · intro ho hf
    rw [h1]; unfold State.frozenFor
    cases hh : x.nav.frozen with
    | none => simp [ho, Option.filter]
    | some f => simp [ho, hf f hh, Option.filter]
  · intro o d ho hd hf
    rw [hp] at hd
    have : t.nav.frozen = some { slot := o, buttons := entryViews x.nav.word (d.entryChoice x.nav.word) 0 d.buttons } := by
      rw [h1]; unfold State.frozenFor
      cases hh : x.nav.frozen with
      | none => simp [ho, hd, Option.filter]
      | some f =>
        have := hf f hh
        by_cases hr : f.slot ∈ v.content.roles <;> simp [ho, hr, hd, Option.filter, this]
    refine ⟨_, this, rfl, entryViews_len _ _ _ _, fun i y hy => ?_⟩
    rw [h2]
    have := entryViews_get x.nav.word (d.entryChoice x.nav.word) d.buttons 0 i y hy
    simpa using this

/-- The live view published is the page as it stands (R138). -/
theorem liveView_shows (x t : State) (p : SlotId) (d : PageDef) (h1 : t.nav.live = some (x.liveView p d)) (h2 : t.nav.word = x.nav.word) (h3 : x.KeepsRecords t d true) : t.ShowsLive p d := by
  intro hl
  refine ⟨_, h1, rfl, by simp [State.liveView]; omega, fun i y h => ?_⟩
  have := h3 i
  rw [h] at this
  simp only [State.liveView, List.getElem?_zipWith, h, toList_get, h2, this, ButtonRec.published]

/-- What publishing does on a navigation page (R137, R138). -/
def State.Publishes (x t : State) (p : SlotId) (d : PageDef) : Prop :=
  t.nav = { x.nav with frozen := t.nav.frozen, live := t.nav.live, buttons := t.nav.buttons } ∧ t = { x with nav := t.nav, work := { x.work with nav := .idle } }
  ∧ x.KeepsRecords t d true ∧ t.ShowsLive p d ∧ ∀ v, x.nav.judged = some v → t.ShowsFrozen v x.nav.frozen
theorem navPublish_publishes (x : State) (p : SlotId) (d : PageDef) (h1 : x.navSlot = some p) (h2 : x.page p = some d) : x.Publishes x.navPublish p d := by
  have e := navPublish_page x p d h1 h2
  dsimp only at e
  have k : x.KeepsRecords x.navPublish d true := by
    intro i; rw [e]; exact publishRecs_keeps x d i
  refine ⟨by rw [e], by rw [e], k, ?_, ?_⟩
  · exact liveView_shows x _ p d (by rw [e]) (by rw [e]) k
  · intro v hv
    apply frozenFor_shows
    · unfold State.navPublish; dsimp only
      have h3 : x.navPage = some d := by simp [State.navPage, h1, h2]
      simp only [h1, h3, hv]; rfl
    · rw [e]
    · rw [e]

/-- What the countdown and the publishing of the unit's frame-start work leave behind (R138). -/
structure CountedDown (x t : State) (p : SlotId) (d : PageDef) : Prop where
  nav : t.nav = { x.nav with frozen := t.nav.frozen, live := t.nav.live, buttons := t.nav.buttons, timeout := t.nav.timeout, digit := t.nav.digit }
  all : t = { x with nav := t.nav, work := { x.work with nav := t.work.nav } }
  recs : x.KeepsRecords t d (decide (t.work.nav = .idle))
  pub : x.PublishesOrWaits t p d
  stage : t.work.nav = .idle ∨ t.work.nav = .timeout ∨ t.work.nav = .expiry

theorem KeepsRecords.of {x x' t : State} {d b} (h : x'.nav.buttons = x.nav.buttons) (k : x'.KeepsRecords t d b) : x.KeepsRecords t d b := by
  unfold State.KeepsRecords at *; rw [← h]; exact k

/-- The page timeout's part of step 3 (R166). -/
theorem navTimeout_spec (x : State) (p : SlotId) (d : PageDef) (h1 : x.navSlot = some p) (h2 : x.page p = some d) (hdig : x.nav.digit = none):
   CountedDown x x.navTimeout p d ∧ x.navTimeout.CountsDown none x.nav.timeout := by
  unfold State.navTimeout
  simp only [h1, Option.isSome_some, true_and]
  have wait (g : NavStage) (hg : g ≠ .idle) (h : g = .timeout ∨ g = .expiry) (n) (dg) : CountedDown x (State.setNavStage g { x with nav := { x.nav with timeout := n, digit := dg } }) p d := by
    refine ⟨rfl, rfl, ?_, ?_, .inr h⟩
    · intro k; simp [State.setNavStage, hg]; split <;> simp
    · exact ⟨fun h => absurd h hg, fun _ => ⟨rfl, rfl⟩⟩
  have pub (n) (dg) : CountedDown x (State.navPublish { x with nav := { x.nav with timeout := n, digit := dg } }) p d
      ∧ (State.navPublish { x with nav := { x.nav with timeout := n, digit := dg } }).nav.timeout = n ∧ (State.navPublish { x with nav := { x.nav with timeout := n, digit := dg } }).nav.digit = dg ∧ (State.navPublish { x with nav := { x.nav with timeout := n, digit := dg } }).nav.activation = x.nav.activation ∧ (State.navPublish { x with nav := { x.nav with timeout := n, digit := dg } }).jump = x.jump
      ∧ (State.navPublish { x with nav := { x.nav with timeout := n, digit := dg } }).work.nav = .idle := by
    obtain ⟨a, b, c, e, f⟩ := navPublish_publishes { x with nav := { x.nav with timeout := n, digit := dg } } p d h1 h2
    generalize State.navPublish { x with nav := { x.nav with timeout := n, digit := dg } } = t at *
    have hw : t.work.nav = .idle := by rw [b]
    refine ⟨⟨?_, ?_, ?_, ?_, .inl hw⟩, ?_, ?_, ?_, ?_, hw⟩
    · rw [a]
    · rw [b]
    · simp only [hw, decide_true]; exact KeepsRecords.of rfl c
    · exact ⟨fun _ => ⟨e, f⟩, fun h => absurd hw h⟩
    · rw [a]
    · rw [a]
    · rw [a]
    · rw [b]
  by_cases c : 0 < x.nav.timeout ∧ x.nav.activation = none ∧ x.nav.digit = none ∧ x.jump = none
  · rw [if_pos c]
    by_cases ht : x.nav.timeout = 1
    · rw [if_pos ht]
      refine ⟨by simpa using wait .timeout (by simp) (.inl rfl) (x.nav.timeout - 1) x.nav.digit, ?_⟩
      simp [State.CountsDown, State.setNavStage, c, ht]
    · rw [if_neg ht]
      obtain ⟨P, q1, q2, q3, q4, q5⟩ := pub (x.nav.timeout - 1) x.nav.digit
      refine ⟨P, ?_⟩
      simp only [State.CountsDown]
      rw [show ({ x with nav := { x.nav with timeout := x.nav.timeout - 1 } } : State) = { x with nav := { x.nav with timeout := x.nav.timeout - 1, digit := x.nav.digit } } from rfl]
      rw [q1, q2, q3, q4, q5]
      simp [c, ht]
  · rw [if_neg c]
    obtain ⟨P, q1, q2, q3, q4, q5⟩ := pub (x.nav.timeout) x.nav.digit
    refine ⟨P, ?_⟩
    simp only [State.CountsDown]
    rw [show x = { x with nav := { x.nav with timeout := x.nav.timeout, digit := x.nav.digit } } from rfl]
    rw [q1, q2, q3, q4, q5]
    have c' : ¬ (0 < x.nav.timeout ∧ x.nav.activation = none ∧ x.jump = none) := by
        intro h; exact c ⟨h.1, h.2.1, hdig, h.2.2⟩
    simp [hdig]
    simp only [not_and] at c'
    refine ⟨fun a b c => absurd c (c' a b), fun a b c => absurd c (c' a b)⟩

/-- The digit window's part of step 3 and what follows it (R163). -/
theorem navDigit_spec (x : State) (p : SlotId) (d : PageDef) (h1 : x.navSlot = some p) (h2 : x.page p = some d) :
   CountedDown x x.navDigit p d ∧ x.navDigit.CountsDown x.nav.digit x.nav.timeout := by
  cases hd : x.nav.digit with
  | none =>
    have e0 : x.navDigit = x.navTimeout := by unfold State.navDigit; rw [hd]
    rw [e0]; exact navTimeout_spec x p d h1 h2 hd
  | some e =>
    by_cases hl : e.left ≤ 1
    · have : x.navDigit = State.setNavStage .expiry { x with nav := { x.nav with digit := some { e with left := e.left - 1 } } } := by
        unfold State.navDigit; rw [hd]; simp only [hl, if_true]
      rw [this]
      refine ⟨⟨rfl, rfl, ?_, ⟨fun h => by simp [State.setNavStage] at h, fun _ => ⟨rfl, rfl⟩⟩, .inr (.inr rfl)⟩, ?_⟩
      · intro k; simp [State.setNavStage]; split <;> simp
      · simp [State.CountsDown, State.setNavStage, hl]
    · have : x.navDigit = State.navPublish { x with nav := { x.nav with digit := some { e with left := e.left - 1 } } } := by
        unfold State.navDigit; rw [hd]; simp only [hl, if_false]
        unfold State.navTimeout; simp
      rw [this]
      obtain ⟨a, b, c, g, f⟩ := navPublish_publishes { x with nav := { x.nav with digit := some { e with left := e.left - 1 } } } p d h1 h2
      generalize State.navPublish { x with nav := { x.nav with digit := some { e with left := e.left - 1 } } } = t at *
      have hw : t.work.nav = .idle := by rw [b]
      refine ⟨⟨by rw [a], by rw [b], ?_, ⟨fun _ => ⟨g, f⟩, fun h => absurd hw h⟩, .inl hw⟩, ?_⟩
      · simp only [hw, decide_true]; exact KeepsRecords.of rfl c
      · simp only [State.CountsDown, hw]; rw [a]; simp; omega

/-- Actions run, with the positions published since. -/
theorem ActionsRun.published (s x t : State) (slot d b y) (h : s.ActionsRun x slot d b y false) (n : t.nav.word = x.nav.word ∧ t.nav.activation = x.nav.activation ∧ t.nav.selected = x.nav.selected ∧ t.notices = x.notices ∧ t.jump = x.jump ∧ t.slots = x.slots) (pub) (k : x.KeepsRecords t d pub) : s.ActionsRun t slot d b y pub := by
  obtain ⟨n1, n2, n3, n4, n5, n6⟩ := n
  obtain ⟨a1, a2, a3, a4, a5, a6, a7, a8⟩ := h
  unfold State.ActionsRun
  rw [n1, n2, n3, n4, n5, n6]
  refine ⟨a1, a2, a3, a4, a5, ?_, a7, ?_⟩
  · intro i
    rw [k i]
    have := a6 i
    cases hd : d.buttons[i.val]? with
    | none => simpa [hd] using this
    | some z => simp only [hd] at this ⊢; rw [this]; simp
  · intro xx hx
    have := a8 xx hx
    simp only [slot_congr n6]; exact this
/-- An activation, with the positions published since. -/
theorem Activates.published (s x t : State) (slot d b) (h : s.Activates x slot d b false) (n : t.nav.word = x.nav.word ∧ t.nav.activation = x.nav.activation ∧ t.nav.selected = x.nav.selected ∧ t.notices = x.notices ∧ t.jump = x.jump ∧ t.slots = x.slots) (pub) (k : x.KeepsRecords t d pub) : s.Activates t slot d b pub := by
  intro y hy
  obtain ⟨h1, h2⟩ := h y hy
  refine ⟨fun he => ?_, fun he hj => ActionsRun.published s x t slot d b y (h2 he hj) n pub k⟩
  obtain ⟨a1, a2, a3, a4, a5, a6, a7⟩ := h1 he
  obtain ⟨n1, n2, n3, n4, n5, n6⟩ := n
  rw [n1, n2, n3, n4, n5, n6]
  refine ⟨a1, a2, a3, a4, a5, a6, ?_⟩
  intro i
  rw [k i]
  have := a7 i
  cases hd : d.buttons[i.val]? with
  | none => simpa [hd] using this
  | some z => simp only [hd] at this ⊢; rw [this]; simp

/-! ### Activations seen from elsewhere -/

/-- Two states whose records and selection an activation of button `b` finds the same (R141). -/
def SameRecs (s' s : State) (d : PageDef) (b : Nat) : Prop := ∀ k : Fin 24, (d.buttons[k.val]? = none → s'.nav.buttons.get k = s.nav.buttons.get k)
  ∧ ∀ z, d.buttons[k.val]? = some z → k.val ≠ b → (if s'.nav.selected = some k.val then z.atStart .normal else s'.nav.buttons.get k) = (if s.nav.selected = some k.val then z.atStart .normal else s.nav.buttons.get k)
theorem SameRecs.of (s' s : State) (d : PageDef) (b : Nat) (h1 : s'.nav.selected = s.nav.selected) (h2 : s'.nav.buttons = s.nav.buttons) : SameRecs s' s d b := by
  intro k; rw [h1, h2]; exact ⟨fun _ => rfl, fun _ _ _ => rfl⟩
/-- A selection moved to the button before its activation: what the activation leaves is the same (R141). -/
theorem SameRecs.moved (s : State) (d : PageDef) (b : Nat) : SameRecs (s.moveSel d (some b)) s d b := by
  have h := moveSel_records s d (some b)
  have hs : (s.moveSel d (some b)).nav.selected = some b := moveSel_sel _ _ _
  intro k
  by_cases e : s.nav.selected = some b
  · rw [h.1 e, hs, e]; exact ⟨fun _ => rfl, fun _ _ _ => rfl⟩
  · have g := h.2 e k
    refine ⟨fun hn => by rw [g, hn], fun z hz hk => ?_⟩
    rw [hs, if_neg (by simpa using Ne.symm hk), g, hz]
    simp only
    rw [if_neg (by simpa using Ne.symm hk)]

/-- An activation, looked at from another state before and another after it. -/
theorem Activates.of {s s' t t' : State} {slot d b} (h : s'.Activates t' slot d b false) (R : SameRecs s' s d b)
   (h1 : s'.nav.word = s.nav.word) (h2 : s'.jump = s.jump) (h3 : s'.slots = s.slots) (h4 : s'.notices = s.notices) (h5 : s'.timer = s.timer)
   (g1 : t.nav.word = t'.nav.word) (g2 : t.jump = t'.jump) (g3 : t.slots = t'.slots) (g4 : t.notices = t'.notices) (g5 : t.nav.selected = t'.nav.selected) (g6 : t.nav.activation = t'.nav.activation)
   (g7 : t.nav.buttons = t'.nav.buttons) : s.Activates t slot d b false := by
  intro y hy
  obtain ⟨a, c⟩ := h y hy
  constructor
  · intro hne
    obtain ⟨b1,b2,b3,b4,b5,b6,b7⟩ := a hne
    refine ⟨by rw [g5,b1], by rw [g6,b2], by rw [g1,b3,h1], by rw [g2,b4,h2], by rw [g3,b5,h3], by rw [g4,b6,h4], ?_⟩
    intro k
    rw [g7]
    have := b7 k
    cases hd : d.buttons[k.val]? with
    | none => rw [hd] at this; simp only at this ⊢; rw [this]; exact (R k).1 hd
    | some z =>
      rw [hd] at this; simp only at this ⊢; rw [this]
      by_cases hk : k.val = b
      · simp [hk]
      · simp only [hk, if_false]; rw [(R k).2 z hd hk]
  · intro he hj
    obtain ⟨b1,b2,b3,b4,b5,b6,b7,b8⟩ := c he hj
    have an : ∀ w a, s'.actionNotices slot b w a = s.actionNotices slot b w a := by
      intro w a; cases a <;> simp [State.actionNotices, h2]
    have st : ∀ p, t.slot p = t'.slot p := fun p => slot_congr g3 p
    have ss : ∀ p, s'.slot p = s.slot p := fun p => slot_congr h3 p
    refine ⟨by rw [g1,b1,h1], by rw [g6,b2], ?_, ?_, ?_, ?_, ?_, ?_⟩
    · intro hq; rw [g4, b3 (by rw [h4]; exact hq), h4, h5, h1, an, an]
    · rw [g1, g5]; exact b4
    · rw [g1, g5]; exact b5
    · intro k
      rw [g7, g5]
      have := b6 k
      cases hd : d.buttons[k.val]? with
      | none => rw [hd] at this; simp only at this ⊢; rw [this]; exact (R k).1 hd
      | some z =>
        rw [hd] at this; simp only at this ⊢; rw [this]
        by_cases hk : k.val = b
        · simp [hk]
        · have := (R k).2 z hd hk
          simp only [hk, false_or]
          split
          · rfl
          · exact congrArg (ButtonRec.published · false) this
    · rw [g2, g3, ← h2, ← h3]; exact b7
    · intro x hx
      have := b8 x hx
      simp only [g2, st, ← ss, ← h2, ← staged_congr h3]
      exact this
/-- A move of the selection, looked at from another state before and another after it. -/
theorem Selects.of {s s' t t' : State} {d x} (h : s'.Selects t' d x)
   (h0 : s'.nav.selected = s.nav.selected) (h00 : s'.nav.buttons = s.nav.buttons) (h000 : s'.nav.activation = s.nav.activation)
   (h1 : s'.nav.word = s.nav.word) (h2 : s'.jump = s.jump) (h3 : s'.slots = s.slots) (h4 : s'.notices = s.notices)
   (g1 : t.nav.word = t'.nav.word) (g2 : t.jump = t'.jump) (g3 : t.slots = t'.slots) (g4 : t.notices = t'.notices) (g5 : t.nav.selected = t'.nav.selected) (g6 : t.nav.activation = t'.nav.activation)
   (g7 : t.nav.buttons = t'.nav.buttons) : s.Selects t d x := by
  obtain ⟨a1,a2,a3,a4,a5,a6,a7⟩ := h
  refine ⟨by rw [g5,a1], by rw [g1,a2,h1], by rw [g6,a3,h000], by rw [g2,a4,h2], by rw [g3,a5,h3], by rw [g4,a6,h4], ?_⟩
  unfold State.MovesRecords at *
  rw [g7, ← h0, ← h00]; exact a7

end Sys2Proof.Machine
end

