-- ==== Sys2Proof/Laws/Pages.lean ====
section
/-! SUPPORT. Which ids the items of a page definition name, and which item is the first that meets a test. -/

namespace Sys2Proof.Machine

/-- The number of the first item, of those numbered from `i`, that meets a test (R47). -/
theorem numbered_find (P : List Byte → Bool) : ∀ (l : List (List Byte)) (i : Nat),
    ((numbered i l).find? fun x => P x.2).map (·.1) = (l.findIdx? P).map (i + ·)
  | [], _ => rfl
  | x :: xs, i => by
    simp only [numbered, List.find?_cons, List.findIdx?_cons]
    cases P x with
    | true => simp
    | false =>
      have h := numbered_find P xs (i + 1)
      cases hx : xs.findIdx? P with
      | none => simpa [hx] using h
      | some n =>
        have : i + 1 + n = i + (n + 1) := by omega
        simpa [hx, this] using h

/-- The pairs of a cycle that count are those with no hold of 0 at or before them (3.3). -/
theorem livePairs_names (l : List (Byte × Nat)) (i : Byte) : (∃ x ∈ livePairs l, x.1 = i) ↔
    ∃ (k : Nat) (x : Byte × Nat), l[k]? = some x ∧ x.1 = i
      ∧ ∀ (m : Nat) (y : Byte × Nat), m ≤ k → l[m]? = some y → y.2 ≠ 0 := by
  induction l with
  | nil => simp [livePairs]
  | cons a l ih =>
    unfold livePairs at *
    rw [List.takeWhile_cons]
    by_cases h : a.2 = 0
    · simp only [h, ne_eq, not_true_eq_false, decide_false, Bool.false_eq_true, if_false, List.not_mem_nil, false_and,
        exists_false, false_iff]
      rintro ⟨k, x, _, _, h3⟩
      exact h3 0 a (Nat.zero_le _) rfl h
    · simp only [h, ne_eq, not_false_eq_true, decide_true, if_true, List.mem_cons]
      constructor
      · rintro ⟨x, rfl | hx, rfl⟩
        · refine ⟨0, x, rfl, rfl, fun m y hm hy => ?_⟩
          obtain rfl : m = 0 := by omega
          simp only [List.getElem?_cons_zero, Option.some.injEq] at hy
          rwa [← hy]
        · obtain ⟨k, z, h1, h2, h3⟩ := ih.1 ⟨x, hx, rfl⟩
          refine ⟨k + 1, z, h1, h2, fun m y hm hy => ?_⟩
          cases m with
          | zero =>
            simp only [List.getElem?_cons_zero, Option.some.injEq] at hy
            rwa [← hy]
          | succ m => exact h3 m y (by omega) hy
      · rintro ⟨k, x, h1, rfl, h3⟩
        cases k with
        | zero =>
          simp only [List.getElem?_cons_zero, Option.some.injEq] at h1
          exact ⟨x, Or.inl h1.symm, rfl⟩
        | succ k =>
          obtain ⟨z, hz, e⟩ := ih.2 ⟨k, x, h1, rfl, fun m y hm hy => h3 (m + 1) y (by omega) hy⟩
          exact ⟨z, Or.inr hz, e⟩

/-- The item of a RELEASING id is looked for among the placements, and then among the buttons (R53). -/
theorem releasingItem_eq (s : State) (d : PageDef) :
    let P : List Byte → Bool := fun l => l.any fun i => decide ((s.entry i).state = .releasing)
    s.releasingItem d = (((d.placements.map fun p => [p.obj]).findIdx? P).map (1 + ·)).or
      (((d.buttons.map Button.ids).findIdx? P).map (33 + ·)) := by
  intro P
  rw [← numbered_find P, ← numbered_find P]
  unfold State.releasingItem PageDef.items
  rw [List.find?_append]
  show ((List.find? (fun x => P x.2) (numbered 1 _)).or (List.find? (fun x => P x.2) (numbered 33 _))).map (·.1) = _
  cases List.find? (fun x => P x.2) (numbered 1 (d.placements.map fun p => [p.obj])) <;> rfl

end Sys2Proof.Machine
end

