-- ==== Sys2Proof/Tests/Slice0.lean ====
section
/-! SUPPORT. Small tests: ill-formed commands are refused, every command does something the spec gives it on a small state,
and the hypotheses of every statement are met by a concrete state. -/

set_option maxRecDepth 100000

namespace Sys2Proof.Tests

open Sys2Proof Sys2Proof.Machine

/-! ### Small states -/

/-- A fixed section that passes every check. -/
def fx : Fixed :=
  { chainBase := 0x10000, chainSize := 0x10000, heapBase := 0x100000, heapSize := 0x100000, firstTask := 0x10000,
    firstBlank := 0x10040, format := .f720x480, interval := 600000 }

/-- Arbiter parameters. -/
def ap : ArbParams := { r := 4, d := 1, limit := 8, clip := 32 }

/-- A tunable section that passes every check. -/
def tn : Tunables :=
  { arb := ⟨ap, ap, ap, ap⟩, threshold := 2, attnMask := 0xFFFFFFFF, keyEnable := true, keyAddr := 5, keyDiv := 8,
    digitWindow := 25 }

/-- The part RUNNING. -/
def sRun : State :=
  { run := { state := .running, fixed := some fx, tun := some tn },
    heap := { extents := [{ start := 0, len := 16384 }] },
    notices := { cursor := .blank 0x10040 } }

/-- A task reference of a kind. -/
def ref (k : Byte) : TaskRef := { addr := 0x10000, kind := k, flags := 1, tag := 7 }

/-- A task of a kind with parameter bytes. -/
def task (k : Byte) (p : List Byte) : Task := { ref := ref k, params := p }

/-- The part RUNNING with a task in the walker's hand. -/
def hand (k : Byte) (p : List Byte) (s : State := sRun) : State :=
  { s with walker := { st := .working, cur := some 0x10000, task := some (task k p) } }

/-- A burst under way that returns data. -/
def fl (u : User) (data : List Byte) (sel : Option (List (Nat × Byte)) := none) : Flight :=
  { burst := { user := u, block := 0x10000, sel := sel }, data := data, refused := false, dropped := false }

/-- A state with a burst under way. -/
def flying (f : Flight) (s : State) : State := { s with port := { s.port with flight := some f } }

/-- The state a command leaves. -/
def after (c : Instr) (s : State) : State :=
  match exec c s with
  | .next t => t
  | .fault _ | .refused _ => s

/-- The outcomes and details of the retirements a command leaves. -/
def outcomes (s : State) : List (TaskOutcome × Byte) := s.walker.retiring.map fun r => (r.outcome, r.detail)

/-- Sixty-four bytes that begin with the given ones. -/
def blk (l : List Byte) : List Byte := padTo 64 l

/-- A button with one pair in each cycle. -/
def bt (p number : Nat) (right : Nat) (a : Action) : Button :=
  { placement := p, up := 255, down := 255, left := 255, right := right, number := number, auto := false, mask := 1,
    value := 0, act1 := a, act2 := .none, normal := [(1, 5)], selected := [(2, 5)], activated := [(3, 5)] }

/-- A MENU page with two buttons. -/
def menuPage : PageDef :=
  { kind := .menu, dflt := some 0, timeout := 9,
    placements := [{ obj := 1, pal := 0, x := 0, y := 0, cropX := 0, cropY := 0, cropW := 0, cropH := 0 },
                   { obj := 2, pal := 0, x := 8, y := 0, cropX := 0, cropY := 0, cropW := 0, cropH := 0 }],
    buttons := [bt 0 3 1 (.notify 9), bt 1 41 0 (.toggle 2)] }

/-- A SLIDE page. -/
def slidePage : PageDef := { menuPage with kind := .slide, dflt := none, timeout := 0, buttons := [] }

/-- A slot in the state it holds. -/
def inSlot (i : SlotId) (x : Slot) (s : State) : State := s.setSlot i x

/-- A menu frame view that shows slot 0. -/
def view0 : FrameView := { frame := 1, content := .shown 0, fade := 255, mark := false }

/-- The navigation unit active on slot 0 with button 0 selected. -/
def sNav : State :=
  let s := inSlot 0 (.staged menuPage [1, 2, 3] 1) sRun
  { s with menu := { content := .shown 0, view := some view0 }, nav := { judged := some view0, selected := some 0 } }

/-- Items in the key queue. -/
def keys (l : List KeyItem) (s : State) : State := { s with nav := { s.nav with queue := l } }

/-- A schedule entry. -/
def se (p : Option SlotId) (due : Word) : SchedEntry := { page := p, blend := none, due := due, task := ref 7 }

/-- A directory entry that holds one granule. -/
def de (st : ObjState) (off use : Nat) : DirEntry :=
  { state := st, hasData := true, width := 8, height := 8, offset := off, count := 1, useCount := use }

/-- A load. -/
def ld (i : Byte) : Load := { id := i, header := 0x10200, task := ref 1, held := false }

/-- A decode of an object of 8 by 8 pixels. -/
def dc (code : List Byte) (stage : DecodeStage) : Decode :=
  { id := 1, header := 0x10200, gather := { addr := 0x10200, left := 16 }, stage := stage, fill := 7, width := 8, height := 8,
    codeLen := 100, code := code }

/-- A decode under way. -/
def sDec (d : Decode) : State :=
  { sRun.setEntry 1 (de .loading 0 1) with
    heap := { (sRun.setEntry 1 (de .loading 0 1)).heap with decode := some d, loads := [ld 1] } }

/-- A compaction under way. -/
def sComp (p : CompactPhase) (m : Option Move) : State :=
  { sRun.setEntry 1 (de .ready 4 1) with compactor := { phase := p, task := some (ref 3), move := m } }

/-- A move of object 1. -/
def mv (overlap : Bool) : Move := { id := 1, src := 4, dst := 0, count := 1, overlap := overlap, copied := 0 }

/-- The bytes of the fixed section `fx`. -/
def fixedBytes : List Byte :=
  blk (le32 0x10000 ++ le32 0x10000 ++ le32 0x100000 ++ le32 0x100000 ++ le32 0x10000 ++ le32 0x10040 ++ [3, 0, 0, 0]
    ++ le32 600000)

/-- The bytes of the tunable section `tn`. -/
def tunableBytes : List Byte :=
  let a : List Byte := [4, 1, 8, 0, 32, 0, 0, 0]
  blk (a ++ a ++ a ++ a ++ [2, 0, 0, 0] ++ le32 0xFFFFFFFF ++ [1, 5, 8, 0, 25])

/-! ### Well-formedness: each check refuses an ill-formed command -/

theorem test_softReset_needs_its_bit :
    (Instr.softReset 4).wellFormed = true ∧ (Instr.softReset 3).wellFormed = false := by decide
theorem test_start_stands_alone :
    (Instr.start 0x101).wellFormed = true ∧ (Instr.start 2).wellFormed = false ∧ (Instr.start 3).wellFormed = false
      ∧ (Instr.start 5).wellFormed = false := by decide
theorem test_halt_stands_alone :
    (Instr.halt 2).wellFormed = true ∧ (Instr.halt 1).wellFormed = false ∧ (Instr.halt 3).wellFormed = false
      ∧ (Instr.halt 6).wellFormed = false := by decide
theorem test_registerWrite_covers_one_to_four_bytes :
    (Instr.registerWrite .control 4 0).wellFormed = true ∧ (Instr.registerWrite .control 0 0).wellFormed = false
      ∧ (Instr.registerWrite .control 5 0).wellFormed = false := by decide
theorem test_host_writes_shared_memory :
    (Instr.burstGrant [(2 ^ 32 - 1, 1)]).wellFormed = true ∧ (Instr.burstGrant [(2 ^ 32, 1)]).wellFormed = false := by decide

/-! ### The step, the queue and shared memory -/

theorem witness_StepRunsFrontCommand :
    step { State.reset with pending := [.haltComplete, .lineStart] } = exec .haltComplete { State.reset with pending := [.lineStart] } :=
  rfl
theorem witness_IdleStepPassesOneTick :
    State.reset.pending = [] ∧ State.reset.active = false ∧ sRun.pending = [] ∧ sRun.active = true
      ∧ (after (.startEdge) sRun).pending = [] ∧ (after .startEdge sRun).keyline.recv = .receiving 0 := by decide
theorem test_idle_tick_counts :
    (sRun.passTicks 1).timer.tick = 1 ∧ (sRun.passTicks 1800001).timer.tick = 1800000
      ∧ ((after .startEdge sRun).passTicks 1).keyline.recv = .receiving 1 := by decide
theorem witness_CommandsOutOfTurnChangeNothing :
    State.reset.inHand 1 = none ∧ State.reset.port.flight = none ∧ State.reset.work = {}
      ∧ (flying { fl .record [] with dropped := true } sRun).port.flight = some { fl .record [] with dropped := true } := by decide
theorem witness_MemoryChangesOnlyAtGrantsAndErrors :
    memRead (after (.burstGrant [(5, 1)]) State.reset).mem 5 ≠ memRead State.reset.mem 5
      ∧ (let b : Burst := { user := .compWrite, block := 0x100000, sel := some [(0, 9)] }
         let s := { sRun with port := { sRun.port with compReq := some b } }
         memRead (after (.burstGrant []) s).mem 0x100000 = 9 ∧ memRead s.mem 0x100000 = 0)
      ∧ (flying (fl .compWrite [] (some [(0, 9)])) sRun).port.flight = some (fl .compWrite [] (some [(0, 9)])) := by decide
theorem witness_invariants_of_a_running_part :
    sRun.mem.wf = true ∧ sRun.queuesOk = true ∧ sRun.runOk = true ∧ sRun.accountsOk = true ∧ (∀ p, (sRun.slot p).holds = sRun.claims p)
      ∧ sRun.stagingOk = true ∧ (∀ p, (sNav.slot p).holds = sNav.claims p) := by decide
theorem witness_steps_of_invariant_states :
    (∃ t, step State.reset = .next t) ∧ (∃ t, step sRun = .next t) ∧ ∃ t, step { sRun with pending := [.halt 2] } = .next t :=
  ⟨⟨_, rfl⟩, ⟨_, rfl⟩, ⟨_, rfl⟩⟩

/-! ### Resets and registers -/

theorem witness_ResetsReturnEveryBlock :
    (4 : Word).getLsbD 2 = true ∧ State.reset.run.pinHeld = false
      ∧ (after (.softReset 4) sRun).run.cause = { soft := true } ∧ (after (.softReset 4) sRun).run.state = .stopped
      ∧ (after .resetPin sRun).run.pinHeld = true ∧ (after .powerOnReset sRun).run.cause = { power := true } := by decide
theorem witness_RegistersReadAndWriteByTheWindow :
    (after .resetPin sRun).run.pinHeld = true ∧ sRun.run.pinHeld = false ∧ (256 : Word).getLsbD 2 = false
      ∧ (256 : Word).getLsbD 0 = (256 : Word).getLsbD 1 ∧ (after (.registerWrite .control 4 256) sRun).run.attnEnable = true
      ∧ (after (.registerWrite .control 3 256) sRun).run.attnEnable = false
      ∧ (after .resetPinRelease (after .resetPin sRun)).run.pinHeld = false
      ∧ sRun.run.refusal ≤ 18 ∧ sRun.notices.queue.length ≤ 8 ∧ sRun.readRegister .status = 2
      ∧ State.reset.readRegister .resetCause = 1 := by decide
theorem test_flags_clear_by_ones :
    let s := { sRun with attention := { notice := true, noBlanks := true, walkerFault := true, syncLost := true, blankFault := true } }
    (after (.attentionWrite 21) s).attention = { noBlanks := true, syncLost := true }
      ∧ (after (.attentionWrite 8) s).attention.syncLost = false
      ∧ (after (.attentionWrite 8) { s with timer := { s.timer with lost := true } }).attention.syncLost = true
      ∧ (after (.resetCauseWrite 1) State.reset).run.cause = {} := by decide

/-! ### Starting, halting and resuming -/

theorem witness_StartBeginsTheSetupReads :
    (1 : Word).getLsbD 0 = true ∧ (1 : Word).getLsbD 1 = false ∧ (1 : Word).getLsbD 2 = false
      ∧ State.reset.run.pinHeld = false ∧ State.reset.run.state = .stopped ∧ State.reset.run.setupAddr.toNat % 64 = 0
      ∧ (after (.start 1) State.reset).run.state = .starting ∧ (after (.start 1) State.reset).port.walkerQ.length = 1
      ∧ (after (.start 1) (after (.registerWrite .setupAddress 4 63) State.reset)).run.refusal = 17
      ∧ (after (.start 257) sRun).run.attnEnable = true
      ∧ (let h := { sRun with run := { sRun.run with state := .halted } }
         h.run.reading = none ∧ (after (.start 1) h).run.reading.isSome = true
           ∧ (after (.start 1) (after (.start 1) h)).port.walkerQ.length = 1) := by decide

/-- A start whose second setup block is under way. -/
def starting : State :=
  flying (fl (.setup false) tunableBytes)
    { State.reset with run := { State.reset.run with
        state := .starting, reading := some { resume := false, gather := { addr := 64, left := 64, got := fixedBytes } } } }

/-- A start whose first setup block is under way. -/
def starting1 : State :=
  flying (fl (.setup false) fixedBytes)
    { State.reset with run := { State.reset.run with
        state := .starting, reading := some { resume := false, gather := { addr := 0, left := 128 } } } }

theorem witness_StartReadsDecideTheStart :
    starting.LandingRead (fl (.setup false) tunableBytes) (.setup false)
      ∧ starting1.LandingRead (fl (.setup false) fixedBytes) (.setup false)
      ∧ starting.run.state = .starting ∧ starting.run.reading.isSome = true ∧ starting1.run.reading.isSome = true :=
  ⟨⟨⟨rfl, rfl⟩, rfl, rfl⟩, ⟨⟨rfl, rfl⟩, rfl, rfl⟩, by decide⟩
theorem test_start_reads :
    (after (.startReadsComplete false) starting).run.fixed = some fx
      ∧ (after (.startReadsComplete false) starting).run.tun = some tn
      ∧ (after (.startReadsComplete true) starting).run.refusal = 18
      ∧ (after (.startReadsComplete false) starting1).port.walkerQ.length = 1
      ∧ firstFailure (fixedChecks fixedBytes ++ tunableChecks tunableBytes) = none
      ∧ firstFailure (fixedChecks (fixedBytes.set 0 1) ++ tunableChecks tunableBytes) = some 1
      ∧ firstFailure (fixedChecks fixedBytes ++ tunableChecks (tunableBytes.set 44 0)) = some 16 := by decide

/-- A resume whose setup block is under way. -/
def resuming (st : WalkerState) (p : CompactPhase) : State :=
  flying (fl (.setup true) tunableBytes)
    { sRun with
      run := { sRun.run with state := .halted, reading := some { resume := true, gather := { addr := 64, left := 64 } } },
      walker := { st := st, cur := some 0x10000 }, compactor := { phase := p } }

theorem witness_ResumeReadsDecideTheResume :
    (resuming (.halted .link) .paused).LandingRead (fl (.setup true) tunableBytes) (.setup true)
      ∧ (resuming (.halted .link) .paused).run.state = .halted ∧ (resuming (.halted .link) .paused).run.reading.isSome = true :=
  ⟨⟨⟨rfl, rfl⟩, rfl, rfl⟩, by decide⟩
theorem test_resume_goes_on :
    (after (.resumeReadsComplete false) (resuming (.halted .link) .paused)).walker.st = .linking
      ∧ (after (.resumeReadsComplete false) (resuming (.halted .record) .idle)).walker.st = .reading
      ∧ (after (.resumeReadsComplete false) (resuming (.halted .parked) .idle)).walker.reread = .asked
      ∧ (after (.resumeReadsComplete false) (resuming .faulted .paused)).compactor.phase = .scanning
      ∧ (after (.resumeReadsComplete true) (resuming .faulted .paused)).run.refusal = 18 := by decide
theorem witness_HaltStopsTheBlocksAndCompletes :
    (2 : Word).getLsbD 1 = true ∧ (2 : Word).getLsbD 2 = false ∧ (2 : Word).getLsbD 0 = false ∧ sRun.run.pinHeld = false
      ∧ sRun.run.state = .running ∧ (after (.halt 2) sRun).run.state = .halting
      ∧ (after (.halt 2) { sRun with walker := { st := .parked } }).walker.st = .halted .parked
      ∧ (after .haltComplete (after (.halt 2) { sRun with walker := { st := .parked } })).run.state = .halted
      ∧ (after .haltComplete (after (.halt 2) sRun)).run.state = .halting
      ∧ (after (.halt 3) sRun).run.state = .running := by decide

/-! ### Frame timer -/

theorem witness_GlitchesAndLossesFollowTheTickCount :
    sRun.work = {} ∧ sRun.active = true ∧ sRun.timer.firstFrame = false ∧ min (sRun.timer.tick + 299999) (3 * sRun.interval) * 2 < sRun.interval
      ∧ (after (.frameStart 299999) sRun).stats.glitches = 1 ∧ State.reset.active = false
      ∧ (let s := { sRun with timer := { sRun.timer with armed := true } }
         s.timer.armed = true ∧ s.timer.lost = false ∧ min (s.timer.tick + 1800000) (3 * s.interval) = 3 * s.interval
           ∧ (after (.syncLoss 1800000) s).timer.lost = true ∧ (after (.syncLoss 1799999) s).timer.lost = false) := by decide
theorem witness_AcceptedFrameStartRaisesTheStamp :
    sRun.work = {} ∧ sRun.active = true ∧ sRun.interval ≤ min (sRun.timer.tick + 300000) (3 * sRun.interval) * 2
      ∧ (let s := { sRun with timer := { sRun.timer with lost := true, forced := true, latch := true }, walker := { st := .parked }, compactor := { phase := .confirming } }
         s.timer.lost = true ∧ s.notices.queue.length < 8 ∧ s.compactor.phase = .confirming ∧ s.walker.st = .parked
           ∧ s.walker.reread = .none) := by decide
theorem test_due_stamps :
    reached 0 0 = true ∧ reached 0x7FFFFFFF 0 = true ∧ reached 0x80000000 0 = false ∧ reached 0 1 = false ∧ lateness 700 1 = 255 := by
  decide

/-! ### Objects and the heap -/

theorem witness_ExtentTableAllocatesAndMerges :
    extAlloc 3 [⟨0, 2⟩, ⟨5, 3⟩] = some (5, [⟨0, 2⟩]) ∧ extAlloc 4 [⟨0, 2⟩, ⟨5, 3⟩] = none
      ∧ extentsFrom 0 [⟨0, 2⟩, ⟨5, 3⟩] = true ∧ (∀ g < 5, 2 ≤ g → freeGranule [⟨0, 2⟩, ⟨5, 3⟩] g = false)
      ∧ extRelease 2 3 [⟨0, 2⟩, ⟨5, 3⟩] = [⟨0, 8⟩] ∧ extRelease 3 1 [⟨0, 2⟩, ⟨5, 3⟩] = [⟨0, 2⟩, ⟨3, 1⟩, ⟨5, 3⟩] := by decide

/-- LOAD OBJECT parameters: id and source. -/
def loadParams (i : Half) (a : Word) : List Byte := le16 i ++ [0, 0] ++ le32 a

theorem witness_LoadObjectIsJudgedAndAccepted :
    (hand 1 (loadParams 255 0x10200)).inHand 1 = some (task 1 (loadParams 255 0x10200))
      ∧ (after .loadObject (hand 1 (loadParams 255 0x10200))).port.walkerQ.length = 1
      ∧ outcomes (after .loadObject (hand 1 (loadParams 256 0x10200))) = [(.badParameter, 0)]
      ∧ outcomes (after .loadObject (hand 1 (loadParams 1 0x20000))) = [(.addressFault, 0)]
      ∧ outcomes (after .loadObject (hand 1 (loadParams 1 0x10200) (sRun.setEntry 1 (de .ready 0 0)))) = [(.idTaken, 0)]
      ∧ outcomes (after .loadObject (hand 1 (loadParams 1 0x10200) (sRun.setEntry 1 (de .releasing 0 1)))) = [(.idReleasing, 0)]
      ∧ (after .loadObject (hand 1 (loadParams 1 0x10200)
          { sRun with heap := { sRun.heap with loads := [ld 2, ld 3, ld 4, ld 5] } })).walker.st = .stalled := by decide

/-- A LOAD OBJECT whose header read is under way. -/
def loadRead (len : Word) : State :=
  let s := flying (fl .loadHeader (blk ([1, 7, 8, 0, 8, 0, 0, 0] ++ le32 len))) (hand 1 (loadParams 1 0x10200))
  { s with walker := { s.walker with job := .loadHeader { addr := 0x10200, left := 16 } } }

theorem witness_loadHeaderRead :
    (loadRead 100).LandingRead (fl .loadHeader (blk ([1, 7, 8, 0, 8, 0, 0, 0] ++ le32 100))) .loadHeader
      ∧ (loadRead 100).walker.task.isSome = true ∧ ((after (.loadHeaderReadComplete false) (loadRead 100)).entry 1).state = .queued
      ∧ outcomes (after (.loadHeaderReadComplete false) (loadRead 0x20000)) = [(.addressFault, 0)]
      ∧ outcomes (after (.loadHeaderReadComplete true) (loadRead 100)) = [(.memoryError, 6)] :=
  ⟨⟨⟨rfl, rfl⟩, rfl, rfl⟩, by decide⟩
theorem witness_FreeObjectFollowsTheTable :
    (hand 2 (le16 1)).inHand 2 = some (task 2 (le16 1))
      ∧ outcomes (after .freeObject (hand 2 (le16 256))) = [(.badParameter, 0)]
      ∧ ((after .freeObject (hand 2 (le16 1) (sRun.setEntry 1 (de .ready 0 1)))).entry 1).state = .releasing
      ∧ ((after .freeObject (hand 2 (le16 1) (sRun.setEntry 1 (de .ready 0 0)))).entry 1) = {}
      ∧ (let s := hand 2 (le16 1) (sDec (dc [] .header))
         s.loadOf 1 = some (ld 1) ∧ outcomes (after .freeObject s) = [(.cancelled, 0), (.done, 0)]
           ∧ (after .freeObject s).heap.decode = none) := by decide
theorem witness_DecoderTakesLoadsAndChecksHeaders :
    (let s := { sRun with heap := { sRun.heap with loads := [ld 1] } }
     s.heap.loads = [ld 1] ∧ (after .decoderTakeLoad s).heap.decode.isSome = true
       ∧ (after .decoderTakeLoad { s with compactor := { phase := .copying } }).heap.decode = none)
      ∧ sRun.heap.loads = [] := by decide

/-- A decoder header read under way. -/
def headRead (v : Byte) : State :=
  flying (fl .decHeader (blk ([v, 7, 8, 0, 8, 0, 0, 0] ++ le32 100)))
    { (sRun.setEntry 1 { state := .queued, useCount := 1 }) with
      heap := { (sRun.setEntry 1 { state := .queued, useCount := 1 }).heap with decode := some (dc [] .header), loads := [ld 1] } }

theorem witness_decoderHeaderRead :
    (headRead 1).LandingRead (fl .decHeader (blk ([1, 7, 8, 0, 8, 0, 0, 0] ++ le32 100))) .decHeader
      ∧ (headRead 1).heap.decode = some (dc [] .header) ∧ (headRead 1).loadOf 1 = some (ld 1) ∧ ((headRead 1).entry 1).count = 0
      ∧ ((after (.decoderHeaderReadComplete false) (headRead 1)).entry 1).state = .loading
      ∧ outcomes (after (.decoderHeaderReadComplete false) (headRead 2)) = [(.decodeFault, 1)]
      ∧ outcomes (after (.decoderHeaderReadComplete true) (headRead 1)) = [(.memoryError, 6)]
      ∧ outcomes (after (.decoderHeaderReadComplete false)
          { headRead 1 with heap := { (headRead 1).heap with extents := [] } }) = [(.heapFull, 0)] :=
  ⟨⟨⟨rfl, rfl⟩, rfl, rfl⟩, by decide⟩
theorem witness_CodeBytesFollowTheCodeTable :
    (dc [0xC1] .stream).code = [0xC1]
      ∧ decodeOne (dc [0xC2] .stream) = .fault 2 ∧ decodeOne (dc [0x07] .stream) = .need
      ∧ decodeOne (dc [0x08] .stream) = .fault 3 ∧ decodeOne (dc [0x45, 9] .stream) = .ran ((dc [0x45, 9] .stream).afterRun 8 2 [(8, 9)])
      ∧ decodeOne (dc [0x80, 0, 1] .stream) = .fault 3 ∧ decodeOne { dc [0xC0] .stream with line := 8 } = .fault 4
      ∧ decodeOne { dc [0xC0] .stream with consumed := 100 } = .fault 5
      ∧ decodeOne { dc [0x40, 1] .stream with consumed := 99 } = .fault 5 := by decide
theorem witness_DecoderBurstsFaultWriteOrComplete :
    (let s := flying (fl .decCode (blk [0xC1])) (sDec (dc [] .stream))
     s.Landing (fl .decCode (blk [0xC1]))) ∧ (let s := flying (fl .decPixels [] (some [])) (sDec (dc [] (.finish true)))
     s.Landing (fl .decPixels [] (some []))) :=
  ⟨⟨rfl, rfl⟩, ⟨rfl, rfl⟩⟩
theorem test_decoder_bursts :
    (after (.decoderReadComplete false) (flying (fl .decCode (blk (padTo 16 [] ++ [0xC1]))) (sDec (dc [] .stream)))).port.decReq.isSome = true
      ∧ outcomes (after (.decoderReadComplete false) (flying (fl .decCode (blk (padTo 16 [] ++ [0xC2]))) (sDec (dc [] .stream)))) = [(.decodeFault, 2)]
      ∧ outcomes (after (.decoderWriteComplete false) (flying (fl .decPixels [] (some [])) (sDec (dc [] (.finish true)))))
          = [(.doneShort, 0)]
      ∧ ((after (.decoderWriteComplete false) (flying (fl .decPixels [] (some [])) (sDec (dc [] (.finish false))))).entry 1).state
          = .ready := by decide

/-! ### Compaction -/

theorem witness_CompactHeapIsHandedOverAndWaits :
    (hand 3 []).inHand 3 = some (task 3 []) ∧ (after .compactHeap (hand 3 [])).compactor.phase = .scanning
      ∧ (after .compactHeap (hand 3 [] { sRun with heap := { sRun.heap with loads := [ld 1] } })).compactor.phase = .waiting
      ∧ (after .compactHeap (hand 3 [] (sComp .copying none))).walker.st = .stalled
      ∧ (after .compactWaitEnd (sComp .waiting none)).compactor.phase = .scanning
      ∧ (let s := { sComp .waiting none with heap := { sRun.heap with loads := [ld 1] } }
         (∃ l ∈ s.heap.loads, l.held = false) ∧ (after .compactWaitEnd s).compactor.phase = .waiting) := by decide

/-- A scan at the low end of a heap whose object 1 stands at an offset. -/
def scanAt (off : Nat) (v : Option (FrameView × FrameView)) : State :=
  let s := sRun.setEntry 1 { de .ready off 1 with count := 2 }
  { inSlot 0 (.staged menuPage [1] 1) s with
    compactor := { phase := .scanning, task := some (ref 3) }, drawnViews := v,
    heap := { s.heap with extents := [{ start := 0, len := off }, { start := off + 2, len := 8 }] } }

theorem witness_ScanStepPassesSkipsReservesOrRetires :
    (sComp .scanning none).compactor.phase = .scanning
      ∧ lowestFrom 0 0 (scanAt 4 none).heap.dir.toList = some (1, { de .ready 4 1 with count := 2 })
      ∧ (after .compactScanStep (scanAt 4 none)).compactor.phase = .copying
      ∧ (after .compactScanStep (scanAt 1 none)).compactor.phase = .confirming
      ∧ (after .compactScanStep (scanAt 1 (some (view0, view0)))).compactor.skipped = 1
      ∧ (after .compactScanStep { scanAt 4 none with compactor := { phase := .scanning, task := some (ref 3), low := 4 },
                                                     heap := { (scanAt 4 none).heap with extents := [] } }).compactor.low = 6
      ∧ outcomes (after .compactScanStep { sRun with compactor := { phase := .scanning, task := some (ref 3) } }) = [(.done, 0)] := by
  decide
theorem witness_MovesAreConfirmedAndCopied :
    (let s := sComp .confirming (some (mv true))
     s.compactor.phase = .confirming ∧ s.compactor.move = some (mv true) ∧ s.drawn 1 = false
       ∧ (after .compactConfirm s).compactor.phase = .confirming
       ∧ (after .compactConfirm { s with compactor := { s.compactor with frameSeen := true } }).compactor.phase = .copying)
      ∧ (let s := { inSlot 0 (.staged menuPage [1] 1) (sComp .confirming (some (mv true))) with drawnViews := some (view0, view0) }
         s.drawn 1 = true
           ∧ (after .compactConfirm { s with compactor := { s.compactor with frameSeen := true } }).compactor.skipped = 1) := by
  decide
theorem witness_copies :
    (flying (fl .compRead (blk [1])) (sComp .copying (some (mv false)))).Landing (fl .compRead (blk [1]))
      ∧ (flying (fl .compWrite [] (some [])) (sComp .copying (some (mv false)))).Landing (fl .compWrite [] (some []))
      ∧ (sComp .copying (some (mv true))).compactor.task = some (ref 3) := ⟨⟨rfl, rfl⟩, ⟨rfl, rfl⟩, rfl⟩
theorem test_copies :
    (after (.compactReadComplete false) (flying (fl .compRead (blk [1])) (sComp .copying (some (mv false))))).port.compReq.isSome = true
      ∧ (after (.compactWriteComplete false) (flying (fl .compWrite [] (some [])) (sComp .copying (some (mv false))))).compactor.phase
          = .switchPending
      ∧ (after (.compactWriteComplete false)
          (flying (fl .compWrite [] (some [])) (sComp .copying (some { mv false with count := 2 })))).port.compReq.isSome = true
      ∧ outcomes (after (.compactReadComplete true) (flying (fl .compRead []) (sComp .copying (some (mv false))))) = [(.memoryError, 6)]
      ∧ ((after (.compactReadComplete true) (flying (fl .compRead []) (sComp .copying (some (mv true))))).entry 1).state = .faulted := by
  decide
theorem witness_SwitchAndEntryViewAtTheFrameStart :
    let s := { sComp .switchPending (some (mv false)) with work := { heap := true } }
    s.work.heap = true ∧ s.compactor.phase = .switchPending ∧ s.compactor.move = some (mv false)
      ∧ ((after .offsetSwitch s).entry 1).offset = 0 ∧ (after .offsetSwitch s).compactor.moved = 1 := by decide

/-! ### Palettes and page slots -/

/-- LOAD PALETTE parameters: slot, first entry, count, source. -/
def palParams (k i : Byte) (n : Half) (a : Word) : List Byte := [k, i] ++ le16 n ++ le32 a

theorem witness_LoadPaletteIsJudgedAndRead :
    (hand 4 (palParams 7 0 256 0x10200)).inHand 4 = some (task 4 (palParams 7 0 256 0x10200))
      ∧ (after .loadPalette (hand 4 (palParams 7 0 256 0x10200))).port.walkerQ.length = 1
      ∧ outcomes (after .loadPalette (hand 4 (palParams 8 0 1 0x10200))) = [(.badParameter, 0)]
      ∧ outcomes (after .loadPalette (hand 4 (palParams 0 0 0 0x10200))) = [(.badParameter, 0)]
      ∧ outcomes (after .loadPalette (hand 4 (palParams 0 1 256 0x10200))) = [(.badParameter, 0)]
      ∧ outcomes (after .loadPalette (hand 4 (palParams 0 0 1 0x1FFFD))) = [(.addressFault, 0)]
      ∧ (after .loadPalette (hand 4 (palParams 0 0 1 0x10200)
          { sRun with palette := { sRun.palette with list := List.replicate 16 (ref 4) } })).walker.st = .stalled := by decide

/-- A LOAD PALETTE whose read is under way. -/
def palRead : State :=
  let s := flying (fl .palette (blk [9, 8, 7, 6])) (hand 4 (palParams 7 255 1 0x10200))
  { s with walker := { s.walker with job := .palette { addr := 0x10200, left := 4 } } }

theorem witness_paletteRead :
    palRead.LandingRead (fl .palette (blk [9, 8, 7, 6])) .palette ∧ palRead.walker.task.isSome = true
      ∧ (after (.paletteReadComplete false) palRead).palette.list.length = 1
      ∧ outcomes (after (.paletteReadComplete true) palRead) = [(.memoryError, 6)] := ⟨⟨⟨rfl, rfl⟩, rfl, rfl⟩, by decide⟩
theorem witness_PaletteApplyCopiesMarkedEntries :
    ({ sRun with work := { palette := true } }).work.palette = true := by decide

/-- STAGE PAGE parameters: slot, length, address. -/
def stParams (p : Byte) (n : Half) (a : Word) : List Byte := [p, 0] ++ le16 n ++ le32 a

theorem witness_StagePageIsJudgedAndItsHeaderChecked :
    (hand 5 (stParams 5 32 0x10200)).inHand 5 = some (task 5 (stParams 5 32 0x10200))
      ∧ (after .stagePage (hand 5 (stParams 5 32 0x10200))).slot 5 = .staging
      ∧ outcomes (after .stagePage (hand 5 (stParams 6 32 0x10200))) = [(.badParameter, 0)]
      ∧ outcomes (after .stagePage (hand 5 (stParams 0 32 0x10200) sNav)) = [(.slotBusy, 0)]
      ∧ outcomes (after .stagePage (hand 5 (stParams 0 31 0x10200))) = [(.badParameter, 0)]
      ∧ outcomes (after .stagePage (hand 5 (stParams 0 2449 0x10200))) = [(.badParameter, 0)]
      ∧ outcomes (after .stagePage (hand 5 (stParams 0 2448 0x1FFFF))) = [(.addressFault, 0)] := by decide

/-- The header of a SLIDE page with one placement. -/
def pageHead : List Byte := [2, 1, 0, 255] ++ List.replicate 12 0

/-- A STAGE PAGE with a read under way. -/
def pageRead (u : User) (data : List Byte) (j : Job) (s : State := sRun) : State :=
  let s := inSlot 0 .staging (flying (fl u data) (hand 5 (stParams 0 32 0x10200) s))
  { s with walker := { s.walker with job := j } }

theorem witness_pageHeaderRead :
    let s := pageRead .pageHeader (blk pageHead) (.pageHeader { addr := 0x10200, left := 16 })
    s.LandingRead (fl .pageHeader (blk pageHead)) .pageHeader ∧ (0 : SlotId).val = (task 5 (stParams 0 32 0x10200)).p8 16
      ∧ (after (.pageHeaderReadComplete false) s).port.walkerQ.length = 1
      ∧ outcomes (after (.pageHeaderReadComplete true) s) = [(.memoryError, 6)]
      ∧ outcomes (after (.pageHeaderReadComplete false)
          (pageRead .pageHeader (blk [3]) (.pageHeader { addr := 0x10200, left := 16 }))) = [(.pageInvalid, 0)] :=
  ⟨⟨⟨rfl, rfl⟩, rfl, rfl⟩, by decide⟩
theorem witness_PageIsStagedOrRefusedByItem :
    let place : List Byte := [9, 7] ++ List.replicate 14 0
    let j : Job := .pageRest pageHead { addr := 0x10200, left := 16 }
    let s := pageRead .pageRest (blk place) j
    s.LandingRead (fl .pageRest (blk place)) .pageRest ∧ s.walker.job = j ∧ s.walker.task.isSome = true
      ∧ ((after (.pageReadComplete false) s).slot 0).named = [9] ∧ ((after (.pageReadComplete false) s).entry 9).useCount = 1
      ∧ outcomes (after (.pageReadComplete false) (pageRead .pageRest (blk [9, 8]) j)) = [(.pageInvalid, 1)]
      ∧ outcomes (after (.pageReadComplete false) (pageRead .pageRest (blk place) j (sRun.setEntry 9 (de .releasing 0 1))))
          = [(.idReleasing, 1)]
      ∧ outcomes (after (.pageReadComplete true) s) = [(.memoryError, 6)] :=
  ⟨⟨⟨rfl, rfl⟩, rfl, rfl⟩, by decide⟩
theorem witness_AcceptedPageObeysTheItemRules :
    (∃ d, readPage (pageHead ++ [9, 7] ++ List.replicate 14 0) = .inr d) ∧ menuPage.named = [1, 2, 3] := ⟨⟨_, rfl⟩, by decide⟩
theorem witness_DiscardPageFreesAnUnheldSlot :
    (hand 6 [5]).inHand 6 = some (task 6 [5]) ∧ outcomes (after .discardPage (hand 6 [6])) = [(.badParameter, 0)]
      ∧ outcomes (after .discardPage (hand 6 [5])) = [(.notStaged, 0)]
      ∧ outcomes (after .discardPage (hand 6 [0] sNav)) = [(.slotBusy, 0)]
      ∧ (let s := hand 6 [0] (inSlot 0 (.staged slidePage [1, 2] 0) (sRun.setEntry 1 (de .releasing 0 1)))
         s.slot 0 = .staged slidePage [1, 2] 0 ∧ (after .discardPage s).slot 0 = .free ∧ (after .discardPage s).entry 1 = {}) := by
  decide

/-! ### Planes -/

/-- SHOW PAGE and HIDE PLANE parameters: plane, slot, transition, length, flags, due stamp. -/
def opParams (q x b n : Byte) (now : Byte) (due : Word) : List Byte := [q, x, b, n, now, 0, 0, 0] ++ le32 due

theorem witness_ShowAndHideAreCheckedAndInserted :
    (hand 7 (opParams 1 0 1 9 0 50) sNav).inHand 7 = some (task 7 (opParams 1 0 1 9 0 50))
      ∧ (hand 8 (opParams 1 0 0 0 0 50) sNav).inHand 8 = some (task 8 (opParams 1 0 0 0 0 50))
      ∧ (after .showPage (hand 7 (opParams 1 0 1 9 0 50) sNav)).menu.schedule
          = [{ page := some 0, blend := some 9, due := 50, task := ref 7 }]
      ∧ ((after .showPage (hand 7 (opParams 1 0 1 9 0 50) sNav)).slot 0).holds = 2
      ∧ (after .hidePlane (hand 8 (opParams 1 0 1 0 1 50) sNav)).menu.schedule = [{ page := none, blend := none, due := 1, task := ref 8 }]
      ∧ outcomes (after .showPage (hand 7 (opParams 2 0 0 0 0 0) sNav)) = [(.badParameter, 0)]
      ∧ outcomes (after .showPage (hand 7 (opParams 1 0 2 0 0 0) sNav)) = [(.badParameter, 0)]
      ∧ outcomes (after .showPage (hand 7 (opParams 1 6 0 0 0 0) sNav)) = [(.badParameter, 0)]
      ∧ outcomes (after .showPage (hand 7 (opParams 1 5 0 0 0 0) sNav)) = [(.notStaged, 0)]
      ∧ outcomes (after .showPage (hand 7 (opParams 0 0 0 0 0 0) sNav)) = [(.badParameter, 0)]
      ∧ (after .showPage (hand 7 (opParams 1 0 0 0 0 0)
          { sNav with menu := { sNav.menu with schedule := List.replicate 8 (se none 0) } })).walker.st = .stalled := by decide
theorem witness_insertion :
    insertEntry 0 (se none 5) [se none 3, se none 5, se none 9] = [se none 3, se none 5, se none 5, se none 9]
      ∧ [se none 3, se none 5].Pairwise (fun a b => distance 0 a.due ≤ distance 0 b.due) := by decide
theorem witness_ClearScheduleCancelsEveryEntry :
    (hand 9 [1] sNav).inHand 9 = some (task 9 [1]) ∧ outcomes (after .clearSchedule (hand 9 [2] sNav)) = [(.badParameter, 0)]
      ∧ (let s := hand 9 [1] { sNav with menu := { sNav.menu with schedule := [se (some 0) 5, se none 6] } }
         outcomes (after .clearSchedule s) = [(.cancelled, 0), (.cancelled, 0), (.done, 2)]
           ∧ ((after .clearSchedule s).slot 0).holds = 0) := by decide
theorem witness_TransitionsEndAndOperationsBegin :
    (let s := { sNav with menu := { sNav.menu with content := .crossing 0 1 9 9 }, work := { menu := .transEnd } }
     s.stage .menu = .transEnd ∧ (after (.transitionEnd .menu) s).menu.content = .shown 0)
      ∧ (let s := { sNav with menu := { sNav.menu with schedule := [se none 0] }, work := { menu := .ops } }
         s.stage .menu = .ops ∧ reached s.timer.stamp (se none 0).due = true ∧ (after (.operationBegin .menu) s).menu.content = .empty
           ∧ outcomes (after (.operationBegin .menu) s) = [(.done, 0)]) := by decide
theorem witness_PendingJumpIsAppliedOrFails :
    let j : Jump := { target := 0, held := true, button := 1, slot := 0 }
    let s := { sNav with jump := some j, work := { menu := .jump }, heap := { sNav.heap with view := some (.replicate 256 ⟨true, 1, 1, 0, true⟩) } }
    s.work.menu = .jump ∧ s.jump = some j ∧ s.notices.queue.length < 8 ∧ s.page 0 = some menuPage ∧ s.readySlot 0 = false
      ∧ (after .jumpApply s).jump = none
      ∧ ({ s with heap := { s.heap with view := some (.replicate 256 ⟨true, 1, 1, 0, false⟩) } }).readySlot 0 = true
      ∧ (after .jumpApply { s with jump := some { j with held := false } }).notices.queue.length = 1 := by decide

/-! ### Navigation and keys -/

theorem witness_SetStateWritesMaskedBits :
    (hand 10 (le32 3 ++ le32 5) sNav).inHand 10 = some (task 10 (le32 3 ++ le32 5))
      ∧ (after .setState (hand 10 (le32 3 ++ le32 5) sNav)).nav.word = 1
      ∧ (after .setState (hand 10 (le32 3 ++ le32 5) sNav)).nav.selected = none
      ∧ sNav.navPage = some menuPage ∧ sNav.nav.activation = none := by decide
theorem witness_EntryChoiceAndSearchFindVisibleButtons :
    menuPage.entryChoice 0 = some 0 ∧ menuPage.entryChoice 1 = none
      ∧ searchLinks menuPage 0 Button.right 0 24 1 = some 1 ∧ searchLinks menuPage 0 Button.up 0 24 255 = none := by decide
theorem witness_ItemsJoinTheQueueAndAreTaken :
    (hand 11 [1, 1] sNav).inHand 11 = some (task 11 [1, 1]) ∧ (hand 12 [0x44] sNav).inHand 12 = some (task 12 [0x44])
      ∧ (after .selectButton (hand 11 [1, 1] sNav)).nav.queue = [.select 1 true (ref 11)]
      ∧ (after .injectKey (hand 12 [0x44] sNav)).nav.queue = [.key 0x44 (some (ref 12))]
      ∧ (after .injectKey (hand 12 [0x44] (keys (List.replicate 8 (.key 1 none)) sNav))).walker.st = .stalled
      ∧ (let s := keys [.key 0x44 none] sRun
         s.nav.activation = none ∧ s.jump = none ∧ s.work.nav = .idle ∧ s.nav.digit = none ∧ s.navSlot = none
           ∧ (after .takeItem s).notices.queue.length = 1)
      ∧ (after .takeItem (keys [.key 0x44 none] { sNav with work := { nav := .await } })).nav.queue.length = 1 := by decide
theorem witness_KeysAndSelectsMoveTheSelection :
    (let s := keys [.key 0x43 none] sNav
     s.nav.activation = none ∧ s.jump = none ∧ s.work.nav = .idle ∧ s.nav.digit = none ∧ s.navSlot = some 0
       ∧ s.navPage = some menuPage ∧ s.nav.selected = some 0 ∧ 0 < menuPage.buttons.length
       ∧ (after .takeItem s).nav.selected = some 1)
      ∧ (after .takeItem (keys [.key 0x44 none] sNav)).nav.activation = some 0
      ∧ (after .takeItem (keys [.select 1 false (ref 11)] sNav)).nav.selected = some 1
      ∧ outcomes (after .takeItem (keys [.select 2 false (ref 11)] sNav)) = [(.notSelectable, 0)]
      ∧ (after .takeItem (keys [.key 0x34 none] sNav)).nav.digit = some { digit := 4, left := 25, slot := 0 }
      ∧ (after .takeItem (keys [.key 0x33 none] sNav)).nav.activation = some 0
      ∧ (after .takeItem (keys [.key 0x35 none] sNav)).notices.queue.length = 1
      ∧ (let s := keys [.key 0x31 none] { sNav with nav := { sNav.nav with digit := some { digit := 4, left := 3, slot := 0 } } }
         s.nav.digit.isSome = true ∧ digitOf 0x31 = some 1 ∧ (after .takeItem s).nav.activation = some 1) := by decide
theorem witness_ActivationEndRunsTheActions :
    let s := { sNav with nav := { sNav.nav with activation := some 0 }, work := { nav := .actEnd } }
    s.work.nav = .actEnd ∧ s.navSlot = some 0 ∧ s.navPage = some menuPage ∧ s.nav.activation = some 0
      ∧ s.nav.selected = some 0 ∧ (after .activationEnd s).nav.activation = none
      ∧ (after .activationEnd s).notices.queue.length = 1 := by decide
theorem witness_ExpiryAndTimeoutPressButtons :
    (let s := { sNav with nav := { sNav.nav with digit := some { digit := 3, left := 0, slot := 0 } }, work := { nav := .expiry } }
     s.navSlot = some 0 ∧ s.navPage = some menuPage ∧ s.nav.activation = none ∧ s.work.nav = .expiry ∧ s.nav.digit.isSome = true
       ∧ (after .digitWindowExpiry s).nav.activation = some 0)
      ∧ (let s := { sNav with work := { nav := .timeout } }
         s.work.nav = .timeout ∧ (after .pageTimeout s).nav.activation = some 0) := by decide
theorem witness_KeyFramesAreReceivedAndJudged :
    sRun.active = true ∧ sRun.run.tun = some tn ∧ tn.keyEnable = true ∧ sRun.keyline.recv = .idle
      ∧ (let s := after .startEdge sRun
         s.keyline.recv = .receiving 0 ∧ (after (.falseStart 32) s).keyline.recv = .idle
           ∧ (after (.falseStart 31) s).keyline.recv = .receiving 31 ∧ (after (.keyFrame 672 5 true true) s).keyline.listening = true
           ∧ (after (.keyFrame 671 5 true true) s).keyline.recv = .receiving 671
           ∧ (after (.keyFrame 672 6 true true) s).keyline.listening = false ∧ (after (.keyFrame 672 5 true false) s).stats.framing = 1
           ∧ (after (.keyFrame 672 0x44 false true) { s with keyline := { s.keyline with listening := true } }).nav.queue
               = [.key 0x44 none]) := by decide

/-! ### Composition and output -/

theorem test_rounding : div255 34560 = 136 ∧ div255 24384 = 96 ∧ div255 9540 = 37 ∧ div255 65025 = 255 ∧ sdiv255 (-5376) = -21 := by decide
theorem witness_PixelClockOutputsAPremultipliedPixel :
    sRun.work = {} ∧ (∀ v, sRun.slide.view = some v → v.fade ≤ 255) ∧ sRun.composer.marker = none
      ∧ (after .pixelClock { sRun with composer := { sRun.composer with marker := some 1 } }).composer.pixel = 1
      ∧ (after .pixelClock sRun).composer.pixel = 0 := by
  refine ⟨by decide, ?_, by decide⟩
  intro v h
  cases h
theorem witness_LineStartBeginsTheNextLine :
    sRun.work = {} ∧ sRun.composer.marker = none
      ∧ (let s := { sRun with composer := { sRun.composer with marker := some 1 } }
         s.composer.marker ≠ none ∧ (after .lineStart s).composer.line = 0 ∧ (after .lineStart (after .lineStart s)).composer.line = 1)
      ∧ (let full : Plane := { content := .shown 0, schedule := List.replicate 8 (se none 0) }
         let s := { sRun with slide := full, menu := full, work := { slide := .ops, menu := .jump, nav := .await, comp := true } }
         s.work.slide ≠ .jump ∧ s.slide.schedule.length ≤ 8 ∧ s.menu.schedule.length ≤ 8 ∧ s.work ≠ {}
           ∧ (after .lineStart s).work = {} ∧ (after .lineStart s).slide.content = .empty ∧ (after .lineStart s).composer.line = 0
           ∧ (after (.operationBegin .slide) s).work.slide = .ops) := by
  decide

/-- A line buffer with one span of one burst. -/
def lineState : State :=
  let sp : Span := { role := .single, obj := 1, blank := false, heapOff := 0, objW := 8, sx := 0, sy := 0, pal := 0, left := 0,
                     top := 0, width := 8, height := 8 }
  { sRun with composer := { sRun.composer with menu := { spans := [sp], bufs := [{ line := 0, spans := [Span.fetch 0 sp] }], next := 1 } } }

theorem witness_LinesFetchTheirLastSixteenSpans :
    (flying (fl (.line .menu 0 0) (blk [1])) lineState).LandingRead (fl (.line .menu 0 0) (blk [1])) (.line .menu 0 0)
      ∧ (lineState.raster .menu).next < lineState.planeSize.2 ∧ (lineState.raster .menu).bufs.length < 4
      ∧ (((after (.lineFetchBurstComplete false) (flying (fl (.line .menu 0 0) (blk [1])) lineState)).raster .menu).bufs.map
          LineBuf.ready) = [true]
      ∧ burstsFor 63 1 = 1 ∧ burstsFor 63 2 = 2 ∧ burstsFor 0 1920 = 30 := ⟨⟨⟨rfl, rfl⟩, rfl, rfl⟩, by decide⟩

/-! ### The memory port -/

/-- A request of each requester. -/
def asking : State :=
  { sRun with port := { sRun.port with
      decReq := some { user := .decCode, block := 0x10200, sel := none },
      compReq := some { user := .compWrite, block := 0x100000, sel := some [(0, 9)] },
      walkerQ := [{ user := .record, block := 0x30000, sel := none }] } }

theorem witness_ArbiterChoosesByTiersAndApertures :
    asking.choice = some (.decoder, .under) ∧ State.reset.choice = none
      ∧ (let s := { asking with port := { asking.port with accounts := ⟨9, 9, 9, 8⟩ } }
         s.choice = some (.compactor, .under))
      ∧ (let s := { asking with port := { asking.port with accounts := ⟨9, 9, 9, 9⟩ } }
         s.choice = some (.decoder, .over))
      ∧ (let s := { asking with run := { asking.run with state := .starting } }
         s.active = false ∧ s.choice = some (.decoder, .none))
      ∧ asking.run.fixed = some fx := by decide
theorem witness_GrantCarriesTheChosenBurst :
    asking.port.flight = none ∧ asking.choice = some (.decoder, .under) ∧ asking.active = true
      ∧ asking.waitingReq .decoder = some { user := .decCode, block := 0x10200, sel := none }
      ∧ (after (.burstGrant []) asking).port.accounts = ⟨0, 3, 0, 0⟩
      ∧ (let s := { asking with port := { asking.port with decReq := none } }
         s.choice = some (.walker, .under) ∧ (after (.burstGrant []) s).port.flight.map (·.refused) = some true)
      ∧ (let s := { asking with port := { asking.port with decReq := none, walkerQ := [] } }
         s.choice = some (.compactor, .under) ∧ memRead (after (.burstGrant []) s).mem 0x100000 = 9) := by decide
theorem witness_SnapshotSamplesAndClears :
    (hand 14 [0, 1]).inHand 14 = some (task 14 [0, 1]) ∧ outcomes (after .snapshot (hand 14 [2])) = [(.badParameter, 0)]
      ∧ outcomes (after .snapshot (hand 14 [1])) = [(.done, 0)]
      ∧ (let s := hand 14 [0, 1] { sRun with stats := { overLimit := 3, frames := 4 } }
         (after .snapshot s).stats = { overLimit := 3 } ∧ (after .snapshot (hand 14 [1, 1] s)).stats = { frames := 4 }) := by decide

/-! ### The task chain -/

/-- The walker at a record with a burst under way. -/
def walking (st : WalkerState) (u : User) (data : List Byte) : State :=
  flying (fl u data) { sRun with walker := { st := st, cur := some 0x10000 } }

theorem witness_RecordReadTakesTheTask :
    (walking .reading .record (blk [0, 0, 0, 0, 14])).LandingRead (fl .record (blk [0, 0, 0, 0, 14])) .record
      ∧ (after (.recordReadComplete false) (walking .reading .record (blk [0, 0, 0, 0, 14]))).walker.st = .working
      ∧ outcomes (after (.recordReadComplete false) (walking .reading .record (blk [0, 0, 0, 0, 15]))) = [(.badKind, 0)]
      ∧ outcomes (after (.recordReadComplete false) (walking .reading .record (blk []))) = [(.badKind, 0)]
      ∧ (after (.recordReadComplete true) (walking .reading .record (blk []))).walker.st = .faulted :=
  ⟨⟨⟨rfl, rfl⟩, rfl, rfl⟩, by decide⟩
theorem witness_WaitsAndStallsAreRetried :
    (hand 13 ([3, 0, 0, 0] ++ le32 0)).inHand 13 = some (task 13 ([3, 0, 0, 0] ++ le32 0))
      ∧ outcomes (after .wait (hand 13 ([3, 0, 0, 0] ++ le32 0))) = [(.done, 0)]
      ∧ outcomes (after .wait (hand 13 ([2, 0, 0, 0] ++ le32 2))) = [(.badParameter, 0)]
      ∧ outcomes (after .wait (hand 13 ([0, 0, 0, 0] ++ le32 2))) = [(.badParameter, 0)]
      ∧ (let s := after .wait (hand 13 ([1, 0, 0, 0] ++ le32 1))
         s.walker.st = .waiting ∧ (after .waitMet s).walker.st = .waiting
           ∧ outcomes (after .waitMet { s with timer := { s.timer with stamp := 1 } }) = [(.done, 0)])
      ∧ (let s := after .injectKey (hand 12 [0x44] (keys (List.replicate 8 (.key 1 none)) sNav))
         s.walker.st = .stalled ∧ s.walker.job = .judge ∧ (after .stallHandover s).walker.st = .stalled
           ∧ (after .stallHandover (keys [] s)).walker.st = .linking) := by decide
theorem witness_LinksAndPokesMoveTheWalker :
    (walking .linking .link (blk [])).LandingRead (fl .link (blk [])) .link ∧ (walking .linking .link (blk [])).run.state = .running
      ∧ (after (.linkReadComplete false) (walking .linking .link (blk []))).walker.st = .parked
      ∧ (after (.linkReadComplete false) (walking .linking .link (blk (le32 0x10080)))).walker.st = .reading
      ∧ (after (.linkReadComplete false) (walking .linking .link (blk (le32 0x10081)))).walker.st = .faulted
      ∧ (after (.linkReadComplete true) (walking .linking .link (blk []))).walker.st = .faulted
      ∧ (∀ a, sRun.notices.cursor ≠ .anchor a) ∧ sRun.run.pinHeld = false
      ∧ (after (.chainPoke 0) { sRun with walker := { st := .parked, cur := some 0x10000 } }).walker.reread = .asked
      ∧ (after (.chainPoke 0x10080) { sRun with walker := { st := .faulted, cur := some 0x10000 } }).walker.st = .reading
      ∧ (after (.chainPoke 0x10081) { sRun with walker := { st := .faulted, cur := some 0x10000 } }).walker.st = .faulted := by
  refine ⟨⟨⟨rfl, rfl⟩, rfl, rfl⟩, by decide, by decide, by decide, by decide, by decide, ?_, by decide⟩
  intro a h
  cases h

/-- A retirement. -/
def rt : Retirement := { task := ref 7, outcome := .done, detail := 3, stamp := 5, results := [] }

theorem witness_RetirementWritesAreFollowedThrough :
    (flying (fl (.results rt) [] (some rt.resultsSel)) sRun).Landing (fl (.results rt) [] (some rt.resultsSel))
      ∧ (flying (fl (.outcome rt .done 3) [] (some [(8, 1)])) sRun).Landing (fl (.outcome rt .done 3) [] (some [(8, 1)]))
      ∧ sRun.notices.queue.length + 2 ≤ 8 ∧ rt.task.flags.getLsbD 0 = true
      ∧ (after (.resultsBurstComplete false) (flying (fl (.results rt) [] (some rt.resultsSel)) sRun)).port.walkerQ.length = 1
      ∧ (after (.outcomeBurstComplete false) (flying (fl (.outcome rt .done 3) [] (some [(8, 1)])) sRun)).notices.queue
          = [{ body := .taskDone 0x10000 7 7 .done 3, stamp := 0 }] := ⟨⟨rfl, rfl⟩, ⟨rfl, rfl⟩, by decide⟩

/-! ### Notices -/

theorem witness_SubmittedNoticeJoinsOrIsCounted :
    (sRun.submit (.syncChange true 1)).notices.queue.length = 1
      ∧ (let s := { sRun with notices := { sRun.notices with queue := List.replicate 8 { body := .syncChange true 1, stamp := 0 } } }
         8 ≤ s.notices.queue.length ∧ (s.submit (.syncChange true 1)).notices.lost = 1) := by decide

/-- A notice being written at the first blank, with a burst under way. -/
def writing (u : User) (p : WritePhase) (data : List Byte) : State :=
  flying (fl u data)
    { sRun with notices := { sRun.notices with
        writing := some { notice := { body := .syncChange true 1, stamp := 0 }, seq := 1, lost := 0, phase := p } } }

theorem witness_NoticesAreWrittenAndTheCursorMoves :
    (writing .contents .contents []).Landing (fl .contents []) ∧ (writing .noticeState .state []).Landing (fl .noticeState [])
      ∧ (writing .noticeLink .link (blk [])).LandingRead (fl .noticeLink (blk [])) .noticeLink
      ∧ sRun.notices.cursor = .blank 0x10040 ∧ sRun.run.tun = some tn
      ∧ (after .noticeTake (sRun.submit (.syncChange true 1))).port.walkerQ.length = 1
      ∧ (after (.contentsBurstComplete false) (writing .contents .contents [])).port.walkerQ.length = 1
      ∧ (after (.contentsBurstComplete true) (writing .contents .contents [])).notices.lost = 1
      ∧ (after (.stateBurstComplete false) (writing .noticeState .state [])).attention.notice = true
      ∧ (after (.noticeLinkReadComplete false) (writing .noticeLink .link (blk []))).notices.cursor = .anchor 0x10040
      ∧ (after (.noticeLinkReadComplete false) (writing .noticeLink .link (blk (le32 0x10080)))).notices.cursor = .blank 0x10080
      ∧ (after (.noticeLinkReadComplete false) (writing .noticeLink .link (blk (le32 0x20000)))).attention.blankFault = true :=
  ⟨⟨rfl, rfl⟩, ⟨rfl, rfl⟩, ⟨⟨rfl, rfl⟩, rfl, rfl⟩, by decide⟩

/-! ### Further clauses of the statements -/

/-- The part RUNNING with its sync watch armed. -/
def sArmed : State := { sRun with timer := { sRun.timer with armed := true } }

theorem witness_ticks_past_the_limit_lose_sync :
    sArmed.Watched 1800001 sArmed.loseSync ∧ sArmed.Watched 1800000 sArmed
      ∧ (after (.frameStart 1800001) sArmed).notices.queue.map (·.body) = [.syncChange false 0, .syncChange true 1]
      ∧ (after (.frameStart 1800001) sArmed).timer.lost = false ∧ (after (.frameStart 1800001) sArmed).timer.forced = true
      ∧ (after (.frameStart 1800000) sArmed).notices.queue = []
      ∧ ((sArmed.passTicks 1800000).passTicks 1).timer.lost = true ∧ (sArmed.passTicks 1800000).timer.lost = false
      ∧ (after (.keyFrame 1800001 5 true true) (after .startEdge sArmed)).timer.lost = true := by
  refine ⟨⟨fun _ => rfl, fun h => absurd (by decide) h⟩, ⟨fun h => absurd h (by decide), fun _ => rfl⟩, by decide⟩
theorem witness_frame_faults_and_prompts :
    let s := { sRun with
      composer := { sRun.composer with marker := some 7, underruns := 1, drops := 2 },
      walker := { st := .parked, cur := some 0x10000 }, notices := { cursor := .anchor 0x10040 } }
    s.AcceptsFrame 300000
      ∧ (after (.frameStart 300000) s).notices.queue = [{ body := .frameFaults 7 1 2, stamp := 1 }]
      ∧ (after (.frameStart 300000) s).port.walkerQ.map (·.block) = [0x10000, 0x10040]
      ∧ (after (.frameStart 300000) { s with walker := { s.walker with reread := .granted false } }).walker.reread = .granted true
      ∧ (after (.frameStart 300000) { s with notices := { s.notices with reread := .granted false } }).notices.reread
          = .granted true := by decide
theorem test_registers_as_bytes_and_commands :
    sRun.readRegisterByte .status 0 = 2 ∧ sRun.readRegisterByte .status 3 = 0 ∧ State.reset.readRegister .resetCause = 1
      ∧ (after (.registerWrite .control 4 1) State.reset).run.state = .starting
      ∧ (after (.registerWrite .control 4 2) sRun).run.state = .halting
      ∧ (after (.registerWrite .control 4 4) sRun).run.state = .stopped := by decide
theorem test_fields_fail_in_order :
    let fails (b : List Byte) := firstFailure (fixedChecks b ++ tunableChecks tunableBytes)
    fails (blk (le32 0x10000 ++ le32 0x10000 ++ le32 0x18000 ++ le32 0)) = some 4
      ∧ fails (blk (le32 0x10000 ++ le32 0x10000 ++ le32 0x18000 ++ le32 0x100000)) = some 3
      ∧ fails (blk (le32 0x10000 ++ le32 0 ++ le32 0x18000)) = some 2 := by decide

/-- A switch that a frame start has found due. -/
def switchDue (e : DirEntry) : State :=
  after (.frameStart 300000)
    { sRun.setEntry 1 e with compactor := { phase := .switchPending, task := some (ref 3), move := some (mv false) } }

theorem witness_work_goes_on_past_an_abandoned_switch :
    (switchDue (de .ready 4 0)).work.heap = true
      ∧ (let t := after .freeObject (hand 2 (le16 1) (switchDue (de .ready 4 0)))
         t.compactor.phase = .scanning ∧ t.compactor.move = none ∧ t.work = {} ∧ t.stats.frames = 1
           ∧ t.slide.view.map (·.frame) = some 1)
      ∧ (let t := after .discardPage (hand 6 [0] (inSlot 0 (.staged slidePage [1] 0) (switchDue (de .releasing 4 1))))
         t.entry 1 = {} ∧ t.compactor.phase = .scanning ∧ t.work = {} ∧ t.stats.frames = 1) := by decide
theorem witness_frame_start_and_the_switch :
    (sComp .switchPending (some (mv false))).AcceptsFrame 300000
      ∧ (switchDue (de .ready 4 1)).work = { heap := true, slide := .begin, menu := .begin, nav := .await, comp := true }
      ∧ (sComp .scanning none).AcceptsFrame 300000 ∧ (after (.frameStart 300000) (sComp .scanning none)).work.heap = false
      ∧ (after (.frameStart 300000) (sComp .scanning none)).heap.view.isSome = true := by decide

theorem witness_items_fail_in_order :
    let place : List Byte := [9, 7] ++ List.replicate 14 0
    let head : List Byte := [1, 1, 1, 255] ++ List.replicate 12 0
    let button (kind slot : Byte) : List Byte := [0, 255, 255, 255, 255] ++ List.replicate 11 0 ++ [kind, 0, 0, 0, slot] ++ List.replicate 59 0
    (∃ d, readPage (head ++ place ++ button 3 5) = .inr d) ∧ readPage (head ++ place ++ button 3 6) = .inl 33
      ∧ readPage (head ++ place ++ button 4 0) = .inl 33 ∧ readPage (head ++ [9, 8] ++ button 0 0) = .inl 1 :=
  ⟨⟨_, rfl⟩, by decide⟩

/-- The menu plane at a frame start. -/
def menuFrame (c : Content) (l : List SchedEntry) : State :=
  after (.frameStart 300000) { sRun with menu := { content := c, schedule := l } }

theorem witness_frame_start_of_a_plane :
    sRun.AcceptsFrame 300000
      ∧ (menuFrame (.crossing 0 1 3 8) []).menu.content = .crossing 0 1 4 8
      ∧ (menuFrame (.crossing 0 1 3 8) []).menu.view = some { frame := 1, content := .crossing 0 1 4 8, fade := 127, mark := false }
      ∧ (menuFrame (.leaving 0 7 8) []).stage .menu = .transEnd ∧ (menuFrame (.shown 0) [se none 1]).stage .menu = .ops
      ∧ (menuFrame (.shown 0) [se none 2]).stage .menu = .idle := by decide

/-- The navigation unit of a published page with button 0 selected, at a frame start. -/
def navFrame (r : ButtonRec) (act : Option Nat) (mark : Bool) : State :=
  { sNav with
    nav := { sNav.nav with buttons := .replicate 24 r, activation := act, timeout := 5 } }.navJudge { view0 with mark := mark }

theorem witness_navigation_frame_work :
    let r : ButtonRec := { vis := .selected, pair := 0, left := 2, pub := true }
    (navFrame r none false).nav.timeout = 4 ∧ (navFrame r none false).nav.buttons.toList.head? = some { r with left := 1 }
      ∧ (navFrame { r with left := 1 } none false).nav.buttons.toList.head? = some { r with left := 5 }
      ∧ (navFrame { r with vis := .activating, left := 1 } (some 0) false).work.nav = .actEnd
      ∧ (navFrame { r with vis := .activating, left := 1 } (some 0) true).nav.activation = none
      ∧ (navFrame r none true).nav.timeout = 8 ∧ (navFrame r none true).nav.selected = some 0
      ∧ (navFrame r none true).nav.live.map (·.buttons) = some [⟨true, .selected, 0⟩, ⟨true, .normal, 0⟩]
      ∧ ({ sNav with nav := { sNav.nav with live := some { slot := 0, buttons := [] } } }.navJudge
          { view0 with content := .leaving 0 1 8 }).nav.frozen = some { slot := 0, buttons := [] }
      ∧ (sNav.navJudge { view0 with content := .leaving 0 1 8 }).navSlot = none
      ∧ ({ sRun with slots := sNav.slots }.navJudge { view0 with content := .leaving 0 1 8 }).nav.frozen
          = some { slot := 0, buttons := [⟨true, .selected, 0⟩, ⟨true, .normal, 0⟩] } := by decide

/-- An activation of button 0 that ends, its actions being these. -/
def ending (a b : Action) (j : Option Jump) : State :=
  let d : PageDef := { menuPage with buttons := [{ bt 0 3 1 a with act2 := b, mask := 0 }, bt 1 41 0 .none] }
  let s := inSlot 0 (.staged d [1, 2, 3] 1) (inSlot 1 (.staged slidePage [] 1) sNav)
  { s with nav := { sNav.nav with activation := some 0 }, work := { nav := .actEnd }, jump := j }

theorem witness_actions_in_item_order :
    let heard (a b : Action) (j : Option Jump) := (after .activationEnd (ending a b j)).notices.queue.map (·.body)
    heard (.notify 1) (.notify 2) none = [.buttonAction 0 0 1 0, .buttonAction 0 0 2 0]
      ∧ heard (.toggle 6) (.notify 2) none = [.stateChanged 0 6 0 0, .buttonAction 0 0 2 6]
      ∧ heard (.notify 2) (.toggle 6) none = [.buttonAction 0 0 2 0, .stateChanged 0 6 0 0]
      ∧ (let j : Jump := { target := 1, held := true, button := 5, slot := 2 }
         heard (.jump 0) .none (some j) = [.pageJump (some .superseded) 1 none 5 2]
           ∧ (after .activationEnd (ending (.jump 0) .none (some j))).jump = some { target := 0, held := true, button := 0, slot := 0 }
           ∧ ((after .activationEnd (ending (.jump 0) .none (some j))).slot 1).holds = 0
           ∧ ((after .activationEnd (ending (.jump 0) .none (some j))).slot 0).holds = 2)
      ∧ (after .activationEnd (ending (.jump 5) .none none)).jump = some { target := 5, held := false, button := 0, slot := 0 } := by
  decide

/-- A menu plane that shows a span of object bytes on line 0. -/
def pixelState (pub : Bool) : State :=
  let b : List Byte := [3, 4] ++ List.replicate 62 0
  let sp : Span := { role := .single, obj := 1, blank := false, heapOff := 0, objW := 8, sx := 0, sy := 0, pal := 0, left := 0,
                     top := 0, width := 2, height := 8 }
  { sRun with
    menu := { content := .shown 0, view := if pub then some view0 else none },
    palette := { sRun.palette with applied := .replicate 8 (.replicate 256 { y := 200, cb := 100, cr := 140, a := 128 }) },
    composer := { sRun.composer with
      marker := some 1, lineStarted := true,
      menu := { spans := [sp], bufs := [{ line := 0, spans := [{ Span.fetch 0 sp with got := [some b] }], judged := true }] } } }

theorem witness_pixel_of_a_span :
    (pixelState true).work = {} ∧ (pixelState true).active = true ∧ (pixelState true).timer.forced = false
      ∧ (pixelState true).composer.pixel < (pixelState true).planeSize.1
      ∧ (after .pixelClock (pixelState true)).composer.output = { a := 128, y := 100, cb := -14, cr := 6 }
      ∧ (after .pixelClock (pixelState false)).composer.output = {}
      ∧ (Span.fetch 0 { (default : Span) with objW := 8, width := 2 }).index 1 = 0 := by decide

theorem witness_outstanding_work_is_finished :
    let s := { sNav with
      menu := { sNav.menu with content := .crossing 0 1 8 8, schedule := List.replicate 8 (se none 0) },
      work := { palette := true, menu := .transEnd, nav := .await, comp := true } }
    s.menu.schedule.length ≤ 8 ∧ s.work ≠ {} ∧ s.finishWork.work = {} ∧ s.finishWork.menu.content = .empty
      ∧ s.finishWork.menu.schedule = [] ∧ s.finishWork.stats.frames = 1
      ∧ (after .lineStart s).composer.lineStarted = true ∧ (after .pixelClock s).composer.pixel = 1
      ∧ (after (.frameStart 300000) s).timer.stamp = 1 := by decide

/-- The composer's work left to the end of a transition to slot 0. -/
def toCompose : State :=
  { sNav with
    menu := { sNav.menu with content := .entering 0 8 8 }, heap := { sNav.heap with view := some (.replicate 256 ⟨true, 4, 4, 2, false⟩) },
    work := { menu := .transEnd, nav := .await, comp := true } }

theorem witness_span_tables :
    Instr.transitionEnd .menu ∈ workSteps ∧ toCompose.work.comp = true
      ∧ (let t := after (.transitionEnd .menu) toCompose
         t.work = {} ∧ t.composer.marker = some 0 ∧ (t.raster .menu).bufs.map (·.line) = [0, 1, 2, 3]
           ∧ (t.raster .menu).spans.map (fun x => (x.obj, x.left, x.width, x.heapOff)) = [(1, 0, 4, 2), (1, 8, 4, 2)])
      ∧ drawnObject menuPage (some { slot := 0, buttons := [⟨false, .normal, 0⟩] }) 0 menuPage.placements.head! = none
      ∧ drawnObject menuPage none 5 menuPage.placements.head! = some 1
      ∧ (let p : Placement := { obj := 1, pal := 0, x := -2, y := 478, cropX := 1, cropY := 0, cropW := 0, cropH := 0 }
         (spanOf 720 480 .single p 1 ⟨true, 8, 8, 5, false⟩).map (fun x => (x.left, x.top, x.width, x.height, x.sx))
             = some (0, 478, 5, 2, 3)
           ∧ spanOf 720 480 .single p 1 ⟨false, 0, 0, 0, true⟩ = none
           ∧ spanOf 720 480 .single { p with x := 720 } 1 ⟨true, 8, 8, 5, false⟩ = none) := by decide

/-- The walker reading a link, with a prompt or without. -/
def reReading (st : WalkerState) (r : RunState) (x : Reread) (data : List Byte) : State :=
  let s := walking st .link data
  { s with run := { s.run with state := r }, walker := { s.walker with reread := x } }

theorem witness_links_re_read_and_in_halting :
    (reReading .parked .running (.granted true) (blk [])).LandingRead (fl .link (blk [])) .link
      ∧ (after (.linkReadComplete false) (reReading .parked .running (.granted true) (blk []))).walker.reread = .asked
      ∧ (after (.linkReadComplete false) (reReading .parked .running (.granted false) (blk []))).walker.reread = .none
      ∧ (after (.linkReadComplete false) (reReading .parked .running (.granted false) (blk (le32 0x10080)))).walker.st = .reading
      ∧ (after (.linkReadComplete false) (reReading .linking .halting .none (blk []))).walker.st = .halted .parked
      ∧ (after (.linkReadComplete false) (reReading .linking .halting .none (blk (le32 0x10080)))).walker.st = .halted .record
      ∧ (after (.linkReadComplete false) (reReading .linking .halting .none (blk (le32 1)))).walker.st = .faulted :=
  ⟨⟨⟨rfl, rfl⟩, rfl, rfl⟩, by decide⟩
theorem witness_chain_poke_at_the_anchor :
    let s := { sRun with walker := { st := .parked, cur := some 0x10000 }, notices := { cursor := .anchor 0x10040 } }
    s.notices.cursor = .anchor 0x10040 ∧ s.run.pinHeld = false
      ∧ (after (.chainPoke 0) s).port.walkerQ.map (·.user) = [.link, .noticeLink]
      ∧ (after (.chainPoke 0) { s with walker := { st := .reading } }).port.walkerQ.map (·.user) = [.noticeLink]
      ∧ (after (.chainPoke 0) { s with notices := { s.notices with reread := .granted false } }).notices.reread = .granted true := by
  decide
theorem witness_prompted_anchor_reads_again :
    let s := writing .noticeLink .link (blk [])
    let p := { s with notices := { s.notices with cursor := .anchor 0x10040, reread := .granted true } }
    p.LandingRead (fl .noticeLink (blk [])) .noticeLink ∧ p.notices.cursor = .anchor 0x10040
      ∧ (after (.noticeLinkReadComplete false) p).notices.reread = .asked
      ∧ (after (.noticeLinkReadComplete true) p).port.walkerQ.length = 1
      ∧ (after (.noticeLinkReadComplete false) (flying (fl .noticeLink (blk (le32 0x10080))) p)).notices.cursor = .blank 0x10080 :=
  ⟨⟨⟨rfl, rfl⟩, rfl, rfl⟩, by decide⟩

theorem witness_entries_inserted_during_the_work_wait :
    let s := { sNav with menu := { sNav.menu with schedule := [se none 0] }, work := { menu := .ops } }
    let u := after .hidePlane (hand 8 (opParams 1 0 0 1 0 0) s)
    s.stage .menu = .ops ∧ (s.plane .menu).schedule.length < 8
      ∧ u.menu.schedule.map (·.later) = [false, true] ∧ (after (.operationBegin .menu) u).menu.schedule.map (·.later) = [true]
      ∧ (after (.operationBegin .menu) u).stage .menu = .idle
      ∧ (after (.frameStart 300000) (after (.operationBegin .menu) u)).menu.schedule.map (·.later) = [false]
      ∧ (after (.frameStart 300000) (after (.operationBegin .menu) u)).stage .menu = .ops := by decide
theorem witness_an_operation_that_no_longer_begins :
    let l := [{ se none 0 with later := true }, se (some 0) 5]
    let s := { sNav with menu := { sNav.menu with schedule := l }, work := { menu := .ops } }
    s.stage .menu = .ops ∧ reached s.timer.stamp (se (some 0) 5).due = false
      ∧ (after (.operationBegin .menu) s).menu.schedule = l ∧ (after (.operationBegin .menu) s).stage .menu = .idle := by decide
theorem witness_an_application_outstanding_goes_first :
    let s := { palRead with
      palette := { palRead.palette with list := [ref 4], pend := .replicate 8 (.replicate 256 (some { y := 1 })) },
      work := { palette := true } }
    s.LandingRead (fl .palette (blk [9, 8, 7, 6])) .palette ∧ s.work.palette = true
      ∧ (after (.paletteReadComplete false) s).palette.list.length = 1 ∧ outcomes (after (.paletteReadComplete false) s) = [(.done, 0)]
      ∧ (after (.paletteReadComplete false) s).work.palette = false :=
  ⟨⟨⟨rfl, rfl⟩, rfl, rfl⟩, by decide⟩
theorem witness_codes_that_run_out :
    let run (code : List Byte) : State :=
      flying (fl .decCode (blk code)) (sDec { dc [] .stream with width := 640, height := 1, codeLen := 200 })
    (run []).Landing (fl .decCode (blk []))
      ∧ (decodeLoop 65 (((run (List.replicate 64 0x42)).heap.decode.getD (dc [] .stream)).feed (blk (List.replicate 64 0x42)))).2
          = .need
      ∧ ((after (.decoderReadComplete false) (run (List.replicate 64 0x42))).port.decReq.map (·.user)) = some .decPixels
      ∧ ((after (.decoderReadComplete false) (run (List.replicate 64 0x3F))).port.decReq.map (·.user)) = some .decCode :=
  ⟨⟨rfl, rfl⟩, by decide⟩
theorem test_header_checks :
    headerValid ([1, 0] ++ le16 1920 ++ le16 1080 ++ [0, 0] ++ le32 1) = true
      ∧ headerValid ([1, 0] ++ le16 1921 ++ le16 1 ++ [0, 0] ++ le32 1) = false
      ∧ headerValid ([1, 0] ++ le16 1 ++ le16 0 ++ [0, 0] ++ le32 1) = false
      ∧ headerValid ([1, 0] ++ le16 1 ++ le16 1 ++ [0, 0] ++ le32 0) = false
      ∧ pageHeaderValid [1, 32, 24, 23] = true ∧ pageHeaderValid [1, 32, 24, 24] = false ∧ pageHeaderValid [2, 1, 1, 255] = false
      ∧ pageHeaderValid [1, 33, 0, 255] = false := by decide
theorem witness_scans_and_drawn_objects :
    lowered 5 [⟨0, 2⟩, ⟨3, 2⟩] = 3 ∧ lowered 5 [⟨0, 2⟩, ⟨6, 2⟩] = 5 ∧ extentsFrom 0 [⟨0, 2⟩, ⟨3, 2⟩] = true
      ∧ lowestFrom 2 0 [de .ready 1 0, {}, de .ready 4 0, de .ready 3 0] = some (3, de .ready 3 0)
      ∧ lowestFrom 5 0 [de .ready 4 0] = none ∧ extTakeLow 3 2 [⟨0, 2⟩, ⟨3, 4⟩] = [⟨0, 2⟩, ⟨5, 2⟩]
      ∧ extTakeLow 3 4 [⟨3, 4⟩, ⟨9, 1⟩] = [⟨9, 1⟩]
      ∧ { sNav with drawnViews := some (view0, { view0 with content := .empty }) }.drawn 3 = true
      ∧ { sNav with drawnViews := some (view0, { view0 with content := .leaving 0 1 2 }) }.drawn 4 = false
      ∧ (after (.frameStart 300000) sRun).drawnViews.isSome = true
      ∧ (after (.frameStart 300000) { sRun with menu := { schedule := [se none 1] } }).drawnViews = none
      ∧ (after (.operationBegin .menu) { sRun with slide := { view := some view0 }, work := { menu := .ops } }).drawnViews.isSome
          = true := by decide

/-- A menu page whose first button can be given an empty ACTIVATED cycle, and whose second may activate itself. -/
def keyed (empty auto : Bool) (digit : Option DigitEntry) (l : List KeyItem) : State :=
  let b := bt 0 3 1 (.notify 9)
  let d : PageDef := { menuPage with
    buttons := [if empty then { b with activated := [] } else b, { bt 1 41 0 (.toggle 2) with auto := auto }] }
  keys l { inSlot 0 (.staged d [1, 2, 3] 1) sNav with nav := { sNav.nav with digit := digit } }

theorem witness_items_and_presses :
    (keyed true false none [.key 0x44 none]).nav.selected = some 0
      ∧ (after .takeItem (keyed true false none [.key 0x44 none])).nav.activation = none
      ∧ (after .takeItem (keyed true false none [.key 0x44 none])).notices.queue.map (·.body) = [.buttonAction 0 0 9 0]
      ∧ (after .takeItem (keyed false true none [.key 0x43 none])).nav.activation = some 1
      ∧ (after .takeItem (keyed false false none [.select 1 true (ref 11)])).nav.activation = some 1
      ∧ (after .takeItem (keyed false false none [.key 0x50 none])).notices.queue.map (·.body) = [.keyPassed 0x50 false (some 0)]
      ∧ (let s := keyed false false none [.key 0x44 (some (ref 12))]
         outcomes (after .takeItem s) = [(.done, 1)]
           ∧ outcomes (after .takeItem { s with nav := { s.nav with selected := none } }) = [(.done, 0)]) := by decide
theorem witness_items_that_end_a_digit_entry :
    let take (n : Nat) (i : KeyItem) := after .takeItem (keyed false false (some { digit := n, left := 3, slot := 0 }) [i])
    menuPage.numbered 0 3 = some 0 ∧ menuPage.numbered 0 4 = none ∧ menuPage.numbered 0 0 = none ∧ menuPage.longer 0 4 = true
      ∧ menuPage.longer 0 3 = false ∧ digitOf 0x39 = some 9 ∧ digitOf 0x3A = none ∧ digitOf 0x2F = none
      ∧ (take 3 (.key 0x43 none)).nav.activation = some 0 ∧ (take 3 (.key 0x43 none)).nav.queue.length = 1
      ∧ (take 4 (.key 0x43 none)).nav.selected = some 1 ∧ (take 4 (.key 0x43 none)).nav.digit = none
      ∧ (take 4 (.key 0x39 none)).nav.digit = none ∧ (take 4 (.key 0x39 none)).nav.activation = none := by decide
theorem witness_expiry_with_an_empty_cycle :
    let s := { keyed true false (some { digit := 3, left := 0, slot := 0 }) [] with work := { nav := .expiry } }
    s.work.nav = .expiry ∧ s.nav.activation = none ∧ (after .digitWindowExpiry s).nav.activation = none
      ∧ (after .digitWindowExpiry s).notices.queue.map (·.body) = [.buttonAction 0 0 9 0]
      ∧ (after .pageTimeout { keyed true false none [] with work := { nav := .timeout } }).notices.queue.map (·.body)
          = [.buttonAction 0 0 9 0] := by decide

/-- Line fetch with a line of one span of one burst in each of two buffers of the menu plane. -/
def fetching : State :=
  let sp : Span := { role := .single, obj := 1, blank := false, heapOff := 2, objW := 8, sx := 1, sy := 0, pal := 0, left := 0,
                     top := 0, width := 7, height := 8 }
  let line (y : Nat) : LineBuf := { line := y, spans := [Span.fetch y sp] }
  { sRun with composer := { sRun.composer with marker := some 1, menu := { spans := [sp], bufs := [line 0, line 1], next := 2 } } }

theorem witness_requests_of_line_fetch :
    fetching.port.lfReq = none ∧ fetching.fetchPlane = some .menu ∧ fetching.urgent = true ∧ fetching.linesAhead .menu = 0
      ∧ fetching.lfPresent.port.lfReq = some { user := .line .menu 0 0, block := 0x100080, sel := none }
      ∧ (Span.fetch 7 { (default : Span) with heapOff := 2, objW := 8, sx := 1, width := 7 }).base = 185
      ∧ (Span.fetch 7 { (default : Span) with blank := true }).bursts = 0
      ∧ sRun.urgent = false ∧ sRun.fetchPlane = none
      ∧ (let s := flying (fl (.line .menu 0 0) (blk [1])) (after .lineStart fetching)
         (s.raster .menu).bufs.map (·.judged) = [true, false, false, false]
           ∧ after (.lineFetchBurstComplete false) s = s.landed)
      ∧ (after .lineStart fetching).composer.underruns = 1
      ∧ ((after .lineStart fetching.lfPresent).port.lfReq.map (·.user)) = some (.line .menu 1 0)
      ∧ ((after .lineStart (after .lineStart fetching)).raster .menu).bufs.map (·.line) = [1, 2, 3, 4]
      ∧ (fetching.lfPresent.choice = some (.lineFetch, .urgent)
          ∧ ((after (.burstGrant []) fetching.lfPresent).raster .menu).bufs.map (fun b => b.spans.map (·.granted)) = [[1], [0]]
          ∧ ((after (.burstGrant []) fetching.lfPresent).port.lfReq.map (·.user)) = some (.line .menu 1 0)) := by decide

/-- The outcome burst of the head retirement waits for its grant. -/
def granting (l : List Retirement) (st : WalkerState) : State :=
  let r : Retirement := { task := ref 7, outcome := .done, detail := 3, stamp := 5, results := [] }
  { sRun with
    walker := { st := st, cur := some 0x10080, retiring := r :: l },
    port := { sRun.port with walkerQ := [{ user := .outcome r .done 3, block := 0x10000, sel := some [(8, 1)] }] } }

theorem witness_the_next_retirement_is_asked_for :
    (granting [] .reading).choice = some (.walker, .under)
      ∧ (after (.burstGrant []) (granting [rt] .reading)).port.walkerQ = [rt.burst]
      ∧ (after (.burstGrant []) (granting [rt] .reading)).walker.retiring = [rt]
      ∧ (after (.burstGrant []) (granting [] .reading)).port.walkerQ.map (·.user) = [.record]
      ∧ (after (.burstGrant []) (granting [] .linking)).port.walkerQ = []
      ∧ rt.resultsSel = [(9, 3), (12, 5), (13, 0), (14, 0), (15, 0)]
      ∧ (sRun.retire (ref 7) .done 3 []).port.walkerQ.length = 1
      ∧ (granting [] .linking).walker.retiring ≠ []
      ∧ ((granting [] .linking).retire (ref 7) .done 3 []).port.walkerQ.length = 1 := by decide
theorem witness_walker_faults_are_noticed :
    let bad (s : State) := s.notices.queue.map (·.body)
    bad (after (.recordReadComplete true) (walking .reading .record (blk [])))
        = [.walkerFault { addr := 0x10000, holder := none, write := false }]
      ∧ bad (after (.linkReadComplete false) (walking .linking .link (blk (le32 0x10081))))
        = [.walkerFault { addr := 0x10081, holder := some 0x10000, write := false }]
      ∧ bad (after (.resultsBurstComplete true) (flying (fl (.results rt) [] (some rt.resultsSel)) sRun))
        = [.walkerFault { addr := 0x10000, holder := none, write := true }]
      ∧ bad (after (.outcomeBurstComplete true) (flying (fl (.outcome rt .done 3) [] (some [(8, 1)])) sRun))
        = [.walkerFault { addr := 0x10000, holder := none, write := true }, .taskDone 0x10000 7 7 .done 3]
      ∧ sNav.slide.idle = true ∧ { sNav.menu with schedule := [se none 0] }.idle = false := by decide
theorem test_record_bytes :
    let n : Notice := { body := .pageJump (some .superseded) 1 none 5 2, stamp := 0x01020304 }
    (contentsSel n 9 3).take 17 = [(5, 4), (6, 3), (7, 0), (8, 9), (9, 0), (10, 0), (11, 0), (12, 4), (13, 3), (14, 2), (15, 1),
        (16, 2), (17, 1), (18, 255), (19, 4), (20, 5), (21, 2)]
      ∧ (contentsSel n 9 3).length = 59
      ∧ (NoticeBody.walkerFault { addr := 5, holder := none, write := true }).bytes = [5, 0, 0, 0, 0, 0, 0, 0, 0, 2] := by decide

/-- A move reserved before a frame start whose drawn test is still to be made. -/
def unconfirmed (drawn : Bool) : State :=
  let s := inSlot 0 (.staged menuPage [1] 1) (sComp .confirming (some (mv true)))
  { s with compactor := { s.compactor with frameSeen := true }, drawnViews := if drawn then some (view0, view0) else none }

theorem witness_a_further_frame_start_makes_the_drawn_test :
    (unconfirmed true).AcceptsFrame 300000 ∧ (unconfirmed true).compactor.move ≠ none
      ∧ (after .compactConfirm (unconfirmed true)).compactor.phase = .scanning
      ∧ (after (.frameStart 300000) (unconfirmed true)).compactor.phase = .scanning
      ∧ (after (.frameStart 300000) (unconfirmed true)).compactor.skipped = 1
      ∧ (after (.frameStart 300000) (unconfirmed false)).compactor.phase = .copying
      ∧ ((after (.frameStart 300000) (unconfirmed false)).port.compReq.map (·.user)) = some .compRead
      ∧ (let s := sComp .confirming (some (mv true))
         s.AcceptsFrame 300000 ∧ (after (.frameStart 300000) s).compactor.phase = .confirming
           ∧ (after (.frameStart 300000) s).compactor.frameSeen = true)
      ∧ (let s := sComp .switchPending (some (mv true))
         s.AcceptsFrame 300000 ∧ (after (.frameStart 300000) s).work.heap = true
           ∧ (after (.frameStart 300000) s).stage .slide = .begin) := by decide

/-- A resume's last read at a resume point, with retirements outstanding and a re-read of the link. -/
def resumingAt (st : WalkerState) (l : List Retirement) (r : Reread) : State :=
  let s := resuming st .idle
  { s with walker := { s.walker with retiring := l, reread := r } }

theorem witness_the_walker_goes_on_at_its_resume_point :
    let go (st : WalkerState) (l : List Retirement) (r : Reread) :=
      let t := after (.resumeReadsComplete false) (resumingAt st l r)
      (t.walker.st, t.walker.reread, t.port.walkerQ.map (·.user))
    (resumingAt (.halted .record) [rt] .none).LandingRead (fl (.setup true) tunableBytes) (.setup true)
      ∧ (resumingAt (.halted .record) [rt] .none).walker.cur = some 0x10000
      ∧ go (.halted .link) [] .none = (.linking, .none, [.link])
      ∧ go (.halted .record) [] .none = (.reading, .none, [.record])
      ∧ go (.halted .record) [rt] .none = (.reading, .none, [])
      ∧ go (.halted .handover) [] .none = (.stalled, .none, [])
      ∧ go (.halted .wait) [] .none = (.waiting, .none, [])
      ∧ go (.halted .parked) [] .none = (.parked, .asked, [.link])
      ∧ go (.halted .parked) [] .asked = (.parked, .asked, [])
      ∧ go (.halted .parked) [] (.granted false) = (.parked, .granted true, [])
      ∧ go .faulted [] .none = (.faulted, .none, []) := ⟨⟨⟨rfl, rfl⟩, rfl, rfl⟩, by decide⟩

/-- The menu plane with page 0 in slot 0 and page 1 in slot 1, each held twice, ready under the entry view, in a step of its
frame-start work. -/
def twoPages (c : Content) (l : List SchedEntry) (st : PlaneStage) (j : Option Jump := none) : State :=
  let s := inSlot 0 (.staged menuPage [1] 2) (inSlot 1 (.staged menuPage [2] 2) sRun)
  { s with
    menu := { content := c, schedule := l }, jump := j, work := { menu := st },
    heap := { s.heap with view := some (.replicate 256 ⟨true, 8, 8, 0, false⟩) } }

theorem witness_holds_and_stages_of_a_plane :
    let held (t : State) := ((t.slot 0).holds, (t.slot 1).holds)
    let show' (n : Option Nat) : SchedEntry := { se (some 0) 0 with blend := n }
    let op (c : Content) (e : SchedEntry) := after (.operationBegin .menu) (twoPages c [e, se none 0] .ops)
    (twoPages .empty [show' none] .ops).readySlot 0 = true
      ∧ held (op .empty (show' none)) = (2, 2) ∧ held (op (.shown 0) (show' none)) = (1, 2)
      ∧ held (op (.shown 1) (show' none)) = (2, 1) ∧ held (op (.shown 1) (show' (some 9))) = (2, 2)
      ∧ held (op (.crossing 0 1 3 9) (show' none)) = (1, 1) ∧ held (op (.leaving 1 3 9) (show' none)) = (2, 1)
      ∧ held (op (.shown 0) (se none 0)) = (1, 2) ∧ held (op (.entering 0 3 9) { se none 0 with blend := some 9 }) = (2, 2)
      ∧ (op (.shown 1) (show' (some 9))).menu.content = .crossing 0 1 1 9
      ∧ (op .empty (show' none)).stage .menu = .ops
      ∧ (after (.operationBegin .menu) (twoPages (.shown 1) [show' none, se none 5] .ops)).stage .menu = .idle
      ∧ (after (.operationBegin .menu) (twoPages (.shown 1) [show' none] .ops)).menu.view.isSome = true
      ∧ held (after (.transitionEnd .menu) (twoPages (.crossing 0 1 9 9) [se none 0] .transEnd)) = (2, 1)
      ∧ (after (.transitionEnd .menu) (twoPages (.crossing 0 1 9 9) [se none 0] .transEnd)).stage .menu = .ops
      ∧ (after (.transitionEnd .menu) (twoPages (.entering 0 9 9) [] .transEnd)).stage .menu = .idle := by decide

theorem witness_holds_and_stages_of_a_jump :
    let held (t : State) := ((t.slot 0).holds, (t.slot 1).holds)
    let j : Jump := { target := 0, held := true, button := 1, slot := 0 }
    let go (c : Content) (l : List SchedEntry) (j : Jump) := after .jumpApply (twoPages c l .jump (some j))
    (twoPages .empty [] .jump (some j)).readySlot j.target = true
      ∧ held (go (.shown 1) [] j) = (2, 1) ∧ held (go (.crossing 1 0 3 9) [] j) = (1, 1) ∧ held (go (.shown 0) [] j) = (1, 2)
      ∧ (go (.shown 1) [se none 0] j).stage .menu = .ops ∧ (go (.shown 1) [] j).stage .menu = .idle
      ∧ (go (.entering 1 8 9) [] { j with held := false }).stage .menu = .transEnd
      ∧ (go (.entering 1 3 9) [se none 0] { j with held := false }).stage .menu = .ops
      ∧ held (go (.shown 1) [] { j with held := false }) = (2, 2)
      ∧ (let s := inSlot 0 (.staged slidePage [] 2) (twoPages (.crossing 1 1 8 9) [] .jump (some j))
         s.page j.target = some slidePage ∧ (after .jumpApply s).stage .menu = .transEnd ∧ held (after .jumpApply s) = (1, 2)) := by
  decide

theorem witness_records_as_the_selection_moves :
    let r : ButtonRec := { vis := .normal, pair := 7, left := 7, pub := true }
    let s (l : List KeyItem) := keys l { sNav with nav := { sNav.nav with buttons := .replicate 24 r } }
    let recs (t : State) := t.nav.buttons.toList.take 3
    recs (after .takeItem (s [.key 0x43 none])) = [(bt 0 3 1 .none).atStart .normal, (bt 0 3 1 .none).atStart .selected, r]
      ∧ recs (after .takeItem (s [.select 0 false (ref 11)])) = [r, r, r]
      ∧ recs (after .takeItem (s [.key 0x44 none])) = [(bt 0 3 1 .none).atStart .activating, r, r]
      ∧ recs (after .setState (hand 10 (le32 1 ++ le32 1) (s []))) = [(bt 0 3 1 .none).atStart .normal, r, r]
      ∧ recs (after .setState (hand 10 (le32 2 ++ le32 2) (s []))) = [r, r, r]
      ∧ (after .takeItem (s [.key 0x43 none, .key 0x42 none])).nav.queue = [.key 0x42 none]
      ∧ (after .takeItem (s [.key 0x35 none, .key 0x42 none])).nav.digit = none := by decide

/-- The navigation unit in a step of its frame-start work, a key in its queue, each record published and old. -/
def working (st : NavStage) (act : Option Nat) (dig : Option DigitEntry) (timeout : Nat) : State :=
  let r : ButtonRec := { vis := .normal, pair := 7, left := 7, pub := false }
  let v : PageView := { slot := 3, buttons := [] }
  { sNav with
    nav := { sNav.nav with buttons := .replicate 24 r, activation := act, digit := dig, timeout := timeout, live := some v,
                           frozen := some v, queue := [.key 9 none] },
    work := { nav := st } }

/-- Where the unit stands: its stage, the timeout, the slot of the live view and whether there is a frozen copy. -/
def look (t : State) : NavStage × Nat × Option SlotId × Bool :=
  (t.work.nav, t.nav.timeout, t.nav.live.map (·.slot), t.nav.frozen.isSome)

/-- The published flags of three records. -/
def pubs (t : State) : List Bool := (t.nav.buttons.toList.take 3).map (·.pub)

/-- A digit entry. -/
def entry (n left : Nat) : Option DigitEntry := some { digit := n, left := left, slot := 0 }

theorem witness_the_units_work_publishes_or_waits :
    look (after .activationEnd (working .actEnd (some 0) none 5)) = (.idle, 4, some 0, false)
      ∧ pubs (after .activationEnd (working .actEnd (some 0) none 5)) = [true, true, false]
      ∧ look (after .activationEnd (working .actEnd (some 0) none 1)) = (.timeout, 0, some 3, true)
      ∧ pubs (after .activationEnd (working .actEnd (some 0) none 1)) = [false, false, false]
      ∧ look (after .activationEnd (working .actEnd (some 0) (entry 4 1) 5)) = (.expiry, 5, some 3, true)
      ∧ (after .activationEnd (working .actEnd (some 0) (entry 4 9) 5)).nav.digit = entry 4 8
      ∧ (after .activationEnd (working .actEnd (some 0) none 5)).nav.queue = [.key 9 none] := by decide
theorem witness_expiry_and_timeout_publish :
    look (after .digitWindowExpiry (working .expiry none (entry 5 0) 1)) = (.timeout, 0, some 3, true)
      ∧ look (after .digitWindowExpiry (working .expiry none (entry 3 0) 1)) = (.idle, 1, some 0, false)
      ∧ pubs (after .digitWindowExpiry (working .expiry none (entry 5 0) 5)) = [true, true, false]
      ∧ (after .digitWindowExpiry (working .expiry none (entry 3 0) 5)).nav.buttons.toList.take 1
          = [{ (bt 0 3 1 .none).atStart .activating with pub := true }]
      ∧ look (after .pageTimeout (working .timeout none none 0)) = (.idle, 0, some 0, false)
      ∧ (after .pageTimeout (working .timeout none none 0)).nav.queue = [.key 9 none]
      ∧ (after .pageTimeout { working .timeout none none 0 with
            nav := { (working .timeout none none 0).nav with word := 1 } }).notices.queue.map (·.body)
          = [.pageTimeout 0 (some 0) 1] := by decide

theorem witness_views_of_a_frame :
    let r : ButtonRec := { vis := .selected, pair := 0, left := 2, pub := true }
    let v (l : SlotId) : Option PageView := some { slot := l, buttons := [] }
    let frozen (f : Option PageView) (c : Content) :=
      ({ sNav with nav := { sNav.nav with judged := none, frozen := f } }.navJudge { view0 with content := c }).nav.frozen
    (navFrame r none false).nav.buttons.toList.getLast? = some r
      ∧ (navFrame r none true).nav.buttons.toList.getLast? = some {}
      ∧ (navFrame r none false).nav.live.map (·.buttons) = some [⟨true, .selected, 0⟩, ⟨true, .selected, 0⟩]
      ∧ (navFrame { r with vis := .activating, left := 1 } (some 0) false).nav.live = none
      ∧ frozen (v 0) (.leaving 0 1 8) = v 0 ∧ frozen (v 0) (.shown 0) = v 0 ∧ frozen (v 1) (.shown 0) = none
      ∧ frozen none (.shown 0) = none ∧ frozen (v 1) .empty = none
      ∧ (frozen (v 1) (.leaving 0 1 8)).map (·.slot) = some 0 ∧ (frozen (v 1) (.crossing 1 0 1 8)).map (·.slot) = some 0
      ∧ (sNav.navJudge { view0 with content := .crossing 5 0 1 8 }).work.nav = .idle := by decide

/-- Line fetch with seventeen spans over each line of the menu plane, no line begun yet. -/
def crowded : State :=
  let sp : Span := { role := .single, obj := 1, blank := true, heapOff := 0, objW := 0, sx := 0, sy := 0, pal := 0, left := 0,
                     top := 0, width := 7, height := 2 }
  { sRun with composer := { sRun.composer with marker := some 1, menu := { spans := List.replicate 17 sp } } }

theorem witness_lines_begun_and_spans_dropped :
    ((crowded.beginLine .menu).raster .menu).bufs.map (fun b => (b.line, b.spans.length, b.judged)) = [(0, 16, false)]
      ∧ ((crowded.beginLine .menu).raster .menu).next = 1 ∧ (crowded.beginLine .menu).composer.drops = 1
      ∧ (crowded.beginLine .menu).stats.drops = 1
      ∧ (let s := after .lineStart crowded
         (s.raster .menu).bufs.map (·.line) = [0, 1, 2, 3] ∧ (s.raster .menu).next = 4 ∧ s.composer.drops = 2 ∧ s.stats.drops = 2
           ∧ (s.raster .menu).bufs.map (·.spans.length) = [16, 16, 0, 0]
           ∧ (s.beginLine .menu).composer.drops = 2 ∧ (s.raster .menu).bufs.length = 4)
      ∧ (let s := { crowded with composer := { crowded.composer with menu := { crowded.composer.menu with next := 480 } } }
         s.planeSize.2 = 480 ∧ ((s.beginLine .menu).raster .menu).bufs = [] ∧ ((after .lineStart s).raster .menu).next = 480)
      ∧ (after .lineStart fetching).stats.underruns = 1 := by decide

theorem witness_grants_of_links_and_of_nothing :
    let link (r : Reread) (u : User) : State :=
      { sRun with
        walker := { st := .parked, cur := some 0x10000, reread := r }, notices := { cursor := .anchor 0x10040, reread := r },
        port := { sRun.port with walkerQ := [{ user := u, block := 0x10000, sel := none }] } }
    (link .asked .link).choice = some (.walker, .under)
      ∧ (after (.burstGrant []) (link .asked .link)).walker.reread = .granted false
      ∧ (after (.burstGrant []) (link .asked .link)).notices.reread = .asked
      ∧ (after (.burstGrant []) (link .asked .noticeLink)).notices.reread = .granted false
      ∧ (after (.burstGrant []) (link (.granted true) .link)).walker.reread = .granted true
      ∧ (after (.burstGrant []) (link .none .link)).walker.reread = .none
      ∧ sRun.choice = none ∧ after (.burstGrant [(5, 6)]) sRun = { sRun with mem := [(5, 6)] }
      ∧ (let s := flying (fl .link []) (link .asked .link)
         after (.burstGrant []) s = s)
      ∧ (let s := { State.reset with port := { State.reset.port with
            walkerQ := [{ user := .setup false, block := 0, sel := none }] } }
         s.choice = some (.walker, .none) ∧ s.carries .walker { user := .setup false, block := 0, sel := none } = true
           ∧ ((after (.burstGrant []) s).port.flight.map (·.refused)) = some false) := by decide

theorem witness_a_part_that_does_not_listen :
    let s : State := { sRun with keyline := { recv := .receiving 672, listening := false } }
    (after (.keyFrame 0 0x44 false true) s).keyline.listening = false ∧ (after (.keyFrame 0 0x44 false true) s).nav.queue = []
      ∧ (after (.keyFrame 0 5 true true) s).keyline.listening = true := by decide

/-- Sixty-four bytes, each its own place. -/
def ruler : List Byte := (List.range 64).map (BitVec.ofNat 8)

theorem test_setup_fields_are_read_at_their_bytes :
    (let f := fixedOf ruler
     (f.firstTask, f.firstBlank) = (0x13121110, 0x17161514)
       ∧ [f.chainBase, f.chainSize, f.heapBase, f.heapSize, f.interval]
           = [0x03020100, 0x07060504, 0x0B0A0908, 0x0F0E0D0C, 0x1F1E1D1C])
      ∧ (let t := tunablesOf ruler
         t.arb.get .lineFetch = ⟨0, 1, 0x0302, 0x0504⟩ ∧ t.arb.get .decoder = ⟨8, 9, 0x0B0A, 0x0D0C⟩
           ∧ t.arb.get .walker = ⟨16, 17, 0x1312, 0x1514⟩ ∧ t.arb.get .compactor = ⟨24, 25, 0x1B1A, 0x1D1C⟩
           ∧ t.attnMask = 0x27262524 ∧ (t.threshold, t.keyEnable, t.keyAddr, t.keyDiv, t.digitWindow) = (32, false, 41, 0x2B2A, 44))
      ∧ (tunablesOf (ruler.set 40 3)).keyEnable = true
      ∧ [0, 1, 2, 3].map (fun b => (fixedOf (ruler.set 24 b)).format) = [.f1920x1080, .f1280x720, .f720x576, .f720x480] := by
  decide

theorem witness_items_that_name_a_releasing_id :
    let s (l : List Byte) : State := l.foldl (fun s i => s.setEntry i (de .releasing 0 1)) sRun
    let page : PageDef := { menuPage with
      buttons := [{ bt 0 3 1 .none with normal := [(1, 5), (9, 0), (8, 5)], selected := [(4, 0)] }, bt 1 41 0 .none] }
    (s []).releasingItem page = none ∧ (s [1]).releasingItem page = some 1 ∧ (s [2]).releasingItem page = some 2
      ∧ (s [3]).releasingItem page = some 33 ∧ (s [4, 8, 9]).releasingItem page = none
      ∧ (s [3, 2]).releasingItem page = some 2 ∧ (s [4, 8, 9, 3]).releasingItem page = some 33
      ∧ (s [2]).releasingItem { page with placements := page.placements.take 1 } = some 34
      ∧ (s [1]).releasingItem { menuPage with placements := [] } = some 33 := by decide

theorem witness_a_decode_takes_its_header :
    let s := headRead 1
    let t := after (.decoderHeaderReadComplete false) s
    (dc [] .header).runs = [] ∧ headerValid (blk ([1, 7, 8, 0, 8, 0, 0, 0] ++ le32 100)) = true
      ∧ extAlloc (granulesFor 8 8) s.heap.extents = some (0, [⟨1, 16383⟩])
      ∧ t.heap.decode.map (fun d => (d.fill, d.width, d.height, d.codeLen)) = some (7, 8, 8, 100)
      ∧ t.port.decReq = some { user := .decCode, block := 0x10200, sel := none }
      ∧ (let l : Load := { ld 1 with header := 0x10230 }
         let u := after .decoderTakeLoad { sRun with heap := { sRun.heap with loads := [l] } }
         u.heap.decode = some { id := 1, header := 0x10230, gather := { addr := 0x10230, left := 16, got := [] } }
           ∧ u.port.decReq = some { user := .decHeader, block := 0x10200, sel := none }
           ∧ u.heap.decode.map (·.nextByte / 64 * 64) = some 0x10240) := by decide

theorem witness_a_jumps_notice_joins_the_tail :
    let j : Jump := { target := 0, held := true, button := 1, slot := 0 }
    let old : Notice := { body := .syncChange true 0, stamp := 0 }
    let go (j : Jump) :=
      let s := twoPages (.shown 1) [] .jump (some j)
      (after .jumpApply { s with notices := { s.notices with queue := [old] } }).notices.queue
    go j = [old, { body := .pageJump none 0 (some 1) 1 0, stamp := 0 }]
      ∧ go { j with held := false } = [old, { body := .pageJump (some .notHeld) 0 none 1 0, stamp := 0 }] := by decide

theorem witness_a_frame_start_drops_the_lookahead :
    let wants : Burst := { user := .line .menu 0 0, block := 0x100080, sel := none }
    let busy (u : User) (c : Content) : State :=
      let s := flying (fl u []) fetching
      { s with
        menu := { content := c }, port := { s.port with lfReq := some wants }, composer := { s.composer with lastPlane := .slide } }
    let go (u : User) (c : Content) := after (.frameStart 600000) (busy u c)
    (busy (.line .menu 0 0) .empty).work = {} ∧ (busy .record .empty).active = true
      ∧ (go (.line .menu 0 0) .empty).port.flight = some { fl (.line .menu 0 0) [] with dropped := true }
      ∧ (go .record .empty).port.flight = some (fl .record [])
      ∧ (go .record .empty).work.comp = false ∧ (go .record .empty).port.lfReq = none
      ∧ (go .record .empty).composer.lastPlane = .menu
      ∧ (let t := go .record (.entering 0 8 9)
         t.work.comp = true ∧ t.port.lfReq = none ∧ t.composer.lastPlane = .menu ∧ (t.raster .menu).bufs = []
           ∧ (t.raster .menu).next = 0) := by decide

/-- A part that is HALTING, with or without a region beyond the one of object 1. -/
def haltingWith (more : Bool) (s : State) : State :=
  let s1 := if more then s.setEntry 2 (de .ready 9 0) else s
  { s1 with run := { s1.run with state := .halting } }

theorem witness_moves_that_end_in_halting :
    let switched (more : Bool) := after .offsetSwitch
      (haltingWith more { sComp .switchPending (some (mv false)) with work := { heap := true } })
    let withdrawn (more : Bool) := after .compactConfirm (haltingWith more (unconfirmed true))
    let freed (more : Bool) := after .freeObject (haltingWith more (hand 2 (le16 1) (switchDue (de .ready 4 0))))
    let discarded (more : Bool) := after .discardPage
      (haltingWith more (hand 6 [0] (inSlot 0 (.staged slidePage [1] 0) (switchDue (de .releasing 4 1)))))
    let ends (f : Bool → State) := ((f true).compactor.phase, (f false).compactor.phase, (f false).compactor.isStopped)
    ends switched = (.paused, .scanning, false) ∧ ends withdrawn = (.paused, .scanning, false)
      ∧ ends freed = (.paused, .scanning, false) ∧ ends discarded = (.paused, .scanning, false)
      ∧ (switched true).compactor.low = 1 ∧ (freed false).compactor.low = 0 := by decide

theorem witness_scan_steps_in_halting :
    let last := haltingWith false { sRun with compactor := { phase := .scanning, task := some (ref 3), low := 5 } }
    outcomes (after .compactScanStep last) = [(.done, 0)] ∧ (after .compactScanStep last).compactor.phase = .idle
      ∧ (after .haltComplete (after .compactScanStep { last with walker := { st := .halted .link } })).run.state = .halted
      ∧ (after .haltComplete { last with walker := { st := .halted .link } }).run.state = .halting
      ∧ (let s := { scanAt 4 none with run := { sRun.run with state := .halting } }
         (after .compactScanStep s).compactor = { phase := .paused, task := some (ref 3) } ∧ outcomes (after .compactScanStep s) = [])
      ∧ (let discards (ids : List Byte) := after .discardPage (hand 6 [0] (haltingWith false (inSlot 0 (.staged slidePage ids 0)
            ((switchDue (de .releasing 4 1)).setEntry 2 (de .releasing 9 1)))))
         (discards [2, 1]).entry 2 = {} ∧ (discards [2, 1]).compactor.phase = .scanning
           ∧ (discards [1, 2]).entry 2 = {} ∧ (discards [1, 2]).compactor.phase = .paused) := by decide

theorem witness_a_given_up_read_that_errs :
    let s := flying { fl .compRead [] with dropped := true } (sComp .scanning none)
    s.port.flight = some { fl .compRead [] with dropped := true } ∧ after (.compactReadComplete true) s = s.landed
      ∧ s.landed.compactor.phase = .scanning := by decide

end Sys2Proof.Tests
end

/-! ## The depths of the queues (O7): R8, R42, R75, R154, R188 -/

namespace Sys2Proof.Machine

/-- A job whose reads are under way has a place left among so many loads and palette tasks (R7, R43). -/
def Job.fits (loads palettes : Nat) : Job → Prop
  | .loadHeader _ => loads < Config.maxLoads
  | .palette _ => palettes < Config.maxPaletteTasks
  | .judge | .pageHeader _ | .pageRest _ _ => True

/-- The tests of `State.queuesOk` as named facts. -/
structure State.QueuesFit (s : State) : Prop where
  loads : s.heap.loads.length ≤ Config.maxLoads
  palettes : s.palette.list.length ≤ Config.maxPaletteTasks
  schedules : ∀ q, (s.plane q).schedule.length ≤ Config.maxSchedule
  keys : s.nav.queue.length ≤ Config.maxKeys
  notices : s.notices.queue.length ≤ Config.maxNotices
  job : s.walker.job.fits s.heap.loads.length s.palette.list.length

theorem queuesOk_iff (s : State) : s.queuesOk = true ↔ s.QueuesFit := by
  simp only [State.queuesOk, Bool.and_eq_true, decide_eq_true_eq]
  constructor
  · rintro ⟨⟨⟨⟨⟨⟨loads, palettes⟩, slide⟩, menu⟩, keys⟩, notices⟩, job⟩
    refine ⟨loads, palettes, fun q => by cases q <;> assumption, keys, notices, ?_⟩
    cases hj : s.walker.job <;> simp_all [Job.fits]
  · rintro ⟨loads, palettes, schedules, keys, notices, job⟩
    refine ⟨⟨⟨⟨⟨⟨loads, palettes⟩, schedules .slide⟩, schedules .menu⟩, keys⟩, notices⟩, ?_⟩
    cases hj : s.walker.job <;> simp_all [Job.fits]

theorem Job.fits_mono {m m' n n' : Nat} (hm : m' ≤ m) (hn : n' ≤ n) {j : Job} (h : j.fits m n) : j.fits m' n' := by
  cases j <;> simp only [Job.fits] at * <;> omega

/-- A state in which no queue is longer, and whose walker goes on with the job it had or has none, fits as well. -/
theorem State.QueuesFit.mono_of_schedules {s t : State} (h : s.QueuesFit)
    (schedules : ∀ q, (t.plane q).schedule.length ≤ (s.plane q).schedule.length)
    (rest : t.heap.loads.length ≤ s.heap.loads.length ∧ t.palette.list.length ≤ s.palette.list.length
      ∧ t.nav.queue.length ≤ s.nav.queue.length ∧ t.notices.queue.length ≤ s.notices.queue.length
      ∧ (t.walker.job = s.walker.job ∨ t.walker.job = .judge)) : t.QueuesFit := by
  obtain ⟨loads, palettes, keys, notices, job⟩ := rest
  refine ⟨loads.trans h.loads, palettes.trans h.palettes, fun q => (schedules q).trans (h.schedules q), keys.trans h.keys,
    notices.trans h.notices, ?_⟩
  rcases job with hj | hj <;> rw [hj]
  · exact Job.fits_mono loads palettes h.job
  · trivial

theorem State.QueuesFit.mono {s t : State} (h : s.QueuesFit)
    (rest : t.slide.schedule.length ≤ s.slide.schedule.length ∧ t.menu.schedule.length ≤ s.menu.schedule.length
      ∧ t.heap.loads.length ≤ s.heap.loads.length ∧ t.palette.list.length ≤ s.palette.list.length
      ∧ t.nav.queue.length ≤ s.nav.queue.length ∧ t.notices.queue.length ≤ s.notices.queue.length
      ∧ (t.walker.job = s.walker.job ∨ t.walker.job = .judge)) : t.QueuesFit := by
  obtain ⟨slide, menu, rest⟩ := rest
  exact h.mono_of_schedules (fun q => by cases q; exacts [slide, menu]) rest

/-! What leaves a queue leaves it shorter; what only takes from a queue keeps the depths. -/

@[simp] theorem endLoad_loads (s : State) (i o k) : (s.endLoad i o k).heap.loads.length ≤ s.heap.loads.length := by
  unfold State.endLoad
  split
  · simpa [State.removeLoad] using List.length_filter_le _ _
  · simp

@[simp] theorem decodeFault_loads (s : State) (i k o) : (s.decodeFault i k o).heap.loads.length ≤ s.heap.loads.length :=
  endLoad_loads _ i o k

@[simp] theorem decodeNext_loads (s : State) (d) : (s.decodeNext d).heap.loads.length ≤ s.heap.loads.length := by
  unfold State.decodeNext
  split
  · simp [State.decAsk, State.setDecode]
  · split
    · exact endLoad_loads _ _ _ _
    all_goals simp [State.decAsk, State.setDecode]

@[simp] theorem decodeBytes_loads (s : State) (d) : (s.decodeBytes d).heap.loads.length ≤ s.heap.loads.length := by
  unfold State.decodeBytes
  split <;> simp

@[simp] theorem decodeHeader_loads (s : State) (d b) : (s.decodeHeader d b).heap.loads.length ≤ s.heap.loads.length := by
  unfold State.decodeHeader
  split
  · dsimp only
    split
    · exact endLoad_loads _ _ _ _
    · exact decodeNext_loads _ _
  · simp

@[simp] theorem decoderHeaderCame_loads (s : State) (e f) :
    (s.decoderHeaderCame e f).heap.loads.length ≤ s.heap.loads.length := by
  unfold State.decoderHeaderCame
  split
  · dsimp only
    split
    · simp
    · split <;> simp [State.decAsk, State.setDecode]
  · simp

@[simp] theorem decoderCodeCame_loads (s : State) (e f) :
    (s.decoderCodeCame e f).heap.loads.length ≤ s.heap.loads.length := by
  unfold State.decoderCodeCame
  split
  · split <;> simp
  · simp

@[simp] theorem decoderWrote_loads (s : State) (e f) : (s.decoderWrote e f).heap.loads.length ≤ s.heap.loads.length := by
  unfold State.decoderWrote
  split
  · split <;> simp
  · simp

@[simp] theorem freeEntry_loads (s : State) (i) : (s.freeEntry i).heap.loads.length ≤ s.heap.loads.length := by
  have hc : (s.cancelLoad i).heap.loads.length ≤ s.heap.loads.length := by
    refine (endLoad_loads _ i .cancelled 0).trans ?_
    split
    · split <;> simp [State.decoderIdle]
    · simp
  unfold State.freeEntry
  dsimp only
  split
  · simp
  · simp
  · simpa using hc
  · simpa using hc
  · split <;> simp
  · simp

@[simp] theorem judgeFree_loads (s : State) (t) : (s.judgeFree t).heap.loads.length ≤ s.heap.loads.length := by
  unfold State.judgeFree
  split <;> simp

@[simp] theorem endCompaction_loads (s : State) (o k) : (s.endCompaction o k).heap.loads.length = s.heap.loads.length := by
  unfold State.endCompaction
  split <;> simp

@[simp] theorem scanStep_loads (s : State) : s.scanStep.heap.loads.length = s.heap.loads.length := by
  unfold State.scanStep
  dsimp only
  split
  · simp [State.setLow]
  · repeat' split
    all_goals simp [State.setLow, State.reserve]
    split <;> simp

@[simp] theorem compError_loads (s : State) (m) : (s.compError m).heap.loads.length = s.heap.loads.length := by
  unfold State.compError
  dsimp only
  split <;> simp

@[simp] theorem compReadCame_loads (s : State) (e f) : (s.compReadCame e f).heap.loads.length = s.heap.loads.length := by
  unfold State.compReadCame
  split
  · split <;> simp [State.compWrite]
  · rfl

@[simp] theorem compWrote_loads (s : State) (e f) : (s.compWrote e f).heap.loads.length = s.heap.loads.length := by
  unfold State.compWrote
  split
  · dsimp only
    repeat' split
    all_goals simp [State.compRead]
  · rfl

theorem takeHead_length {l r : List SchedEntry} {e : SchedEntry} (h : takeHead l = some (e, r)) :
    l.length = r.length + 1 := by
  obtain ⟨pre, post, rfl, rfl, -, -⟩ := takeHead_some h
  simp only [List.length_append, List.length_cons]; omega

theorem beginHead_schedule (s : State) (p q : PlaneId) :
    ((s.beginHead p).plane q).schedule.length ≤ (s.plane q).schedule.length := by
  unfold State.beginHead
  split
  · exact le_rfl
  · next e es ht =>
    have hs : ∀ u : State, u = State.settle p (s.setPlane p { s.plane p with schedule := es }) →
        (u.plane q).schedule.length ≤ (s.plane q).schedule.length := by
      rintro _ rfl
      by_cases hq : q = p
      · subst hq
        rw [settle_schedule, setPlane_plane, if_pos rfl, takeHead_length ht]
        exact Nat.le_succ _
      · rw [settle_other _ _ _ hq, setPlane_plane, if_neg hq]
    dsimp only
    rw [retire_plane]
    split
    · rw [(beginShow_plane _ p q _ _).2]; exact hs _ rfl
    · rw [(beginHide_plane _ p q _).2]; exact hs _ rfl

theorem advanceWork_schedule (s : State) (q : PlaneId) :
    (s.advanceWork.plane q).schedule = (s.plane q).schedule := by
  have hrun : ∀ (u : State) (p), ((u.planeRun p).plane q).schedule = (u.plane q).schedule := fun u p =>
    (planeRun_spec u p q).2.1
  have hheap : (s.heapRun.plane q).schedule = (s.plane q).schedule := by cases q <;> simp [State.plane]
  rw [← hheap, ← hrun s.heapRun .slide, ← hrun (s.heapRun.planeRun .slide) .menu]
  cases q <;> simp [State.advanceWork, State.plane]

theorem State.QueuesFit.submit {s : State} (h : s.QueuesFit) (b : NoticeBody) : (s.submit b).QueuesFit := by
  have hn : (s.submit b).notices.queue.length ≤ Config.maxNotices := by
    unfold State.submit
    split
    · simp only [List.length_append, List.length_singleton]; omega
    · exact h.notices
  rw [submit_eq] at hn ⊢
  exact ⟨h.loads, h.palettes, fun q => by cases q; exacts [h.schedules .slide, h.schedules .menu], h.keys, hn, h.job⟩

@[simp] theorem dealt_job (s : State) : s.dealt.walker.job = .judge := by rw [dealt_eq]

@[simp] theorem endTask_job (s : State) (o k l) :
    (s.endTask o k l).walker.job = s.walker.job ∨ (s.endTask o k l).walker.job = .judge := by
  unfold State.endTask
  split <;> simp

@[simp] theorem endTask_job_judge (s : State) (o k l) (hj : s.walker.job = .judge) :
    (s.endTask o k l).walker.job = .judge := by
  have := endTask_job s o k l
  simpa [hj] using this

@[simp] theorem toReading_job (s : State) (a x) : (s.toReading a x).walker.job = .judge := by
  simp [State.toReading]

section
variable {s : State} (h : s.QueuesFit)
include h

/-! Time, the walker and the notice writer -/

theorem loseSync_fits : s.loseSync.QueuesFit := (h.mono (by simp) : State.QueuesFit { s with timer := _, attention := _ }).submit _

theorem passTicks_fits (n : Nat) : (s.passTicks n).QueuesFit := by
  unfold State.passTicks
  rw [countTicks_eq]
  split
  · exact (loseSync_fits h).mono (by simp)
  · exact h.mono (by simp)

theorem walkerFault_fits (c) : (s.walkerFault c).QueuesFit := by
  have hw : State.QueuesFit { s with walker := { s.walker with capture := some c } } := h.mono (by simp)
  unfold State.walkerFault
  exact (hw.submit (.walkerFault c)).mono (by simp)

theorem readFault_fits (a x) : (s.readFault a x).QueuesFit := by
  unfold State.readFault
  exact walkerFault_fits (h.mono (by simp)) _

theorem recordCame_fits (e f) : (s.recordCame e f).QueuesFit := by
  unfold State.recordCame
  split
  · split
    · exact readFault_fits h _ _
    · dsimp only
      split <;> exact h.mono (by simp)
  · exact h

theorem linkCame_fits (e f) : (s.linkCame e f).QueuesFit := by
  have hl : ∀ d, (s.judgeLink (f.failed e) d).QueuesFit := by
    intro d
    unfold State.judgeLink
    dsimp only
    split
    · exact readFault_fits h _ _
    split
    · exact h.mono (by simp) 
    split
    · unfold State.followLink
      dsimp only
      split <;> exact h.mono (by simp)
    · exact readFault_fits h _ _
  unfold State.linkCame
  split
  · exact hl _
  · exact hl _
  all_goals exact h.mono (by simp)

theorem resultsCame_fits (e f) : (s.resultsCame e f).QueuesFit := by
  unfold State.resultsCame
  split
  · split
    · next r _ _ =>
      have hf : (s.writeFault r).QueuesFit := walkerFault_fits h _
      exact hf.mono (by simp)
    · exact h.mono (by simp)
  · exact h

theorem outcomeCame_fits (e f) : (s.outcomeCame e f).QueuesFit := by
  unfold State.outcomeCame
  split
  · next r o k _ =>
    have h1 : State.QueuesFit (if f.failed e then s.writeFault r else s) := by
      split
      · exact walkerFault_fits h _
      · exact h
    dsimp only
    split
    · exact h1.submit _
    · exact h1
  · exact h

/-! The navigation unit -/

theorem act_fits (slot b a) : (s.act slot b a).QueuesFit := by
  cases a with
  | none => exact h
  | notify c => exact h.submit _
  | toggle m => exact (h.mono (by simp) : State.QueuesFit { s with nav := _ }).submit _
  | jump x =>
    unfold State.act State.deliverJump
    dsimp only
    split
    · next o _ =>
      have hr : State.QueuesFit (if o.held then s.releaseHold o.target else s) := by
        split
        · exact h.mono (by simp)
        · exact h
      exact (hr.submit (.pageJump (some .superseded) o.target none o.button o.slot)).mono (by simp)
    · exact h.mono (by simp)

theorem endActivation_fits (slot d b) : (s.endActivation slot d b).QueuesFit := by
  unfold State.endActivation
  split
  · next t _ =>
    have ha := act_fits (act_fits h slot b t.act1) slot b t.act2
    dsimp only
    split <;> exact ha.mono (by simp)
  · exact h.mono (by simp)

theorem activate_fits (slot d b) : (s.activate slot d b).QueuesFit := by
  unfold State.activate
  dsimp only
  split
  · split
    · exact endActivation_fits (s := { (State.enter d .activating b (s.moveSel d (some b))) with nav := _ }) (h.mono (by simp)) _ _ _
    · exact h.mono (by simp)
  · exact h

theorem endDigit_fits (e) : (s.endDigit e).1.QueuesFit := by
  unfold State.endDigit
  dsimp only
  repeat' split
  · exact activate_fits (s := { s with nav := _ }) (h.mono (by simp)) _ _ _
  all_goals exact h.mono (by simp)

theorem passed_fits (k) : (s.passed k).QueuesFit := by
  unfold State.passed
  exact (h.submit (.keyPassed k.code k.task.isSome s.navSlot)).mono (by simp)

theorem consumed_fits (d k) : (s.consumed d k).QueuesFit := h.mono (by simp)

theorem handleKey_fits (k) : (s.handleKey k).QueuesFit := by
  have hd : ∀ slot d dir, (s.directionKey slot d dir k).QueuesFit := by
    intro slot d dir
    unfold State.directionKey
    split
    · exact passed_fits h k
    split
    · exact consumed_fits h d k
    · refine consumed_fits (s := ite _ _ _) ?_ d k
      split
      · exact activate_fits (h.mono (by simp)) _ _ _
      · exact h.mono (by simp)
  have hn : ∀ slot d n, (s.digitKey slot d n k).QueuesFit := by
    intro slot d n
    unfold State.digitKey
    split
    · exact consumed_fits (s := { s with nav := _ }) (h.mono (by simp)) _ _
    split
    · exact consumed_fits (activate_fits h _ _ _) _ _
    · exact passed_fits h k
  unfold State.handleKey
  split
  · split
    · exact hd _ _ _
    split
    · unfold State.okKey
      split
      · exact passed_fits h k
      · exact consumed_fits (activate_fits h _ _ _) _ _
    split
    · exact hn _ _ _
    · exact passed_fits h k
  · exact passed_fits h k

theorem handleItem_fits (i) : (s.handleItem i).QueuesFit := by
  cases i with
  | key code task => exact handleKey_fits h _
  | select b a t =>
    unfold State.handleItem State.handleSelect
    dsimp only
    split
    · split
      · next slot d _ _ _ =>
        have ha : State.QueuesFit (if a then (s.moveSel d (some b)).activate slot d b else s.moveSel d (some b)) := by
          split
          · exact activate_fits (h.mono (by simp)) _ _ _
          · exact h.mono (by simp)
        exact ha.mono (by simp)
      · exact h.mono (by simp)
    · exact h.mono (by simp)

theorem secondDigit_fits (e n k) : (s.secondDigit e n k).QueuesFit := by
  unfold State.secondDigit
  dsimp only
  split
  · split
    · exact consumed_fits (activate_fits (s := { s with nav := _ }) (h.mono (by simp)) _ _ _) _ _
    · exact consumed_fits (s := { s with nav := _ }) (h.mono (by simp)) _ _
  · exact h.mono (by simp)

theorem takeItem_fits : s.takeItem.QueuesFit := by
  unfold State.takeItem
  split
  · exact h
  next i rest hq =>
  have pop_fits : ∀ u : State, u.QueuesFit → (u.popItem rest).QueuesFit := fun u hu =>
    { hu with keys := by have := h.keys; rw [hq] at this; exact (Nat.le_succ _).trans this
              schedules := fun q => by cases q; exacts [hu.schedules .slide, hu.schedules .menu] }
  have endDigit_then : ∀ e, State.QueuesFit
      (if (s.endDigit e).2 then (s.endDigit e).1 else State.handleItem i ((s.endDigit e).1.popItem rest)) := by
    intro e
    split
    · exact endDigit_fits h e
    · exact handleItem_fits (pop_fits _ (endDigit_fits h e)) i
  split
  · split
    · exact handleItem_fits (pop_fits s h) i
    · next e _ =>
      cases i with
      | key code task =>
        dsimp only
        split
        · exact secondDigit_fits (pop_fits s h) e _ _
        · exact endDigit_then e
      | select b a t => exact endDigit_then e
  · exact h

theorem navPublish_fits : s.navPublish.QueuesFit := h.mono (by simp)

theorem navTimeout_fits : s.navTimeout.QueuesFit := h.mono (by simp)

theorem navDigit_fits : s.navDigit.QueuesFit := h.mono (by simp)

theorem navActEnd_fits : s.navActEnd.QueuesFit := by
  unfold State.navActEnd
  refine navDigit_fits ?_
  split
  · exact endActivation_fits h _ _ _
  · exact h

theorem navExpiry_fits : s.navExpiry.QueuesFit := by
  unfold State.navExpiry
  refine navTimeout_fits ?_
  split
  · exact endDigit_fits h _
  · exact h

theorem fireTimeout_fits (slot d) : (s.fireTimeout slot d).QueuesFit := by
  unfold State.fireTimeout
  split
  · split
    · exact activate_fits h _ _ _
    · exact h.submit _
  · exact h.submit _

theorem navFire_fits : s.navFire.QueuesFit := by
  unfold State.navFire
  refine navPublish_fits ?_
  split
  · exact fireTimeout_fits h _ _
  · exact h

/-! The planes and the frame -/

theorem advanceWork_fits : s.advanceWork.QueuesFit := 
  h.mono_of_schedules (fun q => by rw [advanceWork_schedule]) (by simp)

theorem planeOps_fits (p) : (s.planeOps p).QueuesFit := by
  refine h.mono_of_schedules (fun q => ?_) (by simp)
  by_cases hq : q = p
  · rw [hq, planeOps_schedule]
  · rw [(planeOps_other s p q hq).2]

theorem planeAdvance_fits (p) : (s.planeAdvance p).QueuesFit := by
  refine h.mono_of_schedules (fun q => ?_) (by simp)
  by_cases hq : q = p
  · rw [hq, planeAdvance_schedule]
  · rw [(planeAdvance_other s p q hq).2]

theorem settle_fits (p) : (s.settle p).QueuesFit := by
  refine h.mono_of_schedules (fun q => ?_) (by simp)
  by_cases hq : q = p
  · rw [hq, settle_schedule]
  · rw [settle_other s p q hq]

theorem applyJump_fits (j) : (s.applyJump j).QueuesFit := by
  unfold State.applyJump
  split
  · have hs : (State.settle .menu { s with jump := none }).QueuesFit := settle_fits (h.mono (by simp)) .menu
    exact State.QueuesFit.submit (hs.mono
      (by simp [State.setMark, State.setContent, State.setPlane, State.plane])) _
  · refine State.QueuesFit.submit ?_ _
    split <;> exact h.mono (by simp)

theorem jumpStep_fits : s.jumpStep.QueuesFit := by
  unfold State.jumpStep
  refine planeAdvance_fits ?_ .menu
  split
  · exact applyJump_fits h _
  · exact h

theorem applyPalettes_fits : s.applyPalettes.QueuesFit := by
  have hl : s.applyPalettes.palette.list = [] := by
    simp [State.applyPalettes]
  exact h.mono (by simp [hl])

theorem publish_fits (p) : (s.publish p).QueuesFit := by
  refine h.mono_of_schedules (fun q => ?_) (by simp)
  cases p <;> cases q <;> simp [State.publish, State.plane, State.setPlane, State.setStage]

theorem switchStep_fits : s.switchStep.QueuesFit := by
  unfold State.switchStep
  split
  · exact advanceWork_fits (s := s.applySwitch.viewTaken) (h.mono (by simp))
  · exact h

theorem paletteStep_fits : s.paletteStep.QueuesFit := by
  unfold State.paletteStep
  split
  · exact advanceWork_fits ((applyPalettes_fits h).mono (by simp))
  · exact h

theorem transStep_fits (p) : (s.transStep p).QueuesFit := by
  unfold State.transStep
  split
  · exact advanceWork_fits (planeOps_fits (settle_fits h p) p)
  all_goals exact h

theorem opStep_fits (p) : (s.opStep p).QueuesFit := by
  unfold State.opStep
  split
  · refine advanceWork_fits ?_
    split
    · exact planeOps_fits (h.mono_of_schedules (beginHead_schedule s p) (by simp)) p
    · exact publish_fits h p
  all_goals exact h

theorem jumpApplyStep_fits : s.jumpApplyStep.QueuesFit := by
  unfold State.jumpApplyStep
  split
  · exact advanceWork_fits (jumpStep_fits h)
  all_goals exact h

theorem actEndStep_fits : s.actEndStep.QueuesFit := by
  unfold State.actEndStep
  split
  · exact advanceWork_fits (navActEnd_fits h)
  all_goals exact h

theorem expiryStep_fits : s.expiryStep.QueuesFit := by
  unfold State.expiryStep
  split
  · exact advanceWork_fits (navExpiry_fits h)
  all_goals exact h

theorem timeoutStep_fits : s.timeoutStep.QueuesFit := by
  unfold State.timeoutStep
  split
  · exact advanceWork_fits (navFire_fits h)
  all_goals exact h

theorem workRound_fits : s.workRound.QueuesFit :=
  timeoutStep_fits (expiryStep_fits (actEndStep_fits (opStep_fits (transStep_fits (jumpApplyStep_fits
    (opStep_fits (transStep_fits (paletteStep_fits (switchStep_fits h)) _) _)) _) _)))

omit h in
theorem workRounds_fits (n : Nat) : ∀ s : State, s.QueuesFit → (s.workRounds n).QueuesFit := by
  induction n with
  | zero => exact fun _ h => h
  | succ n ih =>
    intro s h
    unfold State.workRounds
    split
    · exact h
    · exact ih _ (workRound_fits h)

theorem finishWork_fits : s.finishWork.QueuesFit := by
  unfold State.finishWork
  split
  · exact h
  · exact workRounds_fits _ _ (advanceWork_fits h)

theorem closeFrame_fits : s.closeFrame.QueuesFit := by
  unfold State.closeFrame
  dsimp only
  split
  · split
    · next f _ _ => exact (h.submit (.frameFaults f s.composer.underruns s.composer.drops)).mono (by simp)
    · exact h.mono (by simp)
  · exact h.mono (by simp)

theorem acceptFrame_fits : s.acceptFrame.QueuesFit := by
  have told : ∀ u : State, u.QueuesFit →
      State.QueuesFit (if s.confirmMove.timer.lost then u.submit (.syncChange true u.timer.stamp) else u) := by
    intro u hu
    split
    · exact hu.submit _
    · exact hu
  have hc : s.confirmMove.QueuesFit := h.mono (by simp)
  unfold State.acceptFrame
  exact advanceWork_fits ((closeFrame_fits (told { s.confirmMove with timer := s.confirmMove.timer.accepted }
    (hc.mono (by simp)))).mono (by simp [Plane.unmarked]))

theorem frameStart_fits : s.frameStart.QueuesFit := by
  unfold State.frameStart
  split
  · split
    · exact acceptFrame_fits h
    · exact h.mono (by simp)
  · exact h

/-! What puts a task or a key into a queue looks for its place first -/

theorem judgeLoad_fits (t) : (s.judgeLoad t).QueuesFit := by
  unfold State.judgeLoad
  split
  · exact h.mono (by simp)
  next room =>
  split
  · exact h.mono (by simp)
  · have asked : State.QueuesFit
        (if s.inChain (t.p32 20).toNat 16 then
          State.ask .loadHeader ((t.p32 20).toNat / 64 * 64) none
            { s with walker := { s.walker with st := .working, job := .loadHeader { addr := (t.p32 20).toNat, left := 16 } } }
        else s.endTask .addressFault 0 []) := by
      split
      · exact ⟨h.loads, h.palettes, fun q => by cases q; exacts [h.schedules .slide, h.schedules .menu], h.keys, h.notices,
          Nat.lt_of_not_le room⟩
      · exact h.mono (by simp)
    split
    · exact h.mono (by simp)
    · exact h.mono (by simp)
    · exact h.mono (by simp)
    · exact h.mono (by simp)
    · exact asked
    · exact asked

theorem judgeLoadPalette_fits (t) : (s.judgeLoadPalette t).QueuesFit := by
  unfold State.judgeLoadPalette
  dsimp only
  split
  · exact h.mono (by simp)
  next room =>
  split
  · exact h.mono (by simp)
  split
  · exact h.mono (by simp)
  split
  · exact h.mono (by simp)
  split
  · exact ⟨h.loads, h.palettes, fun q => by cases q; exacts [h.schedules .slide, h.schedules .menu], h.keys, h.notices,
      Nat.lt_of_not_le room⟩
  · exact h.mono (by simp)

theorem loadHeaderCame_fits (t g g') (hj : s.walker.job = .loadHeader g) : (s.loadHeaderCame t g').QueuesFit := by
  have room : s.heap.loads.length < Config.maxLoads := by have := h.job; rwa [hj] at this
  unfold State.loadHeaderCame
  split
  · exact ⟨h.loads, h.palettes, h.schedules, h.keys, h.notices, room⟩
  split
  · unfold State.acceptLoad
    refine ⟨?_, ?_, fun q => ?_, ?_, ?_, ?_⟩
    · simpa using room
    · simpa using h.palettes
    · have := h.schedules q; cases q <;> simpa [State.plane] using this
    · simpa using h.keys
    · simpa using h.notices
    · simp [Job.fits]
  · exact h.mono (by simp)

theorem acceptPalette_fits (t b g) (hj : s.walker.job = .palette g) : (s.acceptPalette t b).QueuesFit := by
  have room : s.palette.list.length < Config.maxPaletteTasks := by have := h.job; rwa [hj] at this
  unfold State.acceptPalette
  refine ⟨?_, ?_, fun q => ?_, ?_, ?_, ?_⟩
  · simpa using h.loads
  · simpa using room
  · have := h.schedules q; cases q <;> simpa [State.plane] using this
  · simpa using h.keys
  · simpa using h.notices
  · simp [Job.fits]

omit h in
theorem insertEntry_length (now : Word) (e : SchedEntry) (l : List SchedEntry) :
    (insertEntry now e l).length = l.length + 1 := by
  induction l with
  | nil => rfl
  | cons x xs ih =>
    unfold insertEntry
    split <;> simp [ih]

theorem insertOp_fits (p x t) (room : (s.plane p).schedule.length < Config.maxSchedule) : (s.insertOp p x t).QueuesFit := by
  unfold State.insertOp
  refine ⟨?_, ?_, fun q => ?_, ?_, ?_, ?_⟩
  · simpa using h.loads
  · simpa using h.palettes
  · have hq : ∀ u : State, (u.dealt.plane q).schedule = (u.plane q).schedule := fun u => by cases q <;> simp [State.plane]
    rw [hq, setPlane_plane]
    split
    · rw [insertEntry_length]; exact room
    · exact h.schedules q
  · simpa using h.keys
  · simpa using h.notices
  · simp [Job.fits]

theorem judgeShow_fits (t) : (s.judgeShow t).QueuesFit := by
  unfold State.judgeShow
  split
  · exact h.mono (by simp)
  next p _ =>
  split
  · exact h.mono (by simp)
  next room =>
  split
  · exact h.mono (by simp)
  split
  · exact h.mono (by simp)
  next x _ =>
  split
  · exact h.mono (by simp)
  split
  · refine insertOp_fits (s := s.addHold x) (h.mono (by simp)) p (some x) t ?_
    rw [show (s.addHold x).plane p = s.plane p by cases p <;> simp [State.plane]]
    exact Nat.lt_of_not_le room
  · exact h.mono (by simp)

theorem judgeHide_fits (t) : (s.judgeHide t).QueuesFit := by
  unfold State.judgeHide
  split
  · exact h.mono (by simp)
  split
  · exact h.mono (by simp)
  next room =>
  split
  · exact h.mono (by simp)
  · exact insertOp_fits h _ _ _ (Nat.lt_of_not_le room)

theorem joinItem_fits (i) : (s.joinItem i).QueuesFit := by
  unfold State.joinItem
  split
  · next room =>
    have hq : State.QueuesFit { s with nav := { s.nav with queue := s.nav.queue ++ [i] } } :=
      { h with keys := by simpa using room
               schedules := fun q => by cases q; exacts [h.schedules .slide, h.schedules .menu] }
    exact hq.mono (by simp)
  · exact h.mono (by simp)

theorem lineKey_fits (b) : (s.lineKey b).QueuesFit := by
  unfold State.lineKey
  split
  · next room =>
    exact { h with keys := by simpa using room
                   schedules := fun q => by cases q; exacts [h.schedules .slide, h.schedules .menu] }
  · exact h.mono (by simp)

theorem judgeCompact_fits (t) : (s.judgeCompact t).QueuesFit := by
  unfold State.judgeCompact
  split
  · dsimp only
    split <;> exact h.mono (by simp)
  all_goals exact h.mono (by simp)

theorem judgeStalled_fits (t) : (s.judgeStalled t).QueuesFit := by
  unfold State.judgeStalled
  split
  · exact judgeLoad_fits h t
  · exact judgeCompact_fits h t
  · exact judgeLoadPalette_fits h t
  · exact judgeShow_fits h t
  · exact judgeHide_fits h t
  · exact joinItem_fits h _
  · exact joinItem_fits h _
  · exact h

/-! Run control -/

omit h in
theorem resetBlocks_fits (s : State) (c p) : (s.resetBlocks c p).QueuesFit :=
  ⟨Nat.zero_le _, Nat.zero_le _, fun q => by cases q <;> exact Nat.zero_le _, Nat.zero_le _, Nat.zero_le _, trivial⟩

theorem resumeWalker_fits : s.resumeWalker.QueuesFit := by
  unfold State.resumeWalker
  split <;> exact h.mono (by simp)

theorem readSetup_fits (b g) : (s.readSetup b g).QueuesFit := by
  unfold State.readSetup
  exact h.mono (by simp)

theorem writeControl_fits (v) : (s.writeControl v).QueuesFit := by
  have started : ∀ u : State, u.QueuesFit → u.startCommand.QueuesFit := by
    intro u hu
    unfold State.startCommand State.beginStart State.beginResume
    dsimp only
    split
    · split
      · exact hu.mono (by simp)
      · exact readSetup_fits (s := { u with run := { u.run with state := .starting, refusal := 0 } }) (hu.mono (by simp)) _ _
    · split
      · exact hu.mono (by simp)
      · exact readSetup_fits hu _ _
    all_goals exact hu
  have halted : ∀ u : State, u.QueuesFit → u.haltCommand.QueuesFit := by
    intro u hu
    unfold State.haltCommand
    split <;> exact hu.mono (by simp)
  unfold State.writeControl
  split
  · exact h
  split
  · exact resetBlocks_fits _ _ _
  · have he : State.QueuesFit { s with run := { s.run with attnEnable := ctlEnable v } } := h.mono (by simp)
    dsimp only
    split
    · exact started _ he
    split
    · exact halted _ he
    · exact he

theorem startRead_fits (e f) : (s.startRead e f).QueuesFit := by
  have judged : ∀ b, (s.judgeStart b).QueuesFit := by
    intro b
    unfold State.judgeStart State.refuseStart State.started
    split <;> exact h.mono (by simp)
  unfold State.startRead
  split
  · dsimp only
    split
    · unfold State.refuseStart
      exact h.mono (by simp)
    split
    · exact readSetup_fits h _ _
    · exact judged _
  · exact h

theorem resumeRead_fits (e f) : (s.resumeRead e f).QueuesFit := by
  have judged : ∀ b, (s.judgeResume b).QueuesFit := by
    intro b
    unfold State.judgeResume State.refuseResume State.resumed
    split
    · exact h.mono (by simp)
    · exact resumeWalker_fits (h.mono (by simp))
  unfold State.resumeRead
  split
  · dsimp only
    split
    · unfold State.refuseResume
      exact h.mono (by simp)
    split
    · exact readSetup_fits h _ _
    · exact judged _
  · exact h

theorem poke_fits (v) : (s.poke v).QueuesFit := by
  have hp : (s.pokeWalker v).QueuesFit := by
    unfold State.pokeWalker State.restartWalker
    dsimp only
    repeat' split
    all_goals exact h.mono (by simp)
  unfold State.poke
  split
  · exact h
  · exact hp.mono (by simp)

theorem grant_fits (r t b) : (s.grant r t b).QueuesFit := by
  unfold State.grant
  exact h.mono (by simp)

end

/-- A completion keeps the depths when its requester's part does. -/
theorem complete_fits {s : State} (h : s.QueuesFit) (p e k) (hk : ∀ f x, x.QueuesFit → (k f x).QueuesFit) :
    (s.complete p e k).QueuesFit := by
  refine complete_keeps p e k s h (fun f => ?_) hk
  unfold State.land
  dsimp only
  split <;> exact h.mono (by simp)

section
variable {s : State} (h : s.QueuesFit)
include h

theorem endTask_fits (o k l) : (s.endTask o k l).QueuesFit := h.mono (by simp)

theorem judgeFree_fits (t) : (s.judgeFree t).QueuesFit := by
  unfold State.judgeFree
  split
  · exact h.mono (by simp)
  · exact endTask_fits (h.mono (by simp)) _ _ _

theorem workGoesOn_fits : s.workGoesOn.QueuesFit := by
  unfold State.workGoesOn
  split
  · exact advanceWork_fits h
  · exact h

theorem judgeStage_fits (t) : (s.judgeStage t).QueuesFit := by
  unfold State.judgeStage
  dsimp only
  split
  · exact h.mono (by simp)
  split
  · exact h.mono (by simp)
  · exact h.mono (by simp)
  split
  · exact h.mono (by simp)
  split
  · exact ⟨h.loads, h.palettes, fun q => by cases q; exacts [h.schedules .slide, h.schedules .menu], h.keys, h.notices,
      trivial⟩
  · exact h.mono (by simp)

theorem failStage_fits (t o k) : (s.failStage t o k).QueuesFit := by
  unfold State.failStage
  split
  · exact endTask_fits (h.mono (by simp)) _ _ _
  · exact h.mono (by simp)

theorem pageHeaderCame_fits (t b) : (s.pageHeaderCame t b).QueuesFit := by
  unfold State.pageHeaderCame
  dsimp only
  split
  · exact ⟨h.loads, h.palettes, fun q => by cases q; exacts [h.schedules .slide, h.schedules .menu], h.keys, h.notices,
      trivial⟩
  · exact failStage_fits h _ _ _

theorem pageCame_fits (t b) : (s.pageCame t b).QueuesFit := by
  unfold State.pageCame
  split
  · exact failStage_fits h _ _ _
  split
  · exact failStage_fits h _ _ _
  split
  · exact endTask_fits (h.mono (by simp)) _ _ _
  · exact h.mono (by simp)

theorem judgeDiscard_fits (t) : (s.judgeDiscard t).QueuesFit := by
  unfold State.judgeDiscard
  split
  · exact h.mono (by simp)
  split
  · exact h.mono (by simp)
  · exact h.mono (by simp)
  split
  · exact h.mono (by simp)
  · exact endTask_fits (h.mono (by simp)) _ _ _

theorem judgeClear_fits (t) : (s.judgeClear t).QueuesFit := by
  unfold State.judgeClear
  split
  · exact h.mono (by simp)
  next p _ =>
  have hp : (s.setPlane p { s.plane p with schedule := [] }).QueuesFit :=
    h.mono_of_schedules (fun q => by rw [setPlane_plane]; split <;> simp) (by cases p <;> simp)
  exact endTask_fits (hp.mono (by simp)) _ _ _

theorem judgeSetState_fits (t) : (s.judgeSetState t).QueuesFit := by
  unfold State.judgeSetState
  dsimp only
  split
  · split <;> exact endTask_fits (h.mono (by simp)) _ _ _
  · exact endTask_fits (h.mono (by simp)) _ _ _

theorem judgeWait_fits (t) : (s.judgeWait t).QueuesFit := by
  unfold State.judgeWait
  split <;> exact h.mono (by simp)

theorem recheckWait_fits : s.recheckWait.QueuesFit := by
  unfold State.recheckWait
  split
  · split
    · exact h.mono (by simp)
    · exact h
  · exact h

theorem judgeSnapshot_fits (t) : (s.judgeSnapshot t).QueuesFit := by
  unfold State.judgeSnapshot
  dsimp only
  split
  · exact h.mono (by simp)
  split <;> exact h.mono (by simp)

theorem retryStall_fits : s.retryStall.QueuesFit := by
  unfold State.retryStall
  split
  · exact judgeStalled_fits (s := { s with walker := { s.walker with st := .working } }) (h.mono (by simp)) _
  · exact h

theorem takeNotice_fits : s.takeNotice.QueuesFit := by
  unfold State.takeNotice
  split
  · next hq => exact h.mono (by simp [hq])
  · exact h

theorem contentsCame_fits (e f) : (s.contentsCame e f).QueuesFit := by
  unfold State.contentsCame
  split
  · split
    · unfold State.dropNotice State.blankFault
      exact h.mono (by simp)
    · exact h.mono (by simp)
  · exact h

theorem stateCame_fits (e f) : (s.stateCame e f).QueuesFit := by
  unfold State.stateCame
  split
  · dsimp only
    split
    · unfold State.blankFault
      exact h.mono (by simp)
    · exact h.mono (by simp)
  · exact h

theorem noticeLinkCame_fits (e f) : (s.noticeLinkCame e f).QueuesFit := by
  unfold State.noticeLinkCame State.blankFault
  dsimp only
  repeat' split
  all_goals exact h.mono (by simp)

end

/-- Every command keeps the depths. -/
theorem exec_fits {s : State} (h : s.QueuesFit) (c : Instr) : ∃ t, exec c s = .next t ∧ t.QueuesFit := by
  cases c
  all_goals refine ⟨_, rfl, ?_⟩
  case powerOnReset => exact resetBlocks_fits _ _ _
  case resetPin => exact resetBlocks_fits _ _ _
  case softReset v => exact writeControl_fits h v
  case start v => exact writeControl_fits h v
  case halt v => exact writeControl_fits h v
  case startReadsComplete e => exact complete_fits h _ e _ fun f _ hx => startRead_fits hx e f
  case resumeReadsComplete e => exact complete_fits h _ e _ fun f _ hx => resumeRead_fits hx e f
  case haltComplete =>
    split
    · split
      · exact h.mono (by simp)
      · exact h
    all_goals exact h
  case attentionWrite v => unfold State.writeAttention; split <;> exact h.mono (by simp)
  case resetCauseWrite v => unfold State.writeCause; split <;> exact h.mono (by simp)
  case chainPoke v => exact poke_fits h v
  case registerWrite r n v =>
    split
    · cases r with
      | control => exact writeControl_fits h v
      | chainPoke => exact poke_fits h v
      | setupAddress => dsimp only [State.writeRegister, State.writeSetup]; split <;> exact h.mono (by simp)
      | attention => dsimp only [State.writeRegister, State.writeAttention]; split <;> exact h.mono (by simp)
      | resetCause => dsimp only [State.writeRegister, State.writeCause]; split <;> exact h.mono (by simp)
      | status | noticeCount | frameStamp => exact h
    · exact h
  case frameStart n => exact frameStart_fits (passTicks_fits (finishWork_fits h) n)
  case syncLoss n =>
    split
    · exact loseSync_fits (passTicks_fits h n)
    · exact passTicks_fits h n
  case falseStart n =>
    split
    · split
      · exact (passTicks_fits h n).mono (by simp)
      · exact passTicks_fits h n
    · exact passTicks_fits h n
  case keyFrame n b m st =>
    have hp := passTicks_fits h n
    split
    · split
      · have hi : (s.passTicks n).receiverIdle.QueuesFit := hp.mono (by simp)
        unfold State.judgeFrame
        split
        · split
          · exact hi.mono (by simp)
          split
          · exact lineKey_fits hi b
          · exact hi
        · exact hi.mono (by simp)
      · exact hp
    · exact hp
  case startEdge =>
    split
    · split <;> exact h.mono (by simp)
    · exact h
  case offsetSwitch => exact switchStep_fits h
  case compactConfirm => exact h.mono (by simp)
  case paletteApply => exact paletteStep_fits h
  case transitionEnd p => exact transStep_fits h p
  case operationBegin p => exact opStep_fits h p
  case jumpApply => exact jumpApplyStep_fits h
  case activationEnd => exact actEndStep_fits h
  case digitWindowExpiry => exact expiryStep_fits h
  case pageTimeout => exact timeoutStep_fits h
  case lineStart =>
    split
    · exact (finishWork_fits h).mono (by simp)
    · exact finishWork_fits h
  case pixelClock => exact (finishWork_fits h).mono (by simp)
  case burstGrant host =>
    have hm : State.QueuesFit { s with mem := memHost s.mem host } := h.mono (by simp)
    rcases arbitrate_cases { s with mem := memHost s.mem host } with ha | ⟨r, t, b, -, -, -, ha⟩
    · rw [ha]; exact hm
    · rw [ha]; exact grant_fits hm r t b
  case lineFetchBurstComplete e => exact complete_fits h _ e _ fun f _ hx => hx.mono (by simp)
  case takeItem => exact takeItem_fits h
  case recordReadComplete e => exact complete_fits h _ e _ fun f _ hx => recordCame_fits hx e f
  case loadObject => split; exacts [judgeLoad_fits h _, h]
  case loadHeaderReadComplete e =>
    refine complete_fits h _ e _ fun f x hx => ?_
    split
    · next hj =>
      split
      · exact hx.mono (by simp)
      · exact loadHeaderCame_fits hx _ _ _ hj
    · exact hx
  case freeObject => split; exacts [workGoesOn_fits (judgeFree_fits h _), h]
  case compactHeap => split; exacts [judgeCompact_fits h _, h]
  case loadPalette => split; exacts [judgeLoadPalette_fits h _, h]
  case paletteReadComplete e =>
    refine complete_fits h _ e _ fun f x hx => ?_
    split
    · next hj =>
      dsimp only
      split
      · exact hx.mono (by simp)
      split
      · have := hx.job
        rw [hj] at this
        exact ⟨hx.loads, hx.palettes, fun q => by cases q; exacts [hx.schedules .slide, hx.schedules .menu], hx.keys,
          hx.notices, this⟩
      · exact acceptPalette_fits (paletteStep_fits hx) _ _ _ (by simpa using hj)
    · exact hx
  case stagePage => split; exacts [judgeStage_fits h _, h]
  case pageHeaderReadComplete e =>
    refine complete_fits h _ e _ fun f x hx => ?_
    split
    · dsimp only
      split
      · exact failStage_fits hx _ _ _
      split
      · exact ⟨hx.loads, hx.palettes, fun q => by cases q; exacts [hx.schedules .slide, hx.schedules .menu], hx.keys,
          hx.notices, trivial⟩
      · exact pageHeaderCame_fits hx _ _
    · exact hx
  case pageReadComplete e =>
    refine complete_fits h _ e _ fun f x hx => ?_
    split
    · dsimp only
      split
      · exact failStage_fits hx _ _ _
      split
      · exact ⟨hx.loads, hx.palettes, fun q => by cases q; exacts [hx.schedules .slide, hx.schedules .menu], hx.keys,
          hx.notices, trivial⟩
      · exact pageCame_fits hx _ _
    · exact hx
  case discardPage => split; exacts [workGoesOn_fits (judgeDiscard_fits h _), h]
  case showPage => split; exacts [judgeShow_fits h _, h]
  case hidePlane => split; exacts [judgeHide_fits h _, h]
  case clearSchedule => split; exacts [judgeClear_fits h _, h]
  case setState => split; exacts [judgeSetState_fits h _, h]
  case selectButton => split; exacts [joinItem_fits h _, h]
  case injectKey => split; exacts [joinItem_fits h _, h]
  case wait => split; exacts [judgeWait_fits h _, h]
  case waitMet => exact recheckWait_fits h
  case snapshot => split; exacts [judgeSnapshot_fits h _, h]
  case stallHandover => exact retryStall_fits h
  case linkReadComplete e => exact complete_fits h _ e _ fun f _ hx => linkCame_fits hx e f
  case resultsBurstComplete e => exact complete_fits h _ e _ fun f _ hx => resultsCame_fits hx e f
  case outcomeBurstComplete e => exact complete_fits h _ e _ fun f _ hx => outcomeCame_fits hx e f
  case decoderTakeLoad => exact h.mono (by simp)
  case decoderHeaderReadComplete e => exact complete_fits h _ e _ fun f _ hx => hx.mono (by simp)
  case decoderReadComplete e => exact complete_fits h _ e _ fun f _ hx => hx.mono (by simp)
  case decoderWriteComplete e => exact complete_fits h _ e _ fun f _ hx => hx.mono (by simp)
  case compactWaitEnd =>
    split
    · split
      · exact h.mono (by simp)
      · exact h
    all_goals exact h
  case compactScanStep =>
    split
    · exact h.mono (by simp)
    all_goals exact h
  case compactReadComplete e => exact complete_fits h _ e _ fun f _ hx => hx.mono (by simp)
  case compactWriteComplete e => exact complete_fits h _ e _ fun f _ hx => hx.mono (by simp)
  case noticeTake => exact takeNotice_fits h
  case contentsBurstComplete e => exact complete_fits h _ e _ fun f _ hx => contentsCame_fits hx e f
  case stateBurstComplete e => exact complete_fits h _ e _ fun f _ hx => stateCame_fits hx e f
  case noticeLinkReadComplete e => exact complete_fits h _ e _ fun f _ hx => noticeLinkCame_fits hx e f
  case resetPinRelease => exact h.mono (by simp)

/-- Settles O7: a step is a command or a tick, and each keeps the depths. -/
theorem queuesStayWithinTheirDepths : Obligations.QueuesStayWithinTheirDepths := by
  intro s t hs hstep
  rw [queuesOk_iff] at hs ⊢
  unfold step at hstep
  split at hstep
  · next c rest _ =>
    have hp : (s.withPending rest).QueuesFit := hs.mono (by simp)
    obtain ⟨u, hu, fits⟩ := exec_fits hp c
    rw [hu] at hstep
    cases hstep
    exact fits
  · cases hstep
    exact passTicks_fits hs 1

end Sys2Proof.Machine

/-! ## Commands out of their turn (O4) and the reset state (O11) -/

namespace Sys2Proof.Machine

/-- A completion finds no burst under way. -/
theorem complete_of_no_flight {s : State} (h : s.port.flight = none) (p e k) : s.complete p e k = s := by
  simp [State.complete, h]

/-- The completion of a read that has been given up at most ends it (log 28). -/
theorem complete_of_dropped_read {s : State} {f : Flight} (h : s.port.flight = some f) (hd : f.dropped = true)
    (hr : f.burst.sel = none) (p e k) : s.complete p e k = s ∨ s.complete p e k = s.landed := by
  have hl : s.land f e = s.landed := land_eq f e s (.inl hr)
  by_cases hp : p f.burst.user = true
  · exact .inr (by simp [State.complete, h, hp, hd, hl])
  · exact .inl (by simp [State.complete, h, hp])

/-- The commands that complete a burst. -/
theorem exec_completion {c : Instr} {err : Bool} (h : c ∈ [Instr.startReadsComplete err, .resumeReadsComplete err,
    .lineFetchBurstComplete err, .recordReadComplete err, .loadHeaderReadComplete err, .paletteReadComplete err,
    .pageHeaderReadComplete err, .pageReadComplete err, .linkReadComplete err, .resultsBurstComplete err,
    .outcomeBurstComplete err, .decoderHeaderReadComplete err, .decoderReadComplete err, .decoderWriteComplete err,
    .compactReadComplete err, .compactWriteComplete err, .contentsBurstComplete err, .stateBurstComplete err,
    .noticeLinkReadComplete err]) (s : State) : ∃ p k, exec c s = .next (s.complete p err k) := by
  simp only [List.mem_cons, List.not_mem_nil, or_false] at h
  rcases h with rfl | rfl | rfl | rfl | rfl | rfl | rfl | rfl | rfl | rfl | rfl | rfl | rfl | rfl | rfl | rfl | rfl | rfl | rfl
  all_goals exact ⟨_, _, rfl⟩

/-- A task's command without that task in hand. -/
theorem exec_of_not_inHand {k : Nat} {c : Instr} (hc : (k, c) ∈ [(1, Instr.loadObject), (2, .freeObject),
    (3, .compactHeap), (4, .loadPalette), (5, .stagePage), (6, .discardPage), (7, .showPage), (8, .hidePlane),
    (9, .clearSchedule), (10, .setState), (11, .selectButton), (12, .injectKey), (13, .wait), (14, .snapshot)])
    {s : State} (h : s.inHand k = none) : exec c s = .next s := by
  simp only [List.mem_cons, List.not_mem_nil, or_false, Prod.mk.injEq] at hc
  rcases hc with ⟨rfl, rfl⟩ | ⟨rfl, rfl⟩ | ⟨rfl, rfl⟩ | ⟨rfl, rfl⟩ | ⟨rfl, rfl⟩ | ⟨rfl, rfl⟩ | ⟨rfl, rfl⟩ | ⟨rfl, rfl⟩ |
    ⟨rfl, rfl⟩ | ⟨rfl, rfl⟩ | ⟨rfl, rfl⟩ | ⟨rfl, rfl⟩ | ⟨rfl, rfl⟩ | ⟨rfl, rfl⟩
  all_goals simp only [exec, execLoadObject, execFreeObject, execCompactHeap, execLoadPalette, execStagePage, execDiscardPage,
    execShowPage, execHidePlane, execClearSchedule, execSetState, execSelectButton, execInjectKey, execWait, execSnapshot, h]

/-- A step of frame-start work when none is outstanding. -/
theorem exec_of_no_work {c : Instr} {q : PlaneId} (hc : c ∈ [Instr.offsetSwitch, .paletteApply, .transitionEnd q,
    .operationBegin q, .jumpApply, .activationEnd, .digitWindowExpiry, .pageTimeout]) {s : State} (h : s.work = {}) :
    exec c s = .next s := by
  have hq : s.stage q = .idle := by cases q <;> simp [State.stage, h]
  simp only [List.mem_cons, List.not_mem_nil, or_false] at hc
  rcases hc with rfl | rfl | rfl | rfl | rfl | rfl | rfl | rfl
  · simp [exec, execOffsetSwitch, State.switchStep, h]
  · simp [exec, execPaletteApply, State.paletteStep, h]
  · simp [exec, execTransitionEnd, State.transStep, hq]
  · simp [exec, execOperationBegin, State.opStep, hq]
  · simp [exec, execJumpApply, State.jumpApplyStep, h]
  · simp [exec, execActivationEnd, State.actEndStep, h]
  · simp [exec, execDigitWindowExpiry, State.expiryStep, h]
  · simp [exec, execPageTimeout, State.timeoutStep, h]

/-- Settles O4: task commands, completions and frame-start steps, each by its own condition. -/
theorem commandsOutOfTurnChangeNothing : Obligations.CommandsOutOfTurnChangeNothing := by
  intro s err q c
  refine ⟨fun k hk h => exec_of_not_inHand hk h, fun hc => ?_, fun hc h => exec_of_no_work hc h⟩
  obtain ⟨p, k, hk⟩ := exec_completion hc s
  rw [hk]
  refine ⟨fun h => by rw [complete_of_no_flight h], fun f h hd hr => ?_⟩
  rcases complete_of_dropped_read h hd hr p err k with hc | hc
  · exact .inl (by rw [hc])
  · exact .inr (by rw [hc])

theorem getD_replicate_self {α : Type} (n k : Nat) (a : α) : (List.replicate n a).getD k a = a := by
  rw [List.getD_eq_getElem?_getD, List.getElem?_getD_replicate_default_eq]

theorem reset_colour (k i : Nat) : State.reset.colour k i = {} := by
  have ha : State.reset.palette.applied = .replicate 8 (.replicate 256 {}) := rfl
  rw [State.colour, ha, Vector.toList_replicate, getD_replicate_self, Vector.toList_replicate, getD_replicate_self]

/-- Settles O11: every field is read off the reset state, the tables by their replicated entries. -/
theorem resetStateHoldsTheTablesValues : Obligations.ResetStateHoldsTheTablesValues := by
  unfold Obligations.ResetStateHoldsTheTablesValues
  intro s
  have holds : s.holdsOk := ⟨fun p => by fin_cases p <;> rfl, rfl⟩
  have colours : ∀ k i, s.colour k i = {} := reset_colour
  refine ⟨rfl, rfl, rfl, rfl, rfl, rfl, rfl, rfl, rfl, rfl, rfl, rfl, rfl, rfl, rfl, ?_, rfl, rfl, rfl, rfl, rfl, rfl, rfl, rfl,
    rfl, rfl, ?_, rfl, ?_, ?_, rfl, rfl, rfl, rfl, rfl, rfl, rfl, rfl, rfl, rfl, rfl, rfl, rfl, rfl, rfl, rfl, rfl, rfl, rfl, rfl,
    rfl, rfl, rfl, rfl, ?_, rfl, rfl, rfl, rfl, rfl, rfl, rfl, rfl, rfl, rfl, rfl, rfl, rfl, rfl, rfl, rfl, rfl, rfl, rfl, holds⟩
  · exact fun i => by simp [s, State.reset, State.entry, Vector.get]
  · exact fun k i _ _ => colours k i
  · exact fun k i => by simp [s, State.reset, Vector.get]
  · exact fun p => by simp [s, State.reset, State.slot, Vector.get]
  · exact fun i => by simp [s, State.reset, Vector.get]

end Sys2Proof.Machine

/-! ## The free extent table (O21): R2, R3, R4 -/

namespace Sys2Proof.Machine

/-! ### First fit -/

theorem granulesFor_eq_iff {n : Nat} (hn : 0 < n) (w h : Nat) :
    granulesFor w h = n ↔ 64 * (n - 1) < w * h ∧ w * h ≤ 64 * n := by
  unfold granulesFor
  generalize w * h = pixels
  omega

theorem extAlloc_eq_none_iff (n : Nat) (l : List Extent) : extAlloc n l = none ↔ ∀ e ∈ l, e.len < n := by
  induction l with
  | nil => simp [extAlloc]
  | cons x xs ih =>
    unfold extAlloc
    rw [List.forall_mem_cons, ← ih]
    split
    · next longer => exact iff_of_false nofun fun h => by omega
    split
    · next same => exact iff_of_false nofun fun h => by omega
    split
    · next hb => exact iff_of_false nofun fun h => by rw [h.2] at hb; cases hb
    · next hb => exact iff_of_true rfl ⟨by omega, hb⟩

theorem extAlloc_first_fit {n : Nat} {l l' : List Extent} {a : Nat} (h : extAlloc n l = some (a, l')) :
    ∃ pre e post, l = pre ++ e :: post ∧ (∀ x ∈ pre, x.len < n) ∧ n ≤ e.len ∧ a = e.start
      ∧ l' = pre ++ (if n = e.len then post else { start := e.start + n, len := e.len - n } :: post) := by
  induction l generalizing a l' with
  | nil => simp [extAlloc] at h
  | cons x xs ih =>
    unfold extAlloc at h
    split at h
    · next longer =>
      cases h
      exact ⟨[], x, xs, rfl, by simp, longer.le, rfl, by simp [longer.ne]⟩
    split at h
    · next exact_ =>
      cases h
      exact ⟨[], x, xs, rfl, by simp, exact_.le, rfl, by simp [exact_]⟩
    split at h
    · next b ys hb =>
      cases h
      obtain ⟨pre, e, post, rfl, hpre, fits, rfl, rfl⟩ := ih hb
      refine ⟨x :: pre, e, post, rfl, ?_, fits, rfl, rfl⟩
      rw [List.forall_mem_cons]
      exact ⟨by omega, hpre⟩
    · cases h

/-! ### Release -/

theorem freeGranule_cons (x : Extent) (xs : List Extent) (g : Nat) :
    freeGranule (x :: xs) g = true ↔ (x.start ≤ g ∧ g < x.stop) ∨ freeGranule xs g = true := by
  simp [freeGranule]

theorem extentsFrom_cons (lo : Nat) (x : Extent) (xs : List Extent) :
    extentsFrom lo (x :: xs) = true ↔ lo ≤ x.start ∧ 0 < x.len ∧ extentsFrom (x.stop + 1) xs = true := by
  simp [extentsFrom, and_assoc]

theorem freeGranule_below {lo : Nat} {l : List Extent} (h : extentsFrom lo l = true) {g : Nat} (hg : g < lo) :
    freeGranule l g ≠ true := by
  induction l generalizing lo with
  | nil => simp [freeGranule]
  | cons x xs ih =>
    obtain ⟨hx, hlen, hxs⟩ := (extentsFrom_cons lo x xs).mp h
    rw [Ne, freeGranule_cons]
    rintro (⟨hs, -⟩ | hf)
    · omega
    · exact ih hxs (by unfold Extent.stop; omega) hf

theorem extentsFrom_mono {lo lo' : Nat} (hlo : lo' ≤ lo) {l : List Extent} (h : extentsFrom lo l = true) :
    extentsFrom lo' l = true := by
  cases l with
  | nil => rfl
  | cons x xs =>
    rw [extentsFrom_cons] at h ⊢
    exact ⟨hlo.trans h.1, h.2⟩

/-- A run that is not free yet takes its place: the order stands, and its granules are the ones that become free. -/
theorem extInsert_spec (l : List Extent) : ∀ (e : Extent) (lo : Nat), extentsFrom lo l = true → lo ≤ e.start → 0 < e.len →
    (∀ g, e.start ≤ g → g < e.stop → freeGranule l g ≠ true) →
    extentsFrom lo (extInsert e l) = true
      ∧ ∀ g, freeGranule (extInsert e l) g = true ↔ freeGranule l g = true ∨ (e.start ≤ g ∧ g < e.stop) := by
  induction l with
  | nil =>
    intro e lo _ hlo hlen _
    exact ⟨by simp [extInsert, extentsFrom, hlo, hlen], by simp [extInsert, freeGranule]⟩
  | cons x xs ih =>
    intro e lo hl hlo hlen disjoint
    obtain ⟨hx, hxlen, hxs⟩ := (extentsFrom_cons lo x xs).mp hl
    have apart : ∀ g, e.start ≤ g → g < e.stop → ¬ (x.start ≤ g ∧ g < x.stop) ∧ freeGranule xs g ≠ true := by
      intro g h1 h2
      have := disjoint g h1 h2
      rwa [Ne, freeGranule_cons, not_or] at this
    unfold extInsert
    split
    · next before =>
      refine ⟨?_, fun g => ?_⟩
      · simp only [extentsFrom_cons]
        exact ⟨hlo, hlen, before, hxlen, hxs⟩
      · simp only [freeGranule_cons]
        tauto
    split
    · next meets =>
      refine ⟨?_, fun g => ?_⟩
      · rw [extentsFrom_cons]
        refine ⟨hlo, Nat.add_pos_left hlen _, ?_⟩
        rwa [show Extent.stop { start := e.start, len := e.len + x.len } = x.stop by simp only [Extent.stop] at *; omega]
      · have cover : (e.start ≤ g ∧ g < Extent.stop { start := e.start, len := e.len + x.len })
            ↔ (x.start ≤ g ∧ g < x.stop) ∨ (e.start ≤ g ∧ g < e.stop) := by
          simp only [Extent.stop] at *; omega
        rw [freeGranule_cons, freeGranule_cons, cover]
        tauto
    split
    · next follows =>
      have merged := ih { start := x.start, len := x.len + e.len } lo ?_ hx (Nat.add_pos_left hxlen _) ?_
      · refine ⟨merged.1, fun g => ?_⟩
        have cover : (x.start ≤ g ∧ g < Extent.stop { start := x.start, len := x.len + e.len })
            ↔ (x.start ≤ g ∧ g < x.stop) ∨ (e.start ≤ g ∧ g < e.stop) := by
          simp only [Extent.stop] at *; omega
        rw [merged.2, freeGranule_cons, cover]
        tauto
      · exact extentsFrom_mono (by simp only [Extent.stop]; omega) hxs
      · intro g h1 h2
        by_cases hg : g < x.stop
        · exact freeGranule_below hxs (by omega)
        · exact (apart g (by omega) (by simp only [Extent.stop] at *; omega)).2
    · next notAfter notMeets notBefore =>
      have past : x.stop < e.start := by
        by_contra hle
        have h1 := (apart (max x.start e.start) (le_max_right _ _) (by simp only [Extent.stop] at *; omega)).1
        simp only [Extent.stop] at *
        omega
      have rest := ih e (x.stop + 1) hxs past hlen fun g h1 h2 => (apart g h1 h2).2
      refine ⟨?_, fun g => ?_⟩
      · rw [extentsFrom_cons]
        exact ⟨hx, hxlen, rest.1⟩
      · rw [freeGranule_cons, freeGranule_cons, rest.2, or_assoc]

/-- Settles O21: first fit by induction on the table, release by `extInsert_spec`. -/
theorem extentTableAllocatesAndMerges : Obligations.ExtentTableAllocatesAndMerges := by
  refine ⟨fun n l hn => ⟨granulesFor_eq_iff hn, extAlloc_eq_none_iff n l, fun a l' h => extAlloc_first_fit h⟩, ?_⟩
  intro s n l ordered unfree
  unfold extRelease
  split
  · next hn => exact ⟨ordered, fun g => by simp; omega⟩
  · next hn =>
    exact extInsert_spec l { start := s, len := n } 0 ordered (Nat.zero_le _) (Nat.pos_of_ne_zero hn)
      fun g h1 h2 => by simp [unfree g h1 h2]

end Sys2Proof.Machine

/-! ## The code stream (O25): R12 to R15 -/

namespace Sys2Proof.Machine

theorem afterRun_within (d : Decode) (n used : Nat) (runs) (h : d.pos + n < d.width) : d.afterRun n used runs =
    { d with pos := d.pos + n, consumed := d.consumed + used, code := d.code.drop used, runs := d.runs ++ runs } := by
  simp [Decode.afterRun, h.ne]

theorem afterRun_line_end (d : Decode) (n used : Nat) (runs) (h : d.pos + n = d.width) : d.afterRun n used runs =
    { d with line := d.line + 1, pos := 0, consumed := d.consumed + used, code := d.code.drop used,
             runs := d.runs ++ runs } := by
  simp [Decode.afterRun, h]

theorem decodeOne_of_no_code {d : Decode} (h : d.code = []) :
    decodeOne d = if d.codeLen ≤ d.consumed then .fault 5 else .need := by
  simp [decodeOne, h]

theorem decodeLoop_succ (n : Nat) (d : Decode) :
    (∀ x, decodeOne d = .ran x → decodeLoop (n + 1) d = decodeLoop n x)
      ∧ (decodeOne d = .need → decodeLoop (n + 1) d = (d, .need))
      ∧ (∀ k, decodeOne d = .fault k → decodeLoop (n + 1) d = (d, .fault k))
      ∧ ∀ x short, decodeOne d = .ended x short → decodeLoop (n + 1) d = (x, .ended x short) := by
  refine ⟨fun x h => ?_, fun h => ?_, fun k h => ?_, fun x short h => ?_⟩ <;> rw [decodeLoop, h]

theorem decodeOne_at_end_of_stream {d : Decode} (h : d.codeLen ≤ d.consumed) : decodeOne d = .fault 5 := by
  rw [decodeOne, if_pos h]

section
variable {d : Decode} {c : Byte} {rest : List Byte} (code : d.code = c :: rest)
include code

theorem decodeOne_end_of_object (room : d.consumed < d.codeLen) (h : c.toNat / 64 = 3 ∧ c.toNat % 64 = 1) :
    decodeOne d = .ended
      { d with line := d.height, pos := 0, consumed := d.consumed + 1, code := [],
               runs := d.runs ++ [(64 * granulesFor d.width d.height - (d.line * d.width + d.pos), d.fill)] }
      (decide (d.line * d.width + d.pos < d.width * d.height)) := by
  rw [decodeOne, if_neg room.not_ge, code]
  dsimp only
  rw [if_pos h, Nat.mul_comm 64]

theorem decodeOne_excess_line (room : d.consumed < d.codeLen) (h : ¬ (c.toNat / 64 = 3 ∧ c.toNat % 64 = 1))
    (past : d.height ≤ d.line) : decodeOne d = .fault 4 := by
  rw [decodeOne, if_neg room.not_ge, code]
  dsimp only
  rw [if_neg h, if_pos past]

variable (room : d.consumed < d.codeLen) (line : d.line < d.height)
include room line

/-- Codes of the mode 3: an end of line, and with any other value than 0 and 1 a bad code. -/
theorem decodeOne_mode3 (hm : c.toNat / 64 = 3) (hv : c.toNat % 64 ≠ 1) :
    decodeOne d = if c.toNat % 64 = 0 then .ran (d.afterRun (d.width - d.pos) 1 [(d.width - d.pos, d.fill)])
      else .fault 2 := by
  rw [decodeOne, if_neg room.not_ge, code]
  dsimp only
  rw [if_neg fun h => hv h.2, if_neg line.not_ge, if_pos hm]

theorem decodeOne_literal (hm : c.toNat / 64 = 0) :
    decodeOne d =
      if d.width < d.pos + (c.toNat % 64 + 1) then .fault 3
      else if d.codeLen < d.consumed + 1 + (c.toNat % 64 + 1) then .fault 5
      else if rest.length < c.toNat % 64 + 1 then .need
      else .ran (d.afterRun (c.toNat % 64 + 1) (c.toNat % 64 + 2)
        ((rest.take (c.toNat % 64 + 1)).map fun b => (1, b))) := by
  rw [decodeOne, if_neg room.not_ge, code]
  dsimp only
  rw [if_neg (by omega), if_neg line.not_ge, if_neg (by omega), if_pos hm]

theorem decodeOne_short_run (hm : c.toNat / 64 = 1) :
    let n := c.toNat % 64 + 3
    (d.width < d.pos + n → decodeOne d = .fault 3)
      ∧ (d.pos + n ≤ d.width → d.codeLen < d.consumed + 2 → decodeOne d = .fault 5)
      ∧ (d.pos + n ≤ d.width → d.consumed + 2 ≤ d.codeLen → rest = [] → decodeOne d = .need)
      ∧ ∀ x r, d.pos + n ≤ d.width → d.consumed + 2 ≤ d.codeLen → rest = x :: r →
          decodeOne d = .ran (d.afterRun n 2 [(n, x)]) := by
  have mode : ¬ (c.toNat / 64 = 3 ∧ c.toNat % 64 = 1) ∧ ¬ c.toNat / 64 = 3 ∧ ¬ c.toNat / 64 = 0 := by omega
  obtain ⟨notEnd, not3, not0⟩ := mode
  refine ⟨fun overrun => ?_, fun within short => ?_, fun within long none_ => ?_, fun x r within long some_ => ?_⟩
  all_goals
    rw [decodeOne, if_neg room.not_ge, code]
    dsimp only
    rw [if_neg notEnd, if_neg line.not_ge, if_neg not3, if_neg not0, if_pos hm]
  · rw [if_pos overrun]
  · rw [if_neg within.not_gt, if_pos short]
  · rw [if_neg within.not_gt, if_neg long.not_gt, none_]
  · rw [if_neg within.not_gt, if_neg long.not_gt, some_]

theorem decodeOne_long_run (hm : c.toNat / 64 = 2) :
    (d.codeLen < d.consumed + 2 → decodeOne d = .fault 5)
      ∧ (d.consumed + 2 ≤ d.codeLen → rest = [] → decodeOne d = .need)
      ∧ ∀ b r, d.consumed + 2 ≤ d.codeLen → rest = b :: r →
          let n := c.toNat % 64 * 256 + b.toNat + 67
          (d.width < d.pos + n → decodeOne d = .fault 3)
          ∧ (d.pos + n ≤ d.width → d.codeLen < d.consumed + 3 → decodeOne d = .fault 5)
          ∧ (d.pos + n ≤ d.width → d.consumed + 3 ≤ d.codeLen → r = [] → decodeOne d = .need)
          ∧ ∀ x r', d.pos + n ≤ d.width → d.consumed + 3 ≤ d.codeLen → r = x :: r' →
              decodeOne d = .ran (d.afterRun n 3 [(n, x)]) := by
  have mode : ¬ (c.toNat / 64 = 3 ∧ c.toNat % 64 = 1) ∧ ¬ c.toNat / 64 = 3 ∧ ¬ c.toNat / 64 = 0 ∧ ¬ c.toNat / 64 = 1 := by
    omega
  obtain ⟨notEnd, not3, not0, not1⟩ := mode
  refine ⟨fun short => ?_, fun long none_ => ?_, fun b r long some_ =>
    ⟨fun overrun => ?_, fun within short => ?_, fun within long' none_ => ?_, fun x r' within long' some' => ?_⟩⟩
  all_goals
    rw [decodeOne, if_neg room.not_ge, code]
    dsimp only
    rw [if_neg notEnd, if_neg line.not_ge, if_neg not3, if_neg not0, if_neg not1]
  · rw [if_pos short]
  · rw [if_neg long.not_gt, none_]
  all_goals
    rw [if_neg long.not_gt, some_]
    dsimp only
  · rw [if_pos overrun]
  · rw [if_neg within.not_gt, if_pos short]
  · rw [if_neg within.not_gt, if_neg long'.not_gt, none_]
  · rw [if_neg within.not_gt, if_neg long'.not_gt, some']

end

/-- Settles O25: the modes of a code one by one, each with its faults in the order of R15. -/
theorem codeBytesFollowTheCodeTable : Obligations.CodeBytesFollowTheCodeTable := by
  refine ⟨fun d n used runs => ⟨afterRun_within d n used runs, afterRun_line_end d n used runs⟩,
    fun d h => decodeOne_of_no_code h, decodeLoop_succ, ?_⟩
  intro d c rest code m v room
  have room_iff : 0 < room ↔ d.consumed < d.codeLen := Nat.sub_pos_iff_lt
  refine ⟨decodeOne_at_end_of_stream, fun h hm hv => decodeOne_end_of_object code (room_iff.mp h) ⟨hm, hv⟩,
    fun h hn past => decodeOne_excess_line code (room_iff.mp h) hn past, ?_, ?_, ?_, ?_, ?_⟩
  · intro h line hm hv
    rw [decodeOne_mode3 code (room_iff.mp h) line hm (by omega), if_neg (by omega)]
  · intro h line hm hv
    refine ⟨d.afterRun (d.width - d.pos) 1 [(d.width - d.pos, d.fill)], ?_, rfl, rfl, rfl, fun hpos => ?_⟩
    · rw [decodeOne_mode3 code (room_iff.mp h) line hm (by omega), if_pos hv]
    · rw [afterRun_line_end _ _ _ _ (by omega), code]
      rfl
  · intro h line hm
    have literal := decodeOne_literal code (room_iff.mp h) line hm
    refine ⟨fun overrun => ?_, fun within short => ?_, fun within long wait => ?_, fun within long come => ?_⟩
    · rw [literal, if_pos overrun]
    · rw [literal, if_neg within.not_gt, if_pos (by omega)]
    · rw [literal, if_neg within.not_gt, if_neg (by omega), if_pos wait]
    · rw [literal, if_neg within.not_gt, if_neg (by omega), if_neg come.not_gt]
  · intro h line hm
    obtain ⟨overrun, short, wait, come⟩ := decodeOne_short_run code (room_iff.mp h) line hm
    exact ⟨overrun, fun within few => short within (by omega), fun within long => wait within (by omega),
      fun within long x r => come x r within (by omega)⟩
  · intro h line hm
    obtain ⟨short, wait, come⟩ := decodeOne_long_run code (room_iff.mp h) line hm
    refine ⟨fun few => short (by omega), fun long => wait (by omega), fun long b r hr => ?_⟩
    obtain ⟨overrun, short', wait', come'⟩ := come b r (by omega) hr
    exact ⟨overrun, fun within few => short' within (by omega), fun within long' => wait' within (by omega),
      fun within long' x r' => come' x r' within (by omega)⟩

end Sys2Proof.Machine

/-! ## LOAD OBJECT (O22): R7 -/

namespace Sys2Proof.Machine

theorem exec_loadObject {s : State} {task : Task} (h : s.inHand 1 = some task) :
    exec .loadObject s = .next (s.judgeLoad task) := by
  simp only [exec, execLoadObject, h]

/-- The completion of the header's read, with the task whose load it is in hand. -/
theorem exec_loadHeaderReadComplete {s : State} {f : Flight} {task : Task} {g : Gather} (hl : s.LandingRead f .loadHeader)
    (ht : s.walker.task = some task) (hj : s.walker.job = .loadHeader g) (err : Bool) :
    exec (.loadHeaderReadComplete err) s = .next
      (if f.failed err then s.landed.endTask .memoryError 6 [] else s.landed.loadHeaderCame task (g.feed f.data)) := by
  have hc := landingRead_complete hl (fun u => decide (u = .loadHeader)) (decide_eq_true rfl) err
  simp [exec, execLoadHeaderReadComplete, hc, ht, hj]

section
variable (s : State) (task : Task)

theorem judgeLoad_of_full (h : 4 ≤ s.heap.loads.length) : s.judgeLoad task = s.stall := if_pos h

variable (room : s.heap.loads.length < Config.maxLoads)
include room

theorem judgeLoad_of_bad_id (h : 255 < task.p16 16) : s.judgeLoad task = s.endTask .badParameter 0 [] := by
  rw [State.judgeLoad, if_neg room.not_ge, if_pos h]

variable (small : task.p16 16 ≤ 255)
include small

theorem judgeLoad_of_taken (h : (s.entry (BitVec.ofNat 8 (task.p16 16))).state = .ready
      ∨ (s.entry (BitVec.ofNat 8 (task.p16 16))).state = .queued
      ∨ (s.entry (BitVec.ofNat 8 (task.p16 16))).state = .loading) :
    s.judgeLoad task = s.endTask .idTaken 0 [] := by
  rw [State.judgeLoad, if_neg room.not_ge, if_neg small.not_gt]
  rcases h with h | h | h <;> rw [h]

theorem judgeLoad_of_releasing (h : (s.entry (BitVec.ofNat 8 (task.p16 16))).state = .releasing) :
    s.judgeLoad task = s.endTask .idReleasing 0 [] := by
  rw [State.judgeLoad, if_neg room.not_ge, if_neg small.not_gt, h]

/-- An entry that may take a load has its header read when the address lies in the chain aperture (R7). -/
theorem judgeLoad_of_open (h : (s.entry (BitVec.ofNat 8 (task.p16 16))).state = .empty
      ∨ (s.entry (BitVec.ofNat 8 (task.p16 16))).state = .faulted) : s.judgeLoad task =
    if s.inChain (task.p32 20).toNat 16 then
      State.ask .loadHeader ((task.p32 20).toNat / 64 * 64) none
        { s with walker := { s.walker with st := .working, job := .loadHeader { addr := (task.p32 20).toNat, left := 16 } } }
    else s.endTask .addressFault 0 [] := by
  rw [State.judgeLoad, if_neg room.not_ge, if_neg small.not_gt]
  rcases h with h | h <;> rw [h] <;> rfl

end

/-- A load that is accepted: its entry is QUEUED, it stands at the tail, and the walker goes on. -/
theorem acceptLoad_eq (s : State) (t : Task) : s.acceptLoad t = { s with
      heap := { s.heap with
        dir := s.heap.dir.set (BitVec.ofNat 8 (t.p16 16) : Byte).toNat
          { s.entry (BitVec.ofNat 8 (t.p16 16)) with state := .queued, fault := 0, short := false, loadTask := some t.ref.addr }
        loads := s.heap.loads ++ [{ id := BitVec.ofNat 8 (t.p16 16), header := t.p32 20, task := t.ref,
                                    held := decide (s.compactor.phase ≠ .idle) }] }
      walker := { s.walker with
        task := none, job := .judge, st := if s.run.state = .halting then .halted .link else .linking }
      port := { s.port with walkerQ := s.port.walkerQ ++ s.asksForLink } } := by
  unfold State.acceptLoad
  rw [dealt_eq, dealt_walkerQ]
  rfl

theorem landed_inChain (s : State) (a n : Nat) : s.landed.inChain a n = s.inChain a n := rfl

/-- Settles O22: the checks of R7 in order, then the outcomes of the header's read. -/
theorem loadObjectIsJudgedAndAccepted : Obligations.LoadObjectIsJudgedAndAccepted := by
  constructor
  · intro s task hand
    obtain ⟨ht, -, -, -⟩ := inHand_eq hand
    refine ⟨s.judgeLoad task, exec_loadObject hand, fun full => ?_, fun room => ⟨fun big => ?_, fun small taken => ?_,
      fun small releasing => ?_, fun small may out => ?_, fun small may inside => ?_⟩⟩
    · rw [judgeLoad_of_full s task full]
      exact stall_stalls s
    · rw [judgeLoad_of_bad_id s task room big]
      exact endTask_refuses s _ 0 task ht
    · rw [judgeLoad_of_taken s task room small taken]
      exact endTask_refuses s _ 0 task ht
    · rw [judgeLoad_of_releasing s task room small releasing]
      exact endTask_refuses s _ 0 task ht
    · rw [judgeLoad_of_open s task room small may, if_neg (by simp [out])]
      exact endTask_refuses s _ 0 task ht
    · rw [judgeLoad_of_open s task room small may, if_pos inside]
      exact ⟨⟨rfl, rfl⟩, rfl⟩
  · intro s err f task g landing ht hj
    have hl : s.landed.walker.task = some task := by simpa using ht
    refine ⟨_, exec_loadHeaderReadComplete landing ht hj err, fun bad => ?_, fun good more => ?_, fun good whole out => ?_,
      fun good whole inside => ?_⟩
    · rw [if_pos (failed_true bad)]
      exact endTask_refuses _ _ 6 task hl
    all_goals rw [if_neg (by simp [failed_false good]), State.loadHeaderCame]
    · rw [if_pos more]
      exact ⟨⟨rfl, rfl⟩, rfl⟩
    · rw [if_neg (Nat.not_lt.mpr whole.le), landed_inChain, if_neg out]
      exact endTask_refuses _ _ 0 task hl
    · rw [if_neg (Nat.not_lt.mpr whole.le), landed_inChain, if_pos inside, acceptLoad_eq]
      refine ⟨⟨rfl, ⟨rfl, rfl, rfl⟩, rfl⟩, setEntry_entry_self s _ _, fun j hj => setEntry_entry_other s _ j _ hj, rfl, rfl⟩

end Sys2Proof.Machine

/-! ## Loads that end, and the decoder (O24, O26): R9 to R17 -/

namespace Sys2Proof.Machine

/-- Nothing differs but the heap, the walker and the port, as the frames of the heap's operations say it. -/
theorem eq_of_frame {s t : State} (kept : Kept t s) (compactor : t.compactor = s.compactor) (planes : SamePlanes t s)
    (view : SameShow t s) (notes : SameNotes t s) (palette : t.palette = s.palette) (nav : t.nav = s.nav) :
    t = { s with heap := t.heap, walker := t.walker, port := t.port } := by
  obtain ⟨h1, h2, h3, h4, h5, h6, -, -⟩ := kept
  obtain ⟨h7, h8, h9, h10, h11⟩ := planes
  obtain ⟨h12, h13⟩ := view
  obtain ⟨h14, h15, h16⟩ := notes
  cases t
  subst_vars
  rfl

theorem decoderHeaderCame_rest (s : State) (e f) : s.decoderHeaderCame e f =
    { s with heap := (s.decoderHeaderCame e f).heap, walker := (s.decoderHeaderCame e f).walker,
             port := (s.decoderHeaderCame e f).port } :=
  eq_of_frame (by simp [Kept]) (by simp) (by simp [SamePlanes]) (by simp [SameShow]) (by simp [SameNotes]) (by simp) (by simp)

/-! ### The end of a load -/

theorem removeLoad_loadOf (s : State) (i : Byte) : (s.removeLoad i).loadOf i = none := by
  simp [State.removeLoad, State.loadOf, List.find?_filter]

theorem loadOf_congr {s t : State} (h : t.heap.loads = s.heap.loads) (i : Byte) : t.loadOf i = s.loadOf i := by
  rw [State.loadOf, h, State.loadOf]

/-- A load that ends leaves the queue, and its task's retirement joins the list. -/
theorem endLoad_eq {s : State} {i : Byte} {l : Load} (h : s.loadOf i = some l) (o : TaskOutcome) (k : Nat) :
    s.endLoad i o k = { s with
      heap := { s.heap with loads := s.heap.loads.filter fun l => decide (l.id ≠ i) }
      walker := { s.walker with retiring := s.walker.retiring ++ [s.retirement l.task o (BitVec.ofNat 8 k) []] }
      port := { s.port with walkerQ := (s.endLoad i o k).port.walkerQ } } := by
  have he : s.endLoad i o k = (s.removeLoad i).retire l.task o k [] := by simp only [State.endLoad, h]
  rw [he, retire_eq]
  rfl

theorem endLoad_loadOf {s : State} {i : Byte} {l : Load} (h : s.loadOf i = some l) (o : TaskOutcome) (k : Nat) :
    (s.endLoad i o k).loadOf i = none := by
  rw [← removeLoad_loadOf s i]
  exact loadOf_congr (by rw [endLoad_eq h]; rfl) i

theorem endLoad_entry (s : State) (i : Byte) (o : TaskOutcome) (k : Nat) (j : Byte) :
    (s.endLoad i o k).entry j = s.entry j := entry_congr (by simp) j

/-- A load that ends FAULTED (R10, R17). -/
theorem decodeFault_eq {s : State} {i : Byte} {l : Load} (h : s.loadOf i = some l) (code : Nat) (o : TaskOutcome) :
    s.decodeFault i code o = { s with
      heap := { s.heap with
        dir := s.heap.dir.set i.toNat ((s.entry i).faultedWith code)
        extents := extRelease (s.entry i).offset (s.entry i).count s.heap.extents
        decode := none
        loads := s.heap.loads.filter fun l => decide (l.id ≠ i) }
      walker := { s.walker with retiring := s.walker.retiring ++ [s.retirement l.task o (BitVec.ofNat 8 code) []] }
      port := { s.port with walkerQ := (s.decodeFault i code o).port.walkerQ } } := by
  unfold State.decodeFault
  exact endLoad_eq (s := ((State.freeGranules (s.entry i).offset (s.entry i).count s).setEntry i
    ((s.entry i).faultedWith code)).decoderIdle) h o code

/-- What a fault leaves of a load: its entry, the other entries, the region and the decoder. -/
theorem decodeFault_spec {s : State} {i : Byte} {l : Load} (h : s.loadOf i = some l) (code : Nat) (o : TaskOutcome) :
    let t := s.decodeFault i code o
    t.entry i = (s.entry i).faultedWith code ∧ (∀ j, j ≠ i → t.entry j = s.entry j)
      ∧ t.heap.extents = extRelease (s.entry i).offset (s.entry i).count s.heap.extents
      ∧ t.heap.decode = none ∧ t.loadOf i = none
      ∧ t.walker.retiring = s.walker.retiring ++ [s.retirement l.task o (BitVec.ofNat 8 code) []]
      ∧ t = { s with heap := t.heap, walker := t.walker, port := t.port } := by
  intro t
  have ht : t = s.decodeFault i code o := rfl
  rw [decodeFault_eq h] at ht
  refine ⟨?_, fun j hj => ?_, ?_, ?_, ?_, ?_, ?_⟩
  · rw [ht]; exact setEntry_entry_self s i _
  · rw [ht]; exact setEntry_entry_other s i j _ hj
  · rw [ht]
  · rw [ht]
  · exact endLoad_loadOf (s := ((State.freeGranules (s.entry i).offset (s.entry i).count s).setEntry i
      ((s.entry i).faultedWith code)).decoderIdle) h o code
  · rw [ht]
  · rw [ht]

/-- A load that ends with a new entry and the decoder idle, its region as it stands. -/
theorem endLoad_setEntry_spec {s : State} {i : Byte} {l : Load} (h : s.loadOf i = some l) (e : DirEntry) (o : TaskOutcome)
    (k : Nat) : let t := ((s.setEntry i e).decoderIdle).endLoad i o k
    t.entry i = e ∧ t.heap.extents = s.heap.extents ∧ t.heap.decode = none ∧ t.loadOf i = none
      ∧ t.walker.retiring = s.walker.retiring ++ [s.retirement l.task o (BitVec.ofNat 8 k) []] := by
  have ht := endLoad_eq (s := (s.setEntry i e).decoderIdle) h o k
  refine ⟨?_, congrArg (·.heap.extents) ht, congrArg (·.heap.decode) ht,
    endLoad_loadOf (s := (s.setEntry i e).decoderIdle) h o k, congrArg (·.walker.retiring) ht⟩
  rw [endLoad_entry]
  exact setEntry_entry_self s i e

theorem decodeFault_entry_other (s : State) {i j : Byte} (hj : j ≠ i) (code : Nat) (o : TaskOutcome) :
    (s.decodeFault i code o).entry j = s.entry j :=
  (endLoad_entry _ i o code j).trans (setEntry_entry_other _ i j _ hj)

/-! ### What the decoder does next (log 10) -/

theorem decodeNext_writes {d : Decode} (h : 64 ≤ runsTotal d.runs) (s : State) : s.decodeNext d =
    State.decAsk .decPixels (s.heapBase + 64 * ((s.entry d.id).offset + d.written))
      (some (selFrom 0 (takeRuns 64 d.runs).1))
      (s.setDecode { d with runs := (takeRuns 64 d.runs).2, written := d.written + 1 }) := if_pos h

theorem decodeNext_reads {d : Decode} (h : runsTotal d.runs < 64) (hs : d.stage = .stream) (s : State) :
    s.decodeNext d = State.decAsk .decCode (d.nextByte / 64 * 64) none (s.setDecode d) := by
  rw [State.decodeNext, if_neg h.not_ge, hs]

theorem decodeNext_done {d : Decode} (h : runsTotal d.runs < 64) {short : Bool} (hs : d.stage = .finish short) (s : State) :
    s.decodeNext d = s.decodeDone d.id short := by
  rw [State.decodeNext, if_neg h.not_ge, hs]

theorem decodeNext_entry_other (s : State) {d : Decode} {j : Byte} (hj : j ≠ d.id) :
    (s.decodeNext d).entry j = s.entry j := by
  unfold State.decodeNext
  split
  · rfl
  split
  · exact (endLoad_entry _ _ _ _ j).trans (setEntry_entry_other _ _ _ _ hj)
  · rfl
  · rfl

/-! ### The decoder takes a load (R9) -/

theorem canTakeLoad_iff {s : State} {l : Load} {rest : List Load} (h : s.heap.loads = l :: rest) :
    s.canTakeLoad = true ↔ s.heap.decode = none ∧ s.run.state = .running
      ∧ (s.compactor.phase = .idle ∨ s.compactor.phase = .waiting) ∧ l.held = false := by
  simp [State.canTakeLoad, h, and_assoc]

theorem takeLoad_of_no_load {s : State} (h : s.heap.loads = []) : s.takeLoad = s := by
  simp only [State.takeLoad, h]

theorem takeLoad_eq {s : State} {l : Load} {rest : List Load} (h : s.heap.loads = l :: rest) :
    s.takeLoad = if s.canTakeLoad then
        State.decAsk .decHeader (l.header.toNat / 64 * 64) none
          (s.setDecode { id := l.id, header := l.header.toNat, gather := { addr := l.header.toNat, left := 16 } })
      else s := by
  simp only [State.takeLoad, h]
  rfl

/-! ### The header (R10, R11) -/

theorem headerValid_iff (h : List Byte) : headerValid h = true ↔
    nat8 h 0 = 1 ∧ (1 ≤ nat16 h 2 ∧ nat16 h 2 ≤ 1920) ∧ (1 ≤ nat16 h 4 ∧ nat16 h 4 ≤ 1080) ∧ 1 ≤ nat32 h 8 := by
  rw [headerValid, decide_eq_true_eq]
  simp only [headerCodeLen, and_assoc]

/-- The completion of a burst of the decoder's header read. -/
theorem exec_decoderHeaderReadComplete {s : State} {f : Flight} (hl : s.LandingRead f .decHeader) (err : Bool) :
    exec (.decoderHeaderReadComplete err) s = .next (s.landed.decoderHeaderCame err f) :=
  congrArg _ (landingRead_complete hl (fun u => decide (u = .decHeader)) (decide_eq_true rfl) err _)

theorem decodeHeader_invalid {s : State} {d : Decode} {h : List Byte} (invalid : headerValid h = false) :
    s.decodeHeader d h = s.decodeFault d.id 1 .decodeFault := by
  rw [State.decodeHeader, if_neg (by simp [invalid])]

/-- An allocation that fails gives the load up (R11). -/
theorem decodeHeader_heapFull {s : State} {d : Decode} {h : List Byte} (valid : headerValid h = true)
    (full : extAlloc (granulesFor (nat16 h 2) (nat16 h 4)) s.heap.extents = none) : s.decodeHeader d h =
      (s.setEntry d.id (DirEntry.vacated { s.entry d.id with width := nat16 h 2, height := nat16 h 4 })).decoderIdle.endLoad
        d.id .heapFull 0 := by
  rw [State.decodeHeader, if_pos valid]
  simp only [full]

theorem decodeHeader_allocates {s : State} {d : Decode} {h : List Byte} {a : Nat} {rest : List Extent}
    (valid : headerValid h = true)
    (fits : extAlloc (granulesFor (nat16 h 2) (nat16 h 4)) s.heap.extents = some (a, rest)) : s.decodeHeader d h =
      State.decodeNext
        { d with stage := .stream, fill := byteAt h 1, width := nat16 h 2, height := nat16 h 4, codeLen := headerCodeLen h }
        (State.setEntry { s with heap := { s.heap with extents := rest } } d.id
          { s.entry d.id with state := .loading, width := nat16 h 2, height := nat16 h 4, offset := a,
                              count := granulesFor (nat16 h 2) (nat16 h 4) }) := by
  rw [State.decodeHeader, if_pos valid]
  simp only [fits]

theorem decodeHeader_entry_other (s : State) {d : Decode} {j : Byte} (hj : j ≠ d.id) (h : List Byte) :
    (s.decodeHeader d h).entry j = s.entry j := by
  cases valid : headerValid h with
  | false => rw [decodeHeader_invalid valid, decodeFault_entry_other s hj]
  | true =>
    cases fits : extAlloc (granulesFor (nat16 h 2) (nat16 h 4)) s.heap.extents with
    | none =>
      rw [decodeHeader_heapFull valid fits]
      exact (endLoad_entry _ _ _ _ j).trans (setEntry_entry_other _ _ _ _ hj)
    | some r =>
      rw [decodeHeader_allocates valid fits]
      refine (decodeNext_entry_other _ ?_).trans (setEntry_entry_other _ _ _ _ hj)
      exact hj

theorem vacated_spec (e : DirEntry) : e.vacated.state = (if e.useCount = 0 then .empty else .releasing)
    ∧ e.vacated.useCount = e.useCount ∧ e.vacated.hasData = false ∧ e.vacated.count = 0 := by
  unfold DirEntry.vacated
  split <;> exact ⟨rfl, rfl, rfl, rfl⟩

section
variable {s : State} {d : Decode} {f : Flight} {err : Bool} (hd : s.heap.decode = some d)
include hd

theorem decoderHeaderCame_failed (bad : f.failed err = true) :
    s.decoderHeaderCame err f = s.decodeFault d.id 6 .memoryError := by
  simp only [State.decoderHeaderCame, hd, bad, if_true]

theorem decoderHeaderCame_more (good : f.failed err = false) (more : 0 < (d.gather.feed f.data).left) :
    s.decoderHeaderCame err f =
      State.decAsk .decHeader (d.gather.feed f.data).block none (s.setDecode { d with gather := d.gather.feed f.data }) := by
  simp only [State.decoderHeaderCame, hd, good, if_pos more, Bool.false_eq_true, if_false]

theorem decoderHeaderCame_whole (good : f.failed err = false) (whole : (d.gather.feed f.data).left = 0) :
    s.decoderHeaderCame err f =
      s.decodeHeader { d with gather := d.gather.feed f.data } (d.gather.feed f.data).got := by
  simp only [State.decoderHeaderCame, hd, good, whole, lt_irrefl, Bool.false_eq_true, if_false]

theorem decoderHeaderCame_entry_other (err f) {j : Byte} (hj : j ≠ d.id) :
    (s.decoderHeaderCame err f).entry j = s.entry j := by
  cases failed : f.failed err with
  | true => rw [decoderHeaderCame_failed hd failed, decodeFault_entry_other s hj]
  | false =>
    rcases Nat.eq_zero_or_pos (d.gather.feed f.data).left with whole | more
    · rw [decoderHeaderCame_whole hd failed whole]
      refine decodeHeader_entry_other s ?_ _
      exact hj
    · rw [decoderHeaderCame_more hd failed more]
      rfl

end

/-- Settles O24: the decoder's conditions, then the header by its length, its fields and the allocation. -/
theorem decoderTakesLoadsAndChecksHeaders : Obligations.DecoderTakesLoadsAndChecksHeaders := by
  refine ⟨?_, ?_, headerValid_iff, fun _ => rfl⟩
  · intro s conditions
    have he : ∀ t, s.takeLoad = t → exec .decoderTakeLoad s = .next t := fun t ht => congrArg Host.Outcome.next ht
    refine ⟨fun h => he s (takeLoad_of_no_load h), fun l rest h => ⟨fun no => he s ?_, fun yes => ?_⟩⟩
    · rw [takeLoad_eq h, if_neg fun c => no ((canTakeLoad_iff h).mp c)]
    · exact ⟨_, _, he _ ((takeLoad_eq h).trans (if_pos ((canTakeLoad_iff h).mpr yes))), rfl, rfl, rfl⟩
  · intro s err f d l landing hd hl hcount
    refine ⟨_, exec_decoderHeaderReadComplete landing err, ?_⟩
    have hd' : s.landed.heap.decode = some d := by simpa using hd
    have hl' : s.landed.loadOf d.id = some l := hl
    have keeps : extRelease (s.entry d.id).offset (s.entry d.id).count s.heap.extents = s.heap.extents := by
      rw [hcount]; rfl
    refine ⟨decoderHeaderCame_rest s.landed err f, fun j hj => decoderHeaderCame_entry_other hd' err f hj, fun bad => ?_,
      fun good more => ?_, fun good whole invalid => ?_, fun good whole valid full => ?_,
      fun good whole valid a rest fits noRuns => ?_⟩
    · rw [decoderHeaderCame_failed hd' (failed_true bad)]
      obtain ⟨entry, -, extents, decode, gone, retired, -⟩ := decodeFault_spec hl' 6 .memoryError
      rw [entry]
      exact ⟨⟨retired, decode, gone, extents.trans keeps⟩, rfl, rfl, rfl, rfl⟩
    · rw [decoderHeaderCame_more hd' (failed_false good) more]
      rfl
    all_goals rw [decoderHeaderCame_whole hd' (failed_false good) whole]
    · rw [decodeHeader_invalid invalid]
      obtain ⟨entry, -, extents, decode, gone, retired, -⟩ := decodeFault_spec hl' 1 .decodeFault
      rw [entry]
      exact ⟨⟨retired, decode, gone, extents.trans keeps⟩, rfl, rfl, rfl, rfl⟩
    · rw [decodeHeader_heapFull (s := s.landed) valid full]
      obtain ⟨entry, extents, decode, gone, retired⟩ := endLoad_setEntry_spec hl' (DirEntry.vacated
        { s.landed.entry d.id with width := nat16 (d.gather.feed f.data).got 2,
                                   height := nat16 (d.gather.feed f.data).got 4 }) .heapFull 0
      rw [entry]
      exact ⟨⟨retired, decode, gone, extents⟩, vacated_spec _⟩
    · rw [decodeHeader_allocates (s := s.landed) valid fits, decodeNext_reads (by simp [noRuns, runsTotal]) rfl]
      exact ⟨rfl, rfl, setEntry_entry_self s _ _, rfl, rfl⟩

/-! ### The decoder's bursts of code and pixels (O26): R12, R15 to R17 -/

theorem decoderCodeCame_rest (s : State) (e f) : s.decoderCodeCame e f =
    { s with heap := (s.decoderCodeCame e f).heap, walker := (s.decoderCodeCame e f).walker,
             port := (s.decoderCodeCame e f).port } :=
  eq_of_frame (by simp [Kept]) (by simp) (by simp [SamePlanes]) (by simp [SameShow]) (by simp [SameNotes]) (by simp) (by simp)

theorem decoderWrote_rest (s : State) (e f) : s.decoderWrote e f =
    { s with heap := (s.decoderWrote e f).heap, walker := (s.decoderWrote e f).walker,
             port := (s.decoderWrote e f).port } :=
  eq_of_frame (by simp [Kept]) (by simp) (by simp [SamePlanes]) (by simp [SameShow]) (by simp [SameNotes]) (by simp) (by simp)

/-- The end of a burst changes the port, and may leave bytes of memory unknown (R120). -/
theorem land_rest (f : Flight) (err : Bool) (s : State) :
    ∃ m n, s.land f err = { s.landed with mem := m, free := n } := by
  unfold State.land
  dsimp only
  split <;> exact ⟨_, _, rfl⟩

/-- A code that has been decoded leaves the load and the stage. -/
theorem decodeOne_keeps {d x : Decode} (h : decodeOne d = .ran x ∨ ∃ short, decodeOne d = .ended x short) :
    x.id = d.id ∧ x.stage = d.stage := by
  have ran : ∀ n used runs, CodeStep.ran (d.afterRun n used runs) = .ran x → x.id = d.id ∧ x.stage = d.stage := by
    intro n used runs hx
    cases hx
    exact ⟨rfl, rfl⟩
  rcases h with h | ⟨short, h⟩ <;> unfold decodeOne at h <;> dsimp only at h <;> repeat' split at h
  all_goals first | exact ran _ _ _ h | cases h
  exact ⟨rfl, rfl⟩

theorem decodeLoop_keeps (n : Nat) (d : Decode) : (decodeLoop n d).1.id = d.id ∧ (decodeLoop n d).1.stage = d.stage := by
  induction n generalizing d with
  | zero => exact ⟨rfl, rfl⟩
  | succ n ih =>
    unfold decodeLoop
    split
    · next x h =>
      have one := decodeOne_keeps (.inl h)
      exact ⟨(ih x).1.trans one.1, (ih x).2.trans one.2⟩
    · exact ⟨rfl, rfl⟩
    · exact ⟨rfl, rfl⟩
    · next x short h => exact decodeOne_keeps (.inr ⟨short, h⟩)

section
variable {s : State} {d : Decode}

theorem decodeBytes_fault {k : Nat} (h : (decodeLoop (d.code.length + 1) d).2 = .fault k) :
    s.decodeBytes d = s.decodeFault d.id k .decodeFault := by
  rw [State.decodeBytes, ← Prod.mk.eta (p := decodeLoop (d.code.length + 1) d), h]

theorem decodeBytes_ended {x : Decode} {short : Bool} (h : (decodeLoop (d.code.length + 1) d).2 = .ended x short) :
    s.decodeBytes d = s.decodeNext { (decodeLoop (d.code.length + 1) d).1 with stage := .finish short } := by
  rw [State.decodeBytes, ← Prod.mk.eta (p := decodeLoop (d.code.length + 1) d), h]

theorem decodeBytes_need (h : (decodeLoop (d.code.length + 1) d).2 = .need) :
    s.decodeBytes d = s.decodeNext (decodeLoop (d.code.length + 1) d).1 := by
  rw [State.decodeBytes, ← Prod.mk.eta (p := decodeLoop (d.code.length + 1) d), h]

end

/-- While codes are left to come, what the decoder does next ends no load. -/
theorem decodeNext_streams (s : State) {d : Decode} (stage : d.stage = .stream) :
    (s.decodeNext d).walker = s.walker ∧ (∀ i, (s.decodeNext d).entry i = s.entry i)
      ∧ (s.decodeNext d).heap.extents = s.heap.extents := by
  by_cases many : 64 ≤ runsTotal d.runs
  · rw [decodeNext_writes many]
    exact ⟨rfl, fun _ => rfl, rfl⟩
  · rw [decodeNext_reads (Nat.lt_of_not_le many) stage]
    exact ⟨rfl, fun _ => rfl, rfl⟩

/-- The state at the end of the decoder's burst: the port is free, and bytes of memory may have become unknown. -/
def State.ended (s : State) (m : Mem) (n : Nat) : State := { s.landed with mem := m, free := n }

section
variable {s : State} {d : Decode} {l : Load} (hl : s.loadOf d.id = some l) (m : Mem) (n : Nat)
include hl

theorem ended_faults (code : Nat) (o : TaskOutcome) : let t := (s.ended m n).decodeFault d.id code o
    (t.entry d.id).state = .faulted ∧ (t.entry d.id).fault = code ∧ (t.entry d.id).hasData = false
      ∧ (t.entry d.id).count = 0 ∧ (t.entry d.id).useCount = (s.entry d.id).useCount
      ∧ t.heap.extents = extRelease (s.entry d.id).offset (s.entry d.id).count s.heap.extents ∧ t.heap.decode = none
      ∧ t.loadOf d.id = none
      ∧ t.walker.retiring = s.walker.retiring ++ [s.retirement l.task o (BitVec.ofNat 8 code) []] := by
  obtain ⟨entry, -, extents, decode, gone, retired, -⟩ := decodeFault_spec (s := s.ended m n) hl code o
  dsimp only
  rw [entry]
  exact ⟨rfl, rfl, rfl, rfl, rfl, extents, decode, gone, retired⟩

theorem ended_readies {x : Decode} (hx : x.id = d.id) (few : runsTotal x.runs < 64) {short : Bool}
    (stage : x.stage = .finish short) : let t := (s.ended m n).decodeNext x
    t.entry d.id = { s.entry d.id with state := .ready, hasData := true, short := short, loadTask := none }
      ∧ t.heap.decode = none ∧ t.loadOf d.id = none
      ∧ t.walker.retiring
        = s.walker.retiring ++ [s.retirement l.task (if short then .doneShort else .done) 0 []] := by
  dsimp only
  rw [decodeNext_done few stage, hx]
  obtain ⟨entry, -, decode, gone, retired⟩ := endLoad_setEntry_spec (s := s.ended m n) hl
    { s.entry d.id with state := .ready, hasData := true, short := short, loadTask := none }
    (if short then .doneShort else .done) 0
  exact ⟨entry, decode, gone, retired⟩

omit hl in
theorem ended_writes {x : Decode} (hx : x.id = d.id) (many : 64 ≤ runsTotal x.runs) :
    let t := (s.ended m n).decodeNext x
    ∃ b, t.port.decReq = some b ∧ b.user = .decPixels
      ∧ b.block = s.heapBase + 64 * ((s.entry d.id).offset + x.written) ∧ b.sel = some (selFrom 0 (takeRuns 64 x.runs).1)
      ∧ t.heap.decode = some { x with runs := (takeRuns 64 x.runs).2, written := x.written + 1 } := by
  dsimp only
  rw [decodeNext_writes many, hx]
  exact ⟨_, rfl, rfl, rfl, rfl, rfl⟩

end

theorem exec_decoderReadComplete {s : State} {f : Flight} (hl : s.LandingRead f .decCode) (err : Bool) :
    exec (.decoderReadComplete err) s = .next ((s.ended s.mem s.free).decoderCodeCame err f) :=
  congrArg _ (landingRead_complete hl (fun u => decide (u = .decCode)) (decide_eq_true rfl) err _)

/-- The completion of a burst whose end is wanted: bytes of memory become unknown only with a granted write that fails (R120). -/
theorem complete_ended {s : State} {f : Flight} (hf : s.Landing f) (wants : User → Bool) (hu : wants f.burst.user = true)
    (err : Bool) (k : Flight → State → State) : ∃ m n, s.complete wants err k = k f (s.ended m n)
      ∧ (f.refused = true ∨ err = false → m = s.mem ∧ n = s.free) := by
  have hc := complete_wanted wants err k s f hf.1 hu hf.2
  obtain ⟨m, n, hland⟩ := land_rest f err s
  by_cases known : f.refused = true ∨ err = false
  · have hk : s.land f err = s.ended s.mem s.free := land_eq f err s (.inr known.symm)
    exact ⟨_, _, hc.trans (by rw [hk]), fun _ => ⟨rfl, rfl⟩⟩
  · exact ⟨m, n, hc.trans (by rw [hland]; rfl), fun h => absurd h known⟩

/-- Settles O26: each completion by whether its burst failed, then by what the codes or the runs give. -/
theorem decoderBurstsFaultWriteOrComplete : Obligations.DecoderBurstsFaultWriteOrComplete := by
  intro s err f d l landing hd hl
  have failed_of : f.refused = true ∨ err = true → f.failed err = true := by
    rintro (h | h) <;> simp [Flight.failed, h]
  refine ⟨fun hu hr => ?_, fun hu => ?_⟩
  · refine ⟨_, exec_decoderReadComplete ⟨landing, hu, hr⟩ err, ?_⟩
    have came : (s.ended s.mem s.free).decoderCodeCame err f =
        if f.failed err then (s.ended s.mem s.free).decodeFault d.id 6 .memoryError
        else (s.ended s.mem s.free).decodeBytes (d.feed f.data) := by
      simp only [State.decoderCodeCame, State.ended, landed_fields, hd]
    refine ⟨decoderCodeCame_rest (s.ended s.mem s.free) err f, fun bad => ?_, fun h1 h2 => ?_⟩
    · rw [came, if_pos (failed_of bad)]
      exact ended_faults hl _ _ 6 .memoryError
    rw [came, if_neg (by simp [failed_false ⟨h1, h2⟩])]
    obtain ⟨hid, hstage⟩ := decodeLoop_keeps ((d.feed f.data).code.length + 1) (d.feed f.data)
    refine ⟨fun k hk => ?_, fun x short hx few same => ?_, fun x short hx many same => ?_, fun hn stage => ?_⟩
    · rw [decodeBytes_fault hk]
      exact ended_faults hl _ _ k .decodeFault
    · rw [decodeBytes_ended hx]
      exact ended_readies hl _ _ (x := { (decodeLoop _ _).1 with stage := .finish short }) same few rfl
    · rw [decodeBytes_ended hx]
      exact ended_writes _ _ (x := { (decodeLoop _ _).1 with stage := .finish short }) same many
    · rw [decodeBytes_need hn]
      obtain ⟨walker, entry, extents⟩ := decodeNext_streams (s.ended s.mem s.free) (hstage.trans stage)
      refine ⟨walker, entry d.id, extents, ended_writes _ _ hid, fun few => ?_⟩
      rw [decodeNext_reads few (hstage.trans stage)]
      exact ⟨rfl, rfl⟩
  · obtain ⟨m, n, he, known⟩ := complete_ended landing (fun u => decide (u = .decPixels)) (decide_eq_true hu) err
      (State.decoderWrote err)
    refine ⟨_, congrArg Host.Outcome.next he, ?_⟩
    have wrote : (s.ended m n).decoderWrote err f =
        if f.failed err then (s.ended m n).decodeFault d.id 6 .memoryError else (s.ended m n).decodeNext d := by
      simp only [State.decoderWrote, State.ended, landed_fields, hd]
    have rest := decoderWrote_rest (s.ended m n) err f
    have memory : ((s.ended m n).decoderWrote err f).mem = m ∧ ((s.ended m n).decoderWrote err f).free = n :=
      ⟨congrArg (·.mem) rest, congrArg (·.free) rest⟩
    refine ⟨?_, fun h => ?_, fun bad => ?_, fun h1 h2 => ?_⟩
    · rw [memory.1, memory.2]
      exact rest
    · rw [memory.1, memory.2]
      exact known h
    · rw [wrote, if_pos (failed_of bad)]
      exact ended_faults hl _ _ 6 .memoryError
    rw [wrote, if_neg (by simp [failed_false ⟨h1, h2⟩])]
    refine ⟨ended_writes _ _ rfl, fun few short stage => ended_readies hl _ _ rfl few stage, fun few stage => ?_⟩
    rw [decodeNext_reads few stage]
    exact ⟨_, rfl, rfl, rfl, rfl⟩

end Sys2Proof.Machine

/-! ## The items of a page definition (O35): R6, R46, R47, R51, R52 -/

namespace Sys2Proof.Machine

/-! ### What is asked of an item, in the definition's bytes -/

/-- R51 of the placement numbered `i`. -/
def Placed (b : List Byte) (i : Nat) : Prop :=
  (placementAt b (16 + 16 * i)).pal ≤ 7
    ∧ -4096 ≤ (placementAt b (16 + 16 * i)).x ∧ (placementAt b (16 + 16 * i)).x ≤ 4095
    ∧ -4096 ≤ (placementAt b (16 + 16 * i)).y ∧ (placementAt b (16 + 16 * i)).y ≤ 4095

/-- The offset of the button numbered `j`, after `np` placements. -/
def buttonOffset (np j : Nat) : Nat := 16 + 16 * np + 80 * j

/-- An action item that is accepted. -/
def ActionOk (b : List Byte) (o : Nat) : Prop := nat8 b o ≤ 3 ∧ (nat8 b o = 3 → nat8 b (o + 4) < 6)

/-- R52 of the button numbered `j`. -/
def Pressed (b : List Byte) (np nb j : Nat) : Prop :=
  nat8 b (buttonOffset np j) < np ∧ (∀ k, k < j → nat8 b (buttonOffset np k) ≠ nat8 b (buttonOffset np j))
    ∧ (nat8 b (buttonOffset np j + 1) < nb ∨ nat8 b (buttonOffset np j + 1) = 255)
    ∧ (nat8 b (buttonOffset np j + 2) < nb ∨ nat8 b (buttonOffset np j + 2) = 255)
    ∧ (nat8 b (buttonOffset np j + 3) < nb ∨ nat8 b (buttonOffset np j + 3) = 255)
    ∧ (nat8 b (buttonOffset np j + 4) < nb ∨ nat8 b (buttonOffset np j + 4) = 255)
    ∧ nat8 b (buttonOffset np j + 5) ≤ 99
    ∧ (nat8 b (buttonOffset np j + 5) ≠ 0 →
        ∀ k, k < j → nat8 b (buttonOffset np k + 5) ≠ nat8 b (buttonOffset np j + 5))
    ∧ word32 b (buttonOffset np j + 12) &&& ~~~word32 b (buttonOffset np j + 8) = 0
    ∧ ActionOk b (buttonOffset np j + 16) ∧ ActionOk b (buttonOffset np j + 24)
    ∧ ¬ (nat8 b (buttonOffset np j + 16) = 3 ∧ nat8 b (buttonOffset np j + 24) = 3)

/-! ### The fields as they are read -/

theorem placementValid_iff (b : List Byte) (i : Nat) : placementValid (placementAt b (16 + 16 * i)) = true ↔ Placed b i :=
  decide_eq_true_iff

theorem actionAt_isSome_iff (b : List Byte) (o : Nat) : (actionAt b o).isSome = true ↔ ActionOk b o := by
  unfold actionAt ActionOk
  split
  · next h => simp [h]
  · next h => simp [h]
  · next h => simp [h]
  · next h => by_cases slot : nat8 b (o + 4) < 6 <;> simp [h, slot]
  · next h0 h1 h2 h3 =>
    simp only [imp_false] at h0 h1 h2 h3
    have above : ¬ nat8 b o ≤ 3 := by omega
    simp [above]

theorem actionAt_isJump {b : List Byte} {o : Nat} {a : Action} (h : actionAt b o = some a) :
    a.isJump = true ↔ nat8 b o = 3 := by
  unfold actionAt at h
  split at h
  · next h0 => cases h; simp [Action.isJump, h0]
  · next h1 => cases h; simp [Action.isJump, h1]
  · next h2 => cases h; simp [Action.isJump, h2]
  · next h3 =>
    split at h
    · cases h; simp [Action.isJump, h3]
    · cases h
  · cases h

theorem buttonAt_isSome_iff (b : List Byte) (o : Nat) :
    (buttonAt b o).isSome = true ↔ ActionOk b (o + 16) ∧ ActionOk b (o + 24) := by
  rw [← actionAt_isSome_iff, ← actionAt_isSome_iff, buttonAt]
  cases actionAt b (o + 16) <;> cases actionAt b (o + 24) <;> simp

/-- The fields of an accepted button that R52 speaks of. -/
theorem buttonAt_fields {b : List Byte} {o : Nat} {t : Button} (h : buttonAt b o = some t) :
    t.placement = nat8 b o ∧ t.up = nat8 b (o + 1) ∧ t.down = nat8 b (o + 2) ∧ t.left = nat8 b (o + 3)
      ∧ t.right = nat8 b (o + 4) ∧ t.number = nat8 b (o + 5) ∧ t.mask = word32 b (o + 8) ∧ t.value = word32 b (o + 12)
      ∧ (t.act1.isJump = true ↔ nat8 b (o + 16) = 3) ∧ (t.act2.isJump = true ↔ nat8 b (o + 24) = 3) := by
  unfold buttonAt at h
  split at h
  · next h1 h2 =>
    cases h
    exact ⟨rfl, rfl, rfl, rfl, rfl, rfl, rfl, rfl, actionAt_isJump h1, actionAt_isJump h2⟩
  · cases h

/-! ### Buttons one after another -/

/-- The buttons before the one numbered `j`, read. -/
def ReadSoFar (b : List Byte) (np j : Nat) (acc : List Button) : Prop :=
  acc.map some = (List.range j).map fun k => buttonAt b (buttonOffset np k)

theorem ReadSoFar.nil (b : List Byte) (np : Nat) : ReadSoFar b np 0 [] := rfl

theorem ReadSoFar.snoc {b : List Byte} {np j : Nat} {acc : List Button} (h : ReadSoFar b np j acc) {t : Button}
    (ht : buttonAt b (buttonOffset np j) = some t) : ReadSoFar b np (j + 1) (acc ++ [t]) := by
  rw [ReadSoFar] at h ⊢
  rw [List.map_append, h, List.range_succ, List.map_append, List.map_singleton, List.map_singleton, ht]

theorem ReadSoFar.length {b : List Byte} {np j : Nat} {acc : List Button} (h : ReadSoFar b np j acc) : acc.length = j := by
  simpa using congrArg List.length h

theorem ReadSoFar.getElem {b : List Byte} {np j : Nat} {acc : List Button} (h : ReadSoFar b np j acc) (k : Nat)
    (hk : k < acc.length) : buttonAt b (buttonOffset np k) = some acc[k] := by
  have hj : k < j := h.length ▸ hk
  have := congrArg (fun l => l[k]?) h
  simpa [hk, hj] using this.symm

/-- What holds of every button read so far is what holds of each number below. -/
theorem ReadSoFar.forall_iff {b : List Byte} {np j : Nat} {acc : List Button} (h : ReadSoFar b np j acc)
    {P : Button → Prop} {Q : Nat → Prop} (same : ∀ k t, buttonAt b (buttonOffset np k) = some t → (P t ↔ Q k)) :
    (∀ e ∈ acc, P e) ↔ ∀ k, k < j → Q k := by
  have len := h.length
  rw [List.forall_mem_iff_forall_getElem]
  exact ⟨fun all k hk => (same k _ (h.getElem k (by omega))).mp (all k (by omega)),
    fun all k hk => (same k _ (h.getElem k hk)).mpr (all k (by omega))⟩

theorem linkValid_iff (n l : Nat) : linkValid n l = true ↔ l < n ∨ l = 255 := decide_eq_true_iff

theorem buttonValid_iff {b : List Byte} {np j : Nat} {acc : List Button} (h : ReadSoFar b np j acc) {t : Button}
    (ht : buttonAt b (buttonOffset np j) = some t) (nb : Nat) : buttonValid np nb acc t = true ↔ Pressed b np nb j := by
  obtain ⟨ok1, ok2⟩ := (buttonAt_isSome_iff b (buttonOffset np j)).mp (by simp [ht])
  obtain ⟨placement, up, down, left, right, number, mask, value, jump1, jump2⟩ := buttonAt_fields ht
  have distinct : (∀ e ∈ acc, e.placement ≠ t.placement)
      ↔ ∀ k, k < j → nat8 b (buttonOffset np k) ≠ nat8 b (buttonOffset np j) :=
    h.forall_iff fun k e he => by rw [(buttonAt_fields he).1, placement]
  have numbers : (∀ e ∈ acc, e.number ≠ t.number)
      ↔ ∀ k, k < j → nat8 b (buttonOffset np k + 5) ≠ nat8 b (buttonOffset np j + 5) :=
    h.forall_iff fun k e he => by rw [(buttonAt_fields he).2.2.2.2.2.1, number]
  have numberOk : (t.number = 0 ∨ t.number ≤ 99 ∧ ∀ e ∈ acc, e.number ≠ t.number)
      ↔ t.number ≤ 99 ∧ (t.number ≠ 0 → ∀ e ∈ acc, e.number ≠ t.number) := by
    by_cases zero : t.number = 0 <;> simp [zero]
  have jumps : (!(t.act1.isJump && t.act2.isJump)) = true
      ↔ ¬ (nat8 b (buttonOffset np j + 16) = 3 ∧ nat8 b (buttonOffset np j + 24) = 3) := by
    rw [← jump1, ← jump2]
    cases t.act1.isJump <;> simp
  have checks : buttonValid np nb acc t = true ↔ t.placement < np ∧ (∀ e ∈ acc, e.placement ≠ t.placement)
      ∧ (t.up < nb ∨ t.up = 255) ∧ (t.down < nb ∨ t.down = 255) ∧ (t.left < nb ∨ t.left = 255)
      ∧ (t.right < nb ∨ t.right = 255) ∧ (t.number = 0 ∨ t.number ≤ 99 ∧ ∀ e ∈ acc, e.number ≠ t.number)
      ∧ t.value &&& ~~~t.mask = 0 ∧ (!(t.act1.isJump && t.act2.isJump)) = true := by
    simp only [buttonValid, Bool.and_eq_true, Bool.or_eq_true, decide_eq_true_eq, List.all_eq_true, linkValid_iff, and_assoc]
  rw [checks, numberOk, jumps, distinct, numbers, placement, up, down, left, right, number, mask, value, Pressed]
  simp only [ok1, ok2, true_and, and_assoc]

section
variable {b : List Byte} {np nb j : Nat} {acc : List Button} (h : ReadSoFar b np j acc) (n : Nat)
include h

theorem readButtons_accepts (ok : Pressed b np nb j) : ∃ t, buttonAt b (buttonOffset np j) = some t
    ∧ readButtons b np nb (n + 1) j acc = readButtons b np nb n (j + 1) (acc ++ [t]) := by
  have exists_ := (buttonAt_isSome_iff b (buttonOffset np j)).mpr ⟨ok.2.2.2.2.2.2.2.2.2.1, ok.2.2.2.2.2.2.2.2.2.2.1⟩
  obtain ⟨t, ht⟩ := Option.isSome_iff_exists.mp exists_
  refine ⟨t, ht, ?_⟩
  rw [readButtons, ← buttonOffset, ht]
  exact if_pos ((buttonValid_iff h ht nb).mpr ok)

theorem readButtons_refuses (bad : ¬ Pressed b np nb j) : readButtons b np nb (n + 1) j acc = .inl (33 + j) := by
  rw [readButtons, ← buttonOffset]
  cases ht : buttonAt b (buttonOffset np j) with
  | none => rfl
  | some t => exact if_neg fun v => bad ((buttonValid_iff h ht nb).mp v)

end

theorem readButtons_all {b : List Byte} {np nb : Nat} : ∀ (n : Nat) {j : Nat} {acc : List Button}, ReadSoFar b np j acc →
    (∀ k, k < n → Pressed b np nb (j + k)) →
    ∃ bs, readButtons b np nb n j acc = .inr bs ∧ ReadSoFar b np (j + n) bs
  | 0, _, acc, h, _ => ⟨acc, rfl, h⟩
  | n + 1, j, acc, h, ok => by
    obtain ⟨t, ht, step⟩ := readButtons_accepts h n (ok 0 (by omega))
    have later : ∀ k, k < n → Pressed b np nb (j + 1 + k) := fun k hk => by
      have := ok (k + 1) (by omega)
      rwa [Nat.add_right_comm]
    obtain ⟨bs, hbs, soFar⟩ := readButtons_all n (h.snoc ht) later
    exact ⟨bs, step.trans hbs, by rwa [Nat.add_right_comm] at soFar⟩

theorem readButtons_first {b : List Byte} {np nb : Nat} : ∀ (n : Nat) {j : Nat} {acc : List Button}, ReadSoFar b np j acc →
    ∀ k, k < n → ¬ Pressed b np nb (j + k) → (∀ m, m < k → Pressed b np nb (j + m)) →
    readButtons b np nb n j acc = .inl (33 + (j + k))
  | 0, _, _, _, _, hk, _, _ => absurd hk (Nat.not_lt_zero _)
  | n + 1, j, acc, h, 0, _, bad, _ => readButtons_refuses h n bad
  | n + 1, j, acc, h, k + 1, hk, bad, ok => by
    obtain ⟨t, ht, step⟩ := readButtons_accepts h n (ok 0 (by omega))
    have shift : ∀ m, j + 1 + m = j + (m + 1) := fun m => by omega
    rw [step, readButtons_first n (h.snoc ht) k (by omega) (by rwa [shift])
      (fun m hm => by rw [shift]; exact ok (m + 1) (by omega)), shift]

/-! ### Placements one after another -/

theorem readPlacements_all {b : List Byte} : ∀ (n : Nat) {i : Nat}, (∀ k, k < n → Placed b (i + k)) →
    readPlacements b n i = .inr ((List.range' i n).map fun k => placementAt b (16 + 16 * k))
  | 0, _, _ => rfl
  | n + 1, i, ok => by
    have later : ∀ k, k < n → Placed b (i + 1 + k) := fun k hk => by
      have := ok (k + 1) (by omega)
      rwa [Nat.add_right_comm]
    rw [readPlacements, if_pos ((placementValid_iff b i).mpr (ok 0 (by omega))), readPlacements_all n later]
    rfl

theorem readPlacements_first {b : List Byte} : ∀ (n : Nat) {i : Nat} (k : Nat), k < n → ¬ Placed b (i + k) →
    (∀ m, m < k → Placed b (i + m)) → readPlacements b n i = .inl (1 + (i + k))
  | 0, _, _, hk, _, _ => absurd hk (Nat.not_lt_zero _)
  | n + 1, i, 0, _, bad, _ => by
    rw [readPlacements, if_neg fun v => bad ((placementValid_iff b i).mp v), Nat.add_comm, Nat.add_zero]
  | n + 1, i, k + 1, hk, bad, ok => by
    have shift : ∀ m, i + 1 + m = i + (m + 1) := fun m => by omega
    rw [readPlacements, if_pos ((placementValid_iff b i).mpr (ok 0 (by omega))), readPlacements_first n k (by omega) (by rwa [shift])
      (fun m hm => by rw [shift]; exact ok (m + 1) (by omega)), shift]

/-! ### The whole definition -/

/-- All of a number of items pass, or there is a first that fails. -/
theorem all_or_first (n : Nat) (ok : Nat → Prop) :
    (∀ k, k < n → ok k) ∨ ∃ k, k < n ∧ ¬ ok k ∧ ∀ m, m < k → ok m := by
  classical
  by_cases all : ∀ k, k < n → ok k
  · exact .inl all
  · have exists_ : ∃ k, k < n ∧ ¬ ok k := by simpa using all
    obtain ⟨below, fails⟩ := Nat.find_spec exists_
    exact .inr ⟨Nat.find exists_, below, fails, fun m hm => by
      by_contra bad
      exact Nat.find_min exists_ hm ⟨by omega, bad⟩⟩

/-- The definition that the bytes give, with its buttons. -/
def pageOf (b : List Byte) (bs : List Button) : PageDef :=
  { kind := if nat8 b 0 = 1 then .menu else .slide, dflt := if nat8 b 3 = 255 then none else some (nat8 b 3),
    timeout := nat16 b 4, placements := (List.range (nat8 b 1)).map (fun i => placementAt b (16 + 16 * i)), buttons := bs }

/-- Which of the items decides, and what is read. -/
inductive PageRead (b : List Byte) : Sum Nat PageDef → Prop
  | placement (i : Nat) (below : i < nat8 b 1) (bad : ¬ Placed b i) (ok : ∀ k, k < i → Placed b k) : PageRead b (.inl (1 + i))
  | button (j : Nat) (placed : ∀ i, i < nat8 b 1 → Placed b i) (below : j < nat8 b 2)
      (bad : ¬ Pressed b (nat8 b 1) (nat8 b 2) j) (ok : ∀ k, k < j → Pressed b (nat8 b 1) (nat8 b 2) k) :
      PageRead b (.inl (33 + j))
  | whole (bs : List Button) (placed : ∀ i, i < nat8 b 1 → Placed b i)
      (pressed : ∀ j, j < nat8 b 2 → Pressed b (nat8 b 1) (nat8 b 2) j) (buttons : ReadSoFar b (nat8 b 1) (nat8 b 2) bs) :
      PageRead b (.inr (pageOf b bs))

theorem readPage_read (b : List Byte) : PageRead b (readPage b) := by
  rcases all_or_first (nat8 b 1) (Placed b) with placed | ⟨i, below, bad, ok⟩
  · have hp := readPlacements_all (b := b) (nat8 b 1) (i := 0) (by simpa using placed)
    rcases all_or_first (nat8 b 2) (Pressed b (nat8 b 1) (nat8 b 2)) with pressed | ⟨j, below, bad, ok⟩
    · obtain ⟨bs, hbs, read⟩ := readButtons_all (nat8 b 2) (ReadSoFar.nil b (nat8 b 1)) (by simpa using pressed)
      rw [Nat.zero_add] at read
      have page : readPage b = .inr (pageOf b bs) := by simp only [readPage, hp, hbs, pageOf, List.range_eq_range']
      rw [page]
      exact .whole bs placed pressed read
    · have hb := readButtons_first (nat8 b 2) (ReadSoFar.nil b (nat8 b 1)) j below (by simpa using bad) (by simpa using ok)
      have page : readPage b = .inl (33 + j) := by simp only [readPage, hp, hb, Nat.zero_add]
      rw [page]
      exact .button j placed below bad ok
  · have hp := readPlacements_first (nat8 b 1) (i := 0) i below (by simpa using bad) (by simpa using ok)
    have page : readPage b = .inl (1 + i) := by simp only [readPage, hp, Nat.zero_add]
    rw [page]
    exact .placement i below bad ok

/-- A definition that is read has passed all its checks. -/
theorem readPage_inr {b : List Byte} {d : PageDef} (h : readPage b = .inr d) :
    ∃ bs, d = pageOf b bs ∧ (∀ i, i < nat8 b 1 → Placed b i)
      ∧ (∀ j, j < nat8 b 2 → Pressed b (nat8 b 1) (nat8 b 2) j) ∧ ReadSoFar b (nat8 b 1) (nat8 b 2) bs := by
  have read := readPage_read b
  rw [h] at read
  cases read with
  | whole bs placed pressed buttons => exact ⟨bs, rfl, placed, pressed, buttons⟩

theorem readPage_accepts_iff (b : List Byte) : (∃ d, readPage b = .inr d) ↔
    (∀ i, i < nat8 b 1 → Placed b i) ∧ ∀ j, j < nat8 b 2 → Pressed b (nat8 b 1) (nat8 b 2) j := by
  constructor
  · rintro ⟨d, hd⟩
    obtain ⟨-, -, placed, pressed, -⟩ := readPage_inr hd
    exact ⟨placed, pressed⟩
  · rintro ⟨placed, pressed⟩
    generalize hr : readPage b = r
    cases hr ▸ readPage_read b with
    | placement i below bad ok => exact absurd (placed i below) bad
    | button j _ below bad ok => exact absurd (pressed j below) bad
    | whole bs => exact ⟨_, rfl⟩

theorem readPage_inl_iff (b : List Byte) (n : Nat) : readPage b = .inl n ↔
    (∃ i, i < nat8 b 1 ∧ n = 1 + i ∧ ¬ Placed b i ∧ ∀ k, k < i → Placed b k)
    ∨ ((∀ i, i < nat8 b 1 → Placed b i) ∧ ∃ j, j < nat8 b 2 ∧ n = 33 + j ∧ ¬ Pressed b (nat8 b 1) (nat8 b 2) j
        ∧ ∀ k, k < j → Pressed b (nat8 b 1) (nat8 b 2) k) := by
  constructor
  · intro h
    cases h ▸ readPage_read b with
    | placement i below bad ok => exact .inl ⟨i, below, rfl, bad, ok⟩
    | button j placed below bad ok => exact .inr ⟨placed, j, below, rfl, bad, ok⟩
  · rintro (⟨i, below, rfl, bad, ok⟩ | ⟨placed, j, below, rfl, bad, ok⟩)
    · have hp := readPlacements_first (nat8 b 1) (i := 0) i below (by simpa using bad) (by simpa using ok)
      simp only [readPage, hp, Nat.zero_add]
    · have hp := readPlacements_all (b := b) (nat8 b 1) (i := 0) (by simpa using placed)
      have hb := readButtons_first (nat8 b 2) (ReadSoFar.nil b (nat8 b 1)) j below (by simpa using bad) (by simpa using ok)
      simp only [readPage, hp, hb, Nat.zero_add]

/-! ### The named-id set -/

theorem once_nodup : ∀ (l acc : List Byte), acc.Nodup → (once acc l).Nodup
  | [], _, h => h
  | x :: xs, acc, h => by
    unfold once
    split
    · exact once_nodup xs acc h
    · next fresh => exact once_nodup xs _ (by simp [List.nodup_append, h]; exact fun a ha e => fresh (e ▸ ha))

theorem mem_once : ∀ (l acc : List Byte) (i : Byte), i ∈ once acc l ↔ i ∈ acc ∨ i ∈ l
  | [], _, _ => by simp [once]
  | x :: xs, acc, i => by
    unfold once
    split
    · next old =>
      rw [mem_once xs acc i, List.mem_cons]
      exact ⟨fun h => h.imp_right .inr, fun h => h.elim .inl (fun h => h.elim (fun e => .inl (e ▸ old)) .inr)⟩
    · rw [mem_once xs _ i, List.mem_append, List.mem_singleton, List.mem_cons, or_assoc]

theorem numbered_flatMap : ∀ (i : Nat) (l : List (List Byte)), (numbered i l).flatMap (·.2) = l.flatten
  | _, [] => rfl
  | i, x :: xs => by rw [numbered, List.flatMap_cons, numbered_flatMap (i + 1) xs, List.flatten_cons]

theorem mem_button_ids (t : Button) (i : Byte) : i ∈ t.ids ↔
    ∃ x, (x ∈ livePairs t.normal ∨ x ∈ livePairs t.selected ∨ x ∈ livePairs t.activated) ∧ x.1 = i := by
  simp [Button.ids, exists_or]

theorem mem_named (d : PageDef) (i : Byte) : i ∈ d.named ↔ (∃ p ∈ d.placements, p.obj = i) ∨ ∃ t ∈ d.buttons, i ∈ t.ids := by
  rw [PageDef.named, mem_once, PageDef.items, List.flatMap_append, numbered_flatMap, numbered_flatMap]
  simp [eq_comm]

/-! ### The rules of an accepted definition -/

section
variable {b : List Byte} {np nb : Nat} {bs : List Button} (read : ReadSoFar b np nb bs)
  (pressed : ∀ j, j < nb → Pressed b np nb j)
include read pressed

theorem buttons_obey (t : Button) (ht : t ∈ bs) : t.placement < np
    ∧ (t.up < bs.length ∨ t.up = 255) ∧ (t.down < bs.length ∨ t.down = 255)
    ∧ (t.left < bs.length ∨ t.left = 255) ∧ (t.right < bs.length ∨ t.right = 255)
    ∧ t.number ≤ 99 ∧ t.value &&& ~~~t.mask = 0 ∧ ¬ (t.act1.isJump = true ∧ t.act2.isJump = true) := by
  obtain ⟨j, hj, rfl⟩ := List.getElem_of_mem ht
  obtain ⟨placement, up, down, left, right, number, mask, value, jump1, jump2⟩ := buttonAt_fields (read.getElem j hj)
  rw [read.length] at hj ⊢
  obtain ⟨h0, -, h1, h2, h3, h4, h5, -, h8, -, -, h16⟩ := pressed j hj
  rw [placement, up, down, left, right, number, mask, value, jump1, jump2]
  exact ⟨h0, h1, h2, h3, h4, h5, h8, h16⟩

theorem buttons_distinct :
    bs.Pairwise fun x y => x.placement ≠ y.placement ∧ (y.number = 0 ∨ x.number ≠ y.number) := by
  rw [List.pairwise_iff_getElem]
  intro i j hi hj before
  obtain ⟨placement, -, -, -, -, number, -⟩ := buttonAt_fields (read.getElem i hi)
  obtain ⟨placement', -, -, -, -, number', -⟩ := buttonAt_fields (read.getElem j hj)
  obtain ⟨-, places, -, -, -, -, -, numbers, -⟩ := pressed j (read.length ▸ hj)
  rw [placement, placement', number, number']
  exact ⟨places i before, or_iff_not_imp_left.mpr fun h => numbers h i before⟩

end

/-- Settles O35: the items are checked in order, each against the bytes and the buttons read before it. -/
theorem acceptedPageObeysTheItemRules : Obligations.AcceptedPageObeysTheItemRules := by
  refine ⟨fun b d h => ?_, fun b => ⟨readPage_accepts_iff b, readPage_inl_iff b, fun d h => ?_⟩, fun d => ⟨?_, fun i => ?_⟩⟩
  · obtain ⟨bs, rfl, placed, pressed, read⟩ := readPage_inr h
    have places : (pageOf b bs).placements.length = nat8 b 1 := by simp [pageOf]
    refine ⟨places, read.length, ?_, ?_, buttons_distinct read pressed⟩
    · simp only [pageOf, List.forall_mem_map, List.mem_range]
      exact placed
    · rw [places]
      exact buttons_obey read pressed
  · obtain ⟨bs, rfl, -, -, read⟩ := readPage_inr h
    refine ⟨?_, rfl, rfl, rfl, read⟩
    by_cases menu : nat8 b 0 = 1 <;> simp [pageOf, menu]
  · exact once_nodup _ _ List.nodup_nil
  · simp only [mem_named, mem_button_ids]

end Sys2Proof.Machine

/-! ## Frame-start work goes on; the switch and the entry view (O30): R22, R34, R79 -/

namespace Sys2Proof.Machine

/-! ### The blocks go on -/

/-- Whatever the blocks do, the heap's own part is the entry view. -/
theorem advanceWork_heap (s : State) : s.advanceWork.heap = s.heapRun.heap := by
  simp [State.advanceWork]

/-- What frame-start work leaves alone, as the frames of its steps say it. -/
theorem eq_of_workFrame {s t : State} (kept : Kept t s)
    (blocks : t.compactor = s.compactor ∧ t.jump = s.jump ∧ t.attention = s.attention ∧ t.notices = s.notices
      ∧ t.palette = s.palette ∧ t.walker = s.walker)
    (port : t.port.flight = s.port.flight ∧ t.port.decReq = s.port.decReq ∧ t.port.compReq = s.port.compReq
      ∧ t.port.walkerQ = s.port.walkerQ)
    (heap : t.heap.dir = s.heap.dir ∧ t.heap.extents = s.heap.extents ∧ t.heap.loads = s.heap.loads
      ∧ t.heap.decode = s.heap.decode) :
    t = { s with
      heap := { s.heap with view := t.heap.view }, slots := t.slots, slide := t.slide, menu := t.menu
      drawnViews := t.drawnViews, nav := t.nav, composer := t.composer, stats := t.stats, work := t.work
      port := { s.port with lfReq := t.port.lfReq } } := by
  obtain ⟨h1, h2, h3, h4, h5, h6, h7, h8⟩ := kept
  obtain ⟨h9, h10, h11, h12, h13, h14⟩ := blocks
  obtain ⟨h15, h16, h17, h18⟩ := port
  obtain ⟨h19, h20, h21, h22⟩ := heap
  obtain ⟨_, _, _, _, _, _, ⟨_, _, _, _, _⟩, _, _, _, _, _, _, _, _, ⟨_, _, _, _, _, _, _⟩, _, _, _, _, _, _⟩ := t
  simp only at *
  subst_vars
  rfl

/-- What the blocks change as they go on. -/
theorem advanceWork_rest (s : State) : s.advanceWork = { s with
    heap := { s.heap with view := s.advanceWork.heap.view }
    slide := s.advanceWork.slide, menu := s.advanceWork.menu, drawnViews := s.advanceWork.drawnViews
    nav := s.advanceWork.nav, composer := s.advanceWork.composer, stats := s.advanceWork.stats
    work := s.advanceWork.work, port := { s.port with lfReq := s.advanceWork.port.lfReq } } := by
  have slots : s.advanceWork.slots = s.slots := by simp
  refine (eq_of_workFrame (s := s) (t := s.advanceWork) (by simp [Kept]) (by simp) (by simp) (by simp)).trans ?_
  rw [slots]

/-- The entry view that is to be taken is taken, unless a switch is due (R22, R34). -/
theorem advanceWork_takes {s : State} (due : s.work.heap = true) (noSwitch : s.compactor.phase ≠ .switchPending) :
    s.advanceWork.heap = { s.heap with view := some (s.heap.dir.map DirEntry.view) } := by
  rw [advanceWork_heap, State.heapRun, if_pos ⟨due, noSwitch⟩]
  rfl

theorem advanceWork_heap_done {s : State} (h : s.work.heap = true → s.compactor.phase ≠ .switchPending) :
    s.advanceWork.work.heap = false := by
  rw [Bool.eq_false_iff]
  intro left
  obtain ⟨due, switch⟩ := (advanceWork_advanced s).heap left
  exact h due switch

/-- Once the entry view is taken, both planes have begun. -/
theorem advanceWork_begins {s : State} (h : s.work.heap = true → s.compactor.phase ≠ .switchPending) :
    s.advanceWork.work.slide ≠ .begin ∧ s.advanceWork.work.menu ≠ .begin :=
  have begun := (advanceWork_advanced s).planes (advanceWork_heap_done h)
  ⟨begun .slide, begun .menu⟩

/-- At a frame start with a switch due every block waits for OFFSET_SWITCH. -/
theorem advanceWork_waits {s : State} (due : s.work.heap = true) (switch : s.compactor.phase = .switchPending)
    (slide : s.work.slide = .begin) (menu : s.work.menu = .begin) : s.advanceWork = s := by
  have h1 : s.heapRun = s := by simp [State.heapRun, switch]
  have h2 (p) : s.planeRun p = s := by simp [State.planeRun, due]
  have h3 : s.noteViews = s := by simp only [State.noteViews, slide]
  have h4 : s.navRunIf = s := by cases nav : s.work.nav <;> simp only [State.navRunIf, nav, menu]
  have h5 : s.compRunIf = s := if_neg fun h => by simp [h] at due
  simp only [State.advanceWork, h1, h2, h3, h4, h5]

theorem objView_of_view {t : State} (h : t.heap.view = some (t.heap.dir.map DirEntry.view)) (i : Byte) :
    t.objView i = some (t.entry i).view := by
  simp [State.objView, h, State.entry, Vector.get]

/-! ### The switch (R34) -/

/-- A move's end changes the compactor alone, and keeps its low mark and its counts (R39). -/
theorem scanAgain_spec (s : State) : s.scanAgain = { s with compactor := s.scanAgain.compactor }
    ∧ s.scanAgain.compactor.low = s.compactor.low ∧ s.scanAgain.compactor.moved = s.compactor.moved
    ∧ s.scanAgain.compactor.skipped = s.compactor.skipped ∧ s.scanAgain.compactor.phase ≠ .switchPending := by
  rw [scanAgain_phase]
  refine ⟨rfl, ?_, ?_, ?_, ?_⟩
  case refine_4 => split <;> simp
  all_goals unfold State.scanAgain; dsimp only; split <;> simp

/-- Where the regions stand, and the low mark, decide whether any remains. -/
theorem regionRemains_congr {s t : State} (dir : t.heap.dir = s.heap.dir) (low : t.compactor.low = s.compactor.low) :
    t.RegionRemains = s.RegionRemains := by
  simp only [State.RegionRemains, entry_congr dir, low]

/-- A move that ends is told by the compactor and the regions. -/
theorem scansOn_of_scanAgain {s u t : State} (run : u.run = s.run) (compactor : t.compactor = u.scanAgain.compactor)
    (dir : t.heap.dir = u.heap.dir) : s.ScansOn t t.RegionRemains := by
  have on := scanAgain_scansOn u
  rw [← regionRemains_congr (t := t) (s := u.scanAgain) dir (congrArg (·.low) compactor)] at on
  unfold State.ScansOn at on ⊢
  rwa [run, ← compactor] at on

/-- The state at the switch, but for what the compactor does next. -/
def State.switched (m : Move) (s : State) : State := { s with
  heap := { s.heap with
    dir := s.heap.dir.set m.id.toNat { s.entry m.id with offset := m.dst, moving := none }
    extents := extRelease (max m.src (m.dst + m.count)) (m.src + m.count - max m.src (m.dst + m.count)) s.heap.extents }
  compactor := { s.compactor with low := m.dst + m.count, moved := s.compactor.moved + 1 } }

theorem applySwitch_eq {s : State} {m : Move} (phase : s.compactor.phase = .switchPending) (move : s.compactor.move = some m) :
    s.applySwitch = (s.switched m).scanAgain := by
  simp only [State.applySwitch, phase, move]
  rfl

theorem switchStep_eq {s : State} (due : s.work.heap = true) (phase : s.compactor.phase = .switchPending) :
    s.switchStep = s.applySwitch.viewTaken.advanceWork := if_pos ⟨due, phase⟩

/-! ### The entry view (R22) -/

theorem view_drawable (e : DirEntry) :
    e.view.drawable = true ↔ e.state = .ready ∨ (e.state = .releasing ∧ e.hasData = true) := by
  simp [DirEntry.view]

theorem view_blocking (e : DirEntry) : e.view.blocking = true ↔
    e.state = .empty ∨ e.state = .queued ∨ e.state = .loading ∨ ∃ m, e.moving = some m ∧ m.overlap = true := by
  cases moving : e.moving <;> simp [DirEntry.view, moving, or_assoc]

theorem view_size (e : DirEntry) : (e.view.drawable = true → e.view.width = e.width ∧ e.view.height = e.height)
    ∧ (e.view.drawable = false → e.view.width = 0 ∧ e.view.height = 0) := by
  have size : e.view.width = (if e.view.drawable then e.width else 0)
      ∧ e.view.height = if e.view.drawable then e.height else 0 := ⟨rfl, rfl⟩
  rw [size.1, size.2]
  exact ⟨fun h => by simp [h], fun h => by simp [h]⟩

/-! ### An accepted frame start -/

/-- What the blocks start from: the drawn test made, the counts kept, every block's work outstanding. -/
theorem acceptFrame_eq (s : State) : ∃ x : State, s.acceptFrame = x.advanceWork ∧ x.heap = s.confirmMove.heap
    ∧ x.compactor = s.confirmMove.compactor.sawFrame ∧ x.slide = s.slide.unmarked ∧ x.menu = s.menu.unmarked
    ∧ x.work = s.workAtStart ∧ x.timer = s.timer.accepted ∧ x.jump = s.jump := by
  refine ⟨_, rfl, ?_, ?_, ?_, ?_, ?_, ?_, ?_⟩ <;> split <;> simp [State.workAtStart]

theorem sawFrame_phase (c : Compactor) : c.sawFrame.phase = c.phase := by
  unfold Compactor.sawFrame
  split <;> simp_all

theorem confirmMove_of_other {s : State} (h : s.compactor.phase ≠ .confirming) : s.confirmMove = s := by
  unfold State.confirmMove
  split
  · next phase _ => exact absurd phase h
  · rfl

/-- A drawn test brings no switch about. -/
theorem confirmMove_switch (s : State) :
    s.confirmMove.compactor.phase = .switchPending ↔ s.compactor.phase = .switchPending := by
  by_cases confirming : s.compactor.phase = .confirming
  · simp only [confirming, reduceCtorEq, iff_false]
    unfold State.confirmMove
    split
    · split
      · split
        · exact (scanAgain_spec _).2.2.2.2
        · exact CompactPhase.noConfusion
      · simp [confirming]
    · simp [confirming]
  · rw [confirmMove_of_other confirming]

/-- Settles O30: the switch is a move's end and a view taken; a frame start leaves both to it, or takes the view at once. -/
theorem switchAndEntryViewAtTheFrameStart : Obligations.SwitchAndEntryViewAtTheFrameStart := by
  refine ⟨fun s m due phase move => ?_, fun s i => ?_, fun s n accepts => ?_⟩
  · obtain ⟨rest, low, moved, skipped, noSwitch⟩ := scanAgain_spec (s.switched m)
    have step : s.switchStep = (s.switched m).scanAgain.viewTaken.advanceWork := by
      rw [switchStep_eq due phase, applySwitch_eq phase move]
    have frame := advanceWork_rest (s.switched m).scanAgain.viewTaken
    have done := advanceWork_heap_done (s := (s.switched m).scanAgain.viewTaken) (fun h => Bool.noConfusion h)
    have begun := advanceWork_begins (s := (s.switched m).scanAgain.viewTaken) (fun h => Bool.noConfusion h)
    have heap : (s.switched m).scanAgain.viewTaken.advanceWork.heap
        = { (s.switched m).heap with view := some ((s.switched m).heap.dir.map DirEntry.view) } := by
      rw [advanceWork_heap]
      rfl
    have compactor : (s.switched m).scanAgain.viewTaken.advanceWork.compactor = (s.switched m).scanAgain.compactor := by
      rw [frame]
      rfl
    have walker : (s.switched m).scanAgain.viewTaken.advanceWork.walker = s.walker := by
      rw [frame, State.viewTaken, rest]
      rfl
    refine ⟨_, congrArg Host.Outcome.next step, ?_⟩
    generalize (s.switched m).scanAgain.viewTaken.advanceWork = t at *
    have dir : t.heap.dir = (s.switched m).heap.dir := by rw [heap]
    have entry (j) : t.entry j = (s.switched m).entry j := entry_congr dir j
    have view (j) : t.objView j = some (t.entry j).view := objView_of_view (by rw [heap]) j
    have self : t.entry m.id = { s.entry m.id with offset := m.dst, moving := none } :=
      (entry m.id).trans (setEntry_entry_self s m.id _)
    refine ⟨self, fun j hj => (entry j).trans (setEntry_entry_other s m.id j _ hj), ?_, ?_, ?_, ?_,
      scansOn_of_scanAgain (u := s.switched m) rfl compactor dir, ?_, view, done, begun.1, begun.2, ?_⟩
    · rw [heap]
      rfl
    · rw [compactor, moved]
      rfl
    · rw [compactor, skipped]
      rfl
    · rw [compactor, low]
      rfl
    · rw [view, self]
    · rw [frame, State.viewTaken, rest]
      rfl
  · exact ⟨_, objView_of_view rfl i, view_drawable _, (view_size _).1, (view_size _).2, rfl, view_blocking _⟩
  · obtain ⟨x, step, heap, compactor, slide, menu, work, -, -⟩ := acceptFrame_eq (s.passTicks n)
    have dir : x.heap.dir = s.confirmMove.heap.dir := by
      rw [heap, confirmMove_passTicks]
      simp
    have phase : x.compactor.phase = .switchPending ↔ s.compactor.phase = .switchPending := by
      rw [compactor, sawFrame_phase, confirmMove_switch]
      simp
    have due : x.work.heap = true := by rw [work]; rfl
    refine ⟨_, x.advanceWork, rfl, (frameStart_accepts s n accepts).trans (congrArg _ step), fun noSwitch => ?_,
      fun switch => ?_⟩
    · have taken := advanceWork_takes due (fun h => noSwitch (phase.mp h))
      refine ⟨advanceWork_heap_done fun _ h => noSwitch (phase.mp h), fun i => ?_⟩
      have entry : x.advanceWork.entry i = s.confirmMove.entry i := entry_congr (by rw [taken]; exact dir) i
      rw [objView_of_view (by rw [taken]), entry]
    · rw [advanceWork_waits due (phase.mpr switch) (by rw [work]; rfl) (by rw [work]; rfl), heap, slide, menu, work,
        confirmMove_passTicks, confirmMove_of_other (by simp [switch])]
      simp [State.workAtStart, Plane.unmarked]

end Sys2Proof.Machine

/-! ## Moves: the drawn test and the copy (O29): R32, R33, R36 -/

namespace Sys2Proof.Machine

/-! ### The drawn test (R32) -/

theorem confirmMove_eq {s : State} {m : Move} (phase : s.compactor.phase = .confirming) (move : s.compactor.move = some m) :
    s.confirmMove = if s.compactor.frameSeen ∧ s.work.slide = .idle ∧ s.work.menu = .idle then
        if s.drawn m.id then s.withdraw m else s.beginCopy m
      else s := by
  simp only [State.confirmMove, phase, move]

/-- A withdrawn reservation, but for what the compactor does next. -/
def State.withdrawn (m : Move) (s : State) : State := { s with
  heap := { s.heap with
    dir := s.heap.dir.set m.id.toNat { s.entry m.id with moving := none }
    extents := extRelease m.dst (min m.count (m.src - m.dst)) s.heap.extents }
  compactor := { s.compactor with low := m.src + m.count, skipped := s.compactor.skipped + 1 } }

theorem withdraw_eq (s : State) (m : Move) : s.withdraw m = (s.withdrawn m).scanAgain := rfl

/-- A test that finds its views is made: none is left to be made. -/
theorem confirmMove_made {s : State} {m : Move} (phase : s.compactor.phase = .confirming) (move : s.compactor.move = some m)
    (ready : s.compactor.frameSeen = true ∧ s.work.slide = .idle ∧ s.work.menu = .idle) :
    s.confirmMove.compactor.phase ≠ .confirming := by
  rw [confirmMove_eq phase move, if_pos ready]
  split
  · rw [withdraw_eq, scanAgain_phase]
    split <;> exact CompactPhase.noConfusion
  · exact CompactPhase.noConfusion

/-- The drawn test has no part in whether a frame start is accepted. -/
theorem confirmMove_accepts {s : State} {n : Nat} (h : s.AcceptsFrame n) : s.confirmMove.AcceptsFrame n := by
  simpa [State.AcceptsFrame, State.active, State.interval] using h

theorem frameStart_confirmMove {s : State} {n : Nat} (h : s.AcceptsFrame n) :
    exec (.frameStart n) s = exec (.frameStart n) s.confirmMove := by
  rw [frameStart_accepts s n h, frameStart_accepts _ n (confirmMove_accepts h), acceptFrame_confirms, confirmMove_passTicks]

/-! ### The copy (R33, R36) -/

/-- The compaction's task retires with the results of R37, and the loads held back are free (R36). -/
theorem endCompaction_eq {s : State} {task : TaskRef} (h : s.compactor.task = some task) (o : TaskOutcome) (k : Nat) :
    s.endCompaction o k = { s with
      compactor := { s.compactor with phase := .idle, task := none, move := none, frameSeen := false, wasWaiting := false }
      heap := { s.heap with loads := s.heap.loads.map fun l => { l with held := false } }
      walker := { s.walker with retiring := s.walker.retiring ++ [s.retirement task o (BitVec.ofNat 8 k)
        (selFrom 16 (le32 (BitVec.ofNat 32 s.compactor.moved) ++ le32 (BitVec.ofNat 32 s.compactor.skipped)
          ++ le32 (BitVec.ofNat 32 (extLongest s.heap.extents))))] }
      port := { s.port with walkerQ := (s.endCompaction o k).port.walkerQ } } := by
  simp only [State.endCompaction, h]
  exact retire_eq _ _ _ _ _

/-- A move that met a memory error, its compaction not yet ended (R36). -/
def State.moveFailed (m : Move) (s : State) : State := { s with
  heap := { s.heap with
    dir := s.heap.dir.set m.id.toNat
      (if m.overlap then (s.entry m.id).spoiled else { s.entry m.id with moving := none })
    extents :=
      if m.overlap then
        extRelease (s.entry m.id).offset (s.entry m.id).count (extRelease m.dst (min m.count (m.src - m.dst)) s.heap.extents)
      else extRelease m.dst (min m.count (m.src - m.dst)) s.heap.extents } }

theorem compError_eq (s : State) (m : Move) : s.compError m = (s.moveFailed m).endCompaction .memoryError 6 := by
  unfold State.compError State.moveFailed
  cases m.overlap <;> rfl

theorem moveFailed_entry_self (s : State) (m : Move) : (s.moveFailed m).entry m.id =
    if m.overlap then (s.entry m.id).spoiled else { s.entry m.id with moving := none } := setEntry_entry_self s m.id _

theorem moveFailed_entry_other (s : State) (m : Move) {j : Byte} (hj : j ≠ m.id) : (s.moveFailed m).entry j = s.entry j :=
  setEntry_entry_other s m.id j _ hj

theorem spoiled_ready {e : DirEntry} (h : e.state = .ready) : e.spoiled = e.faultedWith 6 := by
  simp only [DirEntry.spoiled, h]

theorem spoiled_releasing {e : DirEntry} (h : e.state = .releasing) : e.spoiled = e.releasingBare := by
  simp only [DirEntry.spoiled, h]

section
variable {s : State} {m : Move} {f : Flight} {err : Bool} (move : s.compactor.move = some m)
include move

theorem compReadCame_eq : s.compReadCame err f = if f.failed err then s.compError m else s.compWrite m m.copied f.data := by
  simp only [State.compReadCame, move]

theorem compWrote_failed (bad : f.failed err = true) : s.compWrote err f = s.compError m := by
  simp only [State.compWrote, move, bad, if_true]

theorem compWrote_next (good : f.failed err = false) (more : m.copied + 1 < m.count) : s.compWrote err f =
    State.compRead { m with copied := m.copied + 1 } (m.copied + 1)
      { s with compactor := { s.compactor with move := some { m with copied := m.copied + 1 } } } := by
  simp only [State.compWrote, move, good, if_pos more, Bool.false_eq_true, if_false]

theorem compWrote_last (good : f.failed err = false) (last : m.count ≤ m.copied + 1) : s.compWrote err f =
    { s with compactor := { s.compactor with phase := .switchPending, move := some { m with copied := m.copied + 1 } } } := by
  simp only [State.compWrote, move, good, if_neg (Nat.not_lt.mpr last), Bool.false_eq_true, if_false]

end

/-- Settles O29: the drawn test by its outcomes, each completion by whether its burst failed and granules are left. -/
theorem movesAreConfirmedAndCopied : Obligations.MovesAreConfirmedAndCopied := by
  refine ⟨fun s m phase move => ⟨fun unready => ?_, fun ready clear => ?_, fun ready drawn => ?_⟩, fun s n accepts => ?_, ?_⟩
  · exact congrArg Host.Outcome.next ((confirmMove_eq phase move).trans (if_neg unready))
  · have begins : s.confirmMove = s.beginCopy m := by
      rw [confirmMove_eq phase move, if_pos ready, if_neg (by simp [clear])]
    exact ⟨_, congrArg Host.Outcome.next begins, rfl⟩
  · have withdraws : s.confirmMove = (s.withdrawn m).scanAgain := by
      rw [confirmMove_eq phase move, if_pos ready, if_pos drawn, withdraw_eq]
    obtain ⟨rest, low, moved, skipped, -⟩ := scanAgain_spec (s.withdrawn m)
    refine ⟨_, congrArg Host.Outcome.next withdraws, scanAgain_scansOn (s.withdrawn m), skipped, moved, low,
      setEntry_entry_self s m.id _, rfl, ?_⟩
    rw [rest]
    rfl
  · refine ⟨_, rfl, frameStart_confirmMove accepts, fun moving phase => ?_, by simp⟩
    obtain ⟨m, move⟩ := Option.ne_none_iff_exists'.mp moving
    by_contra seen
    rcases confirmMove_done s with same | done
    · rw [same] at phase seen
      rw [Bool.not_eq_false] at seen
      exact confirmMove_made phase move ⟨seen, by rw [accepts.1], by rw [accepts.1]⟩ (by rw [same]; exact phase)
    · exact done phase
  · intro s err f m task landing move hasTask fails
    have failed_of : f.refused = true ∨ err = true → f.failed err = true := by
      rintro (h | h) <;> simp [Flight.failed, h]
    have ends : ∀ mem free, fails ((s.ended mem free).compError m) := by
      intro mem free
      have e := endCompaction_eq (s := (s.ended mem free).moveFailed m) hasTask .memoryError 6
      rw [← compError_eq] at e
      generalize (s.ended mem free).compError m = t at e ⊢
      have entry (j) : t.entry j = ((s.ended mem free).moveFailed m).entry j := entry_congr (by rw [e]) j
      have self : t.entry m.id = if m.overlap then (s.entry m.id).spoiled else { s.entry m.id with moving := none } :=
        (entry m.id).trans (moveFailed_entry_self _ m)
      have extents : t.heap.extents = ((s.ended mem free).moveFailed m).heap.extents := by rw [e]
      have retired : t.walker.retiring = s.walker.retiring ++ [s.retirement task .memoryError 6
          (selFrom 16 (le32 (BitVec.ofNat 32 s.compactor.moved) ++ le32 (BitVec.ofNat 32 s.compactor.skipped)
            ++ le32 (BitVec.ofNat 32 (extLongest t.heap.extents))))] := by
        rw [extents, e]
        rfl
      refine ⟨by rw [e]; rfl, by rw [e], by rw [e], by rw [e], ⟨_, retired⟩, ⟨extents, ?_⟩, ?_, fun j hj => ?_, fun apart => ?_,
        fun shared ready => ?_, fun shared releasing => ?_⟩
      · rw [retired, extents]
        rfl
      · rw [e]
        simp
      · exact (entry j).trans (moveFailed_entry_other _ m hj)
      · rw [self, if_neg (by simp [apart])]
      · rw [self, if_pos shared, spoiled_ready ready]
        exact ⟨rfl, rfl, rfl, rfl, rfl, rfl, rfl, rfl⟩
      · rw [self, if_pos shared, spoiled_releasing releasing]
        exact ⟨rfl, rfl, rfl, rfl, rfl, rfl⟩
    refine ⟨fun hu hr => ⟨_, congrArg Host.Outcome.next (landingRead_complete ⟨landing, hu, hr⟩
      (fun u => decide (u = .compRead)) (decide_eq_true rfl) err (State.compReadCame err)), fun bad => ?_, fun h1 h2 => ?_⟩,
      fun hu => ?_⟩
    · rw [compReadCame_eq (s := s.landed) move, if_pos (failed_of bad)]
      exact ends s.mem s.free
    · rw [compReadCame_eq (s := s.landed) move, if_neg (by simp [failed_false ⟨h1, h2⟩])]
      rfl
    · obtain ⟨mem, free, he, known⟩ := complete_ended landing (fun u => decide (u = .compWrite)) (decide_eq_true hu) err
        (State.compWrote err)
      refine ⟨_, congrArg Host.Outcome.next he, fun bad => ?_, fun h1 h2 more => ?_, fun h1 h2 last => ?_⟩
      · rw [compWrote_failed (s := s.ended mem free) move (failed_of bad)]
        exact ends mem free
      · obtain ⟨rfl, rfl⟩ := known (.inr h2)
        rw [compWrote_next (s := s.ended s.mem s.free) move (failed_false ⟨h1, h2⟩) more]
        rfl
      · obtain ⟨rfl, rfl⟩ := known (.inr h2)
        rw [compWrote_last (s := s.ended s.mem s.free) move (failed_false ⟨h1, h2⟩) last]
        rfl

end Sys2Proof.Machine

/-! ## FREE OBJECT (O23): R18 to R20, R35 -/

namespace Sys2Proof.Machine

/-! ### The work that waited goes on -/

theorem workGoesOn_goesOn (u : State) : u.GoesOn u.workGoesOn := by
  refine ⟨fun h => if_neg ?_, fun due noSwitch => ?_⟩
  · rintro ⟨due, noSwitch⟩
    exact h.elim (fun h => by simp [h] at due) noSwitch
  · have goes : u.workGoesOn = u.advanceWork := if_pos ⟨due, noSwitch⟩
    have taken := advanceWork_takes due noSwitch
    have begun := advanceWork_begins fun _ => noSwitch
    rw [goes]
    refine ⟨advanceWork_heap_done fun _ => noSwitch, fun i => ?_, begun.1, begun.2, advanceWork_rest u⟩
    rw [objView_of_view (by rw [taken]), entry_congr (s := u) (by rw [taken])]

/-- Nothing differs but the heap, the compactor, the walker and the port. -/
theorem eq_of_frame_but_compactor {s t : State} (kept : Kept t s) (planes : SamePlanes t s) (view : SameShow t s)
    (notes : SameNotes t s) (palette : t.palette = s.palette) (nav : t.nav = s.nav) :
    t = { s with heap := t.heap, compactor := t.compactor, walker := t.walker, port := t.port } :=
  eq_of_frame (s := { s with compactor := t.compactor }) kept rfl planes view notes palette nav

theorem judgeFree_rest (s : State) (task : Task) : s.judgeFree task =
    { s with heap := (s.judgeFree task).heap, compactor := (s.judgeFree task).compactor,
             port := (s.judgeFree task).port, walker := (s.judgeFree task).walker } :=
  eq_of_frame_but_compactor (by simp [Kept]) (by simp [SamePlanes]) (by simp [SameShow]) (by simp [SameNotes]) (by simp) (by simp)

/-! ### A region given up (R4, R35) -/

section
variable {s : State} {i : Byte}

/-- An entry that no move is of gives up its region. -/
theorem emptyEntry_still (still : ∀ m, s.compactor.move = some m → m.id ≠ i) : s.emptyEntry i =
    (State.freeGranules (s.entry i).offset (s.entry i).count s).setEntry i (s.entry i).emptied := by
  unfold State.emptyEntry
  split
  · next m move => exact if_neg (still m move)
  · rfl

theorem emptyEntry_moving {m : Move} (move : s.compactor.move = some m) (hid : m.id = i) : s.emptyEntry i =
    ((State.freeGranules (s.entry i).offset (s.entry i).count (s.abandonMove m)).setEntry i (s.entry i).emptied).scanAgain := by
  simp only [State.emptyEntry, move, if_pos hid]

/-- The move in hand, if it is of the entry. -/
theorem moving_cases (s : State) (i : Byte) :
    (∃ m, s.compactor.move = some m ∧ m.id = i) ∨ ∀ m, s.compactor.move = some m → m.id ≠ i := by
  by_cases h : ∃ m, s.compactor.move = some m ∧ m.id = i
  · exact .inl h
  · exact .inr fun m move hid => h ⟨m, move, hid⟩

theorem emptyEntry_entry_self (s : State) (i : Byte) : (s.emptyEntry i).entry i = (s.entry i).emptied := by
  rcases moving_cases s i with ⟨m, move, hid⟩ | still
  · rw [emptyEntry_moving move hid]
    exact setEntry_entry_self _ i _
  · rw [emptyEntry_still still, setEntry_entry_self]

theorem emptyEntry_entry_other (s : State) {j : Byte} (hj : j ≠ i) : (s.emptyEntry i).entry j = s.entry j := by
  rcases moving_cases s i with ⟨m, move, hid⟩ | still
  · rw [emptyEntry_moving move hid]
    refine (setEntry_entry_other _ i j _ hj).trans (entry_congr ?_ j)
    simp
  · rw [emptyEntry_still still, setEntry_entry_other _ i j _ hj]
    rfl

theorem abandonMove_extents (s : State) (m : Move) :
    (s.abandonMove m).heap.extents = extRelease m.dst (min m.count (m.src - m.dst)) s.heap.extents := by
  simp [State.abandonMove, Move.outside]

theorem emptyEntry_extents_moving {m : Move} (move : s.compactor.move = some m) (hid : m.id = i) :
    (s.emptyEntry i).heap.extents = extRelease (s.entry i).offset (s.entry i).count
      (extRelease m.dst (min m.count (m.src - m.dst)) s.heap.extents) := by
  rw [emptyEntry_moving move hid, ← abandonMove_extents]
  simp

end

/-- Where the compactor stands, what it asks for and what it has under way tell that a move has been abandoned. -/
theorem abandonsMove_congr {s t u : State} {left : Prop} (h : s.AbandonsMove t left) (compactor : u.compactor = t.compactor)
    (compReq : u.port.compReq = t.port.compReq) (flight : u.port.flight = t.port.flight) : s.AbandonsMove u left := by
  unfold State.AbandonsMove State.ScansOn at h ⊢
  rwa [compactor, compReq, flight]

/-! ### A load that is cancelled (R19, R20) -/

/-- The decoder gives up the load of an object, if it is at work on it. -/
def State.stopDecoder (i : Byte) (s : State) : State :=
  if s.heap.decode.any (fun d => decide (d.id = i)) then
    State.dropFlight User.ofDecoder (State.decoderIdle { s with port := { s.port with decReq := none } })
  else s

theorem cancelLoad_eq (s : State) (i : Byte) : s.cancelLoad i = (s.stopDecoder i).endLoad i .cancelled 0 := by
  unfold State.cancelLoad State.stopDecoder
  cases s.heap.decode with
  | none => rfl
  | some d => by_cases h : d.id = i <;> simp [h]

section
variable {s : State} {i : Byte}

theorem stopDecoder_of_mine {d : Decode} (hd : s.heap.decode = some d) (mine : d.id = i) : s.stopDecoder i =
    State.dropFlight User.ofDecoder (State.decoderIdle { s with port := { s.port with decReq := none } }) :=
  if_pos (by simp [hd, mine])

theorem stopDecoder_of_other (other : ∀ d, s.heap.decode = some d → d.id ≠ i) : s.stopDecoder i = s := by
  refine if_neg fun h => ?_
  obtain ⟨d, hd, mine⟩ := (Option.any_eq_true _ _).mp h
  exact other d hd (of_decide_eq_true mine)

theorem decoding_cases (s : State) (i : Byte) :
    (∃ d, s.heap.decode = some d ∧ d.id = i) ∨ ∀ d, s.heap.decode = some d → d.id ≠ i := by
  by_cases h : ∃ d, s.heap.decode = some d ∧ d.id = i
  · exact .inl h
  · exact .inr fun d hd hid => h ⟨d, hd, hid⟩

theorem stopDecoder_keeps (s : State) (i : Byte) : (s.stopDecoder i).heap.loads = s.heap.loads
    ∧ (s.stopDecoder i).walker = s.walker ∧ (s.stopDecoder i).timer = s.timer := by
  rcases decoding_cases s i with ⟨d, hd, mine⟩ | other
  · rw [stopDecoder_of_mine hd mine]
    simp
  · rw [stopDecoder_of_other other]
    exact ⟨rfl, rfl, rfl⟩

theorem cancelLoad_loadOf (s : State) (i : Byte) : (s.cancelLoad i).loadOf i = none := by
  rw [cancelLoad_eq]
  cases h : (s.stopDecoder i).loadOf i with
  | none => simp only [State.endLoad, h]
  | some l => exact endLoad_loadOf h .cancelled 0

theorem cancelLoad_decode (s : State) (i : Byte) : ∀ d, (s.cancelLoad i).heap.decode = some d → d.id ≠ i := by
  have same : (s.cancelLoad i).heap.decode = (s.stopDecoder i).heap.decode := by
    rw [cancelLoad_eq]
    simp
  rw [same]
  rcases decoding_cases s i with ⟨d, hd, mine⟩ | other
  · rw [stopDecoder_of_mine hd mine]
    simp
  · rwa [stopDecoder_of_other other]

theorem cancelLoad_retiring {l : Load} (hl : s.loadOf i = some l) :
    (s.cancelLoad i).walker.retiring = s.walker.retiring ++ [s.retirement l.task .cancelled 0 []] := by
  obtain ⟨loads, walker, timer⟩ := stopDecoder_keeps s i
  rw [cancelLoad_eq, endLoad_eq ((loadOf_congr loads i).trans hl)]
  simp only [walker, State.retirement, timer]
  rfl

theorem ofDecoder_iff (x : User) : x.ofDecoder = true ↔ x = .decHeader ∨ x = .decCode ∨ x = .decPixels := by
  cases x <;> simp [User.ofDecoder]

theorem cancelLoad_port {d : Decode} (hd : s.heap.decode = some d) (mine : d.id = i) :
    (s.cancelLoad i).port.decReq = none ∧ (s.cancelLoad i).port.flight = s.port.flight.map fun f =>
      if f.burst.user = .decHeader ∨ f.burst.user = .decCode ∨ f.burst.user = .decPixels then { f with dropped := true }
      else f := by
  rw [cancelLoad_eq, stopDecoder_of_mine hd mine]
  simp only [endLoad_frame, dropFlight_port, ← ofDecoder_iff]
  exact ⟨rfl, rfl⟩

end

/-! ### The entry that is freed (R18) -/

section
variable {s : State} {i : Byte}

theorem freeEntry_gone (h : (s.entry i).state = .empty ∨ (s.entry i).state = .releasing) : s.freeEntry i = s := by
  rcases h with h | h <;> simp only [State.freeEntry, h]

theorem freeEntry_queued (h : (s.entry i).state = .queued) :
    s.freeEntry i = (s.cancelLoad i).setEntry i (s.entry i).vacated := by
  simp only [State.freeEntry, h]

theorem freeEntry_loading (h : (s.entry i).state = .loading) : s.freeEntry i =
    (State.freeGranules (s.entry i).offset (s.entry i).count (s.cancelLoad i)).setEntry i (s.entry i).vacated := by
  simp only [State.freeEntry, h]

theorem freeEntry_faulted (h : (s.entry i).state = .faulted) : s.freeEntry i = s.setEntry i (s.entry i).vacated := by
  simp only [State.freeEntry, h]

theorem freeEntry_unused (h : (s.entry i).state = .ready) (unused : (s.entry i).useCount = 0) :
    s.freeEntry i = s.emptyEntry i := by
  simp only [State.freeEntry, h, if_pos unused]

theorem freeEntry_used (h : (s.entry i).state = .ready) (used : (s.entry i).useCount ≠ 0) :
    s.freeEntry i = s.setEntry i { s.entry i with state := .releasing } := by
  simp only [State.freeEntry, h, if_neg used]

/-- The entry's states, as the table of R18 has them. -/
theorem freed_cases (e : DirEntry) : (e.state = .empty ∨ e.state = .releasing)
    ∨ (e.state = .queued ∨ e.state = .loading ∨ e.state = .faulted) ∨ e.state = .ready := by
  cases e.state <;> simp

theorem freeEntry_vacates (h : (s.entry i).state = .queued ∨ (s.entry i).state = .loading ∨ (s.entry i).state = .faulted) :
    (s.freeEntry i).entry i = (s.entry i).vacated ∧ ∀ j, j ≠ i → (s.freeEntry i).entry j = s.entry j := by
  rcases h with h | h | h
  · rw [freeEntry_queued h]
    exact ⟨setEntry_entry_self _ i _, fun j hj => (setEntry_entry_other _ i j _ hj).trans (entry_congr (by simp) j)⟩
  · rw [freeEntry_loading h]
    exact ⟨setEntry_entry_self _ i _, fun j hj => (setEntry_entry_other _ i j _ hj).trans (entry_congr (by simp) j)⟩
  · rw [freeEntry_faulted h]
    exact ⟨setEntry_entry_self _ i _, fun j hj => setEntry_entry_other _ i j _ hj⟩

theorem freeEntry_entry_other (s : State) {j : Byte} (hj : j ≠ i) : (s.freeEntry i).entry j = s.entry j := by
  rcases freed_cases (s.entry i) with gone | vacates | ready
  · rw [freeEntry_gone gone]
  · exact (freeEntry_vacates vacates).2 j hj
  · by_cases unused : (s.entry i).useCount = 0
    · rw [freeEntry_unused ready unused, emptyEntry_entry_other s hj]
    · rw [freeEntry_used ready unused, setEntry_entry_other _ i j _ hj]

theorem emptied_of_unused {e : DirEntry} (unused : e.useCount = 0) : e.emptied = {} := by
  rw [DirEntry.emptied, unused]

theorem freeEntry_entry_unused (h1 : (s.entry i).state ≠ .empty) (h2 : (s.entry i).state ≠ .releasing)
    (unused : (s.entry i).useCount = 0) : (s.freeEntry i).entry i = {} := by
  rcases freed_cases (s.entry i) with gone | vacates | ready
  · exact (gone.elim h1 h2).elim
  · rw [(freeEntry_vacates vacates).1, DirEntry.vacated, if_pos unused, emptied_of_unused unused]
  · rw [freeEntry_unused ready unused, emptyEntry_entry_self, emptied_of_unused unused]

/-- A load's entry: the load is cancelled, whatever else becomes of the entry. -/
theorem freeEntry_cancels (h : (s.entry i).state = .queued ∨ (s.entry i).state = .loading) :
    (s.freeEntry i).heap.loads = (s.cancelLoad i).heap.loads ∧ (s.freeEntry i).heap.decode = (s.cancelLoad i).heap.decode
      ∧ (s.freeEntry i).walker = (s.cancelLoad i).walker ∧ (s.freeEntry i).port = (s.cancelLoad i).port := by
  rcases h with h | h
  · rw [freeEntry_queued h]
    exact ⟨rfl, rfl, rfl, rfl⟩
  · rw [freeEntry_loading h]
    exact ⟨rfl, rfl, rfl, rfl⟩

/-- No move ends but with an entry that becomes EMPTY with its data. -/
theorem freeEntry_still (h : ¬ ((s.entry i).state = .ready ∧ (s.entry i).useCount = 0)) :
    (s.freeEntry i).compactor = s.compactor ∧ (s.freeEntry i).port.compReq = s.port.compReq
      ∧ ((s.entry i).state ≠ .loading → (s.freeEntry i).heap.extents = s.heap.extents) := by
  rcases freed_cases (s.entry i) with gone | (queued | loading | faulted) | ready
  · rw [freeEntry_gone gone]
    exact ⟨rfl, rfl, fun _ => rfl⟩
  · rw [freeEntry_queued queued]
    simp
  · rw [freeEntry_loading loading]
    simp [loading]
  · rw [freeEntry_faulted faulted]
    exact ⟨rfl, rfl, fun _ => rfl⟩
  · rw [freeEntry_used ready fun unused => h ⟨ready, unused⟩]
    exact ⟨rfl, rfl, fun _ => rfl⟩

end

theorem exec_freeObject {s : State} {task : Task} (h : s.inHand 2 = some task) :
    exec .freeObject s = .next (s.judgeFree task).workGoesOn := by
  simp only [exec, execFreeObject, h]

/-- Settles O23: the entry by its states, as the table of R18 has them. -/
theorem freeObjectFollowsTheTable : Obligations.FreeObjectFollowsTheTable := by
  intro s task h
  obtain ⟨hasTask, -, -, -⟩ := inHand_eq h
  refine ⟨s.judgeFree task, _, exec_freeObject h, workGoesOn_goesOn _, judgeFree_rest s task, fun above => ?_, fun within => ?_⟩
  · rw [State.judgeFree, if_pos above]
    exact endTask_refuses s .badParameter 0 task hasTask
  · intro id e e' empties still
    have judged : s.judgeFree task = (s.freeEntry id).endTask .done 0 [] := if_neg (Nat.not_lt.mpr within)
    have freedTask : (s.freeEntry id).walker.task = some task := by rw [← hasTask]; simp
    have ends := endTask_ends (s.freeEntry id) .done 0 [] task freedTask
    have retirement : (s.freeEntry id).retirement task.ref .done (BitVec.ofNat 8 0) [] = s.retirement task.ref .done 0 [] := by
      simp [State.retirement]
    have dealt : s.Dealt (s.judgeFree task) := by
      rw [judged]
      simpa [State.Dealt] using ends.2.1
    have retiring : (s.judgeFree task).walker.retiring =
        (s.freeEntry id).walker.retiring ++ [s.retirement task.ref .done 0 []] := by
      rw [judged, ends.1, retirement]
    have heap : (s.judgeFree task).heap = (s.freeEntry id).heap := by rw [judged]; simp
    have compactor : (s.judgeFree task).compactor = (s.freeEntry id).compactor := by rw [judged]; simp
    have compReq : (s.judgeFree task).port.compReq = (s.freeEntry id).port.compReq := by rw [judged]; simp
    have decReq : (s.judgeFree task).port.decReq = (s.freeEntry id).port.decReq := by rw [judged]; simp
    have flight : (s.judgeFree task).port.flight = (s.freeEntry id).port.flight := by rw [judged]; simp
    have entry (j) : (s.judgeFree task).entry j = (s.freeEntry id).entry j := entry_congr (by rw [heap]) j
    refine ⟨by rw [retiring]; simp, dealt, fun j hj => (entry j).trans (freeEntry_entry_other s hj),
      fun gone => (entry id).trans (by rw [freeEntry_gone gone]), fun h1 h2 unused => (entry id).trans
        (freeEntry_entry_unused h1 h2 unused), fun ready used => ⟨(entry id).trans ?_, ?_⟩, fun vacates used => ?_,
      fun loads => ?_, fun loads l hl => ?_, fun loads d hd mine => ?_, fun loading => ?_, fun full => ?_,
      fun empty apart => ?_, fun m empty move mine => ?_⟩
    · rw [freeEntry_used ready used.ne']
      exact setEntry_entry_self s id _
    · rw [heap, freeEntry_used ready used.ne']
      rfl
    · have bare : e' = e.releasingBare := (entry id).trans ((freeEntry_vacates vacates).1.trans (if_neg used.ne'))
      rw [bare]
      exact ⟨rfl, rfl, rfl, rfl, rfl, rfl, rfl⟩
    · obtain ⟨queue, decode, -, -⟩ := freeEntry_cancels loads
      rw [loadOf_congr (s := s.cancelLoad id) (by rw [heap, queue]), heap, decode]
      exact ⟨cancelLoad_loadOf s id, cancelLoad_decode s id⟩
    · obtain ⟨-, -, walker, -⟩ := freeEntry_cancels loads
      rw [retiring, walker, cancelLoad_retiring hl, List.append_assoc]
      rfl
    · obtain ⟨-, -, -, port⟩ := freeEntry_cancels loads
      rw [decReq, flight, port]
      exact cancelLoad_port hd mine
    · rw [heap, freeEntry_loading loading]
      simp [e]
    · obtain ⟨same, asks, extents⟩ := freeEntry_still full
      exact ⟨⟨compactor.trans same, compReq.trans asks⟩, fun other => (congrArg (·.extents) heap).trans (extents other)⟩
    · have freed := (freeEntry_unused empty.1 empty.2).trans (emptyEntry_still apart)
      exact ⟨⟨compactor.trans (by rw [freed]; rfl), compReq.trans (by rw [freed]; rfl)⟩, by rw [heap, freed]; rfl⟩
    · have freed := freeEntry_unused empty.1 empty.2
      have remains : (s.judgeFree task).RegionRemains = (s.emptyEntry m.id).RegionRemains :=
        regionRemains_congr (by rw [heap, freed, mine]) (by rw [compactor, freed, mine])
      rw [remains]
      refine ⟨abandonsMove_congr (emptyEntry_abandons s m move) ?_ ?_ ?_, ?_⟩
      · rw [compactor, freed, mine]
      · rw [compReq, freed, mine]
      · rw [flight, freed, mine]
      · rw [heap, freed, emptyEntry_extents_moving move mine]

end Sys2Proof.Machine

/-! ## DISCARD PAGE (O36): R56, R21, R35 -/

namespace Sys2Proof.Machine

/-! ### One use less (R6, R21) -/

/-- The last use of a RELEASING entry, which becomes EMPTY with it. -/
abbrev DirEntry.LastUse (e : DirEntry) : Prop := e.state = .releasing ∧ e.useCount ≤ 1

/-- An entry after one use less. -/
def DirEntry.spent (e : DirEntry) : DirEntry :=
  if e.state = .releasing ∧ e.useCount ≤ 1 then {} else { e with useCount := e.useCount - 1 }

theorem spent_of_last {e : DirEntry} (h : e.LastUse) : e.spent = {} := if_pos h

theorem spent_of_more {e : DirEntry} (h : ¬ e.LastUse) : e.spent = { e with useCount := e.useCount - 1 } := if_neg h

/-- An entry's use count is one less, its region as it stood. -/
def State.lessUse (s : State) (i : Byte) : State := s.setEntry i { s.entry i with useCount := (s.entry i).useCount - 1 }

section
variable {s : State} {i : Byte}

theorem lessUse_entry_self (s : State) (i : Byte) :
    (s.lessUse i).entry i = { s.entry i with useCount := (s.entry i).useCount - 1 } := setEntry_entry_self s i _

theorem lessUse_entry_other (s : State) {j : Byte} (hj : j ≠ i) : (s.lessUse i).entry j = s.entry j :=
  setEntry_entry_other s i j _ hj

theorem decUse_of_more (h : ¬ (s.entry i).LastUse) : s.decUse i = s.lessUse i :=
  if_neg fun last => h ⟨last.1, Nat.sub_eq_zero_iff_le.mp last.2⟩

theorem decUse_of_last (h : (s.entry i).LastUse) : s.decUse i = (s.lessUse i).emptyEntry i :=
  if_pos ⟨h.1, Nat.sub_eq_zero_of_le h.2⟩

theorem decUse_entry_self (s : State) (i : Byte) : (s.decUse i).entry i = (s.entry i).spent := by
  by_cases last : (s.entry i).LastUse
  · rw [decUse_of_last last, emptyEntry_entry_self, lessUse_entry_self, spent_of_last last]
    exact emptied_of_unused (Nat.sub_eq_zero_of_le last.2)
  · rw [decUse_of_more last, lessUse_entry_self, spent_of_more last]

theorem decUse_entry_other (s : State) {j : Byte} (hj : j ≠ i) : (s.decUse i).entry j = s.entry j := by
  by_cases last : (s.entry i).LastUse
  · rw [decUse_of_last last, emptyEntry_entry_other _ hj, lessUse_entry_other s hj]
  · rw [decUse_of_more last, lessUse_entry_other s hj]

/-- The table after an entry has lost its last use: the granules of a move of it come back first (R4, R35). -/
def State.returned (s : State) (l : List Extent) (i : Byte) : List Extent :=
  if (s.entry i).state = .releasing ∧ (s.entry i).useCount ≤ 1 then
    extRelease (s.entry i).offset (s.entry i).count
      (s.compactor.move.elim l fun m => if m.id = i then extRelease m.dst (min m.count (m.src - m.dst)) l else l)
  else l

theorem decUse_extents (s : State) (i : Byte) : (s.decUse i).heap.extents = s.returned s.heap.extents i := by
  by_cases last : (s.entry i).LastUse
  · rw [decUse_of_last last, State.returned, if_pos last]
    have entry := lessUse_entry_self s i
    rcases moving_cases s i with ⟨m, move, mine⟩ | still
    · rw [emptyEntry_extents_moving (s := s.lessUse i) move mine, entry, move, Option.elim_some, if_pos mine]
      rfl
    · rw [emptyEntry_still (s := s.lessUse i) still, entry]
      cases move : s.compactor.move with
      | none => rfl
      | some m => rw [Option.elim_some, if_neg (still m move)]; rfl
  · rw [decUse_of_more last, State.returned]
    exact (if_neg last).symm

/-- The compactor and its part of the port. -/
def SameMove (t s : State) : Prop :=
  t.compactor = s.compactor ∧ t.port.compReq = s.port.compReq ∧ t.port.flight = s.port.flight

theorem SameMove.trans {a b c : State} (h : SameMove a b) (k : SameMove b c) : SameMove a c :=
  ⟨h.1.trans k.1, h.2.1.trans k.2.1, h.2.2.trans k.2.2⟩

theorem decUse_still (h : ∀ m, s.compactor.move = some m → ¬ (m.id = i ∧ (s.entry i).LastUse)) : SameMove (s.decUse i) s := by
  by_cases last : (s.entry i).LastUse
  · rw [decUse_of_last last, emptyEntry_still (s := s.lessUse i) fun m move mine => h m move ⟨mine, last⟩]
    exact ⟨rfl, rfl, rfl⟩
  · rw [decUse_of_more last]
    exact ⟨rfl, rfl, rfl⟩

theorem decUse_abandons {m : Move} (move : s.compactor.move = some m) (last : (s.entry m.id).LastUse) :
    s.AbandonsMove (s.decUse m.id) (s.decUse m.id).RegionRemains := by
  rw [decUse_of_last last]
  exact emptyEntry_abandons (s.lessUse m.id) m move

/-- A move in hand before is in hand still, or was of the entry. -/
theorem decUse_move (s : State) (i : Byte) : (s.decUse i).compactor.move = s.compactor.move
    ∨ (s.decUse i).compactor.move = none ∧ ∃ m, s.compactor.move = some m ∧ m.id = i := by
  rcases moving_cases s i with ⟨m, move, rfl⟩ | still
  · by_cases last : (s.entry m.id).LastUse
    · exact .inr ⟨(decUse_abandons move last).1.2.2, m, move, rfl⟩
    · rw [decUse_of_more last]
      exact .inl rfl
  · exact .inl (congrArg (·.move) (decUse_still fun m move h => still m move h.1).1)

end

/-! ### One use less of each id of a set (R56) -/

theorem decAll_cons (i : Byte) (l : List Byte) (s : State) : s.decAll (i :: l) = (s.decUse i).decAll l := rfl

theorem decAll_append : ∀ (l m : List Byte) (s : State), s.decAll (l ++ m) = (s.decAll l).decAll m
  | [], _, _ => rfl
  | i :: l, m, s => by rw [List.cons_append, decAll_cons, decAll_append l m, decAll_cons]

theorem decAll_entry_other : ∀ {l : List Byte} {i : Byte} (s : State), i ∉ l → (s.decAll l).entry i = s.entry i
  | [], _, _, _ => rfl
  | k :: l, i, s, h => by
    rw [decAll_cons, decAll_entry_other _ (List.not_mem_of_not_mem_cons h),
      decUse_entry_other s (List.ne_of_not_mem_cons h)]

theorem decAll_entry : ∀ {l : List Byte} {i : Byte} (s : State), l.Nodup → i ∈ l → (s.decAll l).entry i = (s.entry i).spent
  | [], _, _, _, h => absurd h List.not_mem_nil
  | k :: l, i, s, distinct, h => by
    obtain ⟨fresh, distinct⟩ := List.nodup_cons.mp distinct
    rw [decAll_cons]
    rcases List.mem_cons.mp h with rfl | later
    · rw [decAll_entry_other _ fresh, decUse_entry_self]
    · have other : i ≠ k := fun e => fresh (e ▸ later)
      rw [decAll_entry _ distinct later, decUse_entry_other s other]

/-- A move that no last use ends goes on. -/
theorem decAll_still : ∀ {l : List Byte} (s : State), l.Nodup →
    (∀ m, s.compactor.move = some m → ¬ (m.id ∈ l ∧ (s.entry m.id).LastUse)) → SameMove (s.decAll l) s
  | [], _, _, _ => ⟨rfl, rfl, rfl⟩
  | k :: l, s, distinct, h => by
    obtain ⟨fresh, distinct⟩ := List.nodup_cons.mp distinct
    have first : SameMove (s.decUse k) s := decUse_still fun m move ⟨mine, last⟩ =>
      h m move ⟨by simp [mine], mine ▸ last⟩
    refine SameMove.trans (decAll_still (s.decUse k) distinct fun m move ⟨mine, last⟩ => ?_) first
    have other : m.id ≠ k := fun e => fresh (e ▸ mine)
    rw [first.1] at move
    rw [decUse_entry_other s other] at last
    exact h m move ⟨List.mem_cons_of_mem k mine, last⟩

/-- What an entry's last use returns is told by the entry and by the move, if that is of the entry. -/
theorem returned_congr {s t : State} {i : Byte} (entry : t.entry i = s.entry i)
    (move : t.compactor.move = s.compactor.move
      ∨ t.compactor.move = none ∧ ∃ m, s.compactor.move = some m ∧ m.id ≠ i) (l : List Extent) :
    t.returned l i = s.returned l i := by
  rw [State.returned, State.returned, entry]
  rcases move with same | ⟨gone, m, was, other⟩
  · rw [same]
  · rw [gone, was, Option.elim_some, if_neg other, Option.elim_none]

theorem decAll_extents : ∀ {l : List Byte} (s : State), l.Nodup →
    (s.decAll l).heap.extents = l.foldl s.returned s.heap.extents
  | [], _, _ => rfl
  | k :: l, s, distinct => by
    obtain ⟨fresh, distinct⟩ := List.nodup_cons.mp distinct
    rw [decAll_cons, decAll_extents _ distinct, decUse_extents, List.foldl_cons]
    refine List.foldl_ext _ _ _ fun exts i later => ?_
    have other : i ≠ k := fun e => fresh (e ▸ later)
    refine returned_congr (decUse_entry_other s other) ((decUse_move s k).imp_right ?_) exts
    rintro ⟨gone, m, move, mine⟩
    exact ⟨gone, m, move, fun e => other (e.symm.trans mine)⟩

theorem spent_region (e : DirEntry) (low : Nat) :
    (0 < e.spent.count ∧ low ≤ e.spent.offset) ↔ ¬ e.LastUse ∧ 0 < e.count ∧ low ≤ e.offset := by
  by_cases last : e.LastUse
  · rw [spent_of_last last]
    simp [last]
  · rw [spent_of_more last]
    simp only [last, not_false_eq_true, true_and]

theorem decAll_region {s : State} {l : List Byte} (distinct : l.Nodup) (j : Byte) (low : Nat) :
    (0 < ((s.decAll l).entry j).count ∧ low ≤ ((s.decAll l).entry j).offset) ↔
      ¬ (j ∈ l ∧ (s.entry j).LastUse) ∧ 0 < (s.entry j).count ∧ low ≤ (s.entry j).offset := by
  by_cases mem : j ∈ l
  · rw [decAll_entry s distinct mem, spent_region]
    simp only [mem, true_and]
  · rw [decAll_entry_other s mem]
    simp only [mem, false_and, not_false_eq_true, true_and]

section
variable {s : State} {m : Move} {pre : List Byte}

/-- The regions that remain where a move is abandoned: those of the other entries that the ids before have left. -/
theorem abandoned_remains (distinct : pre.Nodup) (fresh : m.id ∉ pre) (last : (s.entry m.id).LastUse)
    (low : ((s.decAll pre).decUse m.id).compactor.low = s.compactor.low) :
    ((s.decAll pre).decUse m.id).RegionRemains ↔ ∃ j, j ≠ m.id ∧ ¬ (j ∈ pre ∧ (s.entry j).LastUse)
      ∧ 0 < (s.entry j).count ∧ s.compactor.low ≤ (s.entry j).offset := by
  have gone : ((s.decAll pre).decUse m.id).entry m.id = {} := by
    rw [decUse_entry_self, decAll_entry_other s fresh, spent_of_last last]
  unfold State.RegionRemains
  rw [low]
  refine exists_congr fun j => ?_
  by_cases mine : j = m.id
  · rw [mine, gone]
    simp
  · rw [decUse_entry_other _ mine, decAll_region distinct]
    exact (and_iff_right mine).symm

/-- A move is abandoned from the state before the ids ahead of it. -/
theorem abandonsMove_of_same {a b : State} {left right : Prop} (h : a.AbandonsMove b left) (run : a.run = s.run)
    (same : SameMove a s) (remains : left ↔ right) : s.AbandonsMove b right := by
  rw [propext remains] at h
  unfold State.AbandonsMove State.ScansOn at h ⊢
  rwa [run, same.1, same.2.2] at h

/-- The move in hand is abandoned at its object's turn in the set (R35, R56). -/
theorem decAll_abandons {post : List Byte} (distinct : (pre ++ m.id :: post).Nodup) (move : s.compactor.move = some m)
    (last : (s.entry m.id).LastUse) : s.AbandonsMove (s.decAll (pre ++ m.id :: post))
      (∃ j, j ≠ m.id ∧ ¬ (j ∈ pre ∧ (s.entry j).LastUse) ∧ 0 < (s.entry j).count ∧ s.compactor.low ≤ (s.entry j).offset) := by
  obtain ⟨before, after, apart⟩ := List.nodup_append.mp distinct
  have fresh : m.id ∉ pre := fun h => apart m.id h m.id List.mem_cons_self rfl
  have ahead : SameMove (s.decAll pre) s := decAll_still s before fun x is ⟨mem, _⟩ => by
    rw [move, Option.some.injEq] at is
    exact fresh (is ▸ mem)
  have turn := decUse_abandons (s := s.decAll pre) (m := m) (by rw [ahead.1, move]) (by rwa [decAll_entry_other s fresh])
  have low : ((s.decAll pre).decUse m.id).compactor.low = s.compactor.low := turn.2.1.trans (by rw [ahead.1])
  have behind : SameMove (((s.decAll pre).decUse m.id).decAll post) ((s.decAll pre).decUse m.id) :=
    decAll_still _ (List.nodup_cons.mp after).2 fun x is => by simp [turn.1.2.2] at is
  rw [decAll_append, decAll_cons]
  refine abandonsMove_congr ?_ behind.1 behind.2.1 behind.2.2
  exact abandonsMove_of_same turn (by simp) ahead (abandoned_remains before fresh last low)

end

/-! ### DISCARD PAGE -/

section
variable {s : State} {task : Task}

theorem exec_discardPage (h : s.inHand 6 = some task) : exec .discardPage s = .next (s.judgeDiscard task).workGoesOn := by
  simp only [exec, execDiscardPage, h]

theorem judgeDiscard_above (above : 5 < task.p8 16) : s.judgeDiscard task = s.endTask .badParameter 0 [] := by
  simp only [State.judgeDiscard, slotOf_none _ above]

variable {p : SlotId} (hp : p.val = task.p8 16)
include hp

theorem judgeDiscard_notStaged (h : s.slot p = .free ∨ s.slot p = .staging) :
    s.judgeDiscard task = s.endTask .notStaged 0 [] := by
  rcases h with h | h <;> simp only [State.judgeDiscard, ← hp, slotOf_val, h]

theorem judgeDiscard_held {d : PageDef} {ids : List Byte} {n : Nat} (h : s.slot p = .staged d ids (n + 1)) :
    s.judgeDiscard task = s.endTask .slotBusy 0 [] := by
  simp only [State.judgeDiscard, ← hp, slotOf_val, h, if_pos n.succ_pos]

theorem judgeDiscard_unheld {d : PageDef} {ids : List Byte} (h : s.slot p = .staged d ids 0) :
    s.judgeDiscard task = ((s.setSlot p .free).decAll ids).endTask .done 0 [] := by
  simp only [State.judgeDiscard, ← hp, slotOf_val, h, lt_irrefl, if_false]

end

/-- How a task ends is told by the walker, its asks, the run state and the frame stamp. -/
theorem ends_congr {s x t : State} {task : TaskRef} {o : TaskOutcome} {k : Byte} {l : List (Nat × Byte)}
    (h : x.Ends t task o k l) (walker : x.walker = s.walker) (run : x.run = s.run) (timer : x.timer = s.timer)
    (asks : x.port.walkerQ = s.port.walkerQ) : s.Ends t task o k l := by
  simpa only [State.Ends, State.Dealt, State.retirement, State.asksAtRetire, State.asksForLink, walker, run, timer, asks]
    using h

theorem judgeDiscard_rest (s : State) (task : Task) : s.judgeDiscard task =
    { s with heap := (s.judgeDiscard task).heap, slots := (s.judgeDiscard task).slots,
             compactor := (s.judgeDiscard task).compactor, walker := (s.judgeDiscard task).walker,
             port := (s.judgeDiscard task).port } :=
  eq_of_frame_but_compactor (s := { s with slots := (s.judgeDiscard task).slots }) (by simp [Kept]) (by simp [SamePlanes])
    (by simp [SameShow]) (by simp [SameNotes]) (by simp) (by simp)

theorem endTask_move (s : State) (o : TaskOutcome) (k : Nat) (l : List (Nat × Byte)) :
    (s.endTask o k l).heap = s.heap ∧ SameMove (s.endTask o k l) s := by
  simp [SameMove]

theorem decAll_heap (s : State) (l : List Byte) : (s.decAll l).heap =
    { s.heap with dir := (s.decAll l).heap.dir, extents := (s.decAll l).heap.extents } := by
  obtain ⟨-, -, -, -, -, -, -, -, -, -, loads, decode, view, -⟩ := decAll_frame s l
  show _ = Heap.mk _ _ s.heap.loads s.heap.decode s.heap.view
  rw [← loads, ← decode, ← view]

/-- Settles O36: the ids of the set one after another, the move abandoned at its object's turn. -/
theorem discardPageFreesAnUnheldSlot : Obligations.DiscardPageFreesAnUnheldSlot := by
  intro s task h
  obtain ⟨hasTask, -, -, -⟩ := inHand_eq h
  refine ⟨_, _, exec_discardPage h, workGoesOn_goesOn _, fun above => ?_, fun p hp => ⟨fun h => ?_, fun d ids n h => ?_,
    fun d ids unheld distinct => ?_⟩⟩
  · rw [judgeDiscard_above above]
    exact endTask_refuses s .badParameter 0 task hasTask
  · rw [judgeDiscard_notStaged hp h]
    exact endTask_refuses s .notStaged 0 task hasTask
  · rw [judgeDiscard_held hp h]
    exact endTask_refuses s .slotBusy 0 task hasTask
  · intro ends
    have rest := judgeDiscard_rest s task
    rw [judgeDiscard_unheld hp unheld] at rest ⊢
    have taskLeft : ((s.setSlot p .free).decAll ids).walker.task = some task := by rw [← hasTask]; simp
    have ended := ends_congr (s := s) (endTask_ends ((s.setSlot p .free).decAll ids) .done 0 [] task taskLeft)
      (by simp) (by simp) (by simp) (by simp)
    have slots : (((s.setSlot p .free).decAll ids).endTask .done 0 []).slots = (s.setSlot p .free).slots := by simp
    obtain ⟨heap, move⟩ := endTask_move ((s.setSlot p .free).decAll ids) .done 0 []
    have extents := decAll_extents (s.setSlot p .free) distinct
    have kept : ((s.setSlot p .free).decAll ids).heap = { s.heap with
        dir := ((s.setSlot p .free).decAll ids).heap.dir
        extents := ((s.setSlot p .free).decAll ids).heap.extents } := decAll_heap (s.setSlot p .free) ids
    generalize ((s.setSlot p .free).decAll ids).endTask .done 0 [] = u at *
    have entry (j) : u.entry j = ((s.setSlot p .free).decAll ids).entry j := entry_congr (by rw [heap]) j
    have spent (i) (mem : i ∈ ids) : u.entry i = (s.entry i).spent := (entry i).trans (decAll_entry _ distinct mem)
    refine ⟨rest, ended, (slot_congr slots p).trans (setSlot_slot_self s p _),
      fun q hq => (slot_congr slots q).trans (setSlot_slot_other s p q _ hq), fun i fresh => (entry i).trans
        (decAll_entry_other _ fresh), fun i mem releasing one => ?_, fun i mem releasing more => ?_, fun i mem other => ?_,
      heap ▸ kept, ?_, fun m pre post moving split last => ?_, fun apart => ?_⟩
    · rw [spent i mem, spent_of_last ⟨releasing, one.le⟩]
    · rw [spent i mem, spent_of_more fun last => absurd last.2 (Nat.not_le.mpr more)]
    · rw [spent i mem, spent_of_more fun last => other last.1]
    · rw [heap, extents]
      refine congrArg (fun step => ids.foldl step s.heap.extents) (funext₂ fun l i => ?_)
      unfold State.returned
      cases move : s.compactor.move <;> simp only [setSlot_compactor, move, Option.elim_some, Option.elim_none] <;> rfl
    · subst split
      exact abandonsMove_congr (decAll_abandons (s := s.setSlot p .free) distinct moving last) move.1 move.2.1 move.2.2
    · exact move.trans (decAll_still (s.setSlot p .free) distinct apart)

end Sys2Proof.Machine

/-! ## The planes' part of frame-start work (O39): R74, R79 to R84 -/

namespace Sys2Proof.Machine

/-! ### What the steps of a plane change -/

theorem transStep_rest (s : State) (p : PlaneId) : s.transStep p = { s with
    heap := { s.heap with view := (s.transStep p).heap.view }
    slots := (s.transStep p).slots, slide := (s.transStep p).slide, menu := (s.transStep p).menu
    drawnViews := (s.transStep p).drawnViews, nav := (s.transStep p).nav, composer := (s.transStep p).composer
    stats := (s.transStep p).stats, work := (s.transStep p).work
    port := { s.port with lfReq := (s.transStep p).port.lfReq } } :=
  eq_of_workFrame (by simp [Kept]) (by simp) (by simp) (by simp)

theorem opStep_walker (s : State) (p : PlaneId) :
    (s.opStep p).walker = { s.walker with retiring := (s.opStep p).walker.retiring } := by
  obtain ⟨-, -, -, -, -, -, -, -, -, st, cur, holder, asked, task, job, capture, reread, -⟩ := opStep_frame s p
  generalize (s.opStep p).walker = w at *
  cases w
  simp only at *
  subst_vars
  rfl

theorem opStep_rest (s : State) (p : PlaneId) : s.opStep p = { s with
    heap := { s.heap with view := (s.opStep p).heap.view }
    slots := (s.opStep p).slots, slide := (s.opStep p).slide, menu := (s.opStep p).menu
    drawnViews := (s.opStep p).drawnViews, nav := (s.opStep p).nav, composer := (s.opStep p).composer
    stats := (s.opStep p).stats, work := (s.opStep p).work
    port := { s.port with lfReq := (s.opStep p).port.lfReq, walkerQ := (s.opStep p).port.walkerQ }
    walker := { s.walker with retiring := (s.opStep p).walker.retiring } } :=
  eq_of_workFrame (s := { s with
      port := { s.port with walkerQ := (s.opStep p).port.walkerQ }
      walker := { s.walker with retiring := (s.opStep p).walker.retiring } })
    (by simp [Kept]) ⟨by simp, by simp, by simp, by simp, by simp, opStep_walker s p⟩ (by simp) (by simp)

/-! ### A plane's own part (R79) -/

section
variable {s : State} {p : PlaneId}

theorem publish_plane (s : State) (p : PlaneId) : (s.publish p).plane p = { s.plane p with
    view := some { frame := s.timer.stamp, content := (s.plane p).content, fade := (s.plane p).content.fade,
                   mark := (s.plane p).mark } } := by
  simp [State.publish, setStage_plane]

theorem publish_stage (s : State) (p : PlaneId) : (s.publish p).stage p = .idle := by
  simp [State.publish, setStage_stage]

theorem planeOps_begins (h : s.headBegins p = true) : s.planeOps p = s.setStage p .ops := if_pos h

theorem planeOps_publishes (h : ¬ s.headBegins p = true) : s.planeOps p = s.publish p := if_neg h

/-- Step 3 leaves all of the plane but its frame view. -/
theorem planeOps_plane (s : State) (p : PlaneId) :
    (s.planeOps p).plane p = { s.plane p with view := ((s.planeOps p).plane p).view } := by
  by_cases h : s.headBegins p = true
  · rw [planeOps_begins h, setStage_plane]
  · rw [planeOps_publishes h, publish_plane]

/-- The blocks that go on after step 3 leave the plane as that has it. -/
theorem advanceWork_planeOps (s : State) (p : PlaneId) :
    (s.planeOps p).advanceWork.plane p = { s.plane p with view := ((s.planeOps p).plane p).view } := by
  rw [(advanceWork_keeps _ p _).2, ← planeOps_plane]
  rcases planeOps_stage s p with h | h <;> rw [h] <;> exact PlaneStage.noConfusion

/-- A head that can begin is found behind the entries inserted since the frame start (R81, R85). -/
theorem headBegins_iff (s : State) (p : PlaneId) : s.headBegins p = true ↔ s.HeadReady s p := by
  unfold State.headBegins State.HeadReady
  constructor
  · cases head : takeHead (s.plane p).schedule with
    | none => exact fun h => absurd h Bool.false_ne_true
    | some v =>
      obtain ⟨pre, post, split, -, first, before⟩ := takeHead_some head
      intro h
      obtain ⟨due, page⟩ := Bool.and_eq_true_iff.mp h
      exact ⟨pre, v.1, post, split, before, first, due, fun x hx => by simpa [hx] using page⟩
  · rintro ⟨pre, e, rest, split, before, first, due, ready⟩
    rw [split, takeHead_pre pre e rest before first]
    cases page : e.page with
    | none => simp [due, page]
    | some x => simp [due, page, ready x page]

/-- At a frame start the whole schedule is judged: its first entry is the head (R79). -/
theorem headBegins_current {l : List SchedEntry} (h : (s.plane p).schedule = l.map SchedEntry.current) :
    s.headBegins p = true ↔ ∃ e rest, l = e :: rest ∧ reached s.timer.stamp e.due = true
      ∧ ∀ x, e.page = some x → s.readySlot x = true := by
  unfold State.headBegins
  rw [h, takeHead_current]
  cases l with
  | nil => simp
  | cons e rest => cases page : e.page <;> simp [SchedEntry.current, page]

/-! ### The end of a transition (R80) -/

theorem settle_plane (s : State) (p : PlaneId) :
    (s.settle p).plane p = { s.plane p with content := Content.standing (s.plane p).content.settled } := by
  simp [State.settle, release?_plane, State.setContent]

theorem transStep_eq (h : s.stage p = .transEnd) : s.transStep p = ((s.settle p).planeOps p).advanceWork := by
  simp only [State.transStep, h, State.endTransition]

theorem holds_withHolds {x : Slot} {n : Nat} (h : n ≤ x.holds) : (x.withHolds n).holds = n := by
  cases x <;> simp_all [Slot.withHolds, Slot.holds]

/-- One release takes one hold, and leaves every other slot (R57). -/
theorem Releases.one {t : State} {o : SlotId} (h : s.Releases t [some o]) :
    (t.slot o).holds = (s.slot o).holds - 1 ∧ ∀ x, x ≠ o → t.slot x = s.slot x := by
  refine ⟨?_, fun x hx => ?_⟩
  · rw [h o, holds_withHolds (Nat.sub_le _ _)]
    simp
  · rw [h x]
    simp [Ne.symm hx]

theorem Releases.none_left {t : State} {l : List (Option SlotId)} (h : s.Releases t (l ++ [none])) : s.Releases t l := by
  intro x
  rw [h x]
  simp

end

/-! ### An operation begins (R81, R83, R84) -/

/-- The plane state that an operation with a transition of `n` frames leaves, by the table of R83. -/
def Content.after (before page : Option SlotId) (n : Nat) : Content :=
  match page, before with
  | some x, none => if 2 ≤ n then .entering x 1 n else .shown x
  | some x, some y => if y = x then .shown x else if 2 ≤ n then .crossing x y 1 n else .shown x
  | none, none => .empty
  | none, some y => if 2 ≤ n then .leaving y 1 n else .empty

/-- The slot whose hold the operation releases, by the table of R83. -/
def endedRole (before page : Option SlotId) (n : Nat) : Option SlotId :=
  match page, before with
  | _, none => none
  | some x, some y => if y = x then some x else if 2 ≤ n then none else some y
  | none, some y => if 2 ≤ n then none else some y

/-- The operation of an entry begins on a plane that stands EMPTY or SHOWN. -/
def State.beginEntry (p : PlaneId) (e : SchedEntry) (s : State) : State :=
  match e.page with
  | some x => s.beginShow p x e.blend
  | none => s.beginHide p e.blend

/-- The head has left the schedule and a running transition has been completed. -/
def State.headTaken (p : PlaneId) (es : List SchedEntry) (s : State) : State :=
  State.settle p (s.setPlane p { s.plane p with schedule := es })

section
variable {s : State} {p : PlaneId}

theorem settled_standing (x : Option SlotId) : (Content.standing x).settled = x := by
  cases x <;> rfl

theorem releaseHold_plane (s : State) (x : SlotId) (p : PlaneId) : (s.releaseHold x).plane p = s.plane p :=
  plane_congr (by simp) (by simp) p

theorem setContent_plane (s : State) (p : PlaneId) (c : Content) :
    (s.setContent p c).plane p = { s.plane p with content := c } := setPlane_plane_self s p _

theorem setMark_plane (s : State) (p : PlaneId) : (s.setMark p).plane p = { s.plane p with mark := true } :=
  setPlane_plane_self s p _

theorem release?_some (s : State) (x : SlotId) : s.release? (some x) = s.releaseHold x := rfl

theorem releaseHold_slots_congr {s t : State} (h : t.slots = s.slots) (x : SlotId) :
    (t.releaseHold x).slots = (s.releaseHold x).slots := by
  unfold State.releaseHold
  rw [slot_congr h]
  split <;> simp [h]

/-- The SHOW rows of R83. -/
theorem beginShow_row {before : Option SlotId} (stands : (s.plane p).content = Content.standing before) (x : SlotId)
    (blend : Option Nat) :
    (s.beginShow p x blend).plane p = { s.plane p with content := Content.after before (some x) (blend.getD 1), mark := true }
      ∧ (s.beginShow p x blend).slots = (s.release? (endedRole before (some x) (blend.getD 1))).slots := by
  have settled : (s.plane p).content.settled = before := by rw [stands, settled_standing]
  cases before with
  | none =>
    simp only [State.beginShow, settled, setMark_plane, setContent_plane]
    exact ⟨rfl, by simp [endedRole, State.release?]⟩
  | some y =>
    simp only [State.beginShow, settled, Content.after, endedRole]
    by_cases same : y = x
    · have shown : (s.plane p).content = .shown x := by rw [stands, same]; rfl
      simp only [if_pos same, setMark_plane, releaseHold_plane, ← shown]
      exact ⟨trivial, by simp [State.release?]⟩
    · by_cases long : 2 ≤ blend.getD 1
      · simp only [if_neg same, if_pos long, setMark_plane, setContent_plane]
        exact ⟨trivial, by simp [State.release?]⟩
      · simp only [if_neg same, if_neg long, setMark_plane, setContent_plane, releaseHold_plane, release?_some]
        refine ⟨trivial, Eq.trans ?_ (releaseHold_slots_congr (t := s.setContent p (.shown x)) (by simp) y)⟩
        simp

/-- The HIDE rows of R83. -/
theorem beginHide_row {before : Option SlotId} (stands : (s.plane p).content = Content.standing before) (blend : Option Nat) :
    (s.beginHide p blend).plane p = { s.plane p with content := Content.after before none (blend.getD 1) }
      ∧ (s.beginHide p blend).slots = (s.release? (endedRole before none (blend.getD 1))).slots := by
  have settled : (s.plane p).content.settled = before := by rw [stands, settled_standing]
  cases before with
  | none =>
    simp only [State.beginHide, settled]
    exact ⟨by rw [show Content.after none none (blend.getD 1) = (s.plane p).content from stands.symm], rfl⟩
  | some y =>
    simp only [State.beginHide, settled, Content.after, endedRole]
    by_cases long : 2 ≤ blend.getD 1
    · simp only [if_pos long, setContent_plane]
      exact ⟨trivial, by simp [State.release?]⟩
    · simp only [if_neg long, setContent_plane, releaseHold_plane, release?_some]
      exact ⟨trivial, releaseHold_slots_congr (by simp) y⟩

/-- The table of R83. -/
theorem beginEntry_row (e : SchedEntry) {before : Option SlotId} (stands : (s.plane p).content = Content.standing before) :
    (s.beginEntry p e).plane p = { s.plane p with content := Content.after before e.page (e.blend.getD 1),
                                                  mark := (s.plane p).mark || e.page.isSome }
      ∧ (s.beginEntry p e).slots = (s.release? (endedRole before e.page (e.blend.getD 1))).slots := by
  cases page : e.page with
  | none => simpa only [State.beginEntry, page, Option.isSome_none, Bool.or_false] using beginHide_row stands e.blend
  | some x => simpa only [State.beginEntry, page, Option.isSome_some, Bool.or_true] using beginShow_row stands x e.blend

theorem headTaken_plane (s : State) (p : PlaneId) (es : List SchedEntry) : (s.headTaken p es).plane p =
    { s.plane p with schedule := es, content := Content.standing (s.plane p).content.settled } := by
  simp [State.headTaken, settle_plane]

theorem headTaken_releases (s : State) (p : PlaneId) (es : List SchedEntry) :
    s.Releases (s.headTaken p es) [(s.plane p).content.outgoing] := by
  have h := settle_releases (s.setPlane p { s.plane p with schedule := es }) p
  rw [setPlane_plane_self] at h
  intro x
  rw [State.headTaken, h x, slot_congr (s := s) (by simp)]

theorem beginHead_eq {e : SchedEntry} {es : List SchedEntry} (h : takeHead (s.plane p).schedule = some (e, es)) :
    s.beginHead p =
      ((s.headTaken p es).beginEntry p e).retire e.task .done (lateness s.timer.stamp e.due) [] := by
  simp only [State.beginHead, h]
  cases page : e.page <;> simp only [State.beginEntry, page] <;> rfl

theorem beginEntry_keeps (s : State) (p : PlaneId) (e : SchedEntry) :
    (s.beginEntry p e).walker = s.walker ∧ (s.beginEntry p e).timer = s.timer := by
  cases page : e.page <;> simp [State.beginEntry, page]

/-- What a head that begins leaves of its plane, of the holds and of the walker's list. -/
theorem beginHead_spec {e : SchedEntry} {es : List SchedEntry} (h : takeHead (s.plane p).schedule = some (e, es)) :
    (s.beginHead p).plane p = { s.plane p with
        schedule := es, mark := (s.plane p).mark || e.page.isSome
        content := Content.after (s.plane p).content.settled e.page (e.blend.getD 1) }
      ∧ s.Releases (s.beginHead p)
          [(s.plane p).content.outgoing, endedRole (s.plane p).content.settled e.page (e.blend.getD 1)]
      ∧ (s.beginHead p).walker.retiring =
          s.walker.retiring ++ [s.retirement e.task .done (BitVec.ofNat 8 (lateness s.timer.stamp e.due)) []] := by
  obtain ⟨plane, slots⟩ := beginEntry_row (s := s.headTaken p es) (p := p) e
    (before := (s.plane p).content.settled) (by rw [headTaken_plane])
  obtain ⟨walker, timer⟩ := beginEntry_keeps (s.headTaken p es) p e
  rw [beginHead_eq h]
  refine ⟨?_, Releases.slots (Releases.more (headTaken_releases s p es) _) ?_, ?_⟩
  · rw [retire_plane, plane, headTaken_plane]
  · rw [← slots]
    simp
  · rw [retire_retiring, walker, State.retirement, timer]
    simp [State.headTaken, State.retirement]

theorem opStep_begins (stage : s.stage p = .ops) (h : s.headBegins p = true) :
    s.opStep p = ((s.beginHead p).planeOps p).advanceWork := by
  simp only [State.opStep, stage, if_pos h, State.beginOperation]

theorem opStep_publishes (stage : s.stage p = .ops) (h : ¬ s.headBegins p = true) : s.opStep p = (s.publish p).advanceWork := by
  simp only [State.opStep, stage, if_neg h]

end

/-! ### A plane at the frame start (R79, R80) -/

section
variable {s : State} {p : PlaneId}

/-- A transition that goes on has reached its last step (R80). -/
theorem advanced_ends_iff (c : Content) : c.advanced.2 = true ↔ ∃ i o k m, m ≤ k + 1
    ∧ (c = .entering i k m ∨ c = .crossing i o k m ∨ c = .leaving o k m) := by
  cases c with
  | empty => simp [Content.advanced]
  | shown i => simp [Content.advanced]
  | entering i k m => simp [Content.advanced]
  | crossing i o k m => simp [Content.advanced]
  | leaving o k m => simp [Content.advanced]

theorem planeAdvance_ends (h : (s.plane p).content.advanced.2 = true) :
    s.planeAdvance p = (s.setContent p (s.plane p).content.advanced.1).setStage p .transEnd := if_pos h

theorem planeAdvance_goes (h : ¬ (s.plane p).content.advanced.2 = true) :
    s.planeAdvance p = (s.setContent p (s.plane p).content.advanced.1).planeOps p := if_neg h

theorem planeAdvance_plane (s : State) (p : PlaneId) : (s.planeAdvance p).plane p =
    { s.plane p with content := (s.plane p).content.advanced.1, view := ((s.planeAdvance p).plane p).view } := by
  by_cases h : (s.plane p).content.advanced.2 = true
  · rw [planeAdvance_ends h, setStage_plane, setContent_plane]
  · rw [planeAdvance_goes h, planeOps_plane, setContent_plane]

theorem planeRun_starts (taken : s.work.heap = false) (stage : s.stage p = .begin) (free : p = .menu → s.jump = none) :
    s.planeRun p = s.planeAdvance p := by
  simp only [State.planeRun, taken, stage, Bool.false_eq_true, if_false, State.planeBegin]
  cases p with
  | slide => rfl
  | menu => rw [free rfl]

/-- The planes stand, once the blocks have gone on, as their own parts of the work leave them. -/
theorem advanceWork_planes (s : State) (q : PlaneId) :
    s.advanceWork.stage q = ((s.heapRun.planeRun .slide).planeRun .menu).stage q
      ∧ s.advanceWork.plane q = ((s.heapRun.planeRun .slide).planeRun .menu).plane q := by
  have later : SameStages s.advanceWork ((s.heapRun.planeRun .slide).planeRun .menu).noteViews :=
    (compRunIf_stages _).1.trans (navRunIf_stages _)
  have noted : SameStages ((s.heapRun.planeRun .slide).planeRun .menu).noteViews
      ((s.heapRun.planeRun .slide).planeRun .menu) := by
    unfold State.noteViews
    split <;> exact ⟨rfl, rfl, rfl, rfl⟩
  obtain ⟨slideStage, menuStage, slide, menu⟩ := later.trans noted
  cases q
  · exact ⟨slideStage, slide⟩
  · exact ⟨menuStage, menu⟩

theorem planeAdvance_notBegin (s : State) (p : PlaneId) : (s.planeAdvance p).stage p ≠ .begin := by
  rcases planeAdvance_stage s p with h | h | h <;> rw [h] <;> exact PlaneStage.noConfusion

/-- A plane whose work begins with this frame start goes through steps 2 and 3 of R79 once the entry view is taken. -/
theorem advanceWork_starts {q : PlaneId} (due : s.work.heap = true) (noSwitch : s.compactor.phase ≠ .switchPending)
    (stage : ∀ p, s.stage p = .begin) (free : q = .menu → s.jump = none) :
    ∃ v : State, v.heap = s.advanceWork.heap ∧ v.slots = s.advanceWork.slots ∧ v.timer = s.timer ∧ v.plane q = s.plane q
      ∧ s.advanceWork.stage q = (v.planeAdvance q).stage q ∧ s.advanceWork.plane q = (v.planeAdvance q).plane q := by
  have taken : s.heapRun = s.viewTaken := if_pos ⟨due, noSwitch⟩
  have slide : s.viewTaken.planeRun .slide = s.viewTaken.planeAdvance .slide :=
    planeRun_starts rfl (stage .slide) fun h => PlaneId.noConfusion h
  obtain ⟨stages, planes⟩ := advanceWork_planes s q
  rw [taken, slide] at stages planes
  cases q with
  | slide =>
    obtain ⟨keepsStage, keepsPlane⟩ := planeRun_keeps (s.viewTaken.planeAdvance .slide) .menu .slide
      (planeAdvance_notBegin _ _)
    exact ⟨s.viewTaken, by rw [advanceWork_heap, taken], by simp, rfl, rfl, stages.trans keepsStage, planes.trans keepsPlane⟩
  | menu =>
    obtain ⟨otherStage, otherPlane⟩ := planeAdvance_other s.viewTaken .slide .menu PlaneId.noConfusion
    have menu := planeRun_starts (s := s.viewTaken.planeAdvance .slide) (p := .menu)
      ((planeAdvance_early s.viewTaken .slide).1.trans rfl) (otherStage.trans (stage .menu)) fun h => by simp [free h]
    rw [menu] at stages planes
    exact ⟨s.viewTaken.planeAdvance .slide, by rw [advanceWork_heap, taken]; simp, by simp, by simp, otherPlane, stages, planes⟩

end

theorem readySlot_iff (s : State) (x : SlotId) : s.readySlot x = true ↔ ∃ d ids n, s.slot x = .staged d ids n
    ∧ ∀ i ∈ ids, ∃ v, s.objView i = some v ∧ v.blocking = false := by
  have clear (i : Byte) : (!((s.objView i).elim true (·.blocking))) = true ↔ ∃ v, s.objView i = some v ∧ v.blocking = false := by
    cases s.objView i <;> simp
  cases slot : s.slot x with
  | free => simp [State.readySlot, State.staged, slot]
  | staging => simp [State.readySlot, State.staged, slot]
  | staged d ids n =>
    rw [State.readySlot, Bool.and_eq_true, slot, Slot.named, List.all_eq_true]
    simp only [clear]
    simp [State.staged, slot]

theorem endedRole_empty (page : Option SlotId) (n : Nat) : endedRole none page n = none := by
  cases page <;> rfl

theorem endedRole_other {page : Option SlotId} {y : SlotId} (h : page ≠ some y) (n : Nat) :
    endedRole (some y) page n = if 2 ≤ n then none else some y := by
  cases page with
  | none => rfl
  | some x => exact if_neg fun same => h (congrArg some same.symm)

/-- TRANSITION_END (R80). -/
theorem transitionEnd_spec (s : State) (q : PlaneId) (stage : s.stage q = .transEnd) :
    ((s.transStep q).plane q).content = Content.standing (s.plane q).content.settled
      ∧ ((s.transStep q).plane q).schedule = (s.plane q).schedule ∧ ((s.transStep q).plane q).mark = (s.plane q).mark
      ∧ s.Releases (s.transStep q) [(s.plane q).content.outgoing] ∧ s.OperatesOrPublishes (s.transStep q) q := by
  have released := settle_releases s q
  rw [transStep_eq stage, advanceWork_planeOps, settle_plane]
  exact ⟨rfl, rfl, rfl, Releases.slots released (by simp), planeOps_spec s (s.settle q) q (Releases.ready released (by simp))⟩

/-- OPERATION_BEGIN with a head that can begin (R81, R83, R84). -/
theorem operationBegin_spec {s : State} {q : PlaneId} {e : SchedEntry} {es : List SchedEntry} (stage : s.stage q = .ops)
    (can : s.headBegins q = true) (head : takeHead (s.plane q).schedule = some (e, es)) :
    ((s.opStep q).plane q).schedule = es ∧ ((s.opStep q).plane q).mark = ((s.plane q).mark || e.page.isSome)
      ∧ s.OperatesOrPublishes (s.opStep q) q
      ∧ (s.opStep q).walker.retiring =
          s.walker.retiring ++ [s.retirement e.task .done (BitVec.ofNat 8 (lateness s.timer.stamp e.due)) []]
      ∧ ((s.opStep q).plane q).content = Content.after (s.plane q).content.settled e.page (e.blend.getD 1)
      ∧ s.Releases (s.opStep q)
          [(s.plane q).content.outgoing, endedRole (s.plane q).content.settled e.page (e.blend.getD 1)] := by
  obtain ⟨plane, released, retiring⟩ := beginHead_spec head
  rw [opStep_begins stage can, advanceWork_planeOps, plane]
  refine ⟨rfl, rfl, planeOps_spec s (s.beginHead q) q (Releases.ready released (by simp)), ?_, rfl,
    Releases.slots released (by simp)⟩
  rw [← retiring]
  simp

/-- OPERATION_BEGIN with no head that can begin publishes (R74, R82). -/
theorem operationBegin_publishes {s : State} {q : PlaneId} (stage : s.stage q = .ops) (noHead : ¬ s.headBegins q = true) :
    (s.opStep q).plane q = (s.publish q).plane q ∧ (s.opStep q).stage q = .idle
      ∧ (s.opStep q).walker = s.walker ∧ (s.opStep q).slots = s.slots := by
  obtain ⟨keepsStage, keepsPlane⟩ := advanceWork_keeps (s.publish q) q (by rw [publish_stage]; exact PlaneStage.noConfusion)
  rw [opStep_publishes stage noHead]
  exact ⟨keepsPlane, keepsStage.trans (publish_stage s q), by simp, by simp⟩

/-- Steps 2 and 3 of R79, on a plane whose whole schedule is judged. -/
theorem planeAdvance_spec {v : State} {q : PlaneId} {l : List SchedEntry}
    (schedule : (v.plane q).schedule = l.map SchedEntry.current) :
    let begins := ∃ e rest, l = e :: rest ∧ reached v.timer.stamp e.due = true ∧ ∀ x, e.page = some x → v.readySlot x = true
    ((v.plane q).content.advanced.2 = true → (v.planeAdvance q).stage q = .transEnd)
      ∧ (¬ (v.plane q).content.advanced.2 = true → begins → (v.planeAdvance q).stage q = .ops)
      ∧ (¬ (v.plane q).content.advanced.2 = true → ¬ begins → (v.planeAdvance q).stage q = .idle
          ∧ ((v.planeAdvance q).plane q).view = some
              { frame := v.timer.stamp, content := (v.plane q).content.advanced.1,
                fade := (v.plane q).content.advanced.1.fade, mark := (v.plane q).mark }) := by
  intro begins
  have can : (v.setContent q (v.plane q).content.advanced.1).headBegins q = true ↔ begins := by
    rw [headBegins_current (l := l) (by rw [setContent_plane]; exact schedule)]
    have ready (x) : (v.setContent q (v.plane q).content.advanced.1).readySlot x = v.readySlot x :=
      readySlot_congr v _ x (by simp) (by rw [slot_congr (s := v) (by simp)])
    simp only [ready, setContent_frame]
    rfl
  refine ⟨fun ends => ?_, fun goes head => ?_, fun goes noHead => ?_⟩
  · rw [planeAdvance_ends ends, setStage_stage, if_pos rfl]
  · rw [planeAdvance_goes goes, planeOps_begins (can.mpr head), setStage_stage, if_pos rfl]
  · rw [planeAdvance_goes goes, planeOps_publishes fun h => noHead (can.mp h), publish_stage, publish_plane, setContent_plane]
    refine ⟨rfl, ?_⟩
    simp

theorem passTicks_stamp {s : State} (n : Nat) (active : s.active = true) : (s.passTicks n).timer.stamp = s.timer.stamp := by
  rw [passTicks_active s n active]
  dsimp only
  split <;> simp [State.loseSync]

/-- Settles O39: what each step of R79 leaves of its plane, and then what the blocks that go on leave alone. -/
theorem transitionsEndAndOperationsBegin : Obligations.TransitionsEndAndOperationsBegin := by
  refine ⟨fun s q stage => ?_, fun s q e pre rest stage split before first due ready => ?_,
    fun _ _ _ _ => ⟨rfl, rfl, rfl, rfl, rfl⟩, fun s n q accepts noSwitch free => ?_, fun s q stage unready => ?_,
    fun _ _ _ _ => ⟨⟨rfl, rfl, rfl, rfl, rfl⟩, ⟨rfl, rfl, rfl, rfl, rfl⟩, rfl, rfl, rfl, rfl, rfl⟩, readySlot_iff⟩
  · obtain ⟨content, schedule, mark, released, operates⟩ := transitionEnd_spec s q stage
    refine ⟨s.transStep q, rfl, fun i k n c => ⟨?_, ?_⟩, fun i o k n c => ⟨?_, ?_⟩, fun o k n c => ⟨?_, ?_⟩, schedule, mark,
      released, operates, transStep_rest s q⟩
    · rw [content, c]
      rfl
    · rw [transStep_eq stage]
      simp [State.settle, c, Content.outgoing, State.release?]
    · rw [content, c]
      rfl
    · rw [c] at released
      exact Releases.one released
    · rw [content, c]
      rfl
    · rw [c] at released
      exact Releases.one released
  · have head := takeHead_pre pre e rest before first
    rw [← split] at head
    have can := (headBegins_iff s q).mpr ⟨pre, e, rest, split, before, first, due, ready⟩
    obtain ⟨schedule, mark, operates, retiring, content, released⟩ := operationBegin_spec stage can head
    refine ⟨s.opStep q, rfl, schedule, mark, operates, retiring, ?_⟩
    intro stood n
    have stood_eq : (s.plane q).content.settled = stood := rfl
    rw [stood_eq] at content released
    refine ⟨fun x hx empty => ?_, fun x hx same => ?_, fun x y hx shown other => ?_, fun hide empty => ?_,
      fun y hide shown => ?_, ⟨fun empty => ?_, fun x hx same => ?_, fun y shown other => ?_⟩, opStep_rest s q⟩
    · rw [content, hx, empty]
      rfl
    · rw [content, hx, same]
      exact if_pos rfl
    · rw [content, hx, shown]
      exact if_neg (Ne.symm other)
    · rw [content, hide, empty]
      rfl
    · rw [content, hide, shown]
      rfl
    · rw [empty, endedRole_empty] at released
      exact Releases.none_left (l := [_]) released
    · rw [hx, same, endedRole, if_pos rfl] at released
      exact released
    · rw [shown, endedRole_other other] at released
      by_cases long : 2 ≤ n
      · rw [if_pos long] at released ⊢
        exact Releases.none_left (l := [_]) released
      · rw [if_neg long] at released ⊢
        exact released
  · obtain ⟨x, step, heap, compactor, slide, menu, work, timer, jump⟩ := acceptFrame_eq (s.passTicks n)
    have plane0 : x.plane q = (s.plane q).unmarked := by
      cases q
      · exact slide.trans (by simp [State.plane])
      · exact menu.trans (by simp [State.plane])
    have stamp : x.timer.stamp = s.timer.stamp + 1 := by
      rw [timer, Timer.accepted, passTicks_stamp n accepts.2.1]
    have phase : x.compactor.phase ≠ .switchPending := by
      rw [compactor, sawFrame_phase, ne_eq, confirmMove_switch]
      simpa using noSwitch
    obtain ⟨v, vheap, vslots, vtimer, vplane, stage, plane⟩ := advanceWork_starts (q := q) (by rw [work]; rfl) phase
      (fun p => by cases p <;> simp [State.stage, work, State.workAtStart]) (fun h => jump.trans (by simp [free h]))
    rw [plane0] at vplane
    have ready (y) : x.advanceWork.readySlot y = v.readySlot y :=
      readySlot_congr v _ y (by rw [vheap]) (by rw [slot_congr vslots])
    obtain ⟨ends, begins, publishes⟩ := planeAdvance_spec (v := v) (q := q) (l := (s.plane q).schedule) (by rw [vplane]; rfl)
    rw [vplane, vtimer, stamp] at publishes
    rw [vplane] at ends
    rw [vplane, vtimer, stamp] at begins
    have whole : x.advanceWork.plane q = { (s.plane q).unmarked with
        content := (s.plane q).content.advanced.1, view := (x.advanceWork.plane q).view } := by
      rw [plane, planeAdvance_plane, vplane]
      rfl
    have content : (x.advanceWork.plane q).content = (s.plane q).content.advanced.1 := by rw [whole]
    refine ⟨x.advanceWork, (frameStart_accepts s n accepts).trans (congrArg _ step), by rw [whole]; rfl, by rw [whole]; rfl,
      fun i k m c => ?_, fun i o k m c => ?_, fun o k m c => ?_, fun c => ?_, ?_⟩
    · rw [content, c]
      rfl
    · rw [content, c]
      rfl
    · rw [content, c]
      rfl
    · rcases c with c | ⟨i, c⟩ <;> rw [content, c] <;> rfl
    · simp only [ready, ← advanced_ends_iff, content]
      rw [stage, plane]
      exact ⟨ends, begins, publishes⟩
  · have noHead : ¬ s.headBegins q = true := fun can => by
      obtain ⟨pre, e, rest, split, before, first, due, ready⟩ := (headBegins_iff s q).mp can
      obtain ⟨x, page, blocked⟩ := unready pre e rest split before first due
      simp [ready x page] at blocked
    obtain ⟨plane, idle, walker, slots⟩ := operationBegin_publishes stage noHead
    rw [publish_plane] at plane
    exact ⟨s.opStep q, rfl, by rw [plane], by rw [plane], idle, walker, slots, by rw [plane]⟩

end Sys2Proof.Machine

/-! ## COMPACT HEAP is handed over (O27): R27, R28, R39 -/

namespace Sys2Proof.Machine

/-- The compactor as it takes a task: PAUSED at once in HALTING (log 16), else it waits for the loads in the queue (R27, R28). -/
def State.compactorTaking (s : State) (task : TaskRef) : Compactor :=
  { task := some task
    phase := if s.run.state = .halting then .paused else if s.heap.loads = [] then .scanning else .waiting
    wasWaiting := decide (s.run.state = .halting ∧ s.heap.loads ≠ []) }

theorem judgeCompact_idle {s : State} (idle : s.compactor.phase = .idle) (t : Task) :
    s.judgeCompact t = State.dealt { s with compactor := s.compactorTaking t.ref } := by
  unfold State.judgeCompact State.compactorTaking
  rw [idle]
  cases loads : s.heap.loads <;> cases run : s.run.state <;> rfl

theorem judgeCompact_busy {s : State} (busy : s.compactor.phase ≠ .idle) (t : Task) : s.judgeCompact t = s.stall := by
  unfold State.judgeCompact
  split
  · next idle => exact absurd idle busy
  all_goals rfl

theorem exec_compactHeap {s : State} {task : Task} (hand : s.inHand 3 = some task) :
    exec .compactHeap s = .next (s.judgeCompact task) := by
  simp only [exec, execCompactHeap, hand]

theorem exec_compactWaitEnd_waiting {s : State} (waiting : s.compactor.phase = .waiting) : exec .compactWaitEnd s =
    .next (if s.heap.loads.all (·.held) then { s with compactor := { s.compactor with phase := .scanning } } else s) := by
  simp only [exec, execCompactWaitEnd, waiting]

theorem exec_compactWaitEnd_other {s : State} (other : s.compactor.phase ≠ .waiting) : exec .compactWaitEnd s = .next s := by
  simp only [exec, execCompactWaitEnd]
  split
  · next waiting => exact absurd waiting other
  all_goals rfl

/-- Settles O27: the handover by the compactor's phase, the end of the wait by the loads accepted before it. -/
theorem compactHeapIsHandedOverAndWaits : Obligations.CompactHeapIsHandedOverAndWaits := by
  refine ⟨fun s task hand => ⟨_, exec_compactHeap hand, fun busy => ?_, fun idle => ?_⟩, fun s => ⟨fun waiting held => ?_, ?_⟩⟩
  · rw [judgeCompact_busy busy]
    exact stall_stalls s
  · have compactor : (s.judgeCompact task).compactor = s.compactorTaking task.ref := by
      rw [judgeCompact_idle idle, dealt_eq]
    rw [compactor]
    refine ⟨?_, rfl, rfl, rfl, rfl, rfl, ?_, fun going => if_neg going, fun halting => if_pos halting⟩
    · rw [judgeCompact_idle idle]
      exact dealt_handsOver { s with compactor := s.compactorTaking task.ref }
    · rw [judgeCompact_idle idle, dealt_eq]
  · rw [exec_compactWaitEnd_waiting waiting, if_pos (List.all_eq_true.mpr held)]
  · rintro (other | ⟨l, among, free⟩)
    · exact exec_compactWaitEnd_other other
    · by_cases waiting : s.compactor.phase = .waiting
      · rw [exec_compactWaitEnd_waiting waiting, if_neg]
        exact fun all => by simp [List.all_eq_true.mp all l among] at free
      · exact exec_compactWaitEnd_other waiting

end Sys2Proof.Machine

/-! ## The scan (O28): R29 to R31, R37, R39 -/

namespace Sys2Proof.Machine

/-! ### The low mark and the lowest region (R29) -/

theorem lowered_eq_self (low : Nat) (l : List Extent) (h : ∀ x ∈ l, ¬ (x.start < low ∧ low ≤ x.start + x.len)) :
    lowered low l = low := by
  induction l with
  | nil => rfl
  | cons x xs ih =>
    obtain ⟨here, there⟩ := List.forall_mem_cons.mp h
    rw [lowered, Extent.stop, if_neg here]
    exact ih there

/-- Extents that lie past the mark do not hold the granule below it. -/
theorem le_start_of_mem {lo : Nat} {l : List Extent} (ordered : extentsFrom lo l = true) {x : Extent} (among : x ∈ l) :
    lo ≤ x.start := by
  induction l generalizing lo with
  | nil => simp at among
  | cons y ys ih =>
    obtain ⟨first, -, rest⟩ := (extentsFrom_cons lo y ys).mp ordered
    rcases List.mem_cons.mp among with rfl | later
    · exact first
    · have := ih rest later
      unfold Extent.stop at this
      omega

/-- The extent that holds the granule just below the mark is the only one that does. -/
theorem lowered_eq_start {low lo : Nat} {l : List Extent} (ordered : extentsFrom lo l = true) {x : Extent} (among : x ∈ l)
    (below : x.start < low) (reaches : low ≤ x.start + x.len) : lowered low l = x.start := by
  induction l generalizing lo with
  | nil => simp at among
  | cons y ys ih =>
    obtain ⟨-, -, rest⟩ := (extentsFrom_cons lo y ys).mp ordered
    unfold lowered
    rcases List.mem_cons.mp among with rfl | later
    · exact if_pos ⟨below, reaches⟩
    · have past := le_start_of_mem rest later
      rw [if_neg (by omega)]
      exact ih rest later

theorem lowestFrom_eq_none_iff (low i : Nat) (l : List DirEntry) :
    lowestFrom low i l = none ↔ ∀ e ∈ l, ¬ (0 < e.count ∧ low ≤ e.offset) := by
  induction l generalizing i with
  | nil => simp [lowestFrom]
  | cons e es ih =>
    rw [lowestFrom, List.forall_mem_cons, ← ih (i + 1)]
    by_cases region : 0 < e.count ∧ low ≤ e.offset
    · rw [if_pos region]
      refine iff_of_false ?_ fun h => h.1 region
      split
      · split <;> exact nofun
      · exact nofun
    · rw [if_neg region]
      exact ⟨fun h => ⟨region, h⟩, fun h => h.2⟩

/-- The region found, among entries numbered from `i`, is the lowest of those at or above the mark. -/
theorem lowestFrom_lowest {low i j : Nat} {l : List DirEntry} {f : DirEntry} (h : lowestFrom low i l = some (j, f)) :
    i ≤ j ∧ l[j - i]? = some f ∧ 0 < f.count ∧ low ≤ f.offset ∧ ∀ x ∈ l, 0 < x.count → low ≤ x.offset → f.offset ≤ x.offset := by
  induction l generalizing i j f with
  | nil => simp [lowestFrom] at h
  | cons e es ih =>
    have later {k : Nat} {g : DirEntry} (found : lowestFrom low (i + 1) es = some (k, g)) :
        i ≤ k ∧ (e :: es)[k - i]? = some g := by
      obtain ⟨le, stands, -⟩ := ih found
      rw [show k - i = k - (i + 1) + 1 by omega]
      exact ⟨by omega, by simpa using stands⟩
    rw [lowestFrom] at h
    split at h
    · next region =>
      split at h
      · next k g found =>
        obtain ⟨-, -, counted, above, lowest⟩ := ih found
        split at h
        · next lower =>
          cases h
          obtain ⟨le, stands⟩ := later found
          exact ⟨le, stands, counted, above, List.forall_mem_cons.mpr ⟨fun _ _ => lower.le, lowest⟩⟩
        · next notLower =>
          cases h
          refine ⟨le_rfl, by simp, region.1, region.2, List.forall_mem_cons.mpr ⟨fun _ _ => le_rfl, fun x among c a => ?_⟩⟩
          have := lowest x among c a
          omega
      · next noneLeft =>
        cases h
        have noRegion := (lowestFrom_eq_none_iff low (i + 1) es).mp noneLeft
        exact ⟨le_rfl, by simp, region.1, region.2,
          List.forall_mem_cons.mpr ⟨fun _ _ => le_rfl, fun x among c a => absurd ⟨c, a⟩ (noRegion x among)⟩⟩
    · next noRegion =>
      obtain ⟨-, -, counted, above, lowest⟩ := ih h
      obtain ⟨le, stands⟩ := later h
      exact ⟨le, stands, counted, above, List.forall_mem_cons.mpr ⟨fun c a => absurd ⟨c, a⟩ noRegion, lowest⟩⟩

/-- A reservation takes its granules from the extent at the low mark (R31). -/
theorem extTakeLow_append (low n len : Nat) (pre post : List Extent) (others : ∀ x ∈ pre, x.start ≠ low) :
    extTakeLow low n (pre ++ { start := low, len := len } :: post) =
      pre ++ (if n < len then { start := low + n, len := len - n } :: post else post) := by
  induction pre with
  | nil => exact if_pos rfl
  | cons x xs ih =>
    obtain ⟨here, there⟩ := List.forall_mem_cons.mp others
    rw [List.cons_append, extTakeLow, if_neg here, ih there]
    rfl

/-! ### Drawn objects (R30) -/

theorem mem_roles (c : Content) (p : SlotId) : p ∈ c.roles ↔
    c = .shown p ∨ (∃ k n, c = .entering p k n) ∨ (∃ o k n, c = .crossing p o k n) ∨ (∃ x k n, c = .crossing x p k n)
      ∨ ∃ k n, c = .leaving p k n := by
  cases c <;> simp [Content.roles, eq_comm]

/-- A page that names the object stands in a role of one of two planes' contents. -/
theorem drawn_iff {s : State} {a b : FrameView} (views : s.drawnViews = some (a, b)) (i : Byte) : s.drawn i = true ↔
    (∃ p, i ∈ (s.slot p).named ∧ p ∈ a.content.roles) ∨ ∃ p, i ∈ (s.slot p).named ∧ p ∈ b.content.roles := by
  simp only [State.drawn, views, List.any_eq_true, List.mem_append, decide_eq_true_eq, or_and_right, exists_or,
    and_comm (a := i ∈ _)]

/-! ### The views noted at a frame start (R30, log 3) -/

/-- The blocks that go on note the planes' views once both have published, and leave the views noted before else. -/
theorem advanceWork_notes (u : State) :
    (∀ a b, u.advanceWork.work.slide = .idle → u.advanceWork.work.menu = .idle → u.advanceWork.slide.view = some a →
        u.advanceWork.menu.view = some b → u.advanceWork.drawnViews = some (a, b))
      ∧ (u.advanceWork.work.slide ≠ .idle ∨ u.advanceWork.work.menu ≠ .idle → u.advanceWork.drawnViews = u.drawnViews) := by
  obtain ⟨slideStage, slide⟩ := advanceWork_planes u .slide
  obtain ⟨menuStage, menu⟩ := advanceWork_planes u .menu
  have noted : u.advanceWork.drawnViews = ((u.heapRun.planeRun .slide).planeRun .menu).noteViews.drawnViews := by
    simp [State.advanceWork]
  have before : ((u.heapRun.planeRun .slide).planeRun .menu).drawnViews = u.drawnViews := by simp
  simp only [State.stage, State.plane] at slideStage slide menuStage menu
  rw [slideStage, slide, menuStage, menu, noted, ← before]
  generalize (u.heapRun.planeRun .slide).planeRun .menu = v
  unfold State.noteViews
  constructor
  · intro a b slideDone menuDone slideView menuView
    rw [slideDone, menuDone, slideView, menuView]
  · intro working
    split
    · next slideDone menuDone _ _ => simp [slideDone, menuDone] at working
    · rfl

/-- An outstanding step does nothing, or leaves the views noted to the blocks that go on after it. -/
theorem workStep_advances {c : Instr} (step : c ∈ workSteps) (s : State) : ∃ t, exec c s = .next t
    ∧ (t = s ∨ ∃ u : State, u.drawnViews = s.drawnViews ∧ t = u.advanceWork) := by
  simp only [workSteps, List.mem_cons, List.not_mem_nil, or_false] at step
  rcases step with rfl | rfl | rfl | rfl | rfl | rfl | rfl | rfl | rfl | rfl
  all_goals
    refine ⟨_, rfl, ?_⟩
    simp only [State.switchStep, State.paletteStep, State.transStep, State.opStep, State.jumpApplyStep, State.actEndStep,
      State.expiryStep, State.timeoutStep]
    split
    · exact .inr ⟨_, by simp [apply_ite State.drawnViews], rfl⟩
    all_goals exact .inl rfl

/-- What the blocks start from at an accepted frame start stands before them: the views noted are those of before. -/
theorem acceptFrame_advances (s : State) : ∃ u : State, u.drawnViews = s.drawnViews ∧ s.acceptFrame = u.advanceWork := by
  refine ⟨_, ?_, rfl⟩
  split <;> simp

/-! ### A scan step (R29 to R31, R37, R39) -/

theorem exec_compactScanStep {s : State} (scanning : s.compactor.phase = .scanning) :
    exec .compactScanStep s = .next s.scanStep := by
  simp only [exec, execCompactScanStep, scanning]

section
variable {s : State} {i : Nat} {e : DirEntry}

theorem scanStep_retires (noneLeft : lowestFrom (lowered s.compactor.low s.heap.extents) 0 s.heap.dir.toList = none) :
    s.scanStep = (s.setLow (lowered s.compactor.low s.heap.extents)).endCompaction .done 0 := by
  simp only [State.scanStep, setLow_compactor, setLow_heap, noneLeft]

variable (found : lowestFrom (lowered s.compactor.low s.heap.extents) 0 s.heap.dir.toList = some (i, e))
include found

/-- What a scan step does with the region that it takes. -/
theorem scanStep_takes : s.scanStep =
    let low := lowered s.compactor.low s.heap.extents
    if s.run.state = .halting then { s with compactor := s.compactor.halted }
    else if e.offset = low then s.setLow (e.offset + e.count)
    else if e.offset < low + e.count ∧ s.drawn (BitVec.ofNat 8 i) = true then
      State.setLow (e.offset + e.count) { s with compactor := { s.compactor with skipped := s.compactor.skipped + 1 } }
    else (s.setLow low).reserve (BitVec.ofNat 8 i) e := by
  simp only [State.scanStep, State.setLow, found]
  rfl

end

/-- A reservation, but for the beginning of a copy that need not wait (R31). -/
theorem reserve_spec (s : State) (i : Byte) (e : DirEntry) :
    let overlap := decide (e.offset < s.compactor.low + e.count)
    let t := s.reserve i e
    t.compactor.move = some { id := i, src := e.offset, dst := s.compactor.low, count := e.count, overlap := overlap, copied := 0 }
      ∧ t.compactor.phase = (if overlap then .confirming else .copying) ∧ t.compactor.low = s.compactor.low
      ∧ t.entry i = { e with moving := some { dest := s.compactor.low, overlap := overlap } }
      ∧ t.heap.extents = extTakeLow s.compactor.low (min e.count (e.offset - s.compactor.low)) s.heap.extents
      ∧ (overlap = false → t.port.compReq = some { user := .compRead, block := s.heapBase + 64 * e.offset, sel := none }) := by
  unfold State.reserve
  dsimp only
  cases decide (e.offset < s.compactor.low + e.count) with
  | true => exact ⟨rfl, rfl, rfl, setEntry_entry_self _ i _, rfl, fun apart => Bool.noConfusion apart⟩
  | false => exact ⟨rfl, rfl, rfl, setEntry_entry_self _ i _, rfl, fun _ => rfl⟩

/-- A scan step changes the heap, the compactor, and what the retirement of a compaction or the first read of a move does to
the walker and the port. -/
theorem scanStep_rest (s : State) : s.scanStep =
    { s with heap := s.scanStep.heap, compactor := s.scanStep.compactor, walker := s.scanStep.walker, port := s.scanStep.port } :=
  eq_of_frame (s := { s with compactor := s.scanStep.compactor }) (by simp [Kept]) rfl (by simp [SamePlanes])
    (by simp [SameShow]) (by simp [SameNotes]) (by simp) (by simp)

/-- Settles O28: the mark and the region by induction on their tables, the views noted by what the blocks that go on do, and a
step by the region that it takes. -/
theorem scanStepPassesSkipsReservesOrRetires : Obligations.ScanStepPassesSkipsReservesOrRetires := by
  refine ⟨fun low l => ⟨fun x ordered among below reaches => lowered_eq_start ordered among below reaches, lowered_eq_self low l⟩,
    fun low l => ⟨lowestFrom_eq_none_iff low 0 l, fun i e found => (lowestFrom_lowest found).2⟩,
    fun low n len pre post others => extTakeLow_append low n len pre post others,
    fun s i => ⟨fun noneLeft => by simp only [State.drawn, noneLeft], fun a b views => ?_⟩, fun s c n step => ?_,
    fun s scanning => ⟨s.scanStep, exec_compactScanStep scanning, scanStep_rest s, fun noneLeft task hasTask => ?_,
      fun i e found halting => ?_, fun i e found goes here => ?_, fun i e found goes past overlap drawn => ?_,
      fun i e found goes past free => ?_⟩⟩
  · simp only [drawn_iff views, mem_roles]
  · rcases step with ⟨rfl, accepts⟩ | ⟨among, working⟩
    · obtain ⟨u, before, advances⟩ := acceptFrame_advances (s.passTicks n)
      refine ⟨u.advanceWork, (frameStart_accepts s n accepts).trans (congrArg _ advances), ?_⟩
      have notes := advanceWork_notes u
      rwa [before, show (s.passTicks n).drawnViews = s.drawnViews by simp] at notes
    · obtain ⟨t, does, rfl | ⟨u, before, rfl⟩⟩ := workStep_advances among s
      · exact ⟨t, does, fun _ _ slideDone menuDone => by simp [slideDone, menuDone] at working, fun _ => rfl⟩
      · refine ⟨u.advanceWork, does, ?_⟩
        rw [← before]
        exact advanceWork_notes u
  · have e := endCompaction_eq (s := s.setLow (lowered s.compactor.low s.heap.extents)) hasTask .done 0
    rw [scanStep_retires noneLeft]
    generalize State.endCompaction .done 0 _ = t at e ⊢
    rw [e]
    exact ⟨rfl, rfl, by simp, rfl⟩
  · rw [scanStep_takes found]
    dsimp only
    rw [if_pos halting]
    simp only [Compactor.halted, scanning]
  · rw [scanStep_takes found]
    dsimp only
    rw [if_neg goes, if_pos here]
    rfl
  · rw [scanStep_takes found]
    dsimp only
    rw [if_neg goes, if_neg past, if_pos ⟨overlap, drawn⟩]
    rfl
  · have reserves : s.scanStep = (s.setLow (lowered s.compactor.low s.heap.extents)).reserve (BitVec.ofNat 8 i) e := by
      rw [scanStep_takes found]
      dsimp only
      rw [if_neg goes, if_neg past, if_neg free]
    rw [reserves]
    exact reserve_spec (s.setLow (lowered s.compactor.low s.heap.extents)) (BitVec.ofNat 8 i) e

end Sys2Proof.Machine

/-! ## The walker goes on and is prompted (O16, O19): R175, R176, R178, R186 -/

namespace Sys2Proof.Machine

section
variable {s : State}

/-- With no retirement outstanding the record's read is asked for at once (R178). -/
theorem toReading_asks (free : s.walker.retiring = []) (a : Word) (holder : Option Word) : s.toReading a holder =
    State.ask .record a.toNat none { s with walker := { s.walker with
      st := .reading, cur := some a, holder := holder, asked := true, task := none, job := .judge } } := by
  simp only [State.toReading, State.requestRecord, free]

/-- A retirement outstanding goes before the record's read (R178). -/
theorem toReading_waits (retiring : s.walker.retiring ≠ []) (a : Word) (holder : Option Word) : s.toReading a holder =
    { s with walker := { s.walker with
      st := .reading, cur := some a, holder := holder, asked := false, task := none, job := .judge } } := by
  obtain ⟨r, rs, some_⟩ := List.exists_cons_of_ne_nil retiring
  simp only [State.toReading, State.requestRecord, some_]

theorem promptWalker_other (h : s.walker.st ≠ .parked) : s.promptWalker = s := by
  unfold State.promptWalker
  split
  · next parked => exact absurd parked h
  all_goals rfl

section
variable (parked : s.walker.st = .parked)
include parked

theorem promptWalker_asks (h : s.walker.reread = .none) :
    s.promptWalker = State.askLink { s with walker := { s.walker with reread := .asked } } := by
  simp only [State.promptWalker, parked, h]

theorem promptWalker_asked (h : s.walker.reread = .asked) : s.promptWalker = s := by
  simp only [State.promptWalker, parked, h]

theorem promptWalker_granted {again : Bool} (h : s.walker.reread = .granted again) :
    s.promptWalker = { s with walker := { s.walker with reread := .granted true } } := by
  simp only [State.promptWalker, parked, h]

end

/-! ### Where a halted walker goes on (R186) -/

theorem resumeWalker_link (h : s.walker.st = .halted .link) :
    s.resumeWalker = State.askLink { s with walker := { s.walker with st := .linking } } := by
  simp only [State.resumeWalker, h]

theorem resumeWalker_record (h : s.walker.st = .halted .record) :
    s.resumeWalker = s.toReading (s.walker.cur.getD 0) s.walker.holder := by
  simp only [State.resumeWalker, h]

theorem resumeWalker_handover (h : s.walker.st = .halted .handover) :
    s.resumeWalker = { s with walker := { s.walker with st := .stalled } } := by
  simp only [State.resumeWalker, h]

theorem resumeWalker_wait (h : s.walker.st = .halted .wait) :
    s.resumeWalker = { s with walker := { s.walker with st := .waiting } } := by
  simp only [State.resumeWalker, h]

theorem resumeWalker_parked (h : s.walker.st = .halted .parked) :
    s.resumeWalker = State.promptWalker { s with walker := { s.walker with st := .parked } } := by
  simp only [State.resumeWalker, h]

theorem resumeWalker_other (h : ∀ point, s.walker.st ≠ .halted point) : s.resumeWalker = s := by
  unfold State.resumeWalker
  split
  iterate 5 next halted => exact absurd halted (h _)
  all_goals rfl

end

/-- What each resume point makes of the walker, and what it asks for (R175, R176, R178, R186). -/
theorem resumeWalker_goesOn (s : State) :
    let link : Burst := { user := .link, block := (s.walker.cur.getD 0).toNat, sel := none }
    let asks (l : List Burst) : Prop := s.resumeWalker.port.walkerQ = s.port.walkerQ ++ l
    (s.walker.st = .halted .link → s.resumeWalker.walker = { s.walker with st := .linking } ∧ asks [link])
      ∧ (∀ a, s.walker.st = .halted .record → s.walker.cur = some a →
          (s.walker.retiring = [] →
            s.resumeWalker.walker = { s.walker with st := .reading, asked := true, task := none, job := .judge }
              ∧ asks [{ user := .record, block := a.toNat, sel := none }])
          ∧ (s.walker.retiring ≠ [] →
            s.resumeWalker.walker = { s.walker with st := .reading, asked := false, task := none, job := .judge } ∧ asks []))
      ∧ (s.walker.st = .halted .handover → s.resumeWalker.walker = { s.walker with st := .stalled } ∧ asks [])
      ∧ (s.walker.st = .halted .wait → s.resumeWalker.walker = { s.walker with st := .waiting } ∧ asks [])
      ∧ (s.walker.st = .halted .parked →
          (s.walker.reread = .none → s.resumeWalker.walker = { s.walker with st := .parked, reread := .asked } ∧ asks [link])
          ∧ (s.walker.reread = .asked → s.resumeWalker.walker = { s.walker with st := .parked } ∧ asks [])
          ∧ (∀ x, s.walker.reread = .granted x →
              s.resumeWalker.walker = { s.walker with st := .parked, reread := .granted true } ∧ asks []))
      ∧ ((∀ x, s.walker.st ≠ .halted x) → s.resumeWalker.walker = s.walker ∧ asks []) := by
  have asksNothing : s.port.walkerQ = s.port.walkerQ ++ [] := (List.append_nil _).symm
  refine ⟨fun link => ?_, fun a record here => ⟨fun free => ?_, fun retiring => ?_⟩, fun handover => ?_, fun wait => ?_,
    fun parked => ⟨fun fresh => ?_, fun asked => ?_, fun again granted => ?_⟩, fun other => ?_⟩
  · rw [resumeWalker_link link]
    exact ⟨rfl, rfl⟩
  · rw [resumeWalker_record record, toReading_asks free, here]
    exact ⟨Walker.eq_of_fields rfl here.symm rfl rfl rfl rfl rfl rfl rfl, rfl⟩
  · rw [resumeWalker_record record, toReading_waits retiring, here]
    exact ⟨Walker.eq_of_fields rfl here.symm rfl rfl rfl rfl rfl rfl rfl, asksNothing⟩
  · rw [resumeWalker_handover handover]
    exact ⟨rfl, asksNothing⟩
  · rw [resumeWalker_wait wait]
    exact ⟨rfl, asksNothing⟩
  · rw [resumeWalker_parked parked, promptWalker_asks (s := { s with walker := { s.walker with st := .parked } }) rfl fresh]
    exact ⟨rfl, rfl⟩
  · rw [resumeWalker_parked parked, promptWalker_asked (s := { s with walker := { s.walker with st := .parked } }) rfl asked]
    exact ⟨rfl, asksNothing⟩
  · rw [resumeWalker_parked parked, promptWalker_granted (s := { s with walker := { s.walker with st := .parked } }) rfl granted]
    exact ⟨rfl, asksNothing⟩
  · rw [resumeWalker_other other]
    exact ⟨rfl, asksNothing⟩

/-- A walker that goes on changes itself and what it asks for. -/
theorem resumeWalker_onlyWalker (s : State) : s.OnlyWalker s.resumeWalker := by
  refine State.eq_of_fields ?_ ?_ ?_ ?_ ?_ ?_ ?_ ?_ ?_ ?_ ?_ ?_ ?_ ?_ ?_ (Port.eq_of_fields ?_ ?_ ?_ rfl ?_ ?_ ?_) ?_ ?_ ?_ rfl ?_ ?_
  all_goals simp

end Sys2Proof.Machine

/-! ## The reads of a resume (O16): R39, R121, R167, R198 -/

namespace Sys2Proof.Machine

/-- The blocks of a resume that is accepted, with their tunables loaded, before the walker goes on (R198). -/
def State.reloaded (t : Tunables) (s : State) : State := { s with
  run := { s.run with state := .running, refusal := 0, tun := some t, reading := none }
  port := { s.port with accounts := clipAccounts s.port.accounts t.arb }
  keyline := s.keyline.resumed (s.run.tun.getD t) t
  compactor := s.compactor.resumed }

theorem resumed_eq (t : Tunables) (s : State) : s.resumed t = (s.reloaded t).resumeWalker := rfl

theorem judgeResume_refused {b : List Byte} {n : Nat} (h : firstFailure (tunableChecks b) = some n) (s : State) :
    s.judgeResume b = s.refuseResume n := by
  simp only [State.judgeResume, h]

theorem judgeResume_accepted {b : List Byte} (h : firstFailure (tunableChecks b) = none) (s : State) :
    s.judgeResume b = ((s.reloaded (tunablesOf b))).resumeWalker := by
  simp only [State.judgeResume, h]
  exact resumed_eq _ s

theorem clipAccounts_get (a : Four Nat) (p : Four ArbParams) (q : Requester) :
    (clipAccounts a p).get q = min (a.get q) (p.get q).clip := by
  cases q <;> rfl

theorem resumed_paused {c : Compactor} (h : c.phase = .paused) :
    c.resumed = { c with phase := if c.wasWaiting then .waiting else .scanning, wasWaiting := false } := by
  simp only [Compactor.resumed, h]

theorem resumed_other {c : Compactor} (h : c.phase ≠ .paused) : c.resumed = c := by
  unfold Compactor.resumed
  split
  · next paused => exact absurd paused h
  all_goals rfl

theorem resumed_listening (k : KeyLine) (old new : Tunables) : (k.resumed old new).listening = true ↔
    k.listening = true ∧ new.keyEnable = true ∧ new.keyAddr = old.keyAddr := by
  simp [KeyLine.resumed, and_assoc]

/-- The completion of a setup block's read in a HALTED part whose resume is under way. -/
theorem exec_resumeReadsComplete {s : State} {f : Flight} {r : SetupRead} (landing : s.LandingRead f (.setup true))
    (halted : s.run.state = .halted) (reading : s.run.reading = some r) (err : Bool) :
    exec (.resumeReadsComplete err) s = .next
      (if f.failed err then s.landed.refuseResume 18
       else if 0 < (r.gather.feed f.data).left then s.landed.readSetup true (r.gather.feed f.data)
       else s.landed.judgeResume (r.gather.feed f.data).got) := by
  have lands := landingRead_complete landing (fun u => decide (u = .setup true)) (decide_eq_true rfl) err
  simp [exec, execResumeReadsComplete, lands, State.resumeRead, halted, reading]

/-- Settles O16: the completion by what came, then each block of the resume that is accepted, and the walker by its resume point. -/
theorem resumeReadsDecideTheResume : Obligations.ResumeReadsDecideTheResume := by
  intro s err f r landing halted reading
  refine ⟨_, exec_resumeReadsComplete landing halted reading err, fun bad => ?_, fun good more => ?_,
    fun good whole n fails => ?_, fun good whole passes => ?_⟩
  · rw [if_pos (failed_true bad)]
    rfl
  all_goals rw [if_neg (by simp [failed_false good])]
  · rw [if_pos more]
    rfl
  · rw [if_neg (Nat.not_lt.mpr whole.le), judgeResume_refused fails]
    rfl
  · rw [if_neg (Nat.not_lt.mpr whole.le), judgeResume_accepted passes]
    generalize tunablesOf (r.gather.feed f.data).got = new
    have frame := resumeWalker_onlyWalker (s.landed.reloaded new)
    have accounts : (s.landed.reloaded new).resumeWalker.port.accounts = clipAccounts s.port.accounts new.arb := by
      rw [frame]
      rfl
    have keyline : (s.landed.reloaded new).resumeWalker.keyline = s.keyline.resumed (s.run.tun.getD new) new := by
      rw [frame]
      rfl
    have compactor : (s.landed.reloaded new).resumeWalker.compactor = s.compactor.resumed := by
      rw [frame]
      rfl
    rw [accounts, keyline, compactor]
    refine ⟨frame, fun q => clipAccounts_get _ _ q, rfl, fun old had => ?_, resumed_paused, resumed_other, ?_⟩
    · rw [resumed_listening, had]
      rfl
    exact resumeWalker_goesOn (s.landed.reloaded new)

end Sys2Proof.Machine

/-! ## The frame start that is accepted (O19): R64, R67, R93, R100, R113, R176, R190 -/

namespace Sys2Proof.Machine

/-! ### Prompts at a frame start (R176, R190) -/

/-- A prompt for one more re-read: asked for when none is outstanding, noted when the last has been granted (R176, R190). -/
def Reread.prompted : Reread → Reread
  | .none => .asked
  | .asked => .asked
  | .granted _ => .granted true

/-- What a prompt makes of the walker's re-read (R176). -/
def Walker.rereadPrompted (w : Walker) : Reread := if w.st = .parked then w.reread.prompted else w.reread

/-- What a prompted walker asks for (R176). -/
def Walker.asksPrompted (w : Walker) : List Burst :=
  if w.st = .parked ∧ w.reread = .none then [{ user := .link, block := (w.cur.getD 0).toNat, sel := none }] else []

/-- What a prompt makes of the notice writer's re-read (R190). -/
def Cursor.rereadPrompted (r : Reread) : Cursor → Reread
  | .anchor _ => r.prompted
  | .none => r
  | .blank _ => r

/-- What a prompted notice writer asks for (R190). -/
def Cursor.asksPrompted (r : Reread) (c : Cursor) : List Burst :=
  match c, r with
  | .anchor a, .none => [{ user := .noticeLink, block := a.toNat, sel := Option.none }]
  | _, _ => []

theorem promptWalker_eq (s : State) : s.promptWalker = { s with
    walker := { s.walker with reread := s.walker.rereadPrompted }
    port := { s.port with walkerQ := s.port.walkerQ ++ s.walker.asksPrompted } } := by
  unfold Walker.rereadPrompted Walker.asksPrompted
  by_cases parked : s.walker.st = .parked
  · cases reread : s.walker.reread with
    | none =>
      simp only [promptWalker_asks parked reread, parked, and_self, if_true]
      rfl
    | asked =>
      simp only [promptWalker_asked parked reread, parked, reduceCtorEq, and_false, if_true, if_false, List.append_nil]
      simp only [Reread.prompted, ← reread, ← parked]
    | granted again =>
      simp only [promptWalker_granted parked reread, parked, reduceCtorEq, and_false, if_true, if_false, List.append_nil]
      rfl
  · simp only [promptWalker_other parked, parked, false_and, if_false, List.append_nil]

theorem promptAnchor_eq (s : State) : s.promptAnchor = { s with
    notices := { s.notices with reread := s.notices.cursor.rereadPrompted s.notices.reread }
    port := { s.port with walkerQ := s.port.walkerQ ++ s.notices.cursor.asksPrompted s.notices.reread } } := by
  unfold State.promptAnchor Cursor.rereadPrompted Cursor.asksPrompted
  cases cursor : s.notices.cursor with
  | none => simp only [List.append_nil]
  | blank a => simp only [List.append_nil]
  | anchor a =>
    cases reread : s.notices.reread with
    | none => simp only [State.ask, Reread.prompted]
    | asked => simp only [List.append_nil, Reread.prompted, ← reread]
    | granted again => simp only [List.append_nil, Reread.prompted]

/-! ### The notices of a frame start (R67, R113) -/

theorem submit_glitches (s : State) (b : NoticeBody) : (s.submit b).stats.glitches = s.stats.glitches := by
  unfold State.submit
  split <;> rfl

theorem passTicks_glitches (s : State) (n : Nat) : (s.passTicks n).stats.glitches = s.stats.glitches := by
  unfold State.passTicks
  rw [countTicks_eq]
  split
  · exact submit_glitches _ _
  · rfl

/-- The sync regained at an accepted frame start, as it is submitted (R67, R69). -/
def State.tellRegained (s : State) : State :=
  if s.timer.lost then State.submit (.syncChange true s.timer.accepted.stamp) { s with timer := s.timer.accepted }
  else { s with timer := s.timer.accepted }

@[simp] theorem tellRegained_frame (s : State) : s.tellRegained.timer = s.timer.accepted ∧ s.tellRegained.port = s.port
    ∧ s.tellRegained.composer = s.composer ∧ s.tellRegained.walker = s.walker ∧ s.tellRegained.heap = s.heap
    ∧ s.tellRegained.compactor = s.compactor ∧ s.tellRegained.palette = s.palette ∧ s.tellRegained.slots = s.slots
    ∧ s.tellRegained.jump = s.jump ∧ s.tellRegained.nav = s.nav ∧ s.tellRegained.run = s.run ∧ s.tellRegained.mem = s.mem
    ∧ s.tellRegained.notices.cursor = s.notices.cursor ∧ s.tellRegained.notices.reread = s.notices.reread
    ∧ s.tellRegained.stats.glitches = s.stats.glitches := by
  unfold State.tellRegained
  split <;> simp [submit_glitches]

/-- SYNC_CHANGE (regained) at an accepted frame start (R67). -/
def Timer.regained (t : Timer) : List Notice :=
  if t.lost then [{ body := .syncChange true (t.stamp + 1), stamp := t.stamp + 1 }] else []

theorem tellRegained_queue {s : State} (room : s.notices.queue.length < 8) :
    s.tellRegained.notices.queue = s.notices.queue ++ s.timer.regained := by
  unfold State.tellRegained Timer.regained
  split
  · exact submit_queue { s with timer := s.timer.accepted } _ room
  · exact (List.append_nil _).symm

/-- FRAME_FAULTS for a closed frame with underruns or dropped spans (R113). -/
def Composer.faults (c : Composer) (now : Word) : List Notice :=
  match c.marker with
  | some f =>
    if 0 < c.underruns ∨ 0 < c.drops then [{ body := .frameFaults f c.underruns c.drops, stamp := now }] else []
  | none => []

theorem closeFrame_queue {s : State} (room : s.notices.queue.length < 8) :
    s.closeFrame.notices.queue = s.notices.queue ++ s.composer.faults s.timer.stamp := by
  unfold State.closeFrame Composer.faults
  simp only [dropFlight_frame]
  cases marker : s.composer.marker with
  | none => exact (List.append_nil _).symm
  | some f =>
    by_cases faulty : 0 < s.composer.underruns ∨ 0 < s.composer.drops
    · simp only [if_pos faulty]
      exact submit_queue s _ room
    · simp only [if_neg faulty]
      exact (List.append_nil _).symm

theorem closeFrame_glitches (s : State) : s.closeFrame.stats.glitches = s.stats.glitches := by
  unfold State.closeFrame
  simp only [dropFlight_frame]
  split
  · split
    · exact submit_glitches s _
    · rfl
  · rfl

/-! ### How far the composer's part goes on (R93, log 3) -/

/-- What the composer counts of a frame as it is shown, its drops aside (R93, R100). -/
def Composer.counts (c : Composer) : Bool × Nat × Nat × Nat := (c.lineStarted, c.line, c.pixel, c.underruns)

theorem beginLine_counts (s : State) (p : PlaneId) : (s.beginLine p).composer.counts = s.composer.counts := by
  unfold State.beginLine
  dsimp only
  split
  · cases p <;> rfl
  · rfl

theorem beginLines_counts (p : PlaneId) (n : Nat) (s : State) :
    (State.beginLines p n s).composer.counts = s.composer.counts := by
  induction n generalizing s with
  | zero => rfl
  | succ n ih => exact (ih _).trans (beginLine_counts s p)

theorem beginLines_glitches (p : PlaneId) (n : Nat) (s : State) :
    (State.beginLines p n s).stats.glitches = s.stats.glitches := by
  obtain ⟨⟨c, d, lines⟩, -⟩ := beginLines_eq p n s
  rw [lines]

/-- The composer's steps 3 and 4 leave its counts and the glitches alone (R93). -/
theorem compRun_counts (s : State) :
    s.compRun.composer.counts = s.composer.counts ∧ s.compRun.stats.glitches = s.stats.glitches := by
  have present (x : State) : x.lfPresent.composer.counts = x.composer.counts ∧ x.lfPresent.stats = x.stats := by
    rw [lfPresent_eq]
    exact ⟨rfl, rfl⟩
  unfold State.compRun
  dsimp only
  rw [(present _).1, (present _).2, beginLines_counts, beginLines_counts, beginLines_glitches, beginLines_glitches]
  exact ⟨rfl, rfl⟩

theorem planeOps_comp (s : State) (p : PlaneId) : (s.planeOps p).work.comp = s.work.comp := by
  unfold State.planeOps State.publish
  split <;> cases p <;> rfl

theorem planeAdvance_comp (s : State) (p : PlaneId) : (s.planeAdvance p).work.comp = s.work.comp := by
  unfold State.planeAdvance
  dsimp only
  split
  · cases p <;> rfl
  · exact (planeOps_comp _ p).trans (by simp)

theorem planeRun_comp (s : State) (p : PlaneId) : (s.planeRun p).work.comp = s.work.comp := by
  unfold State.planeRun
  split
  · rfl
  · split
    · unfold State.planeBegin
      split
      exacts [rfl, planeAdvance_comp s .menu, planeAdvance_comp s .slide]
    all_goals rfl

theorem navRunIf_comp (s : State) : s.navRunIf.work.comp = s.work.comp := by
  unfold State.navRunIf State.navRun
  split
  · split
    · rw [navJudge_work]
    · rfl
  · rfl

/-- Before the composer's turn the blocks that go on leave it, its request, its counters and its work alone (R93). -/
theorem advanceWork_composer_last (s : State) : ∃ w : State, s.advanceWork = w.compRunIf ∧ w.work.comp = s.work.comp
    ∧ w.composer = s.composer ∧ w.port = s.port ∧ w.stats = s.stats := by
  refine ⟨_, rfl, ?_, by simp, by simp, by simp⟩
  have noted (x : State) : x.noteViews.work = x.work := by simp
  have heap : s.heapRun.work.comp = s.work.comp := by
    unfold State.heapRun
    split <;> rfl
  rw [navRunIf_comp, noted, planeRun_comp, planeRun_comp, heap]

/-- While the composer's part is outstanding it stands as it stood; once it is done line fetch has presented a request (R93). -/
theorem advanceWork_composes {s : State} (due : s.work.comp = true) (withdrawn : s.port.lfReq = none) :
    (s.advanceWork.work.comp = true → s.advanceWork.port.lfReq = none ∧ s.advanceWork.composer = s.composer)
      ∧ (s.advanceWork.work.comp = false → s.advanceWork = State.lfPresent { s.advanceWork with
          port := { s.advanceWork.port with lfReq := none }
          composer := { s.advanceWork.composer with lastPlane := s.composer.lastPlane } })
      ∧ s.advanceWork.composer.counts = s.composer.counts ∧ s.advanceWork.stats.glitches = s.stats.glitches := by
  obtain ⟨w, last, comp, composer, port, stats⟩ := advanceWork_composer_last s
  rw [last, ← composer, ← stats]
  rw [← port] at withdrawn
  rw [← comp] at due
  unfold State.compRunIf
  split
  · exact ⟨fun left => by simp [compRun_work] at left, fun _ => compRun_presents w withdrawn, compRun_counts w⟩
  · exact ⟨fun _ => ⟨withdrawn, rfl⟩, fun done => by simp [due] at done, rfl, rfl⟩

/-! ### What the blocks start from -/

/-- An accepted frame start before the blocks begin their work (R64, R67, R69, R93, R176, R190). -/
def State.frameOpened (s : State) : State :=
  let x := s.confirmMove.tellRegained.closeFrame.promptWalker.promptAnchor
  { x with compactor := x.compactor.sawFrame, slide := x.slide.unmarked, menu := x.menu.unmarked, work := x.workAtStart }

theorem acceptFrame_opened (s : State) : s.acceptFrame = s.frameOpened.advanceWork := rfl

section
variable (s : State)

theorem frameOpened_walker : s.frameOpened.walker = { s.walker with reread := s.walker.rereadPrompted } := by
  have before : s.confirmMove.tellRegained.closeFrame.walker = s.walker := by simp
  simp only [State.frameOpened, promptAnchor_frame, promptWalker_eq, before]

theorem frameOpened_port : s.frameOpened.port = { s.confirmMove.port with
    lfReq := none
    flight := s.port.flight.map fun f => if f.burst.user.ofLine then { f with dropped := true } else f
    walkerQ := s.port.walkerQ ++ s.walker.asksPrompted ++ s.notices.cursor.asksPrompted s.notices.reread } := by
  have walker : s.confirmMove.tellRegained.closeFrame.walker = s.walker := by simp
  have cursor : s.confirmMove.tellRegained.closeFrame.notices.cursor = s.notices.cursor := by simp
  have reread : s.confirmMove.tellRegained.closeFrame.notices.reread = s.notices.reread := by simp
  simp only [State.frameOpened, promptAnchor_eq, promptWalker_eq, walker, cursor, reread, closeFrame_port, tellRegained_frame,
    confirmMove_frame]

theorem frameOpened_notices : s.frameOpened.notices.cursor = s.notices.cursor
    ∧ s.frameOpened.notices.reread = s.notices.cursor.rereadPrompted s.notices.reread := by
  have cursor : s.confirmMove.tellRegained.closeFrame.notices.cursor = s.notices.cursor := by simp
  have reread : s.confirmMove.tellRegained.closeFrame.notices.reread = s.notices.reread := by simp
  simp only [State.frameOpened, promptAnchor_eq, promptWalker_eq, cursor, reread, and_self]

/-- SYNC_CHANGE (regained) and FRAME_FAULTS join the notices in this order (R67, R113; log 3). -/
theorem frameOpened_queue (room : s.notices.queue.length + 2 ≤ 8) : s.frameOpened.notices.queue =
    s.notices.queue ++ s.timer.regained ++ s.composer.faults (s.timer.stamp + 1) := by
  have told : s.confirmMove.tellRegained.notices.queue = s.notices.queue ++ s.timer.regained := by
    rw [tellRegained_queue] <;> simp
    omega
  have closed : s.confirmMove.tellRegained.closeFrame.notices.queue
      = s.notices.queue ++ s.timer.regained ++ s.composer.faults (s.timer.stamp + 1) := by
    rw [closeFrame_queue, told]
    · simp [Timer.accepted]
    · rw [told, Timer.regained]
      split <;> simp <;> omega
  simp only [State.frameOpened, promptAnchor_eq, promptWalker_eq, closed]

theorem frameOpened_composer : s.frameOpened.composer = { s.composer with
    slide := { s.composer.slide with bufs := [], next := 0 }, menu := { s.composer.menu with bufs := [], next := 0 }
    lastPlane := .menu, lineStarted := false, line := 0, pixel := 0, underruns := 0, drops := 0 } := by
  have before : s.confirmMove.tellRegained.composer = s.composer := by simp
  simp only [State.frameOpened, promptAnchor_eq, promptWalker_eq, closeFrame_composer, before]

theorem frameOpened_rest : s.frameOpened.heap = s.confirmMove.heap ∧ s.frameOpened.compactor = s.confirmMove.compactor.sawFrame
    ∧ s.frameOpened.timer = s.timer.accepted ∧ s.frameOpened.run = s.run ∧ s.frameOpened.mem = s.mem
    ∧ s.frameOpened.palette = s.palette ∧ s.frameOpened.slots = s.slots ∧ s.frameOpened.jump = s.jump
    ∧ s.frameOpened.nav = s.nav ∧ s.frameOpened.stats.glitches = s.stats.glitches ∧ s.frameOpened.work.comp = true := by
  refine ⟨?_, ?_, ?_, ?_, ?_, ?_, ?_, ?_, ?_, ?_, rfl⟩
  all_goals simp [State.frameOpened, closeFrame_glitches]

end

theorem sawFrame_confirming {c : Compactor} (h : c.phase = .confirming) : c.sawFrame = { c with frameSeen := true } := by
  simp only [Compactor.sawFrame, h]

theorem sawFrame_other {c : Compactor} (h : c.phase ≠ .confirming) : c.sawFrame = c := by
  unfold Compactor.sawFrame
  split
  · next confirming => exact absurd confirming h
  all_goals rfl

theorem ofLine_iff (u : User) : u.ofLine = true ↔ ∃ p y i, u = .line p y i := by
  cases u <;> simp [User.ofLine]

/-- What the next `n` ticks leave of the timer, the notices and the drawn test, told by the loss that falls within them. -/
theorem passTicks_told {s : State} (n : Nat) (active : s.active = true) :
    let u := if s.lossPassed n then s.loseSync else s
    (s.passTicks n).timer = { u.timer with tick := min (s.timer.tick + n) (3 * s.interval) }
      ∧ (s.passTicks n).notices = u.notices ∧ u.timer.stamp = s.timer.stamp
      ∧ (s.passTicks n).confirmMove.heap = s.confirmMove.heap ∧ (s.passTicks n).confirmMove.compactor = s.confirmMove.compactor
      ∧ (s.passTicks n).confirmMove.port = s.confirmMove.port := by
  rw [confirmMove_passTicks, passTicks_active s n active]
  dsimp only
  refine ⟨rfl, rfl, ?_, by simp, by simp, by simp⟩
  split <;> simp

/-- What an accepted frame start, with the loss of sync before it taken in `u`, leaves in `t`: time, notices, re-reads and requests
as the frame start itself has them, the drawn test made, and the rest as it stood (R64, R67, R93, R176, R190). -/
structure FrameAccepted (s u t : State) : Prop where
  timer : t.timer = u.timer.accepted
  glitches : t.stats.glitches = s.stats.glitches
  kept : t.run = s.run ∧ t.mem = s.mem ∧ t.palette = s.palette ∧ t.slots = s.slots ∧ t.jump = s.jump
    ∧ t.nav.word = s.nav.word ∧ t.nav.queue = s.nav.queue
  heap : t.heap = { s.confirmMove.heap with view := t.heap.view }
  compactor : t.compactor = s.confirmMove.compactor.sawFrame
  walker : t.walker = { s.walker with reread := s.walker.rereadPrompted }
  cursor : t.notices.cursor = s.notices.cursor
  reread : t.notices.reread = s.notices.cursor.rereadPrompted s.notices.reread
  queue : u.notices.queue.length + 2 ≤ 8 →
    t.notices.queue = u.notices.queue ++ u.timer.regained ++ s.composer.faults (u.timer.stamp + 1)
  requests : t.port.compReq = s.confirmMove.port.compReq ∧ t.port.decReq = s.port.decReq
  walkerQ : t.port.walkerQ = s.port.walkerQ ++ s.walker.asksPrompted ++ s.notices.cursor.asksPrompted s.notices.reread
  flight : t.port.flight = s.port.flight.map fun f => if f.burst.user.ofLine then { f with dropped := true } else f
  counts : t.composer.counts = (false, 0, 0, 0)
  composer : t.work.comp = true → t.port.lfReq = none ∧ t.composer = { s.composer with
    slide := { s.composer.slide with bufs := [], next := 0 }, menu := { s.composer.menu with bufs := [], next := 0 }
    lastPlane := .menu, lineStarted := false, line := 0, pixel := 0, underruns := 0, drops := 0 }
  presents : t.work.comp = false → t = State.lfPresent { t with
    port := { t.port with lfReq := none }, composer := { t.composer with lastPlane := .menu } }

theorem acceptFrame_accepted {s : State} (n : Nat) (active : s.active = true) :
    FrameAccepted s (if s.lossPassed n then s.loseSync else s) (s.passTicks n).acceptFrame := by
  obtain ⟨ticked, told, -, heapBefore, compactorBefore, portBefore⟩ := passTicks_told n active
  obtain ⟨heap, compactor, timer, run, mem, palette, slots, jump, nav, glitches, comp⟩ := frameOpened_rest (s.passTicks n)
  have walker := frameOpened_walker (s.passTicks n)
  have port := frameOpened_port (s.passTicks n)
  obtain ⟨cursor, reread⟩ := frameOpened_notices (s.passTicks n)
  have queue := frameOpened_queue (s.passTicks n)
  have composer := frameOpened_composer (s.passTicks n)
  rw [acceptFrame_opened]
  rw [heapBefore] at heap
  rw [compactorBefore] at compactor
  rw [portBefore] at port
  rw [told, ticked] at queue
  rw [ticked] at timer
  rw [passTicks_glitches] at glitches
  simp only [passTicks_rest] at walker port cursor reread queue composer run mem palette slots jump nav
  generalize (s.passTicks n).frameOpened = y at *
  obtain ⟨left, done, counts, counted⟩ := advanceWork_composes comp (by rw [port])
  rw [composer] at left done counts
  have frame := advanceWork_rest y
  have decReq : y.port.decReq = s.port.decReq := (congrArg (·.decReq) port).trans (by simp)
  have word : y.advanceWork.nav.word = s.nav.word := by simp [nav]
  have keys : y.advanceWork.nav.queue = s.nav.queue := by simp [nav]
  generalize y.advanceWork = t at *
  exact {
    timer := (congrArg (·.timer) frame).trans timer
    glitches := counted.trans glitches
    kept := ⟨(congrArg (·.run) frame).trans run, (congrArg (·.mem) frame).trans mem, (congrArg (·.palette) frame).trans palette,
      (congrArg (·.slots) frame).trans slots, (congrArg (·.jump) frame).trans jump, word, keys⟩
    heap := heap ▸ congrArg (·.heap) frame
    compactor := (congrArg (·.compactor) frame).trans compactor
    walker := (congrArg (·.walker) frame).trans walker
    cursor := (congrArg (·.notices.cursor) frame).trans cursor
    reread := (congrArg (·.notices.reread) frame).trans reread
    queue := fun room => (congrArg (·.notices.queue) frame).trans (queue room)
    requests := ⟨(congrArg (·.port.compReq) frame).trans (congrArg (·.compReq) port), (congrArg (·.port.decReq) frame).trans decReq⟩
    walkerQ := (congrArg (·.port.walkerQ) frame).trans (congrArg (·.walkerQ) port)
    flight := (congrArg (·.port.flight) frame).trans (congrArg (·.flight) port)
    counts := counts
    composer := left
    presents := done }

/-- Settles O19: each clause is read from what the accepted frame start leaves. -/
theorem acceptedFrameStartRaisesTheStamp : Obligations.AcceptedFrameStartRaisesTheStamp := by
  intro s n idle active due
  obtain ⟨-, -, stamp, -, -, -⟩ := passTicks_told n active
  have accepted := acceptFrame_accepted n active
  have watched := lossPassed_watched s n
  generalize (if s.lossPassed n = true then s.loseSync else s) = u at *
  have accepts := frameStart_accepts s n ⟨idle, active, due⟩
  generalize (s.passTicks n).acceptFrame = t at *
  obtain ⟨run, mem, palette, slots, jump, word, keys⟩ := accepted.kept
  have counts := accepted.counts
  simp only [Composer.counts, Prod.mk.injEq] at counts
  refine ⟨u, s.confirmMove, t, watched, rfl, accepts, ?_, accepted.glitches, run, mem, palette, accepted.heap, slots, jump, word,
    accepted.requests.1, accepted.requests.2, keys, ?_, counts, fun room => ?_, fun moving => ?_, fun parked few => ?_,
    fun again parked granted => ?_, accepted.cursor, fun writing => ?_, fun a anchor few => ?_, fun a again anchor granted => ?_,
    accepted.walkerQ, fun confirming => ?_, fun other => ?_,
    ⟨fun idlePort => ?_, fun f under => ⟨fun line => ?_, fun other => ?_⟩⟩, accepted.composer, accepted.presents⟩
  · rw [accepted.timer, ← stamp]
    rfl
  · rw [accepted.walker]
  · rw [accepted.queue room, ← stamp]
    rfl
  · rw [accepted.walker, Walker.rereadPrompted, if_neg moving]
  · rw [accepted.walker, Walker.rereadPrompted, if_pos parked]
    rcases few with h | h <;> rw [h] <;> rfl
  · rw [accepted.walker, Walker.rereadPrompted, if_pos parked, granted]
    rfl
  · rw [accepted.reread]
    cases place : s.notices.cursor with
    | anchor a => exact absurd place (writing a)
    | none => rfl
    | blank a => rfl
  · rw [accepted.reread, anchor]
    rcases few with h | h <;> rw [h] <;> rfl
  · rw [accepted.reread, anchor, granted]
    rfl
  · rw [accepted.compactor, sawFrame_confirming confirming]
  · rw [accepted.compactor, sawFrame_other other]
  · rw [accepted.flight, idlePort]
    rfl
  · rw [accepted.flight, under, Option.map_some, if_pos ((ofLine_iff _).mpr line)]
  · rw [accepted.flight, under, Option.map_some, if_neg fun line => other ((ofLine_iff _).mp line)]

end Sys2Proof.Machine

/-! ## Holds and claims (O10): R46, R49, R57 -/

namespace Sys2Proof.Machine

/-! ### Claims on page slots (R46) -/

/-- The claims that one plane makes: its roles and its schedule's entries. -/
def Plane.claims (x : Plane) (p : SlotId) : Nat := x.content.claims p + scheduleClaims x.schedule p

/-- How many releases of a list name a slot. -/
def released (l : List (Option SlotId)) (p : SlotId) : Nat := (l.filter fun o => decide (o = some p)).length

theorem claims_eq (s : State) (p : SlotId) : s.claims p = s.slide.claims p + s.menu.claims p + jumpClaims s.jump p := by
  simp only [State.claims, Plane.claims]
  omega

/-- The claims on a slot change as those of the one plane that changes. -/
theorem claims_of_plane {s t : State} {q : PlaneId} (others : ∀ r, r ≠ q → t.plane r = s.plane r) (jump : t.jump = s.jump)
    {p : SlotId} {m n : Nat} (own : (t.plane q).claims p + m = (s.plane q).claims p + n) : t.claims p + m = s.claims p + n := by
  rw [claims_eq, claims_eq, jump]
  cases q with
  | slide =>
    have menu : t.menu = s.menu := others .menu (by decide)
    rw [menu]
    simp only [State.plane] at own
    omega
  | menu =>
    have slide : t.slide = s.slide := others .slide (by decide)
    rw [slide]
    simp only [State.plane] at own
    omega

theorem scheduleClaims_append (l m : List SchedEntry) (p : SlotId) :
    scheduleClaims (l ++ m) p = scheduleClaims l p + scheduleClaims m p := by
  simp [scheduleClaims]

theorem scheduleClaims_cons (e : SchedEntry) (l : List SchedEntry) (p : SlotId) :
    scheduleClaims (e :: l) p = scheduleClaims l p + released [e.page] p := by
  by_cases h : e.page = some p <;> simp [scheduleClaims, released, h]

theorem scheduleClaims_current (l : List SchedEntry) (p : SlotId) :
    scheduleClaims (l.map SchedEntry.current) p = scheduleClaims l p := by
  induction l with
  | nil => rfl
  | cons e es ih => rw [List.map_cons, scheduleClaims_cons, scheduleClaims_cons, ih, SchedEntry.current_page]

theorem scheduleClaims_insertEntry (now : Word) (e : SchedEntry) (l : List SchedEntry) (p : SlotId) :
    scheduleClaims (insertEntry now e l) p = scheduleClaims l p + released [e.page] p := by
  induction l with
  | nil => exact scheduleClaims_cons e [] p
  | cons x xs ih =>
    unfold insertEntry
    split
    · exact scheduleClaims_cons e (x :: xs) p
    · rw [scheduleClaims_cons, scheduleClaims_cons, ih]
      omega

/-- The head that leaves a schedule takes its claim with it. -/
theorem scheduleClaims_takeHead {l r : List SchedEntry} {e : SchedEntry} (h : takeHead l = some (e, r)) (p : SlotId) :
    scheduleClaims l p = scheduleClaims r p + released [e.page] p := by
  obtain ⟨pre, post, rfl, rfl, -, -⟩ := takeHead_some h
  simp only [scheduleClaims_append, scheduleClaims_cons]
  omega

theorem released_cons_cons (o o' : Option SlotId) (l : List (Option SlotId)) (p : SlotId) :
    released (o :: o' :: l) p = released [o] p + released (o' :: l) p := by
  by_cases h : o = some p <;> simp [released, h, Nat.add_comm]

theorem released_none (p : SlotId) : released [none] p = 0 := rfl

/-- A role claims its slot as a release gives it up. -/
theorem contentClaims_eq (c : Content) (p : SlotId) : c.claims p = released (c.roles.map some) p := by
  simp [Content.claims, released, List.filter_map, Function.comp_def]

@[simp] theorem claims_empty (p : SlotId) : Content.empty.claims p = 0 := rfl

theorem claims_entering (x : SlotId) (k n : Nat) (p : SlotId) : (Content.entering x k n).claims p = released [some x] p :=
  contentClaims_eq _ p

theorem claims_shown (x p : SlotId) : (Content.shown x).claims p = released [some x] p := contentClaims_eq _ p

theorem claims_crossing (x y : SlotId) (k n : Nat) (p : SlotId) :
    (Content.crossing x y k n).claims p = released [some x] p + released [some y] p :=
  (contentClaims_eq _ p).trans (released_cons_cons _ _ [] p)

theorem claims_leaving (x : SlotId) (k n : Nat) (p : SlotId) : (Content.leaving x k n).claims p = released [some x] p :=
  contentClaims_eq _ p

theorem claims_standing (x : Option SlotId) (p : SlotId) : (Content.standing x).claims p = released [x] p := by
  cases x with
  | none => rfl
  | some x => exact claims_shown x p

/-- A completed transition keeps the settled role alone (R80). -/
theorem claims_settled (c : Content) (p : SlotId) : released [c.settled] p + released [c.outgoing] p = c.claims p := by
  cases c with
  | empty => rfl
  | entering x k n => rw [claims_entering]; rfl
  | shown x => rw [claims_shown]; rfl
  | crossing x y k n => rw [claims_crossing]; rfl
  | leaving x k n => rw [claims_leaving]; exact Nat.zero_add _

/-- A transition's step leaves its roles alone (R80). -/
theorem claims_advanced (c : Content) (p : SlotId) : c.advanced.1.claims p = c.claims p := by
  cases c <;> rfl

/-- The table of R83 moves the operation's claim to the plane's roles, and what they lose is released. -/
theorem claims_after (before page : Option SlotId) (n : Nat) (p : SlotId) :
    (Content.after before page n).claims p + released [endedRole before page n] p
      = released [before] p + released [page] p := by
  cases before with
  | none =>
    cases page with
    | none => rfl
    | some x => simp only [Content.after, endedRole]; split <;> simp [claims_entering, claims_shown, released_none]
  | some y =>
    cases page with
    | none => simp only [Content.after, endedRole]; split <;> simp [claims_leaving, released_none]
    | some x =>
      simp only [Content.after, endedRole]
      by_cases same : y = x
      · rw [if_pos same, if_pos same, same, claims_shown]
      · rw [if_neg same, if_neg same]
        split <;> simp [claims_crossing, claims_shown, released_none, Nat.add_comm]

/-- A plane at whose frame start no entry is later judged anew makes the same claims (R79). -/
theorem claims_unmarked (x : Plane) (p : SlotId) : x.unmarked.claims p = x.claims p := by
  simp only [Plane.claims, Plane.unmarked, scheduleClaims_current]

/-! ### A page being staged (R49) -/

/-- The reads of a STAGE PAGE are under way. -/
def Job.stages : Job → Bool
  | .pageHeader _ | .pageRest _ _ => true
  | .judge | .loadHeader _ | .palette _ => false

@[simp] theorem stages_judge : Job.judge.stages = false := rfl
@[simp] theorem stages_loadHeader (g : Gather) : (Job.loadHeader g).stages = false := rfl
@[simp] theorem stages_palette (g : Gather) : (Job.palette g).stages = false := rfl
@[simp] theorem stages_pageHeader (g : Gather) : (Job.pageHeader g).stages = true := rfl
@[simp] theorem stages_pageRest (b : List Byte) (g : Gather) : (Job.pageRest b g).stages = true := rfl

theorem stagingOk_iff (s : State) : s.stagingOk = true ↔ (s.walker.job.stages = true →
    ∃ t p, s.walker.task = some t ∧ slotOf (t.p8 16) = some p ∧ s.slot p = .staging) := by
  unfold State.stagingOk
  cases s.walker.job <;> cases s.walker.task <;> simp [Option.any_eq_true]

/-- The walker stages no page in `t`, or the one of the task it has in `s`. -/
@[simp] def State.StagesOn (s t : State) : Prop :=
  t.walker.job.stages = false ∨ t.walker.job.stages = s.walker.job.stages ∧ t.walker.task = s.walker.task

/-! ### What keeps the holds equal to the claims -/

/-- Slots whose holds follow the claims, a STAGING slot staying so while the walker's job goes on. -/
theorem State.holdsOk.of_slots {s t : State} (h : s.holdsOk) (holds : ∀ p, (t.slot p).holds = t.claims p)
    (slots : ∀ p, s.slot p = .staging → t.slot p = .staging) (walker : s.StagesOn t) : t.holdsOk := by
  refine ⟨holds, (stagingOk_iff t).mpr fun stages => ?_⟩
  rcases walker with none | ⟨job, task⟩
  · rw [none] at stages
    exact absurd stages Bool.false_ne_true
  · obtain ⟨r, p, hr, hp, staging⟩ := (stagingOk_iff s).mp h.2 (job ▸ stages)
    exact ⟨r, p, task.trans hr, hp, slots p staging⟩

/-- What leaves the slots and every claim alone. -/
theorem State.holdsOk.of_claims {s t : State} (h : s.holdsOk) (slots : t.slots = s.slots)
    (claims : ∀ p, t.claims p = s.claims p) (walker : s.StagesOn t) : t.holdsOk :=
  h.of_slots (fun p => by rw [slot_congr slots, claims]; exact h.1 p) (fun p => by rw [slot_congr slots]; exact id) walker

/-- What leaves the slots, the planes and the pending jump alone. -/
theorem State.holdsOk.same {s t : State} (h : s.holdsOk)
    (rest : t.slots = s.slots ∧ t.slide = s.slide ∧ t.menu = s.menu ∧ t.jump = s.jump ∧ s.StagesOn t) : t.holdsOk := by
  obtain ⟨slots, slide, menu, jump, walker⟩ := rest
  exact h.of_claims slots (fun p => by rw [claims_eq, claims_eq, slide, menu, jump]) walker

/-- Releases that give up as many holds of each slot as it loses claims (R46, R57). -/
theorem State.holdsOk.releases {s t : State} {l : List (Option SlotId)} (h : s.holdsOk) (slots : s.Releases t l)
    (claims : ∀ p, t.claims p + released l p = s.claims p) (walker : s.StagesOn t) : t.holdsOk := by
  refine h.of_slots (fun p => ?_) (fun p staging => by rw [slots p, staging]; rfl) walker
  have left := claims p
  have held := h.1 p
  rw [slots p, holds_withHolds (Nat.sub_le _ _)]
  change (s.slot p).holds - released l p = _
  omega

/-! ### The planes (R79 to R84) -/

section
variable {s : State} (h : s.holdsOk)
include h

theorem setStage_holds (p g) : (s.setStage p g).holdsOk := h.same (by cases p <;> simp [State.setStage])

theorem publish_holds (p) : (s.publish p).holdsOk :=
  h.of_claims (by simp) (fun x => claims_of_plane (q := p) (m := 0) (n := 0)
    (fun r hr => by simp [State.publish, setStage_plane, setPlane_plane, hr]) (by simp) (by rw [publish_plane]; rfl)) (by simp)

theorem planeOps_holds (p) : (s.planeOps p).holdsOk := by
  unfold State.planeOps
  split
  · exact setStage_holds h p _
  · exact publish_holds h p

theorem setContent_holds (p c) (roles : ∀ x, c.claims x = (s.plane p).content.claims x) : (s.setContent p c).holdsOk :=
  h.of_claims (by simp) (fun x => claims_of_plane (q := p) (m := 0) (n := 0)
    (fun r hr => by rw [State.setContent, setPlane_plane, if_neg hr]) (by simp)
    (by rw [setContent_plane, Plane.claims, Plane.claims, roles])) (by simp)

theorem planeAdvance_holds (p) : (s.planeAdvance p).holdsOk := by
  have stepped := setContent_holds h p _ (claims_advanced (s.plane p).content)
  unfold State.planeAdvance
  dsimp only
  split
  · exact setStage_holds stepped p _
  · exact planeOps_holds stepped p

theorem planeRun_holds (p) : (s.planeRun p).holdsOk := by
  have begun : (s.planeBegin p).holdsOk := by
    unfold State.planeBegin
    split
    · exact setStage_holds h _ _
    · exact planeAdvance_holds h _
    · exact planeAdvance_holds h _
  unfold State.planeRun
  split
  · exact h
  · split
    · exact begun
    all_goals exact h

theorem advanceWork_holds : s.advanceWork.holdsOk := by
  have planes := planeRun_holds (planeRun_holds (h.same (t := s.heapRun) (by simp)) .slide) .menu
  exact planes.same (t := s.advanceWork) (by simp [State.advanceWork])

theorem settle_holds (p) : (s.settle p).holdsOk :=
  h.releases (settle_releases s p) (fun x => claims_of_plane (q := p) (n := 0) (settle_other s p) (by simp) (by
    have roles := claims_settled (s.plane p).content x
    rw [settle_plane]
    simp only [Plane.claims, claims_standing]
    omega)) (by simp)

/-- A head that begins gives its claim to the plane's roles, and what they lose is released (R81, R83). -/
theorem beginHead_holds (p) : (s.beginHead p).holdsOk := by
  cases head : takeHead (s.plane p).schedule with
  | none => simpa only [State.beginHead, head] using h
  | some v =>
    obtain ⟨e, es⟩ := v
    obtain ⟨plane, released, -⟩ := beginHead_spec head
    refine h.releases released (fun x => claims_of_plane (q := p) (n := 0) (beginHead_plane s p).1 (by simp) ?_) (by simp)
    have entry := scheduleClaims_takeHead head x
    have roles := claims_settled (s.plane p).content x
    have row := claims_after (s.plane p).content.settled e.page (e.blend.getD 1) x
    rw [plane, released_cons_cons]
    simp only [Plane.claims]
    omega

end

/-! ### The pending jump (R88 to R90) -/

/-- The slot that a jump holds. -/
def Jump.hold (j : Jump) : Option SlotId := if j.held then some j.target else none

theorem jumpClaims_some (j : Jump) (p : SlotId) : jumpClaims (some j) p = released [j.hold] p := by
  by_cases held : j.held = true <;> by_cases target : j.target = p <;> simp [jumpClaims, released, Jump.hold, held, target]

theorem jumpClaims_any (j : Option Jump) (p : SlotId) :
    (if j.any (fun o => o.held && decide (o.target = p)) then 1 else 0) = jumpClaims j p := by
  cases j <;> simp [jumpClaims]

theorem staged_slot {s : State} {x : SlotId} (h : s.staged x = true) : ∃ d ids n, s.slot x = .staged d ids n := by
  unfold State.staged at h
  split at h
  · next d ids n slot => exact ⟨d, ids, n, slot⟩
  · exact absurd h Bool.false_ne_true
  · exact absurd h Bool.false_ne_true

/-- A jump is applied exactly when it is held to a MENU page that is ready (R89). -/
theorem jumpFailure_none_iff (s : State) (j : Jump) : s.jumpFailure j = none ↔
    j.held = true ∧ ∃ d, s.page j.target = some d ∧ d.kind = .menu ∧ s.readySlot j.target = true := by
  unfold State.jumpFailure
  cases held : j.held with
  | false => simp
  | true =>
    cases page : s.page j.target with
    | none => simp
    | some d => cases kind : d.kind <;> simp [kind]

/-- An applied jump cuts the menu plane to its target and releases what the plane's roles lose (R83, R89). -/
theorem applyJump_applies {s : State} {j : Jump} (applies : s.jumpFailure j = none) :
    (s.applyJump j).menu = { s.menu with content := .shown j.target, mark := true }
      ∧ s.Releases (s.applyJump j) [s.menu.content.outgoing, s.menu.content.settled]
      ∧ (s.applyJump j).jump = none := by
  have settled := settle_releases { s with jump := none } .menu
  have plane := settle_plane { s with jump := none } .menu
  simp only [State.applyJump, applies]
  refine ⟨?_, ?_, by simp⟩
  · simp only [State.plane] at plane
    simp [State.setMark, State.setContent, State.setPlane, State.plane, plane]
  · have shown : s.Releases (State.setMark .menu (State.setContent .menu (.shown j.target)
        (State.settle .menu { s with jump := none }))) [s.menu.content.outgoing] := Releases.slots settled (by simp)
    exact Releases.slots (Releases.more shown _) (by simp)

/-- A failed jump releases the hold it had, and is gone (R90). -/
theorem applyJump_fails {s : State} {j : Jump} {r : JumpFailure} (fails : s.jumpFailure j = some r) :
    (s.applyJump j).menu = s.menu ∧ s.Releases (s.applyJump j) [j.hold] ∧ (s.applyJump j).jump = none := by
  have given : (if j.held then State.releaseHold { s with jump := none } j.target else { s with jump := none })
      = State.release? j.hold { s with jump := none } := by cases held : j.held <;> simp [Jump.hold, held, State.release?]
  simp only [State.applyJump, fails, given]
  exact ⟨by simp, Releases.slots (Releases.more (releases_nil s { s with jump := none } rfl) j.hold) (by simp), by simp⟩

section
variable {s : State} (h : s.holdsOk)
include h

theorem applyJump_holds (j : Jump) (jump : s.jump = some j) : (s.applyJump j).holdsOk := by
  have slide : (s.applyJump j).slide = s.slide := (applyJump_plane s j).1
  cases outcome : s.jumpFailure j with
  | none =>
    obtain ⟨menu, slots, gone⟩ := applyJump_applies outcome
    refine h.releases slots (fun x => ?_) (by simp)
    have roles := claims_settled s.menu.content x
    have held := ((jumpFailure_none_iff s j).mp outcome).1
    rw [claims_eq, claims_eq, slide, menu, gone, jump, jumpClaims_some, released_cons_cons]
    simp only [Plane.claims, claims_shown, Jump.hold, held, if_true, jumpClaims, Option.elim]
    omega
  | some r =>
    obtain ⟨menu, slots, gone⟩ := applyJump_fails outcome
    refine h.releases slots (fun x => ?_) (by simp)
    rw [claims_eq, claims_eq, slide, menu, gone, jump, jumpClaims_some]
    rfl

theorem jumpStep_holds : s.jumpStep.holdsOk := by
  unfold State.jumpStep
  refine planeAdvance_holds ?_ .menu
  split
  · next j jump => exact applyJump_holds h j jump
  · exact h

/-- A delivered jump takes its hold, an older one giving up its own (R88, R90, R147). -/
theorem deliverJump_holds (slot b x) : (s.act slot b (.jump x)).holdsOk := by
  obtain ⟨jump, slots⟩ := act_jump s slot b x
  have slide : (s.act slot b (.jump x)).slide = s.slide := by simp
  have menu : (s.act slot b (.jump x)).menu = s.menu := by simp
  refine h.of_slots (fun p => ?_) (fun p staging => by rw [slots p, staging]; rfl) (by simp)
  have held := h.1 p
  rw [claims_eq] at held
  rw [claims_eq, slide, menu, jump, jumpClaims_some, slots p, jumpClaims_any]
  by_cases taken : p = x ∧ s.staged x = true
  · obtain ⟨rfl, staged⟩ := taken
    obtain ⟨d, ids, n, here⟩ := staged_slot staged
    have one : released [Jump.hold { target := p, held := s.staged p, button := b, slot := slot }] p = 1 := by
      simp [released, Jump.hold, staged]
    rw [here] at held
    rw [if_pos ⟨rfl, staged⟩, one, here]
    simp only [Slot.withHolds, Slot.holds] at held ⊢
    omega
  · have none : released [Jump.hold { target := x, held := s.staged x, button := b, slot := slot }] p = 0 := by
      by_cases staged : s.staged x = true
      · have other : x ≠ p := fun same => taken ⟨same.symm, staged⟩
        simp [released, Jump.hold, staged, other]
      · simp [released, Jump.hold, staged]
    rw [if_neg taken, none, holds_withHolds (by omega)]
    omega

end

section
variable {s : State} (h : s.holdsOk)
include h

/-! ### Actions and activations (R143 to R147, R156 to R166) -/

theorem act_holds (slot b a) : (s.act slot b a).holdsOk := by
  cases a with
  | none => exact h
  | notify c => exact h.same (by simp [State.act])
  | toggle m => exact h.same (by simp [State.act])
  | jump x => exact deliverJump_holds h slot b x

theorem endActivation_holds (slot d b) : (s.endActivation slot d b).holdsOk := by
  unfold State.endActivation
  split
  · next t _ =>
    have acted := act_holds (act_holds h slot b t.act1) slot b t.act2
    dsimp only
    split <;> exact acted.same (by simp)
  · exact h.same (by simp)

theorem activate_holds (slot d b) : (s.activate slot d b).holdsOk := by
  unfold State.activate
  dsimp only
  split
  · split
    · exact endActivation_holds (s := { (State.enter d .activating b (s.moveSel d (some b))) with nav := _ })
        (h.same (by simp)) _ _ _
    · exact h.same (by simp)
  · exact h

theorem endDigit_holds (e) : (s.endDigit e).1.holdsOk := by
  unfold State.endDigit
  dsimp only
  repeat' split
  · exact activate_holds (s := { s with nav := _ }) (h.same (by simp)) _ _ _
  all_goals exact h.same (by simp)

theorem passed_holds (k) : (s.passed k).holdsOk := h.same (by simp)

theorem consumed_holds (d k) : (s.consumed d k).holdsOk := h.same (by simp)

theorem handleKey_holds (k) : (s.handleKey k).holdsOk := by
  have direction : ∀ slot d dir, (s.directionKey slot d dir k).holdsOk := by
    intro slot d dir
    unfold State.directionKey
    split
    · exact passed_holds h k
    split
    · exact consumed_holds h d k
    · refine consumed_holds (s := ite _ _ _) ?_ d k
      split
      · exact activate_holds (h.same (by simp)) _ _ _
      · exact h.same (by simp)
  have digit : ∀ slot d n, (s.digitKey slot d n k).holdsOk := by
    intro slot d n
    unfold State.digitKey
    split
    · exact h.same (by simp)
    split
    · exact consumed_holds (activate_holds h _ _ _) _ _
    · exact passed_holds h k
  unfold State.handleKey
  split
  · split
    · exact direction _ _ _
    split
    · unfold State.okKey
      split
      · exact passed_holds h k
      · exact consumed_holds (activate_holds h _ _ _) _ _
    split
    · exact digit _ _ _
    · exact passed_holds h k
  · exact passed_holds h k

theorem handleItem_holds (i) : (s.handleItem i).holdsOk := by
  cases i with
  | key code task => exact handleKey_holds h _
  | select b a t =>
    unfold State.handleItem State.handleSelect
    dsimp only
    split
    · split
      · next slot d _ _ _ =>
        have selected : State.holdsOk (if a then (s.moveSel d (some b)).activate slot d b else s.moveSel d (some b)) := by
          split
          · exact activate_holds (h.same (by simp)) _ _ _
          · exact h.same (by simp)
        exact selected.same (by simp)
      · exact h.same (by simp)
    · exact h.same (by simp)

theorem takeItem_holds : s.takeItem.holdsOk := by
  have second : ∀ e n k rest, ((s.popItem rest).secondDigit e n k).holdsOk := by
    intro e n k rest
    unfold State.secondDigit
    dsimp only
    repeat' split
    · exact consumed_holds (activate_holds (s := { (s.popItem rest) with nav := _ }) (h.same (by simp)) _ _ _) _ _
    all_goals exact h.same (by simp)
  have ended : ∀ e i rest, State.holdsOk
      (if (s.endDigit e).2 then (s.endDigit e).1 else State.handleItem i ((s.endDigit e).1.popItem rest)) := by
    intro e i rest
    split
    · exact endDigit_holds h e
    · exact handleItem_holds ((endDigit_holds h e).same (by simp)) i
  unfold State.takeItem
  split
  · exact h
  next i rest _ =>
  split
  · split
    · exact handleItem_holds (s := s.popItem rest) (h.same (by simp)) i
    · next e _ =>
      cases i with
      | key code task =>
        dsimp only
        split
        · exact second e _ _ rest
        · exact ended e _ rest
      | select b a t => exact ended e _ rest
  · exact h

/-! ### The steps of the frame-start work -/

theorem fireTimeout_holds (slot d) : (s.fireTimeout slot d).holdsOk := by
  unfold State.fireTimeout
  split
  · split
    · exact activate_holds h _ _ _
    · exact h.same (by simp)
  · exact h.same (by simp)

theorem navPublish_holds : s.navPublish.holdsOk := h.same (by simp)

theorem navTimeout_holds : s.navTimeout.holdsOk := h.same (by simp)

theorem navDigit_holds : s.navDigit.holdsOk := h.same (by simp)

theorem actEndStep_holds : s.actEndStep.holdsOk := by
  unfold State.actEndStep State.navActEnd
  split
  · refine advanceWork_holds (navDigit_holds ?_)
    split
    · exact endActivation_holds h _ _ _
    · exact h
  all_goals exact h

theorem expiryStep_holds : s.expiryStep.holdsOk := by
  unfold State.expiryStep State.navExpiry
  split
  · refine advanceWork_holds (navTimeout_holds ?_)
    split
    · exact endDigit_holds h _
    · exact h
  all_goals exact h

theorem timeoutStep_holds : s.timeoutStep.holdsOk := by
  unfold State.timeoutStep State.navFire
  split
  · refine advanceWork_holds (navPublish_holds ?_)
    split
    · exact fireTimeout_holds h _ _
    · exact h
  all_goals exact h

theorem switchStep_holds : s.switchStep.holdsOk := by
  unfold State.switchStep
  split
  · exact advanceWork_holds (h.same (by simp))
  · exact h

theorem paletteStep_holds : s.paletteStep.holdsOk := by
  unfold State.paletteStep
  split
  · exact advanceWork_holds (h.same (by simp))
  · exact h

theorem transStep_holds (p) : (s.transStep p).holdsOk := by
  unfold State.transStep
  split
  · exact advanceWork_holds (planeOps_holds (settle_holds h p) p)
  all_goals exact h

theorem opStep_holds (p) : (s.opStep p).holdsOk := by
  unfold State.opStep
  split
  · refine advanceWork_holds ?_
    split
    · exact planeOps_holds (beginHead_holds h p) p
    · exact publish_holds h p
  all_goals exact h

theorem jumpApplyStep_holds : s.jumpApplyStep.holdsOk := by
  unfold State.jumpApplyStep
  split
  · exact advanceWork_holds (jumpStep_holds h)
  all_goals exact h

theorem workRound_holds : s.workRound.holdsOk := by
  have slide := opStep_holds (transStep_holds (paletteStep_holds (switchStep_holds h)) .slide) .slide
  have menu := opStep_holds (transStep_holds (jumpApplyStep_holds slide) .menu) .menu
  exact timeoutStep_holds (expiryStep_holds (actEndStep_holds menu))

omit h in
theorem workRounds_holds (n : Nat) : ∀ s : State, s.holdsOk → (s.workRounds n).holdsOk := by
  induction n with
  | zero => exact fun _ h => h
  | succ n ih =>
    intro s h
    unfold State.workRounds
    split
    · exact h
    · exact ih _ (workRound_holds h)

theorem finishWork_holds : s.finishWork.holdsOk := by
  unfold State.finishWork
  split
  · exact h
  · exact workRounds_holds _ _ (advanceWork_holds h)

theorem frameStart_holds : s.frameStart.holdsOk := by
  have opened : s.acceptFrame.holdsOk := by
    rw [acceptFrame_opened]
    have slide : s.frameOpened.slide = s.slide.unmarked := by
      simp [State.frameOpened, State.tellRegained, apply_ite State.slide]
    have menu : s.frameOpened.menu = s.menu.unmarked := by
      simp [State.frameOpened, State.tellRegained, apply_ite State.menu]
    have jump : s.frameOpened.jump = s.jump := by simp [State.frameOpened]
    refine advanceWork_holds (h.of_claims (by simp [State.frameOpened]) (fun p => ?_) (by simp [State.frameOpened]))
    rw [claims_eq, claims_eq, slide, menu, jump, claims_unmarked, claims_unmarked]
  unfold State.frameStart
  split
  · split
    · exact opened
    · exact h.same (by simp)
  · exact h

end

section
variable {s : State} (h : s.holdsOk)
include h

/-! ### The walker's part: tasks that touch no slot and no plane -/

theorem endTask_holds (o k l) : (s.endTask o k l).holdsOk := by
  unfold State.endTask
  split <;> exact h.same (by simp)

theorem stall_holds : s.stall.holdsOk := h.same (by simp)

theorem readFault_holds (a x) : (s.readFault a x).holdsOk := by
  unfold State.readFault
  exact h.same (by simp)

theorem recordCame_holds (e f) : (s.recordCame e f).holdsOk := by
  unfold State.recordCame
  split
  · split
    · exact readFault_holds h _ _
    · dsimp only
      split <;> exact h.same (by simp)
  · exact h

theorem linkCame_holds (e f) : (s.linkCame e f).holdsOk := by
  have judged : ∀ d, (s.judgeLink (f.failed e) d).holdsOk := by
    intro d
    unfold State.judgeLink
    dsimp only
    split
    · exact readFault_holds h _ _
    split
    · exact h.same (by simp)
    split
    · unfold State.followLink
      dsimp only
      split <;> exact h.same (by simp)
    · exact readFault_holds h _ _
  unfold State.linkCame
  split
  · exact judged _
  · exact judged _
  all_goals exact h.same (by simp)

theorem judgeLoad_holds (t) : (s.judgeLoad t).holdsOk := by
  have asked : State.holdsOk
      (if s.inChain (t.p32 20).toNat 16 then
        State.ask .loadHeader ((t.p32 20).toNat / 64 * 64) none
          { s with walker := { s.walker with st := .working, job := .loadHeader { addr := (t.p32 20).toNat, left := 16 } } }
      else s.endTask .addressFault 0 []) := by
    split
    · exact h.same (by simp)
    · exact endTask_holds h _ _ _
  unfold State.judgeLoad
  split
  · exact stall_holds h
  split
  · exact endTask_holds h _ _ _
  · split
    · exact endTask_holds h _ _ _
    · exact endTask_holds h _ _ _
    · exact endTask_holds h _ _ _
    · exact endTask_holds h _ _ _
    · exact asked
    · exact asked

theorem judgeLoadPalette_holds (t) : (s.judgeLoadPalette t).holdsOk := by
  unfold State.judgeLoadPalette
  dsimp only
  split
  · exact stall_holds h
  split
  · exact endTask_holds h _ _ _
  split
  · exact endTask_holds h _ _ _
  split
  · exact endTask_holds h _ _ _
  split
  · exact h.same (by simp)
  · exact endTask_holds h _ _ _

theorem judgeCompact_holds (t) : (s.judgeCompact t).holdsOk := by
  unfold State.judgeCompact
  split
  · dsimp only
    split <;> exact h.same (by simp)
  all_goals exact stall_holds h

theorem judgeFree_holds (t) : (s.judgeFree t).holdsOk := by
  unfold State.judgeFree
  split
  · exact endTask_holds h _ _ _
  · exact endTask_holds (h.same (by simp)) _ _ _

theorem joinItem_holds (i) : (s.joinItem i).holdsOk := by
  unfold State.joinItem
  split
  · exact h.same (by simp)
  · exact stall_holds h

theorem judgeSetState_holds (t) : (s.judgeSetState t).holdsOk := by
  unfold State.judgeSetState
  dsimp only
  split
  · split <;> exact endTask_holds (h.same (by simp)) _ _ _
  · exact endTask_holds (h.same (by simp)) _ _ _

theorem judgeWait_holds (t) : (s.judgeWait t).holdsOk := by
  unfold State.judgeWait
  split
  · exact endTask_holds h _ _ _
  · exact endTask_holds h _ _ _
  · exact h.same (by simp)

theorem recheckWait_holds : s.recheckWait.holdsOk := by
  unfold State.recheckWait
  split
  · split
    · exact endTask_holds h _ _ _
    · exact h
  · exact h

theorem judgeSnapshot_holds (t) : (s.judgeSnapshot t).holdsOk := by
  unfold State.judgeSnapshot
  split
  · exact endTask_holds h _ _ _
  · refine endTask_holds ?_ _ _ _
    split
    · exact h.same (by simp)
    · exact h

theorem workGoesOn_holds : s.workGoesOn.holdsOk := by
  unfold State.workGoesOn
  split
  · exact advanceWork_holds h
  · exact h

theorem loadHeaderCame_holds (t g) : (s.loadHeaderCame t g).holdsOk := by
  unfold State.loadHeaderCame
  split
  · exact h.same (by simp)
  split
  · exact h.same (by simp [State.acceptLoad])
  · exact endTask_holds h _ _ _

theorem acceptPalette_holds (t b) : (s.acceptPalette t b).holdsOk := h.same (by simp [State.acceptPalette])

/-! ### Schedules (R76, R77, R86) -/

omit h in
theorem insertOp_plane (s : State) (p q : PlaneId) (x : Option SlotId) (t : Task) : ∃ e : SchedEntry, e.page = x
    ∧ (s.insertOp p x t).plane q =
      if q = p then { s.plane p with schedule := insertEntry s.timer.stamp e (s.plane p).schedule } else s.plane q := by
  have dealt : ∀ u : State, u.dealt.plane q = u.plane q := fun u => plane_congr (by simp) (by simp) q
  exact ⟨_, rfl, by rw [State.insertOp, dealt, setPlane_plane]⟩

omit h in
theorem staged_of_page {x : SlotId} {d : PageDef} (page : s.page x = some d) : s.staged x = true := by
  unfold State.page at page
  unfold State.staged
  cases slot : s.slot x <;> simp_all [Slot.page?]

omit h in
/-- What joins a schedule claims its page (R76). -/
theorem insertOp_claims (s : State) (p : PlaneId) (x : Option SlotId) (t : Task) (y : SlotId) :
    (s.insertOp p x t).claims y = s.claims y + released [x] y := by
  obtain ⟨e, rfl, own⟩ := insertOp_plane s p p x t
  refine claims_of_plane (q := p) (m := 0) (fun r hr => ?_) (by simp) ?_
  · obtain ⟨_, _, other⟩ := insertOp_plane s p r e.page t
    rw [other, if_neg hr]
  · rw [own, if_pos rfl]
    simp only [Plane.claims, scheduleClaims_insertEntry]
    omega

theorem judgeShow_holds (t) : (s.judgeShow t).holdsOk := by
  unfold State.judgeShow
  split
  · exact endTask_holds h _ _ _
  next p _ =>
  split
  · exact stall_holds h
  split
  · exact endTask_holds h _ _ _
  split
  · exact endTask_holds h _ _ _
  next x _ =>
  split
  · exact endTask_holds h _ _ _
  next d page =>
  split
  · have staged : s.staged x = true := staged_of_page page
    have slots : ((s.addHold x).insertOp p (some x) t).slots = (s.addHold x).slots := by simp
    have claims : ∀ y, (s.addHold x).claims y = s.claims y := fun y => by simp only [State.claims, addHold_frame]
    refine h.of_slots (fun y => ?_) (fun y staging => ?_) (.inl (by simp [State.insertOp]))
    · rw [slot_congr slots, addHold_holds, insertOp_claims, claims, h.1 y]
      by_cases same : y = x
      · simp [released, staged, same]
      · simp [released, same, Ne.symm same]
    · rw [slot_congr slots, addHold_slot, staging]
      rfl
  · exact endTask_holds h _ _ _

theorem judgeHide_holds (t) : (s.judgeHide t).holdsOk := by
  unfold State.judgeHide
  split
  · exact endTask_holds h _ _ _
  split
  · exact stall_holds h
  split
  · exact endTask_holds h _ _ _
  · exact h.of_claims (by simp) (fun y => insertOp_claims s _ none t y) (.inl (by simp [State.insertOp]))

omit h in
theorem cancelAll_cons (s : State) (e : SchedEntry) (es : List SchedEntry) :
    s.cancelAll (e :: es) = ((s.retire e.task .cancelled 0 []).release? e.page).cancelAll es := by
  cases page : e.page <;> simp only [State.cancelAll, page] <;> rfl

omit h in
/-- Entries removed give up their holds (R86). -/
theorem cancelAll_releases : ∀ (l : List SchedEntry) {u : State} {r : List (Option SlotId)}, s.Releases u r →
    s.Releases (u.cancelAll l) (r ++ l.map (·.page))
  | [], u, r, hu => by simpa [State.cancelAll] using hu
  | e :: es, u, r, hu => by
    have retired : s.Releases (u.retire e.task .cancelled 0 []) r := Releases.slots hu (by simp)
    have rest := cancelAll_releases es (Releases.more retired e.page)
    rw [List.append_assoc] at rest
    rwa [cancelAll_cons]

omit h in
theorem released_pages (l : List SchedEntry) (p : SlotId) : released (l.map (·.page)) p = scheduleClaims l p := by
  simp [released, scheduleClaims, List.filter_map, Function.comp_def]

theorem judgeClear_holds (t) : (s.judgeClear t).holdsOk := by
  unfold State.judgeClear
  split
  · exact endTask_holds h _ _ _
  next p _ =>
  have emptied := releases_nil s (s.setPlane p { s.plane p with schedule := [] }) (by simp)
  have planes : ∀ r, (State.cancelAll (s.plane p).schedule (s.setPlane p { s.plane p with schedule := [] })).plane r =
      if r = p then { s.plane p with schedule := [] } else s.plane r := fun r => by
    rw [plane_congr (s := s.setPlane p { s.plane p with schedule := [] }) (by simp) (by simp), setPlane_plane]
  refine endTask_holds (h.releases (cancelAll_releases (s.plane p).schedule emptied) (fun x => ?_) (by simp)) _ _ _
  refine claims_of_plane (q := p) (n := 0) (fun r hr => by rw [planes, if_neg hr]) (by simp) ?_
  rw [planes, if_pos rfl, List.nil_append, released_pages]
  rfl

end

section
variable {s : State} (h : s.holdsOk)
include h

/-! ### The page store (R48 to R56) -/

omit h in
theorem endTask_judges {t : Task} (task : s.walker.task = some t) (o k l) : (s.endTask o k l).walker.job = .judge := by
  simp [State.endTask, task]

/-- A slot replaced by one with as many holds. -/
theorem setSlot_claims {p : SlotId} {x : Slot} (same : x.holds = (s.slot p).holds) (q : SlotId) :
    ((s.setSlot p x).slot q).holds = s.claims q := by
  by_cases own : q = p
  · rw [own, setSlot_slot_self, same, h.1 p]
  · rw [setSlot_slot_other s p q x own, h.1 q]

/-- While its reads are under way, the slot of a STAGE PAGE is STAGING (R49). -/
theorem staging_of_job {t : Task} {p : SlotId} (task : s.walker.task = some t) (slot : slotOf (t.p8 16) = some p)
    (stages : s.walker.job.stages = true) : s.slot p = .staging := by
  obtain ⟨t', p', task', slot', staging⟩ := (stagingOk_iff s).mp h.2 stages
  obtain rfl : t = t' := Option.some.inj (task.symm.trans task')
  obtain rfl : p = p' := Option.some.inj (slot.symm.trans slot')
  exact staging

/-- A staging that ends leaves its slot with no holds, whatever the slot becomes (R54, R55). -/
theorem stagingEnds_holds {u : State} {t : Task} {p : SlotId} {x : Slot} (task : s.walker.task = some t)
    (slot : slotOf (t.p8 16) = some p) (stages : s.walker.job.stages = true) (unheld : x.holds = 0)
    (rest : u.slots = (s.setSlot p x).slots ∧ u.slide = s.slide ∧ u.menu = s.menu ∧ u.jump = s.jump
      ∧ u.walker.task = s.walker.task) (o k l) : (u.endTask o k l).holdsOk := by
  obtain ⟨slots, slide, menu, jump, same⟩ := rest
  have staging := staging_of_job h task slot stages
  have judges := endTask_judges (same.trans task) o k l
  refine ⟨fun q => ?_, (stagingOk_iff _).mpr fun on => absurd on (by rw [judges]; exact Bool.false_ne_true)⟩
  have holds := setSlot_claims h (p := p) (x := x) (unheld.trans (by rw [staging]; rfl)) q
  have ended : (u.endTask o k l).slots = (s.setSlot p x).slots := by simp [slots]
  rw [slot_congr ended, holds]
  simp [claims_eq, slide, menu, jump]

theorem judgeStage_holds (t : Task) (task : s.walker.task = some t) : (s.judgeStage t).holdsOk := by
  unfold State.judgeStage
  dsimp only
  split
  · exact endTask_holds h _ _ _
  next p slot =>
  split
  · exact endTask_holds h _ _ _
  · exact endTask_holds h _ _ _
  next free =>
  split
  · exact endTask_holds h _ _ _
  split
  · refine ⟨fun q => (setSlot_claims h (p := p) (x := .staging) (by rw [free]; rfl) q).trans ?_, ?_⟩
    · simp [claims_eq]
    · exact (stagingOk_iff _).mpr fun _ => ⟨t, p, by simpa using task, slot, setSlot_slot_self s p .staging⟩
  · exact endTask_holds h _ _ _

theorem judgeDiscard_holds (t) : (s.judgeDiscard t).holdsOk := by
  unfold State.judgeDiscard
  split
  · exact endTask_holds h _ _ _
  next p _ =>
  split
  · exact endTask_holds h _ _ _
  · exact endTask_holds h _ _ _
  next d ids n slot =>
  split
  · exact endTask_holds h _ _ _
  next unheld =>
  obtain rfl : n = 0 := by omega
  have freed : (s.setSlot p .free).holdsOk := by
    refine h.of_slots (fun q => ?_) (fun q staging => ?_) (by simp)
    · rw [setSlot_claims h (by rw [slot]; rfl) q]
      simp [claims_eq]
    · have other : q ≠ p := fun same => by rw [same, slot] at staging; exact Slot.noConfusion staging
      rw [setSlot_slot_other s p q _ other, staging]
  exact endTask_holds (freed.same (by simp)) _ _ _

section
variable {t : Task} (task : s.walker.task = some t) (stages : s.walker.job.stages = true)
include task stages

theorem failStage_holds (o k) : (s.failStage t o k).holdsOk := by
  unfold State.failStage
  split
  · next p slot => exact stagingEnds_holds h (x := .free) task slot stages rfl (by simp) _ _ _
  · exact endTask_holds h _ _ _

theorem pageHeaderCame_holds (b) : (s.pageHeaderCame t b).holdsOk := by
  unfold State.pageHeaderCame
  dsimp only
  split
  · exact h.same (by simp [stages])
  · exact failStage_holds h task stages _ _

theorem pageCame_holds (b) : (s.pageCame t b).holdsOk := by
  unfold State.pageCame
  split
  · exact failStage_holds h task stages _ _
  next d _ =>
  split
  · exact failStage_holds h task stages _ _
  split
  · next p slot => exact stagingEnds_holds h (x := .staged d d.named 0) task slot stages rfl (by simp) _ _ _
  · exact endTask_holds h _ _ _

end

/-! ### Stalls (R174) -/

theorem judgeStalled_holds (t) : (s.judgeStalled t).holdsOk := by
  unfold State.judgeStalled
  split
  · exact judgeLoad_holds h t
  · exact judgeCompact_holds h t
  · exact judgeLoadPalette_holds h t
  · exact judgeShow_holds h t
  · exact judgeHide_holds h t
  · exact joinItem_holds h _
  · exact joinItem_holds h _
  · exact h

theorem retryStall_holds : s.retryStall.holdsOk := by
  unfold State.retryStall
  split
  · exact judgeStalled_holds (s := { s with walker := { s.walker with st := .working } }) (h.same (by simp)) _
  · exact h

/-! ### Run control, registers and the notice writer -/

omit h in
theorem resetBlocks_holds (s : State) (c p) : (s.resetBlocks c p).holdsOk :=
  ⟨fun q => by fin_cases q <;> rfl, rfl⟩

theorem resumeWalker_holds : s.resumeWalker.holdsOk := by
  unfold State.resumeWalker
  split <;> exact h.same (by simp)

theorem readSetup_holds (b g) : (s.readSetup b g).holdsOk := by
  unfold State.readSetup
  exact h.same (by simp)

theorem writeControl_holds (v) : (s.writeControl v).holdsOk := by
  have started : ∀ u : State, u.holdsOk → u.startCommand.holdsOk := by
    intro u hu
    unfold State.startCommand State.beginStart State.beginResume
    dsimp only
    split
    · split
      · exact hu.same (by simp)
      · exact readSetup_holds (s := { u with run := { u.run with state := .starting, refusal := 0 } }) (hu.same (by simp)) _ _
    · split
      · exact hu.same (by simp)
      · exact readSetup_holds hu _ _
    all_goals exact hu
  have halted : ∀ u : State, u.holdsOk → u.haltCommand.holdsOk := by
    intro u hu
    unfold State.haltCommand
    split <;> exact hu.same (by simp)
  unfold State.writeControl
  split
  · exact h
  split
  · exact resetBlocks_holds _ _ _
  · have enabled : State.holdsOk { s with run := { s.run with attnEnable := ctlEnable v } } := h.same (by simp)
    dsimp only
    split
    · exact started _ enabled
    split
    · exact halted _ enabled
    · exact enabled

theorem startRead_holds (e f) : (s.startRead e f).holdsOk := by
  have judged : ∀ b, (s.judgeStart b).holdsOk := by
    intro b
    unfold State.judgeStart State.refuseStart State.started
    split <;> exact h.same (by simp)
  unfold State.startRead
  split
  · dsimp only
    split
    · unfold State.refuseStart
      exact h.same (by simp)
    split
    · exact readSetup_holds h _ _
    · exact judged _
  · exact h

theorem resumeRead_holds (e f) : (s.resumeRead e f).holdsOk := by
  have judged : ∀ b, (s.judgeResume b).holdsOk := by
    intro b
    unfold State.judgeResume State.refuseResume State.resumed
    split
    · exact h.same (by simp)
    · exact resumeWalker_holds (h.same (by simp))
  unfold State.resumeRead
  split
  · dsimp only
    split
    · unfold State.refuseResume
      exact h.same (by simp)
    split
    · exact readSetup_holds h _ _
    · exact judged _
  · exact h

theorem poke_holds (v) : (s.poke v).holdsOk := by
  have poked : (s.pokeWalker v).holdsOk := by
    unfold State.pokeWalker State.restartWalker
    dsimp only
    repeat' split
    all_goals exact h.same (by simp)
  unfold State.poke
  split
  · exact h
  · exact poked.same (by simp)

theorem writeAttention_holds (v) : (s.writeAttention v).holdsOk := by
  unfold State.writeAttention
  split <;> exact h.same (by simp)

theorem writeCause_holds (v) : (s.writeCause v).holdsOk := by
  unfold State.writeCause
  split <;> exact h.same (by simp)

theorem writeRegister_holds (r v) : (s.writeRegister r v).holdsOk := by
  cases r with
  | control => exact writeControl_holds h v
  | chainPoke => exact poke_holds h v
  | setupAddress =>
    dsimp only [State.writeRegister, State.writeSetup]
    split <;> exact h.same (by simp)
  | attention => exact writeAttention_holds h v
  | resetCause => exact writeCause_holds h v
  | status | noticeCount | frameStamp => exact h

theorem passTicks_holds (n : Nat) : (s.passTicks n).holdsOk := h.same (by simp)

/-- A completion keeps the holds equal to the claims when its requester's part does. -/
theorem complete_holds (p e k) (part : ∀ f x, x.holdsOk → (k f x).holdsOk) : (s.complete p e k).holdsOk := by
  refine complete_keeps p e k s h (fun f => ?_) part
  unfold State.land
  dsimp only
  split <;> exact h.same (by simp)

end

/-- Every command keeps the holds equal to the claims. -/
theorem exec_holds {s : State} (h : s.holdsOk) (c : Instr) : ∃ t, exec c s = .next t ∧ t.holdsOk := by
  cases c
  all_goals refine ⟨_, rfl, ?_⟩
  case powerOnReset => exact resetBlocks_holds _ _ _
  case resetPin => exact resetBlocks_holds _ _ _
  case softReset v => exact writeControl_holds h v
  case start v => exact writeControl_holds h v
  case halt v => exact writeControl_holds h v
  case startReadsComplete e => exact complete_holds h _ e _ fun f _ hx => startRead_holds hx e f
  case resumeReadsComplete e => exact complete_holds h _ e _ fun f _ hx => resumeRead_holds hx e f
  case haltComplete =>
    split
    · split
      · exact h.same (by simp)
      · exact h
    all_goals exact h
  case attentionWrite v => exact writeAttention_holds h v
  case resetCauseWrite v => exact writeCause_holds h v
  case chainPoke v => exact poke_holds h v
  case registerWrite r n v =>
    split
    · exact writeRegister_holds h r v
    · exact h
  case frameStart n => exact frameStart_holds (passTicks_holds (finishWork_holds h) n)
  case syncLoss n =>
    split
    · exact (passTicks_holds h n).same (by simp)
    · exact passTicks_holds h n
  case falseStart n =>
    split
    · split
      · exact (passTicks_holds h n).same (by simp)
      · exact passTicks_holds h n
    · exact passTicks_holds h n
  case keyFrame n b m st =>
    have passed := passTicks_holds h n
    split
    · split
      · exact passed.same (by simp)
      · exact passed
    · exact passed
  case startEdge =>
    split
    · split <;> exact h.same (by simp)
    · exact h
  case offsetSwitch => exact switchStep_holds h
  case compactConfirm => exact h.same (by simp)
  case paletteApply => exact paletteStep_holds h
  case transitionEnd p => exact transStep_holds h p
  case operationBegin p => exact opStep_holds h p
  case jumpApply => exact jumpApplyStep_holds h
  case activationEnd => exact actEndStep_holds h
  case digitWindowExpiry => exact expiryStep_holds h
  case pageTimeout => exact timeoutStep_holds h
  case lineStart =>
    split
    · exact (finishWork_holds h).same (by simp)
    · exact finishWork_holds h
  case pixelClock => exact (finishWork_holds h).same (by simp)
  case burstGrant host =>
    have written : State.holdsOk { s with mem := memHost s.mem host } := h.same (by simp)
    rcases arbitrate_cases { s with mem := memHost s.mem host } with same | ⟨r, t, b, -, -, -, granted⟩
    · rw [same]
      exact written
    · rw [granted, State.grant]
      exact written.same (by simp)
  case lineFetchBurstComplete e => exact complete_holds h _ e _ fun f _ hx => hx.same (by simp)
  case takeItem => exact takeItem_holds h
  case recordReadComplete e => exact complete_holds h _ e _ fun f _ hx => recordCame_holds hx e f
  case loadObject => split; exacts [judgeLoad_holds h _, h]
  case loadHeaderReadComplete e =>
    refine complete_holds h _ e _ fun f x hx => ?_
    split
    · split
      · exact endTask_holds hx _ _ _
      · exact loadHeaderCame_holds hx _ _
    · exact hx
  case freeObject => split; exacts [workGoesOn_holds (judgeFree_holds h _), h]
  case compactHeap => split; exacts [judgeCompact_holds h _, h]
  case loadPalette => split; exacts [judgeLoadPalette_holds h _, h]
  case paletteReadComplete e =>
    refine complete_holds h _ e _ fun f x hx => ?_
    split
    · dsimp only
      split
      · exact endTask_holds hx _ _ _
      split
      · exact hx.same (by simp)
      · exact acceptPalette_holds (paletteStep_holds hx) _ _
    · exact hx
  case stagePage =>
    split
    · next t hand => exact judgeStage_holds h t (inHand_eq hand).1
    · exact h
  case pageHeaderReadComplete e =>
    refine complete_holds h _ e _ fun f x hx => ?_
    split
    · next t g task job =>
      have stages : x.walker.job.stages = true := by rw [job]; rfl
      dsimp only
      split
      · exact failStage_holds hx task stages _ _
      split
      · exact hx.same (by simp [stages])
      · exact pageHeaderCame_holds hx task stages _
    · exact hx
  case pageReadComplete e =>
    refine complete_holds h _ e _ fun f x hx => ?_
    split
    · next t b g task job =>
      have stages : x.walker.job.stages = true := by rw [job]; rfl
      dsimp only
      split
      · exact failStage_holds hx task stages _ _
      split
      · exact hx.same (by simp [stages])
      · exact pageCame_holds hx task stages _
    · exact hx
  case discardPage => split; exacts [workGoesOn_holds (judgeDiscard_holds h _), h]
  case showPage => split; exacts [judgeShow_holds h _, h]
  case hidePlane => split; exacts [judgeHide_holds h _, h]
  case clearSchedule => split; exacts [judgeClear_holds h _, h]
  case setState => split; exacts [judgeSetState_holds h _, h]
  case selectButton => split; exacts [joinItem_holds h _, h]
  case injectKey => split; exacts [joinItem_holds h _, h]
  case wait => split; exacts [judgeWait_holds h _, h]
  case waitMet => exact recheckWait_holds h
  case snapshot => split; exacts [judgeSnapshot_holds h _, h]
  case stallHandover => exact retryStall_holds h
  case linkReadComplete e => exact complete_holds h _ e _ fun f _ hx => linkCame_holds hx e f
  case resultsBurstComplete e => exact complete_holds h _ e _ fun f _ hx => hx.same (by simp)
  case outcomeBurstComplete e => exact complete_holds h _ e _ fun f _ hx => hx.same (by simp)
  case decoderTakeLoad => exact h.same (by simp)
  case decoderHeaderReadComplete e => exact complete_holds h _ e _ fun f _ hx => hx.same (by simp)
  case decoderReadComplete e => exact complete_holds h _ e _ fun f _ hx => hx.same (by simp)
  case decoderWriteComplete e => exact complete_holds h _ e _ fun f _ hx => hx.same (by simp)
  case compactWaitEnd =>
    split
    · split
      · exact h.same (by simp)
      · exact h
    all_goals exact h
  case compactScanStep =>
    split
    · exact h.same (by simp)
    all_goals exact h
  case compactReadComplete e => exact complete_holds h _ e _ fun f _ hx => hx.same (by simp)
  case compactWriteComplete e => exact complete_holds h _ e _ fun f _ hx => hx.same (by simp)
  case noticeTake => exact h.same (by simp)
  case contentsBurstComplete e => exact complete_holds h _ e _ fun f _ hx => hx.same (by simp)
  case stateBurstComplete e => exact complete_holds h _ e _ fun f _ hx => hx.same (by simp)
  case noticeLinkReadComplete e => exact complete_holds h _ e _ fun f _ hx => hx.same (by simp)
  case resetPinRelease => exact h.same (by simp)

/-- Settles O10: a step is a command or a tick, and each moves holds and claims together. -/
theorem holdsEqualClaims : Obligations.HoldsEqualClaims := by
  intro s t hs hstep
  unfold step at hstep
  split at hstep
  · next c rest _ =>
    have front : (s.withPending rest).holdsOk := hs.same (by simp)
    obtain ⟨u, hu, kept⟩ := exec_holds front c
    rw [hu] at hstep
    cases hstep
    exact kept
  · cases hstep
    exact passTicks_holds hs 1

end Sys2Proof.Machine

/-! ## PALETTE APPLY and LOAD PALETTE (O32, O31): R42 to R44 -/

namespace Sys2Proof.Machine

/-! ### The application list retires (R44) -/

theorem retireAll_eq (o : TaskOutcome) (k : Nat) : ∀ (l : List TaskRef) (s : State), s.retireAll o k l = { s with
    walker := { s.walker with retiring := s.walker.retiring ++ l.map fun r => s.retirement r o (BitVec.ofNat 8 k) [] }
    port := { s.port with walkerQ := (s.retireAll o k l).port.walkerQ } }
  | [], s => by simp [State.retireAll]
  | r :: rs, s => by
    rw [State.retireAll, retireAll_eq o k rs]
    generalize (State.retireAll o k rs _).port.walkerQ = asks
    rw [retire_eq]
    simp [State.retirement]

/-- What an application leaves of the palettes. -/
theorem applyPalettes_palette (s : State) : s.applyPalettes.palette =
    { applied := Vector.zipWith applyPend s.palette.pend s.palette.applied
      pend := .replicate 8 (.replicate 256 none), list := [] } := by
  simp [State.applyPalettes]

/-- The tasks of the application list retire in list order. -/
theorem applyPalettes_walker (s : State) : s.applyPalettes.walker = { s.walker with
    retiring := s.walker.retiring ++ s.palette.list.map fun r => s.retirement r .done 0 [] } := by
  rw [State.applyPalettes, retireAll_eq]
  rfl

theorem paletteStep_eq {s : State} (due : s.work.palette = true) :
    s.paletteStep = State.advanceWork { s.applyPalettes with work := { s.work with palette := false } } := by
  rw [State.paletteStep, if_pos due]
  simp

/-- What PALETTE_APPLY changes: the palettes, the walker's list, and what the blocks that go on change. -/
theorem paletteStep_rest {s : State} (due : s.work.palette = true) : s.paletteStep = { s with
    heap := { s.heap with view := s.paletteStep.heap.view }, palette := s.applyPalettes.palette
    slide := s.paletteStep.slide, menu := s.paletteStep.menu, drawnViews := s.paletteStep.drawnViews
    nav := s.paletteStep.nav, composer := s.paletteStep.composer, stats := s.paletteStep.stats, work := s.paletteStep.work
    port := { s.port with lfReq := s.paletteStep.port.lfReq, walkerQ := s.applyPalettes.port.walkerQ }
    walker := s.applyPalettes.walker } := by
  have applied : s.applyPalettes = { s with
      palette := s.applyPalettes.palette, walker := s.applyPalettes.walker
      port := { s.port with walkerQ := s.applyPalettes.port.walkerQ } } := by
    rw [applyPalettes_walker, applyPalettes_palette]
    conv_lhs => rw [State.applyPalettes, retireAll_eq]
    rfl
  have step := advanceWork_rest { s.applyPalettes with work := { s.work with palette := false } }
  rw [← paletteStep_eq due] at step
  rw [step]
  rw [applied]

theorem exec_paletteApply (s : State) : exec .paletteApply s = .next s.paletteStep := rfl

/-- Settles O32. -/
theorem paletteApplyCopiesMarkedEntries : Obligations.PaletteApplyCopiesMarkedEntries := by
  intro s due
  have rest := paletteStep_rest due
  have palette : s.paletteStep.palette = s.applyPalettes.palette := by rw [rest]
  have walker : s.paletteStep.walker = s.applyPalettes.walker := by rw [rest]
  refine ⟨s.paletteStep, exec_paletteApply s, fun k i => ?_, ?_, ?_, ?_⟩
  · rw [palette, applyPalettes_palette]
    exact ⟨by simp [Vector.get_eq_getElem, applyPend], by simp [Vector.get_eq_getElem]⟩
  · rw [palette, applyPalettes_palette]
  · rw [walker, applyPalettes_walker]
  · rw [rest, applyPalettes_walker]

/-! ### LOAD PALETTE is judged (R42) -/

theorem exec_loadPalette {s : State} {task : Task} (hand : s.inHand 4 = some task) :
    exec .loadPalette s = .next (s.judgeLoadPalette task) := by
  simp only [exec, execLoadPalette, hand]

section
variable (s : State) (task : Task)

theorem judgeLoadPalette_full (full : 16 ≤ s.palette.list.length) : s.judgeLoadPalette task = s.stall := if_pos full

variable (room : s.palette.list.length < Config.maxPaletteTasks)
include room

theorem judgeLoadPalette_bad
    (bad : 7 < task.p8 16 ∨ task.p16 18 = 0 ∨ 256 < task.p16 18 ∨ 256 < task.p8 17 + task.p16 18) :
    s.judgeLoadPalette task = s.endTask .badParameter 0 [] := by
  unfold State.judgeLoadPalette
  rw [if_neg room.not_ge]
  by_cases slot : 7 < task.p8 16
  · rw [if_pos slot]
  by_cases count : task.p16 18 = 0 ∨ 256 < task.p16 18
  · rw [if_neg slot, if_pos count]
  · rw [if_neg slot, if_neg count, if_pos (by omega)]

/-- Good parameters let the source be read when it lies in the chain aperture. -/
theorem judgeLoadPalette_good
    (good : ¬ (7 < task.p8 16 ∨ task.p16 18 = 0 ∨ 256 < task.p16 18 ∨ 256 < task.p8 17 + task.p16 18)) :
    s.judgeLoadPalette task =
      if s.inChain (task.p32 20).toNat (4 * task.p16 18) then
        State.ask .palette ((task.p32 20).toNat / 64 * 64) none
          { s with walker := { s.walker with
              st := .working, job := .palette { addr := (task.p32 20).toNat, left := 4 * task.p16 18 } } }
      else s.endTask .addressFault 0 [] := by
  unfold State.judgeLoadPalette
  rw [if_neg room.not_ge, if_neg (by omega), if_neg (by omega), if_neg (by omega)]
  rfl

end

/-! ### The source has come (R43) -/

theorem writePend_get (n : Nat) : ∀ (p : Vector (Option PalEntry) 256) (i : Nat) (b : List Byte) (j : Fin 256),
    (writePend p i (palEntries n b)).get j =
      if i ≤ j.val ∧ j.val < i + n then
        some { y := byteAt b (4 * (j.val - i)), cb := byteAt b (4 * (j.val - i) + 1), cr := byteAt b (4 * (j.val - i) + 2),
               a := byteAt b (4 * (j.val - i) + 3) }
      else p.get j := by
  induction n with
  | zero =>
    intro p i b j
    rw [if_neg (by omega)]
    rfl
  | succ n ih =>
    intro p i b j
    have later : ∀ m, byteAt (b.drop 4) m = byteAt b (4 + m) := fun m => by simp [byteAt]
    rw [palEntries, writePend, ih]
    simp only [later]
    have kept : i ≠ j.val → ∀ e, (p.setIfInBounds i e).get j = p.get j := fun h e => Vector.getElem_setIfInBounds_ne _ h
    rcases Nat.lt_trichotomy j.val i with before | same | after
    · rw [if_neg (by omega), if_neg (by omega), kept (by omega)]
    · rw [if_neg (by omega), if_pos (by omega), same, Nat.sub_self, Vector.get_eq_getElem]
      simp [← same]
    · have offset : 4 * (j.val - i) = 4 + 4 * (j.val - (i + 1)) := by omega
      rw [offset]
      by_cases inside : j.val < i + (n + 1)
      · rw [if_pos (by omega), if_pos (by omega)]
        rfl
      · rw [if_neg (by omega), if_neg (by omega), kept (by omega)]

theorem exec_paletteReadComplete {s : State} {f : Flight} {task : Task} {g : Gather} (landing : s.LandingRead f .palette)
    (ht : s.walker.task = some task) (hj : s.walker.job = .palette g) (err : Bool) :
    exec (.paletteReadComplete err) s = .next
      (if f.failed err then s.landed.endTask .memoryError 6 []
       else if 0 < (g.feed f.data).left then
         State.ask .palette (g.feed f.data).block none
           { s.landed with walker := { s.walker with job := .palette (g.feed f.data) } }
       else s.landed.paletteStep.acceptPalette task (g.feed f.data).got) := by
  have hc := landingRead_complete landing (fun u => decide (u = .palette)) (decide_eq_true rfl) err
  simp [exec, execPaletteReadComplete, hc, ht, hj]

theorem acceptPalette_eq (s : State) (t : Task) (b : List Byte) : s.acceptPalette t b = { s with
    palette := { s.palette with
      pend := s.palette.pend.setIfInBounds (t.p8 16)
        (writePend (s.palette.pend.toList.getD (t.p8 16) (.replicate 256 none)) (t.p8 17) (palEntries (t.p16 18) b))
      list := s.palette.list ++ [t.ref] }
    walker := (s.acceptPalette t b).walker
    port := { s.port with walkerQ := (s.acceptPalette t b).port.walkerQ } } := by
  unfold State.acceptPalette
  conv_lhs => rw [dealt_eq]
  rw [dealt_eq]

theorem acceptPalette_pend (s : State) (t : Task) (b : List Byte) (k : Fin 8) :
    (s.acceptPalette t b).palette.pend.get k =
      if k.val = t.p8 16 then writePend (s.palette.pend.get k) (t.p8 17) (palEntries (t.p16 18) b)
      else s.palette.pend.get k := by
  rw [acceptPalette_eq]
  by_cases own : k.val = t.p8 16
  · have row : s.palette.pend.toList.getD (t.p8 16) (.replicate 256 none) = s.palette.pend.get k := by
      rw [← own, List.getD_eq_getElem _ _ (by simp)]
      rfl
    rw [if_pos own, row]
    simp [Vector.get_eq_getElem, ← own]
  · rw [if_neg own]
    exact Vector.getElem_setIfInBounds_ne _ (Ne.symm own)

/-- Settles O31: the checks of R42 in order, then the outcomes of the source's reads. -/
theorem loadPaletteIsJudgedAndRead : Obligations.LoadPaletteIsJudgedAndRead := by
  constructor
  · intro s task hand
    obtain ⟨ht, -, -, -⟩ := inHand_eq hand
    refine ⟨s.judgeLoadPalette task, exec_loadPalette hand, fun full => ?_, fun room bad => ?_, fun room good out => ?_,
      fun room good inside => ?_⟩
    · rw [judgeLoadPalette_full s task full]
      exact stall_stalls s
    · rw [judgeLoadPalette_bad s task room bad]
      exact endTask_refuses s _ 0 task ht
    · rw [judgeLoadPalette_good s task room good, if_neg (by simp [out])]
      exact endTask_refuses s _ 0 task ht
    · rw [judgeLoadPalette_good s task room good, if_pos inside]
      exact ⟨⟨rfl, rfl⟩, rfl⟩
  · intro s err f task g landing ht hj
    have hl : s.landed.walker.task = some task := by simpa using ht
    refine ⟨_, exec_paletteReadComplete landing ht hj err, fun bad => ?_, fun good more => ?_, fun good whole => ?_⟩
    · rw [if_pos (failed_true bad)]
      exact endTask_refuses _ _ 6 task hl
    all_goals rw [if_neg (by simp [failed_false good])]
    · rw [if_pos more]
      exact ⟨⟨rfl, rfl⟩, rfl⟩
    · rw [if_neg (Nat.not_lt.mpr whole.le)]
      refine ⟨s.landed.paletteStep, exec_paletteApply _, fun none => ?_, dealt_handsOver _, ?_, ?_, ?_, fun k other => ?_,
        fun k i own => ?_⟩
      · rw [State.paletteStep, if_neg (by simp [none])]
      · rw [acceptPalette_eq]
      · rw [acceptPalette_eq]
      · conv_lhs => rw [acceptPalette_eq]
        rw [acceptPalette_eq]
      · rw [acceptPalette_pend, if_neg other]
      · rw [acceptPalette_pend, if_pos own, writePend_get]

end Sys2Proof.Machine

/-! ## STAGE PAGE (O33, O34): R47 to R55 -/

namespace Sys2Proof.Machine

/-! ### STAGE PAGE is judged (R48) -/

theorem exec_stagePage {s : State} {task : Task} (hand : s.inHand 5 = some task) :
    exec .stagePage s = .next (s.judgeStage task) := by
  simp only [exec, execStagePage, hand]

section
variable (s : State) (task : Task)

theorem judgeStage_above (above : 5 < task.p8 16) : s.judgeStage task = s.endTask .badParameter 0 [] := by
  simp only [State.judgeStage, slotOf_none _ above]

variable {p : SlotId} (hp : p.val = task.p8 16)
include hp

theorem judgeStage_busy (busy : s.slot p ≠ .free) : s.judgeStage task = s.endTask .slotBusy 0 [] := by
  cases slot : s.slot p with
  | free => exact absurd slot busy
  | staging => simp only [State.judgeStage, ← hp, slotOf_val, slot]
  | staged d ids n => simp only [State.judgeStage, ← hp, slotOf_val, slot]

variable (free : s.slot p = .free)
include free

theorem judgeStage_badLength (bad : task.p16 18 < 32 ∨ 2448 < task.p16 18) :
    s.judgeStage task = s.endTask .badParameter 0 [] := by
  simp only [State.judgeStage, ← hp, slotOf_val, free, if_pos bad]

/-- A free slot becomes STAGING and the header is read when the definition lies in the chain aperture (R48, R49). -/
theorem judgeStage_free (short : 32 ≤ task.p16 18) (long : task.p16 18 ≤ 2448) : s.judgeStage task =
    if s.inChain (task.p32 20).toNat (task.p16 18) then
      State.ask .pageHeader ((task.p32 20).toNat / 64 * 64) none
        { s.setSlot p .staging with walker := { s.walker with
            job := .pageHeader { addr := (task.p32 20).toNat, left := 16 } } }
    else s.endTask .addressFault 0 [] := by
  have good : ¬ (task.p16 18 < 32 ∨ 2448 < task.p16 18) := by omega
  simp only [State.judgeStage, ← hp, slotOf_val, free, if_neg good]
  rfl

end

/-! ### A staging that fails (R49, R50, R55) -/

/-- The task ends, the slot is FREE and nothing else changes. -/
theorem failStage_spec {s : State} {task : Task} {p : SlotId} (ht : s.walker.task = some task) (hp : p.val = task.p8 16)
    (o : TaskOutcome) (k : Nat) : s.Ends (s.failStage task o k) task.ref o (BitVec.ofNat 8 k) []
      ∧ (s.failStage task o k).slot p = .free ∧ (∀ q, q ≠ p → (s.failStage task o k).slot q = s.slot q)
      ∧ (s.failStage task o k).heap = s.heap
      ∧ s.failStage task o k = { s with
          slots := (s.failStage task o k).slots, walker := (s.failStage task o k).walker
          port := { s.port with walkerQ := (s.failStage task o k).port.walkerQ } } := by
  have fails : s.failStage task o k = (s.setSlot p .free).endTask o k [] := by
    simp only [State.failStage, ← hp, slotOf_val]
  have slots : ∀ q, ((s.setSlot p .free).endTask o k []).slot q = (s.setSlot p .free).slot q :=
    fun q => slot_congr (by simp) q
  rw [fails]
  refine ⟨endTask_ends (s.setSlot p .free) o k [] task ht, ?_, fun q hq => ?_, by simp, ?_⟩
  · rw [slots, setSlot_slot_self]
  · rw [slots, setSlot_slot_other _ _ _ _ hq]
  · have only := endTask_onlyWalker (s.setSlot p .free) o k []
    rw [only]
    rfl

/-! ### The reads of a definition (R49, R54) -/

theorem exec_pageHeaderReadComplete {s : State} {f : Flight} {task : Task} {g : Gather} (landing : s.LandingRead f .pageHeader)
    (ht : s.walker.task = some task) (hj : s.walker.job = .pageHeader g) (err : Bool) :
    exec (.pageHeaderReadComplete err) s = .next
      (if f.failed err then s.landed.failStage task .memoryError 6
       else if 0 < (g.feed f.data).left then
         State.ask .pageHeader (g.feed f.data).block none
           { s.landed with walker := { s.walker with job := .pageHeader (g.feed f.data) } }
       else s.landed.pageHeaderCame task (g.feed f.data).got) := by
  have hc := landingRead_complete landing (fun u => decide (u = .pageHeader)) (decide_eq_true rfl) err
  simp [exec, execPageHeaderReadComplete, hc, ht, hj]

theorem exec_pageReadComplete {s : State} {f : Flight} {task : Task} {h : List Byte} {g : Gather}
    (landing : s.LandingRead f .pageRest) (ht : s.walker.task = some task) (hj : s.walker.job = .pageRest h g) (err : Bool) :
    exec (.pageReadComplete err) s = .next
      (if f.failed err then s.landed.failStage task .memoryError 6
       else if 0 < (g.feed f.data).left then
         State.ask .pageRest (g.feed f.data).block none
           { s.landed with walker := { s.walker with job := .pageRest h (g.feed f.data) } }
       else s.landed.pageCame task (h ++ (g.feed f.data).got)) := by
  have hc := landingRead_complete landing (fun u => decide (u = .pageRest)) (decide_eq_true rfl) err
  simp [exec, execPageReadComplete, hc, ht, hj]

theorem pageHeaderValid_iff (h : List Byte) : pageHeaderValid h = true ↔
    (nat8 h 0 = 1 ∨ nat8 h 0 = 2) ∧ (1 ≤ nat8 h 1 ∧ nat8 h 1 ≤ 32)
      ∧ (nat8 h 2 ≤ 24 ∧ (nat8 h 0 = 2 → nat8 h 2 = 0)) ∧ (nat8 h 3 < nat8 h 2 ∨ nat8 h 3 = 255) := by
  simp only [pageHeaderValid, decide_eq_true_eq, and_assoc]

/-- A header and a length that agree let the rest be read (R49, R50). -/
theorem pageHeaderCame_good (s : State) {task : Task} {h : List Byte}
    (good : pageHeaderValid h = true ∧ task.p16 18 = 16 + 16 * nat8 h 1 + 80 * nat8 h 2) :
    s.pageHeaderCame task h = State.ask .pageRest (((task.p32 20).toNat + 16) / 64 * 64) none
      { s with walker := { s.walker with
          job := .pageRest h { addr := (task.p32 20).toNat + 16, left := task.p16 18 - 16 } } } := if_pos good

theorem pageHeaderCame_bad (s : State) {task : Task} {h : List Byte}
    (bad : ¬ (pageHeaderValid h = true ∧ task.p16 18 = 16 + 16 * nat8 h 1 + 80 * nat8 h 2)) :
    s.pageHeaderCame task h = s.failStage task .pageInvalid 0 := if_neg bad

/-- Settles O33: the checks of R48 in order, then the outcomes of the header's reads. -/
theorem stagePageIsJudgedAndItsHeaderChecked : Obligations.StagePageIsJudgedAndItsHeaderChecked := by
  refine ⟨?_, ?_, pageHeaderValid_iff⟩
  · intro s task hand
    obtain ⟨ht, -, -, -⟩ := inHand_eq hand
    refine ⟨s.judgeStage task, exec_stagePage hand, fun above => ?_, fun p hp => ⟨fun busy => ?_, fun free bad => ?_,
      fun free short long out => ?_, fun free short long inside => ?_⟩⟩
    · rw [judgeStage_above s task above]
      exact endTask_refuses s _ 0 task ht
    · rw [judgeStage_busy s task hp busy]
      exact endTask_refuses s _ 0 task ht
    · rw [judgeStage_badLength s task hp free bad]
      exact endTask_refuses s _ 0 task ht
    · rw [judgeStage_free s task hp free short long, if_neg (by simp [out])]
      exact endTask_refuses s _ 0 task ht
    · rw [judgeStage_free s task hp free short long, if_pos inside]
      exact ⟨setSlot_slot_self s p _, fun q hq => setSlot_slot_other s p q _ hq, rfl, rfl, rfl⟩
  · intro s err f task g p landing ht hj hp
    have hl : s.landed.walker.task = some task := by simpa using ht
    refine ⟨_, exec_pageHeaderReadComplete landing ht hj err, fun bad => ?_, fun good more => ?_, fun good whole bad => ?_,
      fun good whole valid => ?_⟩
    · rw [if_pos (failed_true bad)]
      exact failStage_spec hl hp _ 6
    all_goals rw [if_neg (by simp [failed_false good])]
    · rw [if_pos more]
      exact ⟨⟨rfl, rfl⟩, rfl⟩
    all_goals rw [if_neg (Nat.not_lt.mpr whole.le)]
    · rw [pageHeaderCame_bad _ bad]
      exact failStage_spec hl hp _ 0
    · rw [pageHeaderCame_good _ valid]
      exact ⟨⟨rfl, rfl⟩, rfl⟩

/-! ### The definition has come whole (R51 to R55) -/

theorem incAll_rest : ∀ (l : List Byte) (s : State),
    s.incAll l = { s with heap := { s.heap with dir := (s.incAll l).heap.dir } }
  | [], _ => rfl
  | x :: xs, s => (incAll_rest xs (s.incUse x)).trans rfl

/-- Each id of a set of distinct ids is used once more (R54). -/
theorem incAll_entry : ∀ {l : List Byte} (s : State), l.Nodup → ∀ i,
    (s.incAll l).entry i = { s.entry i with useCount := (s.entry i).useCount + if i ∈ l then 1 else 0 }
  | [], s, _, i => by simp [State.incAll]
  | x :: xs, s, distinct, i => by
    obtain ⟨fresh, rest⟩ := List.nodup_cons.mp distinct
    rw [State.incAll, incAll_entry (s.incUse x) rest i, State.incUse]
    by_cases own : i = x
    · subst own
      rw [setEntry_entry_self]
      simp [fresh]
    · rw [setEntry_entry_other s x i _ own]
      simp [own]

theorem named_nodup (d : PageDef) : d.named.Nodup := once_nodup _ [] List.nodup_nil

section
variable {s : State} {task : Task} {p : SlotId} {b : List Byte} {d : PageDef} (hp : p.val = task.p8 16)

theorem pageCame_invalid {n : Nat} (invalid : readPage b = .inl n) :
    s.pageCame task b = s.failStage task .pageInvalid n := by
  simp only [State.pageCame, invalid]

theorem pageCame_releasing {n : Nat} (read : readPage b = .inr d) (releasing : s.releasingItem d = some n) :
    s.pageCame task b = s.failStage task .idReleasing n := by
  simp only [State.pageCame, read, releasing]

include hp in
theorem pageCame_staged (read : readPage b = .inr d) (none : s.releasingItem d = none) :
    s.pageCame task b = ((s.setSlot p (.staged d d.named 0)).incAll d.named).endTask .done 0 [] := by
  simp only [State.pageCame, read, none, ← hp, slotOf_val]

end

/-- A definition without a bad item or a RELEASING id is staged with no holds, and its ids are used once more (R54, R55). -/
theorem pageStaged_spec {s : State} {task : Task} {p : SlotId} {b : List Byte} {d : PageDef} (ht : s.walker.task = some task)
    (hp : p.val = task.p8 16) (read : readPage b = .inr d) (none : s.releasingItem d = none) :
    let t := s.pageCame task b
    s.Ends t task.ref .done 0 [] ∧ t.slot p = .staged d d.named 0 ∧ (∀ q, q ≠ p → t.slot q = s.slot q)
      ∧ t = { s with heap := { s.heap with dir := t.heap.dir }, slots := t.slots, walker := t.walker,
                     port := { s.port with walkerQ := t.port.walkerQ } }
      ∧ ∀ i, t.entry i = { s.entry i with useCount := (s.entry i).useCount + if i ∈ d.named then 1 else 0 } := by
  intro t
  have staged : t = ((s.setSlot p (.staged d d.named 0)).incAll d.named).endTask .done 0 [] := pageCame_staged hp read none
  have slots : t.slots = (s.setSlot p (.staged d d.named 0)).slots := by rw [staged]; simp
  have ends := endTask_ends ((s.setSlot p (.staged d d.named 0)).incAll d.named) .done 0 [] task (by simpa using ht)
  refine ⟨?_, ?_, fun q hq => ?_, ?_, fun i => ?_⟩
  · rw [staged]
    exact ends_congr ends (by simp) (by simp) (by simp) (by simp)
  · rw [slot_congr slots, setSlot_slot_self]
  · rw [slot_congr slots, setSlot_slot_other _ _ _ _ hq]
  · rw [staged]
    have only := endTask_onlyWalker ((s.setSlot p (.staged d d.named 0)).incAll d.named) .done 0 []
    rw [only, incAll_rest]
    rfl
  · rw [staged, entry_congr (s := (s.setSlot p (.staged d d.named 0)).incAll d.named) (by simp), incAll_entry _ (named_nodup d)]
    rfl

/-! ### The first item of a RELEASING id (R53) -/

/-- The first of a list that meets a test, by its index. -/
theorem findIdx?_map_eq_some_iff {α β : Type} (f : α → β) (P : β → Bool) (l : List α) (k : Nat) :
    (l.map f).findIdx? P = some k ↔
      (∃ x, l[k]? = some x ∧ P (f x) = true) ∧ ∀ m, m < k → ¬ ∃ x, l[m]? = some x ∧ P (f x) = true := by
  rw [List.findIdx?_eq_some_iff_getElem]
  constructor
  · rintro ⟨inside, meets, first⟩
    rw [List.length_map] at inside
    refine ⟨⟨l[k], List.getElem?_eq_getElem inside, by simpa using meets⟩, fun m before ⟨x, at_m, early⟩ => ?_⟩
    obtain ⟨_, rfl⟩ := List.getElem?_eq_some_iff.mp at_m
    exact first m before (by simpa using early)
  · rintro ⟨⟨x, at_k, meets⟩, first⟩
    obtain ⟨inside, rfl⟩ := List.getElem?_eq_some_iff.mp at_k
    refine ⟨by simpa using inside, by simpa using meets, fun m before early => ?_⟩
    exact first m before ⟨l[m], List.getElem?_eq_getElem (before.trans inside), by simpa using early⟩

/-- None of a list meets a test. -/
theorem findIdx?_map_eq_none_iff {α β : Type} (f : α → β) (P : β → Bool) (l : List α) :
    (l.map f).findIdx? P = none ↔ ∀ k : Nat, ¬ ∃ x, l[k]? = some x ∧ P (f x) = true := by
  rw [List.findIdx?_eq_none_iff]
  constructor
  · intro none k ⟨x, at_k, meets⟩
    rw [none _ (List.mem_map_of_mem (List.mem_of_getElem? at_k))] at meets
    exact Bool.false_ne_true meets
  · intro none y among
    obtain ⟨x, member, rfl⟩ := List.mem_map.mp among
    obtain ⟨k, at_k⟩ := List.mem_iff_getElem?.mp member
    exact Bool.eq_false_iff.mpr fun meets => none k ⟨x, at_k, meets⟩

/-- An id of a RELEASING entry is among the ids of an item. -/
def State.namesReleasing (s : State) (ids : List Byte) : Bool := ids.any fun i => decide ((s.entry i).state = .releasing)

/-- A button names the ids of its three cycles before the cycle's first hold of 0 (R47, R53). -/
theorem mem_ids_iff (b : Button) (i : Byte) : i ∈ b.ids ↔ (∃ x ∈ livePairs b.normal, x.1 = i)
    ∨ (∃ x ∈ livePairs b.selected, x.1 = i) ∨ ∃ x ∈ livePairs b.activated, x.1 = i := by
  simp only [Button.ids, List.map_append, List.mem_append, List.mem_map, or_assoc]

theorem first_unique {meets : Nat → Prop} {a k : Nat} (ha : meets a ∧ ∀ m, m < a → ¬ meets m)
    (hk : meets k ∧ ∀ m, m < k → ¬ meets m) : k = a :=
  le_antisymm (Nat.le_of_not_lt fun later => hk.2 a later ha.1) (Nat.le_of_not_lt fun earlier => ha.2 k earlier hk.1)

/-- The first RELEASING item stands among the placements, or else among the buttons (R53). -/
theorem releasingItem_iff (s : State) (d : PageDef) (placed pressed : Nat → Prop)
    (hplaced : ∀ k, placed k ↔ ∃ p, d.placements[k]? = some p ∧ s.namesReleasing [p.obj] = true)
    (hpressed : ∀ k, pressed k ↔ ∃ b, d.buttons[k]? = some b ∧ s.namesReleasing b.ids = true) :
    (s.releasingItem d = none ↔ ∀ k, ¬ placed k ∧ ¬ pressed k)
      ∧ ∀ n, s.releasingItem d = some n ↔
          (∃ k, n = 1 + k ∧ placed k ∧ ∀ m, m < k → ¬ placed m)
          ∨ ((∀ k, ¬ placed k) ∧ ∃ k, n = 33 + k ∧ pressed k ∧ ∀ m, m < k → ¬ pressed m) := by
  have first := fun k => findIdx?_map_eq_some_iff (fun p : Placement => [p.obj]) s.namesReleasing d.placements k
  have second := fun k => findIdx?_map_eq_some_iff Button.ids s.namesReleasing d.buttons k
  have noFirst := findIdx?_map_eq_none_iff (fun p : Placement => [p.obj]) s.namesReleasing d.placements
  have noSecond := findIdx?_map_eq_none_iff Button.ids s.namesReleasing d.buttons
  simp only [← hplaced] at first noFirst
  simp only [← hpressed] at second noSecond
  have item := releasingItem_eq s d
  change s.releasingItem d = (((d.placements.map fun p => [p.obj]).findIdx? s.namesReleasing).map (1 + ·)).or
    (((d.buttons.map Button.ids).findIdx? s.namesReleasing).map (33 + ·)) at item
  rw [item]
  cases among : (d.placements.map fun p => [p.obj]).findIdx? s.namesReleasing with
  | some a =>
    have found := (first a).mp among
    refine ⟨iff_of_false (by simp) fun none => (none a).1 found.1, fun n => ⟨fun number => ?_, ?_⟩⟩
    · exact .inl ⟨a, by simpa [eq_comm] using number, found⟩
    · rintro (⟨k, rfl, here⟩ | ⟨none, -⟩)
      · simp [first_unique found here]
      · exact absurd found.1 (none a)
  | none =>
    have unplaced := noFirst.mp among
    cases later : (d.buttons.map Button.ids).findIdx? s.namesReleasing with
    | some b =>
      have found := (second b).mp later
      refine ⟨iff_of_false (by simp) fun none => (none b).2 found.1, fun n => ⟨fun number => ?_, ?_⟩⟩
      · exact .inr ⟨unplaced, b, by simpa [eq_comm] using number, found⟩
      · rintro (⟨k, -, here, -⟩ | ⟨-, k, rfl, here⟩)
        · exact absurd here (unplaced k)
        · simp [first_unique found here]
    | none =>
      have unpressed := noSecond.mp later
      refine ⟨iff_of_true rfl fun k => ⟨unplaced k, unpressed k⟩, fun n => iff_of_false (by simp) ?_⟩
      rintro (⟨k, -, here, -⟩ | ⟨-, k, -, here, -⟩)
      · exact unplaced k here
      · exact unpressed k here

/-- Settles O34: the outcomes of the reads, and the item whose id is RELEASING. -/
theorem pageIsStagedOrRefusedByItem : Obligations.PageIsStagedOrRefusedByItem := by
  refine ⟨?_, ?_⟩
  · intro s err f task h g p landing ht hj hp
    have hl : s.landed.walker.task = some task := by simpa using ht
    refine ⟨_, exec_pageReadComplete landing ht hj err, fun bad => ?_, fun good more => ?_, fun good whole n invalid => ?_,
      fun good whole d n read releasing => ?_, fun good whole d read none => ?_⟩
    · rw [if_pos (failed_true bad)]
      exact failStage_spec hl hp _ 6
    all_goals rw [if_neg (by simp [failed_false good])]
    · rw [if_pos more]
      exact ⟨⟨rfl, rfl⟩, rfl⟩
    all_goals rw [if_neg (Nat.not_lt.mpr whole.le)]
    · rw [pageCame_invalid invalid]
      exact failStage_spec hl hp _ n
    · have found : s.landed.releasingItem d = some n := releasing
      rw [pageCame_releasing read found]
      exact failStage_spec hl hp _ n
    · exact pageStaged_spec hl hp read none
  · intro s d names placed pressed
    refine releasingItem_iff s d placed pressed (fun k => ?_) (fun k => ?_)
    · simp [placed, State.namesReleasing]
    · simp only [State.namesReleasing, List.any_eq_true, decide_eq_true_eq, mem_ids_iff, livePairs_names]
      exact ⟨fun ⟨b, i, at_k, named, releasing⟩ => ⟨b, at_k, i, named, releasing⟩,
        fun ⟨b, at_k, i, named, releasing⟩ => ⟨b, i, at_k, named, releasing⟩⟩

end Sys2Proof.Machine

/-! ## The pending jump is applied or fails (O40): R79, R88 to R90 -/

namespace Sys2Proof.Machine

/-- Steps 2 and 3 of R79 on a plane whose own part has come to them, and what the blocks that go on leave of it. -/
theorem planeAdvance_steps (s u : State) (q : PlaneId) (ready : ∀ x, u.readySlot x = s.readySlot x) :
    let t := (u.planeAdvance q).advanceWork
    (t.plane q).mark = (u.plane q).mark ∧ (t.plane q).schedule = (u.plane q).schedule
      ∧ (t.plane q).content = (u.plane q).content.advanced.1
      ∧ ((u.plane q).content.advanced.2 = true → t.stage q = .transEnd)
      ∧ ((u.plane q).content.advanced.2 = false → s.OperatesOrPublishes t q) := by
  obtain ⟨stage, plane⟩ := advanceWork_keeps (u.planeAdvance q) q (planeAdvance_notBegin u q)
  refine ⟨?_, ?_, ?_, fun ends => ?_, fun goes => ?_⟩
  · rw [plane, planeAdvance_plane]
  · rw [plane, planeAdvance_plane]
  · rw [plane, planeAdvance_plane]
  · rw [stage, planeAdvance_ends ends, setStage_stage, if_pos rfl]
  · rw [planeAdvance_goes (by simp [goes])]
    refine planeOps_spec s _ q fun x => (readySlot_congr u _ x (by simp) ?_).trans (ready x)
    rw [slot_congr (s := u) (by simp)]

/-! ### What JUMP_APPLY leaves of the pending jump -/

theorem applyJump_noticeApplied {s : State} {j : Jump} (applies : s.jumpFailure j = none)
    (room : s.notices.queue.length < 8) : (s.applyJump j).notices.queue = s.notices.queue ++
      [{ body := .pageJump none j.target s.menu.content.settled j.button j.slot, stamp := s.timer.stamp }] := by
  simp only [State.applyJump, applies]
  rw [submit_queue _ _ (by simpa using room)]
  simp

theorem applyJump_noticeFailed {s : State} {j : Jump} {r : JumpFailure} (fails : s.jumpFailure j = some r)
    (room : s.notices.queue.length < 8) : (s.applyJump j).notices.queue = s.notices.queue ++
      [{ body := .pageJump (some r) j.target none j.button j.slot, stamp := s.timer.stamp }] := by
  simp only [State.applyJump, fails]
  rw [submit_queue _ _ (by split <;> simpa using room)]
  split <;> simp

theorem jumpFailure_notHeld (s : State) {j : Jump} (held : j.held = false) : s.jumpFailure j = some .notHeld := by
  simp [State.jumpFailure, held]

theorem jumpFailure_slide {s : State} {j : Jump} {d : PageDef} (held : j.held = true) (page : s.page j.target = some d)
    (kind : d.kind = .slide) : s.jumpFailure j = some .notMenu := by
  simp [State.jumpFailure, held, page, kind]

theorem jumpFailure_notReady {s : State} {j : Jump} {d : PageDef} (held : j.held = true) (page : s.page j.target = some d)
    (kind : d.kind = .menu) (ready : s.readySlot j.target = false) : s.jumpFailure j = some .notReady := by
  simp [State.jumpFailure, held, page, kind, ready]

theorem applyJump_slots_notHeld (s : State) {j : Jump} (held : j.held = false) : (s.applyJump j).slots = s.slots := by
  simp [State.applyJump, jumpFailure_notHeld s held, held]

theorem exec_jumpApply {s : State} {j : Jump} (stage : s.work.menu = .jump) (jump : s.jump = some j) :
    exec .jumpApply s = .next (State.advanceWork (State.planeAdvance .menu (s.applyJump j))) := by
  simp only [exec, execJumpApply, State.jumpApplyStep, stage, State.jumpStep, jump]

section
variable {s : State} {j : Jump}

/-- An applied jump: the menu plane shows the target, and step 3 of R79 follows. -/
theorem jumpApplied_spec (applies : s.jumpFailure j = none) :
    let t := State.advanceWork (State.planeAdvance .menu (s.applyJump j))
    t.menu.content = .shown j.target ∧ t.menu.mark = true ∧ t.menu.schedule = s.menu.schedule
      ∧ s.Releases t [s.menu.content.outgoing, s.menu.content.settled] ∧ s.OperatesOrPublishes t .menu := by
  obtain ⟨menu, released, -⟩ := applyJump_applies applies
  obtain ⟨mark, schedule, content, -, operates⟩ :=
    planeAdvance_steps s (s.applyJump j) .menu (Releases.ready released (by simp))
  simp only [State.plane, menu] at mark schedule content operates
  exact ⟨content, mark, schedule, Releases.slots released (by simp), operates rfl⟩

/-- A failed jump: its hold is released, and steps 2 and 3 of R79 follow on the menu plane as it was. -/
theorem jumpFailed_spec {r : JumpFailure} (fails : s.jumpFailure j = some r) :
    let t := State.advanceWork (State.planeAdvance .menu (s.applyJump j))
    s.Releases t [j.hold] ∧ t.menu.mark = s.menu.mark ∧ t.menu.schedule = s.menu.schedule
      ∧ t.menu.content = s.menu.content.advanced.1
      ∧ (s.menu.content.advanced.2 = true → t.work.menu = .transEnd)
      ∧ (s.menu.content.advanced.2 = false → s.OperatesOrPublishes t .menu) := by
  obtain ⟨menu, released, -⟩ := applyJump_fails fails
  have steps := planeAdvance_steps s (s.applyJump j) .menu (Releases.ready released (by simp))
  simp only [State.plane, menu] at steps
  exact ⟨Releases.slots released (by simp), steps⟩

end

/-- Settles O40: the jump is applied or fails for the first reason of R90, and the menu plane goes on. -/
theorem pendingJumpIsAppliedOrFails : Obligations.PendingJumpIsAppliedOrFails := by
  intro s j stage jump room
  have gone : (s.applyJump j).jump = none := by
    cases outcome : s.jumpFailure j with
    | none => exact (applyJump_applies outcome).2.2
    | some r => exact (applyJump_fails outcome).2.2
  have reason : ∀ d, j.held = true → s.page j.target = some d → d.kind = .slide ∨ s.readySlot j.target = false →
      ∃ r, s.jumpFailure j = some r := by
    rintro d held page (slide | notReady)
    · exact ⟨_, jumpFailure_slide held page slide⟩
    · cases kind : d.kind with
      | menu => exact ⟨_, jumpFailure_notReady held page kind notReady⟩
      | slide => exact ⟨_, jumpFailure_slide held page kind⟩
  have applies : ∀ d, j.held = true → s.page j.target = some d → d.kind = .menu → s.readySlot j.target = true →
      s.jumpFailure j = none := fun d held page kind ready => (jumpFailure_none_iff s j).mpr ⟨held, d, page, kind, ready⟩
  refine ⟨_, exec_jumpApply stage jump, by simp [gone], ?_, ⟨?_, fun d held page bad => ?_, fun notHeld => ?_⟩,
    fun d held page kind ready => ?_, fun notHeld => ?_, fun d held page kind => ?_, fun d held page kind ready => ?_⟩
  · exact eq_of_workFrame (s := { s with jump := none, attention := _, notices := _ })
      (by simp [Kept]) (by simp [gone]) (by simp) (by simp)
  · rintro ⟨d, held, page, kind, ready⟩
    obtain ⟨-, -, schedule, released, operates⟩ := jumpApplied_spec (applies d held page kind ready)
    exact ⟨released, schedule, operates⟩
  · obtain ⟨r, fails⟩ := reason d held page bad
    obtain ⟨released, steps⟩ := jumpFailed_spec fails
    exact ⟨by simpa [Jump.hold, held] using released, steps⟩
  · exact (jumpFailed_spec (jumpFailure_notHeld s notHeld)).2
  · have applied := applies d held page kind ready
    obtain ⟨content, mark, -⟩ := jumpApplied_spec applied
    exact ⟨content, mark, by simpa using applyJump_noticeApplied applied room⟩
  · have fails := jumpFailure_notHeld s notHeld
    obtain ⟨-, -, -, content, -⟩ := jumpFailed_spec fails
    exact ⟨by simpa using applyJump_noticeFailed fails room, by simpa using applyJump_slots_notHeld s notHeld, content⟩
  · have fails := jumpFailure_slide held page kind
    obtain ⟨-, -, -, content, -⟩ := jumpFailed_spec fails
    exact ⟨by simpa using applyJump_noticeFailed fails room, content⟩
  · have fails := jumpFailure_notReady held page kind ready
    obtain ⟨-, -, -, content, -⟩ := jumpFailed_spec fails
    exact ⟨by simpa using applyJump_noticeFailed fails room, content⟩

end Sys2Proof.Machine

/-! ## ACTIVATION_END (O45): R138, R142 to R147 -/

namespace Sys2Proof.Machine

theorem page_withHolds (x : Slot) (n : Nat) : (x.withHolds n).page? = x.page? := by cases x <;> rfl

/-- The actions of a button leave every definition as it stands. -/
theorem ActionsRun.page {s x : State} {slot : SlotId} {d : PageDef} {b : Nat} {y : Button} {pub : Bool}
    (h : s.ActionsRun x slot d b y pub) (p : SlotId) : x.page p = s.page p := by
  obtain ⟨-, -, -, -, -, -, noJump, jump⟩ := h
  have jumps : ∀ a : Action, a.isJump = true → ∃ z, a = .jump z := fun a ha => by
    cases a with
    | jump z => exact ⟨z, rfl⟩
    | none => exact absurd ha Bool.false_ne_true
    | notify c => exact absurd ha Bool.false_ne_true
    | toggle m => exact absurd ha Bool.false_ne_true
  have moved : ∀ z, y.act1 = .jump z ∨ y.act2 = .jump z → x.page p = s.page p := fun z hz => by
    rw [State.page, (jump z hz).2 p, page_withHolds]
    rfl
  by_cases first : y.act1.isJump = true
  · obtain ⟨z, hz⟩ := jumps _ first
    exact moved z (.inl hz)
  by_cases second : y.act2.isJump = true
  · obtain ⟨z, hz⟩ := jumps _ second
    exact moved z (.inr hz)
  · rw [State.page, slot_congr (noJump (by simpa using first) (by simpa using second)).2]
    rfl

/-- The blocks that go on after the unit's countdown leave the unit as that has it. -/
theorem CountedDown.goesOn {x u : State} {p : SlotId} {d : PageDef} (h : CountedDown x u p d) :
    u.advanceWork.nav = u.nav ∧ u.advanceWork.work.nav = u.work.nav := by
  refine advanceWork_nav u ?_
  rcases h.stage with stage | stage | stage <;> rw [stage] <;> exact NavStage.noConfusion

theorem showsLive_congr {t u : State} {slot : SlotId} {d : PageDef} (nav : t.nav = u.nav) (h : u.ShowsLive slot d) :
    t.ShowsLive slot d := by
  rwa [State.ShowsLive, nav]

theorem showsFrozen_congr {t u : State} {v : FrameView} {held : Option PageView} (nav : t.nav = u.nav)
    (slots : t.slots = u.slots) (h : u.ShowsFrozen v held) : t.ShowsFrozen v held := by
  have page : ∀ o, t.page o = u.page o := fun o => by rw [State.page, slot_congr slots]; rfl
  simpa only [State.ShowsFrozen, nav, page] using h

theorem exec_activationEnd {s : State} {slot : SlotId} {d : PageDef} {b : Nat} (stage : s.work.nav = .actEnd)
    (onSlot : s.navSlot = some slot) (onPage : s.navPage = some d) (active : s.nav.activation = some b) :
    exec .activationEnd s = .next (s.endActivation slot d b).navDigit.advanceWork := by
  simp only [exec, execActivationEnd, State.actEndStep, stage, State.navActEnd, onSlot, onPage, active]

/-- Settles O45: the actions run, and the countdown and the publishing of R138 follow. -/
theorem activationEndRunsTheActions : Obligations.ActivationEndRunsTheActions := by
  intro s slot d b y stage onSlot onPage active button selected oneJump
  have runs := endActivation_runs s slot d b y button selected oneJump
  have only := nav_end s slot d b
  have page : (s.endActivation slot d b).page slot = some d := by
    rw [ActionsRun.page runs]
    simpa [State.navPage, onSlot] using onPage
  have exec := exec_activationEnd stage onSlot onPage active
  have frame := eq_of_workFrame (t := (s.endActivation slot d b).navDigit.advanceWork)
    (s := { s with
      jump := (s.endActivation slot d b).navDigit.advanceWork.jump
      attention := (s.endActivation slot d b).navDigit.advanceWork.attention
      notices := (s.endActivation slot d b).navDigit.advanceWork.notices })
    (by simp [Kept]) (by simp) (by simp) (by simp)
  generalize s.endActivation slot d b = x at *
  have ended : x.nav = { s.nav with
      word := x.nav.word, selected := x.nav.selected, buttons := x.nav.buttons, activation := x.nav.activation } := by
    rw [only]
  have xSlot : x.navSlot = some slot := by rw [State.navSlot, ended]; exact onSlot
  obtain ⟨counted, counts⟩ := navDigit_spec x slot d xSlot page
  have jump : x.navDigit.advanceWork.jump = x.navDigit.jump := by simp
  have slots : x.navDigit.advanceWork.slots = x.navDigit.slots := by simp
  have notices : x.navDigit.advanceWork.notices = x.navDigit.notices := by simp
  obtain ⟨nav, navStage⟩ := counted.goesOn
  generalize x.navDigit.advanceWork = t at *
  generalize x.navDigit = u at *
  have all := counted.all
  have kept := counted.nav
  refine ⟨t, exec, frame, ?_, ?_, ?_, ?_, ?_⟩
  · refine ActionsRun.published s x t slot d b y runs ?_ _ ?_
    · rw [nav, jump, slots, notices, kept, all]
      exact ⟨rfl, rfl, rfl, rfl, rfl, rfl⟩
    · have records := counted.recs
      rw [← navStage] at records
      simpa only [State.KeepsRecords, nav] using records
  · rw [State.KeepsKeys, nav, kept, ended]
  · have start : x.nav.digit = s.nav.digit ∧ x.nav.timeout = s.nav.timeout := by rw [ended]; exact ⟨rfl, rfl⟩
    simpa only [State.CountsDown, nav, navStage, jump, start.1, start.2] using counts
  · intro idle
    obtain ⟨live, frozen⟩ := counted.pub.1 (navStage.symm.trans idle)
    refine ⟨showsLive_congr nav live, fun v judged => showsFrozen_congr nav slots ?_⟩
    have before := frozen v (by rw [ended]; exact judged)
    rwa [ended] at before
  · intro waits
    obtain ⟨live, frozen⟩ := counted.pub.2 (by rwa [← navStage])
    rw [nav, live, frozen, ended]
    exact ⟨rfl, rfl⟩

end Sys2Proof.Machine

/-! ## Time, the sync watch and due stamps (O2, O18, O20): R62, R63, R65, R66 -/

namespace Sys2Proof.Machine

/-! ### Due stamps (R65) -/

theorem reached_iff (now due : Word) : reached now due = true ↔ (now - due).toNat < 2 ^ 31 := decide_eq_true_iff

/-- The signed distance -2^31 belongs to a stamp that is not reached: it is the one value whose negation leaves the range. -/
theorem reached_iff_distance (now due : Word) :
    reached now due = true ↔ -(2 ^ 31 : Int) + 1 ≤ distance now due ∧ distance now due ≤ 0 := by
  rw [reached_iff, distance, BitVec.toInt_eq_toNat_cond, BitVec.toNat_sub, BitVec.toNat_sub]
  have := now.isLt
  have := due.isLt
  omega

/-- Settles O20. -/
theorem dueStampIsReachedByDistance : Obligations.DueStampIsReachedByDistance := fun now due =>
  ⟨reached_iff now due, reached_iff_distance now due, rfl⟩

/-! ### Ticks counted, and the loss of sync among them (R62, R66) -/

theorem watching_iff (s : State) :
    s.watching = true ↔ s.active = true ∧ s.timer.armed = true ∧ s.timer.lost = false := by
  simp [State.watching, and_assoc]

theorem lossPassed_iff (s : State) (n : Nat) :
    s.lossPassed n = true ↔ s.watching = true ∧ 3 * s.interval < s.timer.tick + n := by
  simp [State.lossPassed]

theorem lossDue_iff (s : State) : s.lossDue = true ↔ s.watching = true ∧ 3 * s.interval ≤ s.timer.tick := by
  simp [State.lossDue]

/-- In STOPPED and STARTING no tick is counted (R62, log 23). -/
theorem passTicks_inactive {s : State} (n : Nat) (inactive : s.active = false) : s.passTicks n = s := by
  simp [State.passTicks, State.lossPassed, State.watching, State.countTicks, inactive]

theorem countTicks_active {s : State} (n : Nat) (active : s.active = true) :
    s.countTicks n = { s with
      timer := { s.timer with tick := min (s.timer.tick + n) (3 * s.interval) }
      keyline := { s.keyline with recv := s.keyline.recv.pass s.keyDiv n } } := by
  simp only [State.countTicks, active, if_true]

theorem passTicks_lost {s : State} {n : Nat} (passed : s.lossPassed n = true) :
    s.passTicks n = s.loseSync.countTicks n := by
  rw [State.passTicks, if_pos passed]

theorem passTicks_kept {s : State} {n : Nat} (stays : ¬ s.lossPassed n = true) : s.passTicks n = s.countTicks n := by
  rw [State.passTicks, if_neg stays]

/-- A loss leaves the same state whether the ticks up to it are counted before or after. -/
theorem countTicks_loseSync (s : State) (n : Nat) : (s.countTicks n).loseSync = s.loseSync.countTicks n := by
  have lost : s.loseSync.active = s.active := by simp [State.active]
  unfold State.countTicks
  rw [lost]
  split
  · unfold State.loseSync State.submit
    dsimp only
    split <;> rfl
  · rfl

theorem step_idle {s : State} (empty : s.pending = []) : step s = .next (s.passTicks 1) := by
  rw [step, empty]

/-- Settles O2: the step on an empty queue is one tick passed. -/
theorem idleStepPassesOneTick : Obligations.IdleStepPassesOneTick := by
  intro s empty
  refine ⟨fun inactive => ?_, fun active => ?_⟩
  · rw [step_idle empty, passTicks_inactive 1 inactive]
  · refine ⟨_, _, lossPassed_watched s 1, step_idle empty, ?_⟩
    rw [passTicks_active s 1 active]
    generalize (if s.lossPassed 1 then s.loseSync else s) = u at *
    refine ⟨rfl, rfl, fun idle => ?_, fun n receiving => ?_⟩
    · dsimp only
      rw [idle, Receive.pass]
    · dsimp only
      rw [receiving, Receive.pass]

/-! ### FRAME_START that is not accepted (R62, R63) -/

/-- FRAME_START with no frame-start work to finish first. -/
theorem exec_frameStart {s : State} (n : Nat) (idle : s.work = {}) :
    exec (.frameStart n) s = .next (s.passTicks n).frameStart := by
  show Host.Outcome.next (s.finishWork.passTicks n).frameStart = _
  rw [State.finishWork, if_pos idle]

theorem frameStart_inactive {s : State} (inactive : s.active = false) : s.frameStart = s := by
  simp [State.frameStart, inactive]

theorem frameStart_glitch {s : State} (active : s.active = true) (later : s.timer.firstFrame = false)
    (early : s.timer.tick * 2 < s.interval) :
    s.frameStart = { s with stats := { s.stats with glitches := s.stats.glitches + 1 } } := by
  simp [State.frameStart, active, later, Nat.not_le.mpr early]

/-! ### SYNC_LOSS (R66) -/

theorem loseSync_eq (s : State) : s.loseSync = { s with
    timer := { s.timer with lost := true, latch := true, forced := true }
    attention := s.loseSync.attention, notices := s.loseSync.notices, stats := s.loseSync.stats } :=
  submit_eq _ _

theorem loseSync_syncLost (s : State) : s.loseSync.attention.syncLost = true := by
  unfold State.loseSync State.submit
  split <;> rfl

theorem loseSync_queue {s : State} (room : s.notices.queue.length < 8) :
    s.loseSync.notices.queue = s.notices.queue ++ [{ body := .syncChange false s.timer.stamp, stamp := s.timer.stamp }] :=
  submit_queue _ _ room

theorem loseSync_counted {s : State} (n : Nat) (active : s.active = true) :
    s.loseSync.countTicks n = { s.loseSync with
      timer := { s.timer with
        tick := min (s.timer.tick + n) (3 * s.interval), lost := true, latch := true, forced := true }
      keyline := { s.keyline with recv := s.keyline.recv.pass s.keyDiv n } } := by
  rw [countTicks_active n (by simpa [State.active] using active), loseSync_eq]
  rfl

theorem exec_syncLoss (s : State) (n : Nat) : exec (.syncLoss n) s =
    .next (if (s.passTicks n).lossDue then (s.passTicks n).loseSync else s.passTicks n) := rfl

/-- The loss falls within the ticks before the command, or is taken by the command at 3 x I: the state is the same. -/
theorem exec_syncLoss_taken {s : State} {n : Nat} (watching : s.watching = true)
    (late : 3 * s.interval ≤ s.timer.tick + n) : exec (.syncLoss n) s = .next (s.loseSync.countTicks n) := by
  have active := ((watching_iff s).mp watching).1
  rw [exec_syncLoss]
  by_cases passed : s.lossPassed n = true
  · have lost : (s.loseSync.countTicks n).timer.lost = true := by rw [countTicks_eq]; simp
    rw [passTicks_lost passed, if_neg]
    simp [lossDue_iff, watching_iff, lost]
  · have due : (s.countTicks n).lossDue = true := by
      rw [countTicks_active n active]
      exact (lossDue_iff _).mpr ⟨watching, le_min late le_rfl⟩
    rw [passTicks_kept passed, if_pos due, countTicks_loseSync]

theorem exec_syncLoss_untaken {s : State} {n : Nat} (active : s.active = true)
    (untaken : ¬ (s.watching = true ∧ 3 * s.interval ≤ s.timer.tick + n)) :
    exec (.syncLoss n) s = .next (s.countTicks n) := by
  have stays : ¬ s.lossPassed n = true := fun passed =>
    have ⟨watching, late⟩ := (lossPassed_iff s n).mp passed
    untaken ⟨watching, late.le⟩
  have undue : ¬ (s.countTicks n).lossDue = true := by
    rw [lossDue_iff, countTicks_active n active]
    exact fun ⟨watching, late⟩ => untaken ⟨watching, (le_min_iff.mp late).1⟩
  rw [exec_syncLoss, passTicks_kept stays, if_neg undue]

/-- Settles O18: half an interval is short of 3 x I, so no loss of sync falls within a glitch's ticks. -/
theorem glitchesAndLossesFollowTheTickCount : Obligations.GlitchesAndLossesFollowTheTickCount := by
  refine ⟨fun s n idle => ⟨fun inactive => ?_, fun active later early => ?_⟩, fun s n active => ?_⟩
  · rw [exec_frameStart n idle, passTicks_inactive n inactive, frameStart_inactive inactive]
  · have stays : ¬ s.lossPassed n = true := by
      rw [lossPassed_iff]
      omega
    have counted := (passTicks_kept stays).trans (countTicks_active n active)
    refine ⟨_, exec_frameStart n idle, ?_⟩
    rw [counted, frameStart_glitch]
    exacts [active, later, early]
  · by_cases due : s.watching = true ∧ 3 * s.interval ≤ s.timer.tick + n
    · obtain ⟨watching, late⟩ := due
      obtain ⟨-, armed, inSync⟩ := (watching_iff s).mp watching
      refine ⟨_, (exec_syncLoss_taken watching late).trans (congrArg _ (loseSync_counted n active)), fun _ _ _ => ?_,
        fun untaken => ?_⟩
      · refine ⟨rfl, loseSync_syncLost s, fun room => loseSync_queue room, ?_⟩
        rw [loseSync_eq]
      · simp only [armed, inSync, reduceCtorEq, false_or] at untaken
        omega
    · refine ⟨_, (exec_syncLoss_untaken active due).trans (congrArg _ (countTicks_active n active)),
        fun armed inSync full => ?_, fun _ => rfl⟩
      exact absurd ⟨(watching_iff s).mpr ⟨active, armed, inSync⟩, min_eq_right_iff.mp full⟩ due

end Sys2Proof.Machine

/-! ## The key line (O47): R66, R151 to R154 -/

namespace Sys2Proof.Machine

theorem receiverWorks_of {s : State} {tn : Tunables} (active : s.active = true) (settings : s.run.tun = some tn)
    (enabled : tn.keyEnable = true) : s.receiverWorks = true := by
  simp [State.receiverWorks, active, settings, enabled]

theorem exec_startEdge {s : State} (idle : s.keyline.recv = .idle) (works : s.receiverWorks = true) :
    exec .startEdge s = .next { s with keyline := { s.keyline with recv := .receiving 0 } } := by
  simp only [exec, execStartEdge, idle, works, if_true]

/-! ### The receiver's count as ticks pass (R151) -/

theorem passTicks_keyDiv (s : State) (n : Nat) : (s.passTicks n).keyDiv = s.keyDiv := by
  simp [State.keyDiv]

theorem passTicks_recv {s : State} {k : Nat} (n : Nat) (active : s.active = true)
    (receiving : s.keyline.recv = .receiving k) :
    (s.passTicks n).keyline.recv = .receiving (min (k + n) (84 * s.keyDiv)) := by
  rw [passTicks_active s n active]
  dsimp only
  rw [receiving, Receive.pass]

theorem lossPassed_keeps (s : State) (n : Nat) :
    let u := if s.lossPassed n then s.loseSync else s
    u.keyline = s.keyline ∧ u.nav = s.nav ∧ u.run = s.run := by
  dsimp only
  split <;> simp

/-- The ticks passed and the receiver back in IDLE: beside the loss within the ticks, the two counts alone have changed. -/
theorem passTicks_receiverIdle {s : State} (n : Nat) (active : s.active = true) :
    let u := if s.lossPassed n then s.loseSync else s
    (s.passTicks n).receiverIdle = { u with
      timer := { u.timer with tick := min (s.timer.tick + n) (3 * s.interval) }
      keyline := { s.keyline with recv := .idle } } := by
  rw [passTicks_active s n active]
  dsimp only [State.receiverIdle]
  rw [(lossPassed_keeps s n).1]

theorem exec_falseStart_atSample {s : State} {k n : Nat} (active : s.active = true)
    (receiving : s.keyline.recv = .receiving k) (sample : k + n = 4 * s.keyDiv) :
    exec (.falseStart n) s = .next (s.passTicks n).receiverIdle := by
  have count : (s.passTicks n).keyline.recv = .receiving (4 * s.keyDiv) := by
    rw [passTicks_recv n active receiving, min_eq_left (by omega), sample]
  simp only [exec, execFalseStart, count, passTicks_keyDiv, if_true]

theorem exec_keyFrame_atStop {s : State} {k n : Nat} (byte : Byte) (marker stop : Bool) (active : s.active = true)
    (receiving : s.keyline.recv = .receiving k) (sample : 84 * s.keyDiv ≤ k + n) :
    exec (.keyFrame n byte marker stop) s = .next ((s.passTicks n).receiverIdle.judgeFrame byte marker stop) := by
  have count : (s.passTicks n).keyline.recv = .receiving (84 * s.keyDiv) := by
    rw [passTicks_recv n active receiving, min_eq_right sample]
  simp only [exec, execKeyFrame, count, passTicks_keyDiv, if_true]

/-! ### The frame judged (R152 to R154) -/

section
variable (s : State) (byte : Byte) (marker : Bool)

theorem judgeFrame_framing : s.judgeFrame byte marker false =
    { s with stats := { s.stats with framing := s.stats.framing + 1 } } := rfl

theorem judgeFrame_address : s.judgeFrame byte true true =
    { s with keyline := { s.keyline with listening := addressMatches (s.run.tun.elim 0 (·.keyAddr)) byte } } := rfl

theorem addressMatches_iff (own : Nat) :
    addressMatches own byte = true ↔ byte.toNat % 128 = own ∨ byte.toNat % 128 = 0 := decide_eq_true_iff

variable {s}

theorem judgeFrame_passed (deaf : s.keyline.listening = false) : s.judgeFrame byte false true = s := by
  simp [State.judgeFrame, deaf]

theorem judgeFrame_key (listens : s.keyline.listening = true) : s.judgeFrame byte false true = s.lineKey byte := by
  simp [State.judgeFrame, listens]

theorem lineKey_joins (room : s.nav.queue.length < 8) :
    s.lineKey byte = { s with nav := { s.nav with queue := s.nav.queue ++ [.key byte none] } } := if_pos room

theorem lineKey_dropped (full : 8 ≤ s.nav.queue.length) :
    s.lineKey byte = { s with stats := { s.stats with keysDropped := s.stats.keysDropped + 1 } } :=
  if_neg (Nat.not_lt.mpr full)

variable (s)

theorem lineKey_eq : s.lineKey byte = { s with nav := (s.lineKey byte).nav, stats := (s.lineKey byte).stats } := by
  unfold State.lineKey
  split <;> rfl

theorem judgeFrame_eq (stop : Bool) : s.judgeFrame byte marker stop = { s with
    keyline := { s.keyline with listening := (s.judgeFrame byte marker stop).keyline.listening }
    nav := (s.judgeFrame byte marker stop).nav
    stats := (s.judgeFrame byte marker stop).stats } := by
  cases stop with
  | false => rfl
  | true =>
    cases marker with
    | true => rfl
    | false =>
      cases listens : s.keyline.listening with
      | false => rw [judgeFrame_passed byte listens]
      | true => rw [judgeFrame_key byte listens, lineKey_eq]

end

/-- Settles O47: the false start returns the receiver to IDLE, and the stop sample judges the frame in its five cases. -/
theorem keyFramesAreReceivedAndJudged : Obligations.KeyFramesAreReceivedAndJudged := by
  intro s tn active settings enabled
  have divider : s.keyDiv = tn.keyDiv := by rw [State.keyDiv, settings]; rfl
  refine ⟨fun idle => exec_startEdge idle (receiverWorks_of active settings enabled),
    fun k n receiving _ sample => ?_, fun k n byte marker stop receiving sample => ?_⟩
  · refine ⟨_, _, lossPassed_watched s n, exec_falseStart_atSample active receiving (divider ▸ sample), ?_⟩
    rw [passTicks_receiverIdle n active]
  · refine ⟨_, _, lossPassed_watched s n, exec_keyFrame_atStop byte marker stop active receiving (divider ▸ sample), ?_⟩
    obtain ⟨-, nav, run⟩ := lossPassed_keeps s n
    have heard := passTicks_receiverIdle n active
    generalize (s.passTicks n).receiverIdle = x at *
    generalize (if s.lossPassed n then s.loseSync else s) = u at *
    have receiver : x.keyline = { s.keyline with recv := .idle } := by rw [heard]
    have keys : x.nav = s.nav := by rw [heard, ← nav]
    have counts : x.stats = u.stats := by rw [heard]
    refine ⟨?_, ?_, ?_, ?_, ?_, ?_⟩
    · rw [judgeFrame_eq, receiver]
    · rintro rfl
      rw [judgeFrame_framing, counts, receiver]
      exact ⟨rfl, rfl, keys⟩
    · rintro rfl rfl
      have own : x.run.tun = some tn := by rw [heard, ← settings, ← run]
      rw [judgeFrame_address, own]
      exact ⟨addressMatches_iff byte tn.keyAddr, keys, counts⟩
    · rintro rfl rfl deaf
      rw [judgeFrame_passed byte (by rwa [receiver]), receiver]
      exact ⟨deaf, keys, counts⟩
    · rintro rfl rfl listens
      rw [judgeFrame_key byte (by rwa [receiver])]
      refine ⟨by rwa [lineKey_eq, receiver], fun room => ?_, fun full => ?_⟩
      · rw [lineKey_joins byte (by rwa [keys]), keys]
        exact ⟨rfl, counts⟩
      · rw [lineKey_dropped byte (by rwa [keys]), counts]
        exact ⟨keys, rfl⟩
    · rw [judgeFrame_eq, heard]

end Sys2Proof.Machine

/-! ## LINE_START (O50): R79, R88, R99 to R104, R126 -/

namespace Sys2Proof.Machine

/-! ### A plane's raster at a line start (R101, R104) -/

/-- A raster whose line `y` has been judged (R104). -/
def Raster.judgedAt (y : Nat) (r : Raster) : Raster :=
  { r with bufs := r.bufs.map fun b => if b.line = y then b.judge else b }

/-- One when line `y` has a span that lacks bursts (R126). -/
def Raster.lacks (y : Nat) (r : Raster) : Nat :=
  match r.bufs.find? fun b => decide (b.line = y) with
  | some b => if b.ready then 0 else 1
  | none => 0

/-- The buffers of line `y` and the lines after it (R101). -/
def Raster.kept (y : Nat) (r : Raster) : List LineBuf := r.bufs.filter fun b => decide (y ≤ b.line)

/-- The lines that the buffers left free by line `y` begin, on a plane of `height` lines (R99, R101). -/
def Raster.begun (y height : Nat) (r : Raster) : List Nat :=
  List.range' r.next (min (4 - (r.kept y).length) (height - r.next))

/-- The spans that those lines drop (R99). -/
def Raster.dropped (y height : Nat) (r : Raster) : Nat :=
  ((r.begun y height).map fun z => (covering z r.spans).length - 16).sum

/-- A raster whose lines before `y` have been freed (R101). -/
def Raster.freed (y height : Nat) (r : Raster) : Raster :=
  { r with next := r.next + (r.begun y height).length, bufs := r.kept y ++ (r.begun y height).map (lineBegun r.spans) }

theorem kept_judgedAt (y : Nat) (r : Raster) :
    (r.judgedAt y).kept y = (r.kept y).map fun b => if b.line = y then b.judge else b := by
  simp only [Raster.kept, Raster.judgedAt, List.filter_map]
  congr 2
  funext b
  by_cases same : b.line = y <;> simp [LineBuf.judge, same]

theorem begun_judgedAt (y height : Nat) (r : Raster) : (r.judgedAt y).begun y height = r.begun y height := by
  rw [Raster.begun, kept_judgedAt, List.length_map]
  rfl

theorem dropped_judgedAt (y height : Nat) (r : Raster) : (r.judgedAt y).dropped y height = r.dropped y height := by
  rw [Raster.dropped, begun_judgedAt]
  rfl

/-! ### The parts of a line start -/

/-- A request of line fetch is for line `y` of a plane, and the line has a buffer (R104). -/
def State.asksForLine (s : State) (p : PlaneId) (y : Nat) (r : Burst) : Bool :=
  r.user.isLine p y && (s.raster p).bufs.any fun b => decide (b.line = y)

theorem judgeLine_eq (s : State) (p : PlaneId) (y : Nat) : s.judgeLine p y =
    { s with
      composer := { (s.setRaster p ((s.raster p).judgedAt y)).composer with
        underruns := s.composer.underruns + (s.raster p).lacks y }
      stats := { s.stats with underruns := s.stats.underruns + BitVec.ofNat 32 ((s.raster p).lacks y) }
      port := { s.port with lfReq := s.port.lfReq.filter fun r => !s.asksForLine p y r } } := by
  unfold State.judgeLine State.asksForLine Raster.lacks
  dsimp only
  cases found : (s.raster p).bufs.find? fun b => decide (b.line = y) with
  | some b =>
    have stands : ((s.raster p).bufs.any fun b => decide (b.line = y)) = true := by
      rw [List.any_eq_true]
      exact ⟨b, List.mem_of_find?_eq_some found, by simpa using List.find?_some found⟩
    simp only [stands, Bool.and_true]
    split <;> cases p <;> simp [State.setRaster, State.raster, Raster.judgedAt]
  | none =>
    have absent : ((s.raster p).bufs.any fun b => decide (b.line = y)) = false := by
      simpa using found
    have unjudged : (s.raster p).judgedAt y = s.raster p := by
      have judged := judgeLine_raster p y s p
      simp only [State.judgeLine, found, if_pos] at judged
      exact judged.symm
    have stays : (s.port.lfReq.filter fun r => !(r.user.isLine p y && false)) = s.port.lfReq := by
      cases s.port.lfReq <;> simp
    rw [unjudged, absent, stays]
    cases p <;> simp [State.setRaster, State.raster]

/-- The buffers of the lines before line `y` of a plane freed, and no line begun yet (R101). -/
def State.keepFrom (s : State) (p : PlaneId) (y : Nat) : State := s.setRaster p { s.raster p with bufs := (s.raster p).kept y }

theorem freeLines_eq_beginLines (s : State) (p : PlaneId) (y : Nat) :
    s.freeLines p y = State.beginLines p Config.lineBuffers (s.keepFrom p y) := rfl

theorem keepFrom_planeSize (s : State) (p : PlaneId) (y : Nat) : (s.keepFrom p y).planeSize = s.planeSize := by cases p <;> rfl

theorem freeLines_eq (s : State) (p : PlaneId) (y : Nat) : s.freeLines p y =
    { s with
      composer := { (s.setRaster p ((s.raster p).freed y s.planeSize.2)).composer with
        drops := s.composer.drops + (s.raster p).dropped y s.planeSize.2 }
      stats := { s.stats with drops := s.stats.drops + BitVec.ofNat 32 ((s.raster p).dropped y s.planeSize.2) } } := by
  obtain ⟨own, composer, rest⟩ := beginLines_full p Config.lineBuffers (s.keepFrom p y)
  obtain ⟨-, -, -, other⟩ := beginLines_eq p Config.lineBuffers (s.keepFrom p y)
  rw [← freeLines_eq_beginLines] at own composer rest other
  rw [keepFrom_planeSize, State.keepFrom, setRaster_raster_self] at own composer rest
  have lines : min Config.lineBuffers (min (4 - ((s.raster p).kept y).length) (s.planeSize.2 - (s.raster p).next)) =
      min (4 - ((s.raster p).kept y).length) (s.planeSize.2 - (s.raster p).next) := by
    have : Config.lineBuffers = 4 := rfl
    omega
  dsimp only at own composer rest
  rw [lines] at own composer rest
  generalize s.freeLines p y = u at own composer rest other ⊢
  cases p with
  | slide =>
    have slide : u.composer.slide = _ := own
    have menu : u.composer.menu = _ := other .menu (by decide)
    rw [rest, composer, slide, menu]
    simp [State.keepFrom, State.setRaster, State.raster, Raster.freed, Raster.dropped, Raster.begun]
  | menu =>
    have slide : u.composer.slide = _ := other .slide (by decide)
    have menu : u.composer.menu = _ := own
    rw [rest, composer, slide, menu]
    simp [State.keepFrom, State.setRaster, State.raster, Raster.freed, Raster.dropped, Raster.begun]

/-! ### LINE_START (R100, R101, R104) -/

/-- The line that a line start begins (R100). -/
def State.nextLine (s : State) : Nat := if s.composer.lineStarted then s.composer.line + 1 else 0

/-- A plane's raster after the line start that begins line `y` (R101, R104). -/
def State.rasterAt (s : State) (y : Nat) (p : PlaneId) : Raster := ((s.raster p).judgedAt y).freed y s.planeSize.2

/-- Spans that lack bursts on either plane's line `y`, counted once for each plane (R126). -/
def State.lacksAt (s : State) (y : Nat) : Nat := s.composer.slide.lacks y + s.composer.menu.lacks y

/-- Spans dropped on the lines that line fetch begins once line `y` has begun (R99). -/
def State.droppedAt (s : State) (y : Nat) : Nat :=
  (s.raster .slide).dropped y s.planeSize.2 + (s.raster .menu).dropped y s.planeSize.2

/-- What stands of line fetch's request once both planes' lines `y` are judged (R104). -/
def State.requestKept (s : State) (y : Nat) : Option Burst :=
  s.port.lfReq.filter fun r => !s.asksForLine .slide y r && !s.asksForLine .menu y r

/-- A line start before line fetch presents a request again (log 11). -/
def State.lineBegins (s : State) (y : Nat) : State :=
  { s with
    composer := { s.composer with
      slide := s.rasterAt y .slide, menu := s.rasterAt y .menu, lineStarted := true, line := y, pixel := 0,
      underruns := s.composer.underruns + s.lacksAt y, drops := s.composer.drops + s.droppedAt y }
    stats := { s.stats with
      underruns := s.stats.underruns + BitVec.ofNat 32 (s.lacksAt y), drops := s.stats.drops + BitVec.ofNat 32 (s.droppedAt y) }
    port := { s.port with lfReq := s.requestKept y } }

theorem lineStart_eq (s : State) : s.lineStart = (s.lineBegins s.nextLine).lfPresent := by
  rw [State.lineStart]
  dsimp only
  rw [show (if s.composer.lineStarted = true then s.composer.line + 1 else 0) = s.nextLine from rfl]
  generalize s.nextLine = y
  rw [judgeLine_eq, judgeLine_eq, freeLines_eq, freeLines_eq]
  congr 1
  simp [State.lineBegins, State.rasterAt, State.lacksAt, State.droppedAt, State.requestKept, State.asksForLine, State.setRaster,
    State.raster, dropped_judgedAt, State.planeSize, BitVec.ofNat_add, Nat.add_assoc, BitVec.add_assoc]

theorem rasterAt_eq (s : State) (y : Nat) (q : PlaneId) : s.rasterAt y q =
    { s.raster q with
      next := (s.raster q).next + ((s.raster q).begun y s.planeSize.2).length
      bufs := (((s.raster q).kept y).map fun b => if b.line = y then b.judge else b)
        ++ ((s.raster q).begun y s.planeSize.2).map (lineBegun (s.raster q).spans) } := by
  rw [State.rasterAt, Raster.freed, kept_judgedAt, begun_judgedAt]
  rfl

/-- A request that presents itself is the one that the state before it, read back, presents. -/
theorem lfPresent_again (s : State) : s.lfPresent = State.lfPresent
    { s.lfPresent with
      port := { s.lfPresent.port with lfReq := s.port.lfReq }
      composer := { s.lfPresent.composer with lastPlane := s.composer.lastPlane } } := by
  conv_rhs => rw [lfPresent_eq s]

/-! ### The request that is withdrawn (R104) -/

/-- A request for line `y` of a plane that has a buffer for that line. -/
def State.RequestsLine (s : State) (y : Nat) (r : Burst) : Prop :=
  ∃ q i, r.user = .line q y i ∧ ∃ b ∈ (s.raster q).bufs, b.line = y

theorem isLine_iff (u : User) (q : PlaneId) (y : Nat) : u.isLine q y = true ↔ ∃ i, u = .line q y i := by
  cases u <;> simp [User.isLine]

theorem asksForLine_iff (s : State) (q : PlaneId) (y : Nat) (r : Burst) :
    s.asksForLine q y r = true ↔ ∃ i, r.user = .line q y i ∧ ∃ b ∈ (s.raster q).bufs, b.line = y := by
  simp [State.asksForLine, isLine_iff]

theorem requestKept_of_line {s : State} {y : Nat} {r : Burst} (waiting : s.port.lfReq = some r) (asks : s.RequestsLine y r) :
    s.requestKept y = none := by
  obtain ⟨q, asks⟩ := asks
  have asked := (asksForLine_iff s q y r).2 asks
  cases q <;> simp [State.requestKept, waiting, asked]

theorem requestKept_of_others {s : State} {y : Nat} (others : ∀ r, s.port.lfReq = some r → ¬ s.RequestsLine y r) :
    s.requestKept y = s.port.lfReq := by
  cases waiting : s.port.lfReq with
  | none => simp [State.requestKept, waiting]
  | some r =>
    have unasked (q : PlaneId) : s.asksForLine q y r = false :=
      Bool.eq_false_iff.2 fun asked => others r waiting ⟨q, (asksForLine_iff s q y r).1 asked⟩
    simp [State.requestKept, waiting, unasked]

/-! ### Bursts that have arrived (R101) -/

theorem arrived_iff (x : SpanFetch) : x.arrived = true ↔ x.got.length = x.bursts ∧ ∀ g ∈ x.got, g ≠ none := by
  simp [SpanFetch.arrived, Option.isSome_iff_ne_none]

theorem ready_iff (b : LineBuf) :
    b.ready = true ↔ ∀ x ∈ b.spans, x.got.length = x.bursts ∧ ∀ g ∈ x.got, g ≠ none := by
  simp only [LineBuf.ready, List.all_eq_true, arrived_iff]

/-! ### Frame-start work that is outstanding (log 3) -/

theorem finishWork_idle {s : State} (h : s.work = {}) : s.finishWork = s := if_pos h

/-- Work that has been finished is not finished again. -/
theorem finishWork_twice {s : State} (h : s.finishWork.work = {}) : s.finishWork.finishWork = s.finishWork :=
  finishWork_idle h

/-- Every step keeps the slide plane's work from a jump (R79, R88). -/
theorem step_noSlideJump {s t : State} (h : s.work.slide ≠ .jump) (e : step s = .next t) : t.work.slide ≠ .jump := by
  unfold step at e
  split at e
  next c rest _ => exact exec_noSlideJump c (s.withPending rest) t h e
  · obtain rfl := Host.Outcome.next.inj e
    simpa using h

theorem exec_lineStart {s : State} (h : s.work = {}) :
    exec .lineStart s = .next (if s.composer.marker.isSome then s.lineStart else s) := by
  simp only [exec, execLineStart, finishWork_idle h]

/-- Settles O50: a line start judges the next line on both planes, frees the lines before it and begins others; the work
outstanding is finished first, and never stands at a jump of the slide plane. -/
theorem lineStartBeginsTheNextLine : Obligations.LineStartBeginsTheNextLine := by
  refine ⟨fun s idle => ⟨fun early => ?_, fun accepted => ?_⟩, ready_iff, arrived_iff, fun s t => step_noSlideJump,
    PlaneStage.noConfusion, fun s calm slide menu => ?_⟩
  · rw [exec_lineStart idle, early]
    rfl
  · rw [exec_lineStart idle, if_pos (Option.isSome_iff_ne_none.2 accepted)]
    refine ⟨_, rfl, ?_⟩
    have again := lfPresent_again (s.lineBegins s.nextLine)
    have form := lfPresent_eq (s.lineBegins s.nextLine)
    rw [← lineStart_eq] at again form
    generalize s.lineStart = t at again form
    have line : t.composer.line = s.nextLine := by rw [form]; rfl
    rw [line]
    refine ⟨by rw [form]; rfl, by rw [form]; rfl, rfl, ⟨by rw [form]; rfl, by rw [form]; rfl⟩,
      ⟨fun q => ?_, by rw [form]; rfl, by rw [form]; rfl⟩, ?_, ?_, s.requestKept s.nextLine, ?_, ?_, again⟩
    · refine Eq.trans ?_ (rasterAt_eq s s.nextLine q)
      rw [form]
      cases q <;> rfl
    · rw [form]
      rfl
    · rw [form]
      rfl
    · exact fun r => requestKept_of_line
    · exact requestKept_of_others
  · have done := finishWork_done s calm slide menu
    have twice := finishWork_twice done
    refine ⟨s.finishWork, done, finishWork_idle, fun outstanding => ?_, ?_, ?_, fun n => ?_⟩
    · rw [State.finishWork, if_neg outstanding]
      exact runs_rounds _ _
    · simp only [exec, execLineStart, twice]
    · simp only [exec, execPixelClock, twice]
    · simp only [exec, execFrameStart, twice]

end Sys2Proof.Machine

/-! ## SHOW PAGE, HIDE PLANE and CLEAR SCHEDULE (O37, O38): R75 to R77, R82, R85, R86 -/

namespace Sys2Proof.Machine

/-! ### Insertion (R75, R76) -/

/-- Where an entry is inserted: after every entry at or before its own distance, before those past it (R76). -/
theorem insertEntry_split (now : Word) (e : SchedEntry) {l : List SchedEntry}
    (sorted : l.Pairwise fun a b => distance now a.due ≤ distance now b.due) :
    ∃ pre post, l = pre ++ post ∧ insertEntry now e l = pre ++ e :: post
      ∧ (∀ a ∈ pre, distance now a.due ≤ distance now e.due) ∧ ∀ b ∈ post, distance now e.due < distance now b.due := by
  induction l with
  | nil => exact ⟨[], [], rfl, rfl, by simp, by simp⟩
  | cons x xs ih =>
    obtain ⟨first, sorted⟩ := List.pairwise_cons.1 sorted
    by_cases before : distance now e.due < distance now x.due
    · refine ⟨[], x :: xs, rfl, by rw [insertEntry, if_pos before]; rfl, by simp, fun b member => ?_⟩
      rcases List.mem_cons.1 member with rfl | member
      · exact before
      · exact before.trans_le (first b member)
    · obtain ⟨pre, post, split, inserted, early, late⟩ := ih sorted
      refine ⟨x :: pre, post, by rw [split]; rfl, by rw [insertEntry, if_neg before, inserted]; rfl, fun a member => ?_, late⟩
      rcases List.mem_cons.1 member with rfl | member
      · exact not_lt.1 before
      · exact early a member

theorem insertEntry_sorted (now : Word) (e : SchedEntry) {l : List SchedEntry}
    (sorted : l.Pairwise fun a b => distance now a.due ≤ distance now b.due) :
    (insertEntry now e l).Pairwise fun a b => distance now a.due ≤ distance now b.due := by
  obtain ⟨pre, post, rfl, inserted, early, late⟩ := insertEntry_split now e sorted
  obtain ⟨before, after, across⟩ := List.pairwise_append.1 sorted
  rw [inserted, List.pairwise_append, List.pairwise_cons]
  refine ⟨before, ⟨fun b member => (late b member).le, after⟩, fun a first b member => ?_⟩
  rcases List.mem_cons.1 member with rfl | member
  · exact early a first
  · exact across a first b member

/-- `t` is `s` with the task's operation in a plane's schedule and handed over; the slots apart (R76). -/
def State.Inserts (s t : State) (q : PlaneId) (page : Option SlotId) (task : Task) : Prop :=
  s.HandsOver t
    ∧ t = { s with slots := t.slots, slide := t.slide, menu := t.menu, walker := t.walker,
                   port := { s.port with walkerQ := t.port.walkerQ } }
    ∧ (t.plane q).content = (s.plane q).content ∧ (t.plane q).view = (s.plane q).view
    ∧ t.plane (otherPlane q) = s.plane (otherPlane q)
    ∧ (t.plane q).schedule = insertEntry s.timer.stamp
        { page := page, blend := blendOf task, due := dueOf s.timer.stamp task, task := task.ref,
          later := decide (s.stage q ≠ .idle) } (s.plane q).schedule

theorem insertOp_inserts (s : State) (slots : Vector Slot 6) (q : PlaneId) (page : Option SlotId) (task : Task) :
    s.Inserts (State.insertOp q page task { s with slots := slots }) q page task := by
  rw [State.Inserts, State.insertOp]
  dsimp only
  cases q <;> rw [dealt_eq, dealt_walkerQ] <;> exact ⟨⟨rfl, ⟨rfl, rfl, rfl⟩, rfl⟩, rfl, rfl, rfl, rfl, rfl⟩

/-! ### The checks (R77) -/

/-- The checks that SHOW PAGE and HIDE PLANE share, then `rest` on the plane named (R77). -/
def State.checksOp (t : Task) (rest : PlaneId → State) (s : State) : State :=
  match planeOf (t.p8 16) with
  | none => s.endTask .badParameter 0 []
  | some p =>
    if Config.maxSchedule ≤ (s.plane p).schedule.length then s.stall
    else if 1 < t.p8 18 then s.endTask .badParameter 0 []
    else rest p

/-- What SHOW PAGE does on a plane with a place in its schedule: the slot is checked, held and scheduled (R77). -/
def State.showOn (t : Task) (s : State) (p : PlaneId) : State :=
  match slotOf (t.p8 17) with
  | none => s.endTask .badParameter 0 []
  | some x =>
    match s.page x with
    | none => s.endTask .notStaged 0 []
    | some d => if d.kind.fits p then (s.addHold x).insertOp p (some x) t else s.endTask .badParameter 0 []

theorem judgeShow_eq (s : State) (t : Task) : s.judgeShow t = s.checksOp t (s.showOn t) := by
  unfold State.judgeShow State.checksOp State.showOn
  cases planeOf (t.p8 16) <;> rfl

theorem judgeHide_eq (s : State) (t : Task) : s.judgeHide t = s.checksOp t fun p => s.insertOp p none t := by
  unfold State.judgeHide State.checksOp
  cases planeOf (t.p8 16) <;> rfl

theorem exec_showPage {s : State} {t : Task} (h : s.inHand 7 = some t) : exec .showPage s = .next (s.judgeShow t) := by
  simp only [exec, execShowPage, h]

theorem exec_hidePlane {s : State} {t : Task} (h : s.inHand 8 = some t) : exec .hidePlane s = .next (s.judgeHide t) := by
  simp only [exec, execHidePlane, h]

section
variable (s : State) (task : Task) (rest : PlaneId → State)

theorem checksOp_of_no_plane (h : 1 < task.p8 16) : s.checksOp task rest = s.endTask .badParameter 0 [] := by
  rw [State.checksOp, planeOf_none _ h]

variable {q : PlaneId} (plane : planeOf (task.p8 16) = some q)
include plane

theorem checksOp_of_full (full : 8 ≤ (s.plane q).schedule.length) : s.checksOp task rest = s.stall := by
  rw [State.checksOp, plane]
  exact if_pos full

variable (room : (s.plane q).schedule.length < Config.maxSchedule)
include room

theorem checksOp_of_bad_transition (bad : 1 < task.p8 18) : s.checksOp task rest = s.endTask .badParameter 0 [] := by
  rw [State.checksOp, plane]
  dsimp only
  rw [if_neg room.not_ge, if_pos bad]

theorem checksOp_of_good (good : task.p8 18 ≤ 1) : s.checksOp task rest = rest q := by
  rw [State.checksOp, plane]
  dsimp only
  rw [if_neg room.not_ge, if_neg good.not_gt]

end

theorem fits_iff (k : PageKind) (q : PlaneId) : k.fits q = true ↔ (k = .menu ↔ q = .menu) := by
  cases k <;> cases q <;> decide

section
variable {s : State} {task : Task} {q : PlaneId}

theorem showOn_of_no_slot (outside : 5 < task.p8 17) : s.showOn task q = s.endTask .badParameter 0 [] := by
  rw [State.showOn, slotOf_none _ outside]

variable {x : SlotId} (slot : x.val = task.p8 17)
include slot

theorem showOn_of_unstaged (empty : s.page x = none) : s.showOn task q = s.endTask .notStaged 0 [] := by
  rw [State.showOn, ← slot, slotOf_val]
  dsimp only
  rw [empty]

theorem showOn_of_page {d : PageDef} (page : s.page x = some d) : s.showOn task q =
    if d.kind.fits q then (s.addHold x).insertOp q (some x) task else s.endTask .badParameter 0 [] := by
  rw [State.showOn, ← slot, slotOf_val]
  dsimp only
  rw [page]

end

/-- A SHOW PAGE that is accepted: its entry is scheduled and its slot has one hold more (R76). -/
theorem show_inserts {s : State} {x : SlotId} {d : PageDef} (page : s.page x = some d) (q : PlaneId) (task : Task) :
    let t := (s.addHold x).insertOp q (some x) task
    s.Inserts t q (some x) task ∧ t.slot x = (s.slot x).withHolds ((s.slot x).holds + 1) ∧ t.page x = some d
      ∧ ∀ y, y ≠ x → t.slot y = s.slot y := by
  have slots (y : SlotId) : ((s.addHold x).insertOp q (some x) task).slot y =
      (s.slot y).withHolds ((s.slot y).holds + if y = x ∧ s.staged x = true then 1 else 0) :=
    (slot_congr (by simp) y).trans (addHold_slot s x y)
  refine ⟨?_, ?_, ?_, fun y other => ?_⟩
  · rw [addHold_eq]
    exact insertOp_inserts s _ q (some x) task
  · simp [slots, staged_of_page page]
  · rw [State.page, slots, page_withHolds]
    exact page
  · simp [slots, other]

/-- What either operation does on a plane with a place in its schedule (R77). -/
def State.opOn (hide : Bool) (t : Task) (s : State) (p : PlaneId) : State :=
  if hide then s.insertOp p none t else s.showOn t p

theorem exec_op {s : State} {t : Task} {hide : Bool} (hand : s.inHand (if hide then 8 else 7) = some t) :
    exec (if hide then .hidePlane else .showPage) s = .next (s.checksOp t (s.opOn hide t)) := by
  cases hide
  · exact (exec_showPage hand).trans (by rw [judgeShow_eq]; rfl)
  · exact (exec_hidePlane hand).trans (by rw [judgeHide_eq]; rfl)

/-- Settles O37: the shared checks come first, then the slot's for a SHOW PAGE; what passes is inserted where its distance
puts it. -/
theorem showAndHideAreCheckedAndInserted : Obligations.ShowAndHideAreCheckedAndInserted := by
  refine ⟨fun s task hide hand => ?_, fun now e l sorted => ⟨insertEntry_sorted now e sorted, insertEntry_split now e sorted⟩⟩
  have current : s.walker.task = some task := (inHand_eq hand).1
  have refuses (o : TaskOutcome) : s.Refuses (s.endTask o 0 []) task.ref o 0 := endTask_refuses s o 0 task current
  refine ⟨_, exec_op hand, fun outside => ?_, fun q plane => ⟨fun full => ?_, fun room bad => ?_, fun room good hides => ?_,
    fun room good shows => ?_⟩⟩
  · rw [checksOp_of_no_plane s task _ outside]
    exact refuses .badParameter
  · rw [checksOp_of_full s task _ plane full]
    exact stall_stalls s
  · rw [checksOp_of_bad_transition s task _ plane room bad]
    exact refuses .badParameter
  · rw [checksOp_of_good s task _ plane room good, State.opOn, if_pos hides]
    exact ⟨insertOp_inserts s s.slots q none task, by simp⟩
  · rw [checksOp_of_good s task _ plane room good, State.opOn, if_neg (by simp [shows])]
    refine ⟨fun outside => ?_, fun x slot => ⟨fun empty => ?_, fun d page misfit => ?_, fun d page fit => ?_⟩⟩
    · rw [showOn_of_no_slot outside]
      exact refuses .badParameter
    · rw [showOn_of_unstaged slot empty]
      exact refuses .notStaged
    · have misfits : ¬ d.kind.fits q = true := by
        rw [fits_iff, misfit]
        cases q <;> decide
      rw [showOn_of_page slot page, if_neg misfits]
      exact refuses .badParameter
    · rw [showOn_of_page slot page, if_pos ((fits_iff _ q).2 fit)]
      exact show_inserts page q task

/-! ### CLEAR SCHEDULE (R86) -/

theorem release?_eq (s : State) (x : Option SlotId) : s.release? x = { s with slots := (s.release? x).slots } := by
  cases x with
  | none => rfl
  | some x => exact releaseHold_eq s x

/-- Entries cancelled from head to tail: they retire in that order, and only slots and the port's asks change besides (R86). -/
theorem cancelAll_eq : ∀ (l : List SchedEntry) (s : State), ∃ slots asks, s.cancelAll l =
    { s with
      slots := slots
      walker := { s.walker with
        retiring := s.walker.retiring ++ l.map fun e => s.retirement e.task .cancelled 0 [] }
      port := { s.port with walkerQ := asks } }
  | [], s => ⟨s.slots, s.port.walkerQ, by simp [State.cancelAll]⟩
  | e :: es, s => by
    obtain ⟨slots, asks, rest⟩ := cancelAll_eq es ((s.retire e.task .cancelled 0 []).release? e.page)
    refine ⟨slots, asks, ?_⟩
    rw [cancelAll_cons, rest, release?_eq, retire_eq]
    simp [State.retirement]

theorem exec_clearSchedule {s : State} {t : Task} (h : s.inHand 9 = some t) : exec .clearSchedule s = .next (s.judgeClear t) := by
  simp only [exec, execClearSchedule, h]

/-- Settles O38: the entries cancelled from head to tail, their holds released, and the task's own DONE behind them. -/
theorem clearScheduleCancelsEveryEntry : Obligations.ClearScheduleCancelsEveryEntry := by
  intro s task hand
  have current : s.walker.task = some task := (inHand_eq hand).1
  refine ⟨s.judgeClear task, exec_clearSchedule hand, fun outside => ?_, fun q plane => ?_⟩
  · rw [State.judgeClear, planeOf_none _ outside]
    exact endTask_refuses s .badParameter 0 task current
  · have emptied := releases_nil s (s.setPlane q { s.plane q with schedule := [] }) (by simp)
    have releases := cancelAll_releases (s.plane q).schedule emptied
    obtain ⟨slots, asks, cancelled⟩ := cancelAll_eq (s.plane q).schedule (s.setPlane q { s.plane q with schedule := [] })
    rw [State.judgeClear, plane]
    dsimp only
    rw [cancelled] at releases ⊢
    rw [endTask_eq _ .done (s.plane q).schedule.length [] task (by cases q <;> exact current)]
    refine ⟨by cases q <;> rfl, by cases q <;> rfl, by cases q <;> rfl, by cases q <;> exact ⟨rfl, rfl, rfl⟩,
      by cases q <;> rfl, fun x => ?_⟩
    rw [← released_pages]
    exact releases x

end Sys2Proof.Machine

/-! ## WAIT, stalls and idle planes (O56): R87, R174, R183, R186 -/

namespace Sys2Proof.Machine

/-! ### WAIT (R183) -/

/-- A plane is idle when nothing is scheduled and no transition runs (R87). -/
theorem idle_iff (p : Plane) : p.idle = true ↔ p.schedule = [] ∧ (p.content = .empty ∨ ∃ i, p.content = .shown i) := by
  cases content : p.content <;> simp [Plane.idle, content]

/-- The parameters of a WAIT that name a condition (R183). -/
def Task.WaitGood (t : Task) : Prop := t.p8 16 = 1 ∨ (t.p8 16 = 2 ∧ (t.p32 20 = 0 ∨ t.p32 20 = 1)) ∨ t.p8 16 = 3

/-- The condition that a WAIT names holds (R183). -/
def State.WaitMet (s : State) (t : Task) : Prop :=
  (t.p8 16 = 1 ∧ reached s.timer.stamp (t.p32 20) = true)
    ∨ (t.p8 16 = 2 ∧ t.p32 20 = 0 ∧ s.slide.idle = true) ∨ (t.p8 16 = 2 ∧ t.p32 20 = 1 ∧ s.menu.idle = true)
    ∨ (t.p8 16 = 3 ∧ s.heap.loads = [])

/-- The plane that a word names (05). -/
theorem planeOf_word (w : Word) : planeOf w.toNat = if w = 0 then some .slide else if w = 1 then some .menu else none := by
  have zero : w.toNat = 0 ↔ w = 0 := BitVec.toNat_inj (y := 0)
  have one : w.toNat = 1 ↔ w = 1 := BitVec.toNat_inj (y := 1)
  simp only [planeOf, zero, one]

/-- The kinds of condition that a WAIT names (R183). -/
theorem waitCond_cases (s : State) (t : Task) :
    (t.p8 16 = 1 ∧ s.waitCond t = some (reached s.timer.stamp (t.p32 20)))
      ∨ (t.p8 16 = 2 ∧ t.p32 20 = 0 ∧ s.waitCond t = some s.slide.idle)
      ∨ (t.p8 16 = 2 ∧ t.p32 20 = 1 ∧ s.waitCond t = some s.menu.idle)
      ∨ (t.p8 16 = 3 ∧ s.waitCond t = some s.heap.loads.isEmpty)
      ∨ (¬ t.WaitGood ∧ s.waitCond t = none) := by
  unfold State.waitCond Task.WaitGood
  rw [planeOf_word]
  by_cases frame : t.p8 16 = 1
  · simp [frame]
  by_cases plane : t.p8 16 = 2
  · by_cases slide : t.p32 20 = 0
    · simp [plane, slide, State.plane]
    by_cases menu : t.p32 20 = 1
    · simp [plane, menu, State.plane]
    · rw [if_neg slide, if_neg menu]
      simp_all
  by_cases loads : t.p8 16 = 3
  · simp [loads]
  · simp [frame, plane, loads]

theorem waitCond_none_iff (s : State) (t : Task) : s.waitCond t = none ↔ ¬ t.WaitGood := by
  unfold Task.WaitGood
  rcases waitCond_cases s t with ⟨kind, named⟩ | ⟨kind, slide, named⟩ | ⟨kind, menu, named⟩ | ⟨kind, named⟩ | ⟨bad, unnamed⟩
  · simp [kind, named]
  · simp [kind, slide, named]
  · simp [kind, menu, named]
  · simp [kind, named]
  · exact iff_of_true unnamed bad

theorem waitCond_true_iff (s : State) (t : Task) : s.waitCond t = some true ↔ s.WaitMet t := by
  unfold State.WaitMet
  rcases waitCond_cases s t with ⟨kind, named⟩ | ⟨kind, slide, named⟩ | ⟨kind, menu, named⟩ | ⟨kind, named⟩ | ⟨bad, unnamed⟩
  · simp [kind, named]
  · simp [kind, slide, named]
  · simp [kind, menu, named]
  · simp [kind, named]
  · rw [Task.WaitGood] at bad
    simp [unnamed]
    tauto

theorem beginWait_eq (s : State) : s.beginWait =
    { s with walker := { s.walker with st := if s.run.state = .halting then .halted .wait else .waiting } } := by
  unfold State.beginWait
  split <;> simp_all

theorem judgeWait_of_bad {s : State} {t : Task} (bad : ¬ t.WaitGood) : s.judgeWait t = s.endTask .badParameter 0 [] := by
  rw [State.judgeWait, (waitCond_none_iff s t).2 bad]

theorem judgeWait_of_met {s : State} {t : Task} (met : s.WaitMet t) : s.judgeWait t = s.endTask .done 0 [] := by
  rw [State.judgeWait, (waitCond_true_iff s t).2 met]

theorem judgeWait_of_unmet {s : State} {t : Task} (good : t.WaitGood) (unmet : ¬ s.WaitMet t) : s.judgeWait t = s.beginWait := by
  rw [← waitCond_true_iff] at unmet
  cases condition : s.waitCond t with
  | none => exact absurd good ((waitCond_none_iff s t).1 condition)
  | some met => cases met <;> simp_all [State.judgeWait]

theorem exec_wait {s : State} {t : Task} (h : s.inHand 13 = some t) : exec .wait s = .next (s.judgeWait t) := by
  simp only [exec, execWait, h]

theorem exec_waitMet {s : State} {t : Task} (waiting : s.walker.st = .waiting) (task : s.walker.task = some t) :
    exec .waitMet s = .next (if s.waitCond t = some true then s.endTask .done 0 [] else s) := by
  simp only [exec, execWaitMet, State.recheckWait, waiting, task]

/-! ### Stalls (R174) -/

/-- The walker has taken its task up again (R174). -/
def State.again (s : State) : State := { s with walker := { s.walker with st := .working } }

theorem exec_stallHandover {s : State} {t : Task} (stalled : s.walker.st = .stalled) (task : s.walker.task = some t) :
    exec .stallHandover s = .next (s.again.judgeStalled t) := by
  rw [exec, execStallHandover, State.retryStall]
  split
  next t' _ current => rw [Option.some.inj (task.symm.trans current)]; rfl
  next other => exact absurd task (other t stalled)

theorem again_inHand {s : State} {t : Task} (task : s.walker.task = some t) (job : s.walker.job = .judge) :
    s.again.inHand t.ref.kind.toNat = some t := by
  simp [State.inHand, State.again, task, job]

theorem exec_selectButton {s : State} {t : Task} (h : s.inHand 11 = some t) : exec .selectButton s = .next (s.judgeSelect t) := by
  simp only [exec, execSelectButton, h]

theorem exec_injectKey {s : State} {t : Task} (h : s.inHand 12 = some t) : exec .injectKey s = .next (s.judgeInject t) := by
  simp only [exec, execInjectKey, h]

/-- An item from a task joins a queue with a place for it, and the task is handed over (R155, R174). -/
theorem joinItem_of_room {s : State} (i : KeyItem) (room : s.nav.queue.length < Config.maxKeys) :
    s.HandsOver (s.joinItem i) ∧ (s.joinItem i).nav.queue = s.nav.queue ++ [i] := by
  rw [State.joinItem, if_pos room]
  exact ⟨dealt_handsOver { s with nav := { s.nav with queue := s.nav.queue ++ [i] } }, by rw [dealt_eq]⟩

/-- Settles O56: a WAIT is judged by its condition, a stalled task is judged again, and a plane is idle as R87 says. -/
theorem waitsAndStallsAreRetried : Obligations.WaitsAndStallsAreRetried := by
  refine ⟨fun s task => ⟨fun hand => ?_, fun waiting current => ⟨fun unmet => ?_, fun met => ?_⟩⟩,
    fun s task stalled current job => ?_, idle_iff⟩
  · obtain ⟨current, -, -, -⟩ := inHand_eq hand
    refine ⟨_, exec_wait hand, fun bad => ?_, fun met => ?_, fun good unmet => ?_⟩
    · rw [judgeWait_of_bad bad]
      exact endTask_refuses s _ 0 task current
    · rw [judgeWait_of_met met]
      exact endTask_refuses s _ 0 task current
    · rw [judgeWait_of_unmet good unmet, beginWait_eq]
  · rw [exec_waitMet waiting current, if_neg fun met => unmet ((waitCond_true_iff s task).1 met)]
  · rw [exec_waitMet waiting current, if_pos ((waitCond_true_iff s task).2 met)]
    exact ⟨_, rfl, endTask_refuses s _ 0 task current⟩
  · have hand := again_inHand current job
    rw [exec_stallHandover stalled current]
    refine ⟨fun kind => ?_, fun kind => ?_, fun kind => ?_, fun kind => ?_, fun kind => ?_, fun kind => ?_, fun kind => ?_,
      fun kind room => ?_⟩
    all_goals rw [kind] at hand
    all_goals simp only [State.judgeStalled, kind]
    · exact (exec_loadObject hand).symm
    · exact (exec_compactHeap hand).symm
    · exact (exec_loadPalette hand).symm
    · exact (exec_showPage hand).symm
    · exact (exec_hidePlane hand).symm
    · exact (exec_selectButton hand).symm
    · exact (exec_injectKey hand).symm
    · exact ⟨_, rfl, joinItem_of_room (s := s.again) _ room⟩

end Sys2Proof.Machine

/-! ## Rounding division (O48): R106 -/

namespace Sys2Proof.Machine

theorem div255_mono {x y : Nat} (le : x ≤ y) : div255 x ≤ div255 y := by
  unfold div255
  omega

theorem div255_mul_255 {m : Nat} (le : m ≤ 255) : div255 (255 * m) = m := by
  unfold div255
  omega

theorem div255_nearest {x : Nat} (le : x ≤ 65025) : 255 * div255 x ≤ x + 127 ∧ x ≤ 255 * div255 x + 127 := by
  unfold div255
  omega

theorem sdiv255_of_nonneg {x : Int} (nonneg : 0 ≤ x) : sdiv255 x = div255 x.natAbs := if_neg (Int.not_lt.mpr nonneg)

theorem sdiv255_of_neg {x : Int} (neg : x < 0) : sdiv255 x = -(div255 x.natAbs : Int) := if_pos neg

/-- Settles O48. -/
theorem roundingDivisionIsNearest : Obligations.RoundingDivisionIsNearest :=
  ⟨fun _ le => ⟨rfl, div255_nearest le⟩, fun _ _ => div255_mono, fun _ => div255_mul_255,
    fun _ => ⟨sdiv255_of_nonneg, sdiv255_of_neg⟩⟩

end Sys2Proof.Machine

/-! ## PIXEL_CLOCK (O49): R97 to R112 -/

namespace Sys2Proof.Machine

/-! ### Colours within their alpha (R106 to R111) -/

theorem bounded_iff (c : Colour) :
    c.bounded = true ↔ c.a ≤ 255 ∧ c.y ≤ c.a ∧ c.cb.natAbs ≤ c.a ∧ c.cr.natAbs ≤ c.a := decide_eq_true_iff

theorem transparent_bounded : Colour.bounded {} = true := by decide

theorem natAbs_sdiv255 (x : Int) : (sdiv255 x).natAbs = div255 x.natAbs := by
  rcases lt_or_ge x 0 with neg | nonneg
  · rw [sdiv255_of_neg neg, Int.natAbs_neg, Int.natAbs_natCast]
  · rw [sdiv255_of_nonneg nonneg, Int.natAbs_natCast]

theorem div255_scaled_le {c a : Nat} (le : c ≤ a) (k : Nat) : div255 (c * k) ≤ div255 (a * k) :=
  div255_mono (Nat.mul_le_mul_right k le)

theorem sdiv255_scaled_le {c : Int} {a : Nat} (le : c.natAbs ≤ a) (k : Nat) : (sdiv255 (c * k)).natAbs ≤ div255 (a * k) := by
  rw [natAbs_sdiv255, Int.natAbs_mul, Int.natAbs_natCast]
  exact div255_scaled_le le k

/-- A palette entry premultiplied keeps within its alpha (R107, R111). -/
theorem premultiplied_bounded (e : PalEntry) : e.premultiplied.bounded = true := by
  have scaled {c : Nat} (le : c ≤ 255) : div255 (c * e.a.toNat) ≤ e.a.toNat :=
    (div255_scaled_le le _).trans_eq (div255_mul_255 (by omega))
  have chroma (c : Byte) : (sdiv255 (((c.toNat : Int) - 128) * e.a.toNat)).natAbs ≤ e.a.toNat := by
    rw [natAbs_sdiv255, Int.natAbs_mul, Int.natAbs_natCast]
    exact scaled (by omega)
  rw [bounded_iff]
  exact ⟨show e.a.toNat ≤ 255 by omega, scaled (by omega), chroma e.cb, chroma e.cr⟩

/-- A colour laid over another: what the top leaves of 255 bounds what the bottom adds (R108, R111). -/
theorem over_bounded {top bottom : Colour} (ht : top.bounded = true) (hb : bottom.bounded = true) :
    (top.over bottom).bounded = true := by
  rw [bounded_iff] at ht hb ⊢
  obtain ⟨topAlpha, topLuma, topCb, topCr⟩ := ht
  obtain ⟨alpha, luma, cb, cr⟩ := hb
  have added := (div255_scaled_le alpha (255 - top.a)).trans_eq (div255_mul_255 (by omega))
  have chroma {x y : Int} (hx : x.natAbs ≤ top.a) (hy : y.natAbs ≤ bottom.a) :
      (x + sdiv255 (y * (255 - top.a : Nat))).natAbs ≤ top.a + div255 (bottom.a * (255 - top.a)) :=
    (Int.natAbs_add_le _ _).trans (Nat.add_le_add hx (sdiv255_scaled_le hy _))
  exact ⟨show top.a + div255 (bottom.a * (255 - top.a)) ≤ 255 by omega, Nat.add_le_add topLuma (div255_scaled_le luma _),
    chroma topCb cb, chroma topCr cr⟩

/-- Two colours mixed by a fade within 255 (R109, R111). -/
theorem mix_bounded {inc out : Colour} {fade : Nat} (hi : inc.bounded = true) (ho : out.bounded = true) (le : fade ≤ 255) :
    (Colour.mix inc out fade).bounded = true := by
  rw [bounded_iff] at hi ho ⊢
  obtain ⟨incAlpha, incLuma, incCb, incCr⟩ := hi
  obtain ⟨outAlpha, outLuma, outCb, outCr⟩ := ho
  have weighed {x y m n : Nat} (hx : x ≤ m) (hy : y ≤ n) : x * fade + y * (255 - fade) ≤ m * fade + n * (255 - fade) :=
    Nat.add_le_add (Nat.mul_le_mul_right _ hx) (Nat.mul_le_mul_right _ hy)
  have whole : 255 * fade + 255 * (255 - fade) = 255 * 255 := by omega
  have chroma {x y : Int} (hx : x.natAbs ≤ inc.a) (hy : y.natAbs ≤ out.a) :
      (sdiv255 (x * fade + y * (255 - fade : Nat))).natAbs ≤ div255 (inc.a * fade + out.a * (255 - fade)) := by
    rw [natAbs_sdiv255]
    refine div255_mono ((Int.natAbs_add_le _ _).trans ?_)
    rw [Int.natAbs_mul, Int.natAbs_mul, Int.natAbs_natCast, Int.natAbs_natCast]
    exact weighed hx hy
  refine ⟨?_, div255_mono (weighed incLuma outLuma), chroma incCb outCb, chroma incCr outCr⟩
  calc div255 (inc.a * fade + out.a * (255 - fade))
      ≤ div255 (255 * 255) := div255_mono ((weighed incAlpha outAlpha).trans_eq whole)
    _ = 255 := div255_mul_255 le_rfl

/-- Chroma limited stays within its alpha, and within its bits (R110, R111). -/
theorem limited_bounded {c : Colour} (h : c.bounded = true) : c.limited.bounded = true ∧ c.limited.inRange = true := by
  rw [bounded_iff] at h ⊢
  dsimp only [Colour.inRange, Colour.limited]
  rw [decide_eq_true_iff]
  omega

section
variable (s : State)

theorem spanColour_bounded (f : SpanFetch) (x : Nat) : (s.spanColour f x).bounded = true := by
  unfold State.spanColour
  split
  · exact transparent_bounded
  · exact premultiplied_bounded _

theorem stack_nil (x : Nat) : s.stack x [] = {} := rfl

theorem stack_bounded (x : Nat) (l : List SpanFetch) : (s.stack x l).bounded = true := by
  induction l using List.reverseRecOn with
  | nil => exact transparent_bounded
  | append_singleton l f below =>
    rw [stack_append]
    split
    · exact over_bounded (spanColour_bounded s f x) below
    · exact below

/-! ### The values of a span and of a plane (R97, R98, R104, R107 to R109) -/

theorem spanColour_transparent {f : SpanFetch} (h : f.span.blank = true ∨ f.under = true) (x : Nat) : s.spanColour f x = {} :=
  if_pos (by simpa using h)

theorem spanColour_drawn {f : SpanFetch} (drawn : f.span.blank = false) (whole : f.under = false) (x : Nat) :
    s.spanColour f x = (s.colour f.span.pal (f.index (x - f.span.left)).toNat).premultiplied :=
  if_neg (by simp [drawn, whole])

theorem isCrossing_iff (v : FrameView) : v.isCrossing = true ↔ ∃ i o k n, v.content = .crossing i o k n := by
  unfold FrameView.isCrossing
  cases v.content <;> simp

theorem planeColour_absent {q : PlaneId} {y : Nat}
    (h : (s.plane q).view = none ∨ (s.raster q).bufs.find? (fun b => decide (b.line = y)) = none) (x : Nat) :
    s.planeColour q x y = {} := by
  unfold State.planeColour
  split
  · next view line => simp [view, line] at h
  · rfl

section
variable {s} {q : PlaneId} {y : Nat} {v : FrameView} {b : LineBuf}
  (view : (s.plane q).view = some v) (line : (s.raster q).bufs.find? (fun b => decide (b.line = y)) = some b)
include view line

theorem planeColour_crossing (crossing : ∃ i o k n, v.content = .crossing i o k n) (x : Nat) : s.planeColour q x y =
    Colour.mix (s.stack x (b.spans.filter fun f => decide (f.span.role ≠ .outgoing)))
      (s.stack x (b.spans.filter fun f => decide (f.span.role = .outgoing))) v.fade := by
  simp only [State.planeColour, view, line, (isCrossing_iff v).mpr crossing, Bool.true_and, decide_not]

theorem planeColour_single (single : ∀ i o k n, v.content ≠ .crossing i o k n) (x : Nat) :
    s.planeColour q x y = Colour.mix (s.stack x b.spans) {} v.fade := by
  have plain : v.isCrossing = false := by
    rw [Bool.eq_false_iff, ne_eq, isCrossing_iff]
    rintro ⟨i, o, k, n, crossing⟩
    exact single i o k n crossing
  simp only [State.planeColour, view, line, plain, Bool.false_and, Bool.not_false, List.filter_true, List.filter_false, stack_nil]

end

theorem planeColour_bounded {q : PlaneId} (fades : ∀ v, (s.plane q).view = some v → v.fade ≤ 255) (x y : Nat) :
    (s.planeColour q x y).bounded = true := by
  unfold State.planeColour
  split
  · next v b view line => exact mix_bounded (stack_bounded s x _) (stack_bounded s x _) (fades v view)
  · exact transparent_bounded

/-! ### What a span reads (R98, R102, R107) -/

theorem toList_getD {α : Type} {n : Nat} (v : Vector α n) (i : Fin n) (x : α) : v.toList.getD i.val x = v.get i := by
  rw [List.getD_eq_getElem _ _ (by simp), Vector.getElem_toList]
  rfl

theorem colour_applied (p : Fin 8) (i : Fin 256) : s.colour p.val i.val = (s.palette.applied.get p).get i := by
  rw [State.colour, toList_getD, toList_getD]

/-- Blocks of 64 bytes laid end to end hold byte `o` in block `o / 64` (R115). -/
theorem flatten_blocks_getD (blocks : List (List Byte)) (sizes : ∀ b ∈ blocks, b.length = 64) (o : Nat) :
    blocks.flatten.getD o 0 = (blocks[o / 64]?.getD []).getD (o % 64) 0 := by
  induction blocks generalizing o with
  | nil => simp
  | cons b bs ih =>
    have size := sizes b List.mem_cons_self
    rw [List.flatten_cons]
    rcases lt_or_ge o 64 with inside | past
    · rw [List.getD_append _ _ _ _ (by omega), Nat.div_eq_of_lt inside, Nat.mod_eq_of_lt inside]
      rfl
    · rw [List.getD_append_right _ _ _ _ (by omega), size, ih fun c hc => sizes c (List.mem_cons_of_mem _ hc)]
      obtain ⟨o, rfl⟩ := Nat.exists_eq_add_of_le' past
      simp

theorem index_of_blocks {f : SpanFetch} {blocks : List (List Byte)} (got : f.got = blocks.map some)
    (sizes : ∀ b ∈ blocks, b.length = 64) (i : Nat) : f.index i = blocks.flatten.getD (f.base % 64 + i) 0 := by
  rw [flatten_blocks_getD blocks sizes]
  simp only [SpanFetch.index, got, List.getElem?_map, byteAt]
  cases blocks[(f.base % 64 + i) / 64]? <;> simp

/-! ### The pixel sent (R100, R110, R112) -/

theorem outputPixel_transparent (h : s.active = false ∨ s.composer.marker = none ∨ s.timer.forced = true
    ∨ s.composer.lineStarted = false ∨ s.planeSize.1 ≤ s.composer.pixel ∨ s.planeSize.2 ≤ s.composer.line) :
    s.outputPixel = {} := by
  refine if_pos ?_
  simp only [State.forced, Bool.or_eq_true, Bool.not_eq_true', Option.isNone_iff_eq_none, decide_eq_true_eq]
  tauto

theorem outputPixel_composed (active : s.active = true) (accepted : s.composer.marker ≠ none) (free : s.timer.forced = false)
    (started : s.composer.lineStarted = true) (column : s.composer.pixel < s.planeSize.1)
    (row : s.composer.line < s.planeSize.2) : s.outputPixel = Colour.limited
      ((s.planeColour .menu s.composer.pixel s.composer.line).over (s.planeColour .slide s.composer.pixel s.composer.line)) := by
  refine if_neg ?_
  simp [State.forced, active, accepted, free, started, column, row]

theorem outputPixel_bounded (fades : ∀ q v, (s.plane q).view = some v → v.fade ≤ 255) :
    s.outputPixel.bounded = true ∧ s.outputPixel.inRange = true := by
  unfold State.outputPixel
  split
  · exact ⟨transparent_bounded, by decide⟩
  · exact limited_bounded (over_bounded (planeColour_bounded s (fades .menu) _ _) (planeColour_bounded s (fades .slide) _ _))

theorem pixelClock_counts : s.pixelClock.composer.pixel =
    if s.composer.marker = none then s.composer.pixel else s.composer.pixel + 1 := by
  unfold State.pixelClock
  cases s.composer.marker <;> rfl

end

theorem exec_pixelClock {s : State} (idle : s.work = {}) : exec .pixelClock s = .next s.pixelClock := by
  simp only [exec, execPixelClock, finishWork_idle idle]

/-- Settles O49: the pixel sent, its bounds, and stage by stage the values that it is made of. -/
theorem pixelClockOutputsAPremultipliedPixel : Obligations.PixelClockOutputsAPremultipliedPixel := by
  refine ⟨fun s idle => ⟨_, exec_pixelClock idle, rfl, pixelClock_counts s, outputPixel_transparent s,
      outputPixel_composed s⟩,
    fun s t idle fades sent => ?_, fun s q x y => ⟨fun h => planeColour_absent s h x, fun v b view line => ?_⟩,
    fun s x l f => ⟨rfl, fun outside => ?_, fun left right => ?_, fun h => spanColour_transparent s h x, fun drawn whole => ?_⟩,
    colour_applied, fun f blocks i got sizes => index_of_blocks got sizes i⟩
  · rw [exec_pixelClock idle] at sent
    obtain rfl := Host.Outcome.next.inj sent
    exact outputPixel_bounded s fades
  · exact ⟨fun crossing => planeColour_crossing view line crossing x, fun single => planeColour_single view line single x⟩
  · rw [stack_append, if_neg outside]
  · rw [stack_append, if_pos ⟨left, right⟩]
    rfl
  · exact spanColour_drawn s drawn whole x

end Sys2Proof.Machine

/-! ## Line fetch (O51): R92 to R105, R137 -/

namespace Sys2Proof.Machine

/-! ### A burst of line fetch comes (R101, R104, R105) -/

/-- One span of a line that is not judged is changed; its line is the only one of its number (R101). -/
theorem mapSpan_raster {s : State} {q : PlaneId} {y i : Nat} {pre post : List LineBuf} {l : LineBuf} {x : SpanFetch}
    (bufs : (s.raster q).bufs = pre ++ l :: post) (others : ∀ c ∈ pre ++ post, c.line ≠ y) (line : l.line = y)
    (unjudged : l.judged = false) (span : l.spans[i]? = some x) (f : SpanFetch → SpanFetch) : (s.mapSpan q y i f).raster q =
      { s.raster q with bufs := pre ++ { l with spans := l.spans.set i (f x) } :: post } := by
  have stands (m : List LineBuf) (h : ∀ c ∈ m, c.line ≠ y) :
      m.map (fun c => if c.line = y ∧ !c.judged then { c with spans := c.spans.modify i f } else c) = m :=
    (List.map_congr_left fun c hc => if_neg fun k => h c hc k.1).trans (List.map_id m)
  have before := stands pre fun c hc => others c (List.mem_append_left _ hc)
  have after := stands post fun c hc => others c (List.mem_append_right _ hc)
  have changed : l.spans.modify i f = l.spans.set i (f x) := by
    rw [List.modify_eq_set_getElem?, span]
    rfl
  simp only [State.mapSpan, setRaster_raster_self, bufs, List.map_append, List.map_cons, before, after,
    if_pos (show l.line = y ∧ (!l.judged) = true by simp [line, unjudged]), changed]

theorem mapSpan_other (s : State) (q : PlaneId) (y i : Nat) (f : SpanFetch → SpanFetch) :
    (s.mapSpan q y i f).raster (otherPlane q) = s.raster (otherPlane q) := setRaster_raster_other s q _

/-- A span changed leaves of the composer all but the rasters. -/
theorem mapSpan_composer (s : State) (q : PlaneId) (y i : Nat) (f : SpanFetch → SpanFetch) : (s.mapSpan q y i f).composer =
    { s.composer with slide := (s.mapSpan q y i f).raster .slide, menu := (s.mapSpan q y i f).raster .menu } := by
  cases q <;> rfl

/-- Bytes that come for a line judged, or no longer held, are not used (R104). -/
theorem mapSpan_unused {s : State} {q : PlaneId} {y : Nat} (unused : ∀ b ∈ (s.raster q).bufs, b.line = y → b.judged = true)
    (i : Nat) (f : SpanFetch → SpanFetch) : s.mapSpan q y i f = s := by
  have stands : (s.raster q).bufs.map (fun b => if b.line = y ∧ !b.judged then { b with spans := b.spans.modify i f } else b) =
      (s.raster q).bufs :=
    (List.map_congr_left fun b hb => if_neg fun k => by simp [unused b hb k.1] at k).trans (List.map_id _)
  simp only [State.mapSpan, stands]
  cases q <;> rfl

/-- A burst that has come joins its span (R101, R105). -/
def SpanFetch.withBurst (f : Flight) (err : Bool) (x : SpanFetch) : SpanFetch :=
  { x with got := x.got ++ [if f.refused = true ∨ err = true then none else some f.data] }

theorem exec_lineFetchBurstComplete {s : State} {f : Flight} {q : PlaneId} {y i : Nat} (landing : s.LandingRead f (.line q y i))
    (err : Bool) : exec (.lineFetchBurstComplete err) s = .next (s.landed.mapSpan q y i (SpanFetch.withBurst f err)) := by
  have complete := landingRead_complete landing User.ofLine rfl err
  have failed : (f.failed err = true) = (f.refused = true ∨ err = true) := by simp [Flight.failed]
  obtain ⟨-, user, -⟩ := landing
  simp only [exec, execLineFetchBurstComplete, complete, State.lineCame, user, failed]
  rfl

/-! ### The spans of a line and the bursts of a row (R99, R101, R102) -/

theorem fetch_blank {x : Span} (blank : x.blank = true) (y : Nat) : Span.fetch y x = { span := x, base := 0, bursts := 0 } :=
  if_pos blank

theorem fetch_drawn {x : Span} (drawn : x.blank = false) (y : Nat) : Span.fetch y x =
    { span := x, base := 64 * x.heapOff + (x.sy + y - x.top) * x.objW + x.sx,
      bursts := burstsFor (64 * x.heapOff + (x.sy + y - x.top) * x.objW + x.sx) x.width } :=
  if_neg (by simp [drawn])

/-- The bursts of a row are those whose block holds a byte of it (R102). -/
theorem burstsFor_covers {a w : Nat} (some_ : 0 < w) (k : Nat) :
    (a / 64 ≤ k ∧ k < a / 64 + burstsFor a w) ↔ ∃ n, a ≤ n ∧ n < a + w ∧ n / 64 = k := by
  unfold burstsFor
  constructor
  · intro h
    exact ⟨max a (64 * k), by omega, by omega, by omega⟩
  · rintro ⟨n, first, last, rfl⟩
    omega

section
variable {s : State} {q : PlaneId}

/-- Line fetch begins a plane's next line in a free buffer (R99, R101). -/
theorem beginLine_begins (line : (s.raster q).next < s.planeSize.2) (free : (s.raster q).bufs.length < 4) : s.beginLine q =
    { s with
      composer := { (s.setRaster q { s.raster q with
          bufs := (s.raster q).bufs ++ [lineBegun (s.raster q).spans (s.raster q).next]
          next := (s.raster q).next + 1 }).composer with
        drops := s.composer.drops + ((covering (s.raster q).next (s.raster q).spans).length - 16) }
      stats := { s.stats with
        drops := s.stats.drops + BitVec.ofNat 32 ((covering (s.raster q).next (s.raster q).spans).length - 16) } } := by
  unfold State.beginLine
  dsimp only
  rw [if_pos (show _ ∧ _ < Config.lineBuffers from ⟨line, free⟩)]
  cases q <;> rfl

theorem beginLine_idle (none_ : s.planeSize.2 ≤ (s.raster q).next ∨ 4 ≤ (s.raster q).bufs.length) : s.beginLine q = s :=
  if_neg fun h => by
    have : Config.lineBuffers = 4 := rfl
    omega

end

/-! ### The request presented (R101 to R103, log 11) -/

theorem firstWanting_eq_none_iff (i : Nat) (l : List SpanFetch) : firstWanting i l = none ↔ ∀ x ∈ l, x.bursts ≤ x.granted := by
  induction l generalizing i with
  | nil => simp [firstWanting]
  | cons x xs ih =>
    unfold firstWanting
    split
    · next wants => simp [wants]
    · next full => simp [ih, Nat.not_lt.mp full]

theorem firstWanting_append {pre : List SpanFetch} (full : ∀ z ∈ pre, z.bursts ≤ z.granted) {x : SpanFetch}
    (wants : x.granted < x.bursts) (post : List SpanFetch) (i : Nat) :
    firstWanting i (pre ++ x :: post) = some (i + pre.length, x) := by
  induction pre generalizing i with
  | nil => exact if_pos wants
  | cons z zs ih =>
    rw [List.cons_append, firstWanting, if_neg (Nat.not_lt.mpr (full z List.mem_cons_self)),
      ih fun c hc => full c (List.mem_cons_of_mem _ hc)]
    simp only [List.length_cons, Nat.add_assoc, Nat.add_comm 1]

/-- A line that has nothing left to ask (R101, R102). -/
def LineBuf.asksNothing (b : LineBuf) : Prop := b.judged = true ∨ ∀ x ∈ b.spans, x.bursts ≤ x.granted

theorem nextOfPlane_skips {b : LineBuf} (idle : b.asksNothing) (bs : List LineBuf) : nextOfPlane (b :: bs) = nextOfPlane bs := by
  rw [nextOfPlane]
  rcases idle with judged | full
  · exact if_pos judged
  · rw [(firstWanting_eq_none_iff 0 b.spans).mpr full, ite_self]

theorem nextOfPlane_eq_none_iff (l : List LineBuf) : nextOfPlane l = none ↔ ∀ b ∈ l, b.asksNothing := by
  induction l with
  | nil => simp [nextOfPlane]
  | cons b bs ih =>
    by_cases idle : b.asksNothing
    · rw [nextOfPlane_skips idle, ih, List.forall_mem_cons, and_iff_right idle]
    · refine iff_of_false (fun none_ => ?_) fun h => idle (h b List.mem_cons_self)
      rw [LineBuf.asksNothing, not_or, ← firstWanting_eq_none_iff 0] at idle
      obtain ⟨unjudged, asks⟩ := idle
      obtain ⟨⟨i, x⟩, first⟩ := Option.ne_none_iff_exists'.mp asks
      simp [nextOfPlane, unjudged, first] at none_

theorem nextOfPlane_append {pre : List LineBuf} (idle : ∀ c ∈ pre, c.asksNothing) (l : List LineBuf) :
    nextOfPlane (pre ++ l) = nextOfPlane l := by
  induction pre with
  | nil => rfl
  | cons c cs ih =>
    rw [List.cons_append, nextOfPlane_skips (idle c List.mem_cons_self), ih fun d hd => idle d (List.mem_cons_of_mem _ hd)]

section
variable (s : State)

theorem wants_iff (q : PlaneId) :
    s.wants q = true ↔ ∃ b ∈ (s.raster q).bufs, b.judged = false ∧ ∃ x ∈ b.spans, x.granted < x.bursts := by
  rw [State.wants, Option.isSome_iff_ne_none, ne_eq, nextOfPlane_eq_none_iff]
  simp [LineBuf.asksNothing]

theorem linesAhead_eq (q : PlaneId) : s.linesAhead q = ((s.raster q).bufs.filter fun b =>
    b.ready && decide (s.composer.lineStarted = false ∨ s.composer.line < b.line)).length := by
  simp [State.linesAhead]

theorem fetchPlane_eq_none_iff : s.fetchPlane = none ↔ s.wants .slide = false ∧ s.wants .menu = false := by
  unfold State.fetchPlane
  cases s.wants .slide <;> cases s.wants .menu <;> simp
  split
  · simp
  · split <;> simp

/-- The plane with fewer lines ahead, in turn when they are level (R102). -/
theorem fetchPlane_eq_some_iff (q : PlaneId) : s.fetchPlane = some q ↔ s.wants q = true
    ∧ (s.wants (otherPlane q) = true → s.linesAhead q < s.linesAhead (otherPlane q)
        ∨ (s.linesAhead q = s.linesAhead (otherPlane q) ∧ s.composer.lastPlane = otherPlane q)) := by
  cases slide : s.wants .slide <;> cases menu : s.wants .menu
  case true.true =>
    rcases lt_trichotomy (s.linesAhead .slide) (s.linesAhead .menu) with fewer | level | more
    · cases q <;> simp [State.fetchPlane, slide, menu, otherPlane, fewer, fewer.not_gt, fewer.ne']
    · cases q <;> cases last : s.composer.lastPlane <;> simp [State.fetchPlane, slide, menu, otherPlane, level, last]
    · cases q <;> simp [State.fetchPlane, slide, menu, otherPlane, more, more.not_gt, more.ne']
  all_goals cases q <;> simp [State.fetchPlane, otherPlane, slide, menu]

theorem lfPresent_stays (h : s.port.lfReq ≠ none ∨ s.fetchPlane = none) : s.lfPresent = s := by
  unfold State.lfPresent
  split
  · next p waiting plane => simp [waiting, plane] at h
  · rfl

theorem urgent_iff : s.urgent = true ↔ ∃ q tn, s.run.tun = some tn ∧ s.wants q = true ∧ s.linesAhead q < tn.threshold := by
  have fewer (q : PlaneId) (n : Nat) :
      (s.wants q && decide (s.linesAhead q < n)) = true ↔ s.wants q = true ∧ s.linesAhead q < n := by
    rw [Bool.and_eq_true, decide_eq_true_iff]
  rw [State.urgent, Bool.or_eq_true, fewer, fewer]
  cases s.run.tun with
  | none => simp
  | some tn =>
    simp only [Option.elim_some, Option.some.injEq, exists_eq_left']
    constructor
    · rintro (slide | menu)
      exacts [⟨.slide, slide⟩, ⟨.menu, menu⟩]
    · rintro ⟨q | q, h⟩
      exacts [.inl h, .inr h]

/-- The request of the first span that asks, of the lowest line that does (R102). -/
theorem lfPresent_presents {q : PlaneId} {pre post : List LineBuf} {b : LineBuf} {pre' post' : List SpanFetch} {x : SpanFetch}
    (idle : s.port.lfReq = none) (plane : s.fetchPlane = some q) (bufs : (s.raster q).bufs = pre ++ b :: post)
    (unjudged : b.judged = false) (before : ∀ c ∈ pre, c.asksNothing) (spans : b.spans = pre' ++ x :: post')
    (full : ∀ z ∈ pre', z.bursts ≤ z.granted) (wants : x.granted < x.bursts) : s.lfPresent = { s with
      port := { s.port with
        lfReq := some { user := .line q b.line pre'.length, block := s.heapBase + 64 * (x.base / 64 + x.granted), sel := none } }
      composer := { s.composer with lastPlane := q } } := by
  have next : nextOfPlane (s.raster q).bufs = some (b.line, pre'.length, x) := by
    rw [bufs, nextOfPlane_append before]
    simp [nextOfPlane, unjudged, spans, firstWanting_append full wants]
  simp only [State.lfPresent, idle, plane, next]

end

/-! ### Span tables (R94 to R98, R137) -/

theorem buttonView_live {s : State} {w : PageView} (live : s.nav.live = some w) : s.buttonView w.slot = some w := by
  have shown : s.nav.live.filter (fun v => decide (v.slot = w.slot)) = some w := by
    rw [live]
    exact if_pos (decide_eq_true rfl)
  simp only [State.buttonView, shown]

theorem buttonView_frozen {s : State} {w : PageView} (other : ∀ l, s.nav.live = some l → l.slot ≠ w.slot)
    (frozen : s.nav.frozen = some w) : s.buttonView w.slot = some w := by
  have noLive : s.nav.live.filter (fun v => decide (v.slot = w.slot)) = none := by
    rw [Option.filter_eq_none_iff]
    exact fun l live => by simpa using other l live
  simp [State.buttonView, noLive, frozen]

section
variable {d : PageDef} {i : Nat}

theorem drawnObject_unused (unused : ∀ b ∈ d.buttons, b.placement ≠ i) (pv : Option PageView) (p : Placement) :
    drawnObject d pv i p = some p.obj := by
  have none_ : d.buttons.findIdx? (fun b => decide (b.placement = i)) = none :=
    List.findIdx?_eq_none_iff.mpr fun b hb => decide_eq_false (unused b hb)
  simp only [drawnObject, none_]

/-- A placement of a button, the first that names it, draws as the button's view has it (R95). -/
theorem drawnObject_button {j : Nat} {b : Button} {w : PageView} {v : ButtonView} (button : d.buttons[j]? = some b)
    (placed : b.placement = i) (first : ∀ (k : Nat) (e : Button), k < j → d.buttons[k]? = some e → e.placement ≠ i)
    (view : w.buttons[j]? = some v) (p : Placement) : drawnObject d (some w) i p =
      if v.visible then some ((b.cycle v.vis)[v.pair]?.elim p.obj (·.1)) else none := by
  obtain ⟨inside, rfl⟩ := List.getElem?_eq_some_iff.mp button
  have found : d.buttons.findIdx? (fun b => decide (b.placement = i)) = some j := by
    rw [List.findIdx?_eq_some_iff_getElem]
    refine ⟨inside, decide_eq_true placed, fun k before => ?_⟩
    simpa using first k _ before (List.getElem?_eq_getElem (before.trans inside))
  simp only [drawnObject, found, Option.bind_some, view, button]

end

/-! ### A span's rectangle (R96 to R98) -/

/-- One direction of the clip: the points kept are those of the plane that the rectangle has (R98). -/
theorem clip_covers (pos : Int) (size limit i : Nat) :
    ((clip pos size limit).1 ≤ i ∧ i < (clip pos size limit).1 + (clip pos size limit).2.1)
      ↔ i < limit ∧ pos ≤ i ∧ (i : Int) < pos + size := by
  simp only [clip]
  omega

theorem clip_eq_zero_iff (pos : Int) (size limit : Nat) :
    (clip pos size limit).2.1 = 0 ↔ ∀ i : Nat, ¬ (i < limit ∧ pos ≤ i ∧ (i : Int) < pos + size) := by
  constructor
  · intro none_ i
    rw [← clip_covers, none_]
    omega
  · intro none_
    have first := none_ (clip pos size limit).1
    rw [← clip_covers] at first
    omega

/-- What was clipped before the edge is the way from the rectangle's edge to the edge kept (R98). -/
theorem clip_clipped (pos : Int) (size limit : Nat) : ((clip pos size limit).2.2 : Int) = (clip pos size limit).1 - pos := by
  simp only [clip]
  omega

theorem clip_of_empty (pos : Int) (limit : Nat) : (clip pos 0 limit).2.1 = 0 :=
  (clip_eq_zero_iff pos 0 limit).mpr fun i => by omega

/-- The width of a placement's rectangle after the clamp (R96); a blank span's crop is not clamped (R97). -/
def Placement.drawnWidth (p : Placement) (v : EntryView) : Nat :=
  if v.drawable then clampCrop p.cropX p.cropW v.width else p.cropW

/-- The height of a placement's rectangle after the clamp (R96, R97). -/
def Placement.drawnHeight (p : Placement) (v : EntryView) : Nat :=
  if v.drawable then clampCrop p.cropY p.cropH v.height else p.cropH

/-- The point of column `i` and row `j` of a plane lies in a placement's clamped rectangle (R96, R98). -/
def Placement.Covers (p : Placement) (v : EntryView) (pw ph i j : Nat) : Prop :=
  i < pw ∧ j < ph ∧ p.x ≤ i ∧ (i : Int) < p.x + p.drawnWidth v ∧ p.y ≤ j ∧ (j : Int) < p.y + p.drawnHeight v

section
variable (pw ph : Nat) (role : SpanRole) (p : Placement) (o : Byte) (v : EntryView)

theorem covers_iff (i j : Nat) : p.Covers v pw ph i j ↔
    (i < pw ∧ p.x ≤ i ∧ (i : Int) < p.x + p.drawnWidth v) ∧ (j < ph ∧ p.y ≤ j ∧ (j : Int) < p.y + p.drawnHeight v) := by
  unfold Placement.Covers
  tauto

/-- A span is left out when nothing of its rectangle is kept in one direction (R98). -/
theorem spanOf_eq : spanOf pw ph role p o v =
    if (clip p.x (p.drawnWidth v) pw).2.1 = 0 ∨ (clip p.y (p.drawnHeight v) ph).2.1 = 0 then none
    else some
      { role := role, obj := o, blank := !v.drawable, heapOff := if v.drawable then v.offset else 0
        objW := if v.drawable then v.width else 0
        sx := (if v.drawable then p.cropX else 0) + (clip p.x (p.drawnWidth v) pw).2.2
        sy := (if v.drawable then p.cropY else 0) + (clip p.y (p.drawnHeight v) ph).2.2, pal := p.pal
        left := (clip p.x (p.drawnWidth v) pw).1, top := (clip p.y (p.drawnHeight v) ph).1
        width := (clip p.x (p.drawnWidth v) pw).2.1, height := (clip p.y (p.drawnHeight v) ph).2.1 } := by
  refine if_congr ⟨?_, fun h => .inr (.inr h)⟩ rfl rfl
  rintro (width | height | h)
  · exact .inl (by rw [show p.drawnWidth v = 0 from width, clip_of_empty])
  · exact .inr (by rw [show p.drawnHeight v = 0 from height, clip_of_empty])
  · exact h

theorem spanOf_eq_none_iff : spanOf pw ph role p o v = none ↔ ∀ i j, ¬ p.Covers v pw ph i j := by
  rw [spanOf_eq, ite_eq_left_iff]
  simp only [reduceCtorEq, imp_false, not_not, clip_eq_zero_iff, covers_iff]
  constructor
  · rintro (columns | rows) i j ⟨column, row⟩
    exacts [columns i column, rows j row]
  · intro none_
    by_contra some_
    push Not at some_
    obtain ⟨⟨i, column⟩, j, row⟩ := some_
    exact none_ i j ⟨column, row⟩

variable {pw ph role p o v} {r : Span} (span : spanOf pw ph role p o v = some r)
include span

theorem spanOf_covers (i j : Nat) :
    (r.left ≤ i ∧ i < r.left + r.width ∧ r.top ≤ j ∧ j < r.top + r.height) ↔ p.Covers v pw ph i j := by
  rw [spanOf_eq, Option.ite_none_left_eq_some, Option.some.injEq] at span
  obtain ⟨-, rfl⟩ := span
  rw [covers_iff, ← clip_covers, ← clip_covers, and_assoc]

theorem spanOf_source : r.role = role ∧ r.obj = o ∧ r.blank = !v.drawable ∧ r.pal = p.pal
    ∧ (v.drawable = false → r.heapOff = 0 ∧ r.objW = 0)
    ∧ (v.drawable = true → r.heapOff = v.offset ∧ r.objW = v.width
        ∧ (r.sx : Int) = p.cropX + (r.left - p.x) ∧ (r.sy : Int) = p.cropY + (r.top - p.y)) := by
  rw [spanOf_eq, Option.ite_none_left_eq_some, Option.some.injEq] at span
  obtain ⟨-, rfl⟩ := span
  refine ⟨rfl, rfl, rfl, rfl, fun blank => ?_, fun drawable => ?_⟩
  · simp [blank]
  · simp [drawable, clip_clipped]

end

/-! ### What the composer's part of frame-start work begins (R93, R94, R101) -/

section
variable {s t : State} (run : t.run = s.run) (slots : t.slots = s.slots) (nav : t.nav = s.nav) (heap : t.heap = s.heap)
include run slots nav heap

theorem pageSpans_congr (role : SpanRole) (x : SlotId) : t.pageSpans role x = s.pageSpans role x := by
  have view (o : Byte) : t.objView o = s.objView o := by simp only [State.objView, heap]
  have size : t.planeSize = s.planeSize := by simp only [State.planeSize, run]
  simp only [State.pageSpans, State.page, State.slot, slots, State.buttonView, nav, placementSpans_eq, view, size]

/-- A span table is made of the page slots, the button views and the entry view. -/
theorem spanTable_congr (c : Content) : t.spanTable c = s.spanTable c := by
  cases c <;> simp only [State.spanTable, pageSpans_congr run slots nav heap]

end

/-- The span table of a plane's frame view (R94). -/
def State.viewTable (s : State) (q : PlaneId) : List Span := (s.plane q).view.elim [] fun v => s.spanTable v.content

/-- A frame composed after `n` others: marked, counted, and both planes' lookahead begun (R93, R101). -/
def State.ComposedAfter (t : State) (n : Word) : Prop :=
  t.composer.marker = some t.timer.stamp ∧ t.stats.frames = n + 1
    ∧ ∀ q, (t.raster q).spans = t.viewTable q
        ∧ (t.raster q).bufs = (List.range (min 4 t.planeSize.2)).map (lineBegun (t.raster q).spans)
        ∧ (t.raster q).next = min 4 t.planeSize.2

/-- The composer's steps before line fetch begins any line (R93). -/
def State.tablesBuilt (s : State) : State := { s with
  composer := { s.composer with
    slide := { spans := s.viewTable .slide }, menu := { spans := s.viewTable .menu }, marker := some s.timer.stamp }
  stats := { s.stats with frames := s.stats.frames + 1 }
  work := { s.work with comp := false } }

theorem compRun_eq (s : State) : s.compRun =
    ((s.tablesBuilt.beginLines .slide Config.lineBuffers).beginLines .menu Config.lineBuffers).lfPresent := rfl

theorem compRun_raster (s : State) (q : PlaneId) : s.compRun.raster q =
    { spans := s.viewTable q, bufs := (List.range (min 4 s.planeSize.2)).map (lineBegun (s.viewTable q)),
      next := min 4 s.planeSize.2 } := by
  have lines (p : PlaneId) {u : State} (size : u.planeSize = s.planeSize) (raster : u.raster p = { spans := s.viewTable p }) :
      (State.beginLines p Config.lineBuffers u).raster p =
        { spans := s.viewTable p, bufs := (List.range (min 4 s.planeSize.2)).map (lineBegun (s.viewTable p)),
          next := min 4 s.planeSize.2 } := by
    have count : min Config.lineBuffers (min (4 - 0) (s.planeSize.2 - 0)) = min 4 s.planeSize.2 := by
      have : Config.lineBuffers = 4 := rfl
      omega
    obtain ⟨own, -, -⟩ := beginLines_full p Config.lineBuffers u
    rw [raster, size] at own
    simpa only [List.length_nil, count, ← List.range_eq_range', Nat.zero_add, List.nil_append] using own
  obtain ⟨-, -, -, slideOther⟩ := beginLines_eq .slide Config.lineBuffers s.tablesBuilt
  obtain ⟨-, -, -, menuOther⟩ := beginLines_eq .menu Config.lineBuffers (s.tablesBuilt.beginLines .slide Config.lineBuffers)
  rw [compRun_eq, lfPresent_raster]
  cases q with
  | slide => exact (menuOther .slide (by decide)).trans (lines .slide (u := s.tablesBuilt) rfl rfl)
  | menu => exact lines .menu (by simp [State.planeSize, State.tablesBuilt]) (slideOther .menu (by decide))

theorem compRun_composed (s : State) : s.compRun.ComposedAfter s.stats.frames := by
  have table (q : PlaneId) : s.compRun.viewTable q = s.viewTable q := by
    have plane : s.compRun.plane q = s.plane q := by cases q <;> simp [State.plane]
    have spans := spanTable_congr (s := s) (t := s.compRun) (by simp) (by simp) (by simp) (by simp)
    simp only [State.viewTable, plane, spans]
  have size : s.compRun.planeSize = s.planeSize := by simp [State.planeSize]
  have stamp : s.compRun.timer.stamp = s.timer.stamp := by simp
  obtain ⟨⟨c, n, slide⟩, slideMarker, -, -⟩ := beginLines_eq .slide Config.lineBuffers s.tablesBuilt
  obtain ⟨⟨c', n', menu⟩, menuMarker, -, -⟩ :=
    beginLines_eq .menu Config.lineBuffers (s.tablesBuilt.beginLines .slide Config.lineBuffers)
  refine ⟨?_, ?_, fun q => ?_⟩
  · rw [stamp, compRun_eq, lfPresent_eq]
    exact menuMarker.trans slideMarker
  · rw [compRun_eq, lfPresent_eq, menu, slide]
    rfl
  · rw [compRun_raster, table, size]
    exact ⟨rfl, rfl, rfl⟩

/-- Once the composer's part is done by the blocks that go on, the frame is composed (R93). -/
theorem advanceWork_composed {s : State} (due : s.work.comp = true) (done : s.advanceWork.work.comp = false) :
    s.advanceWork.ComposedAfter s.stats.frames := by
  obtain ⟨w, last, comp, -, -, stats⟩ := advanceWork_composer_last s
  rw [last] at done ⊢
  rw [← stats]
  unfold State.compRunIf at done ⊢
  split
  · exact compRun_composed w
  · next waits => simp [waits, comp, due] at done

/-! ### The frames composed before the composer's turn (R93, R126) -/

theorem submit_framesComposed (s : State) (b : NoticeBody) : (s.submit b).stats.frames = s.stats.frames := by
  unfold State.submit
  split <;> rfl

theorem passTicks_framesComposed (s : State) (n : Nat) : (s.passTicks n).stats.frames = s.stats.frames := by
  unfold State.passTicks
  rw [countTicks_eq]
  split
  · exact submit_framesComposed _ _
  · rfl

theorem frameOpened_framesComposed (s : State) : s.frameOpened.stats.frames = s.stats.frames := by
  have told : s.confirmMove.tellRegained.stats.frames = s.stats.frames := by
    unfold State.tellRegained
    split <;> simp [submit_framesComposed]
  have closed (x : State) : x.closeFrame.stats.frames = x.stats.frames := by
    unfold State.closeFrame
    simp only [dropFlight_frame]
    split
    · split
      · exact submit_framesComposed x _
      · rfl
    · rfl
  simp only [State.frameOpened, promptAnchor_eq, promptWalker_eq, closed, told]

section
variable (s : State)

theorem act_framesComposed (slot : SlotId) (b : Nat) (a : Action) : (s.act slot b a).stats.frames = s.stats.frames := by
  cases a with
  | none => rfl
  | notify code => exact submit_framesComposed s _
  | toggle mask => exact submit_framesComposed _ _
  | jump target =>
    simp only [State.act, State.deliverJump]
    split
    · simp only [addHold_frame, submit_framesComposed]
      split <;> simp
    · simp

theorem endActivation_framesComposed (slot : SlotId) (d : PageDef) (b : Nat) :
    (s.endActivation slot d b).stats.frames = s.stats.frames := by
  unfold State.endActivation
  split
  · dsimp only
    split <;> simp [act_framesComposed]
  · rfl

theorem activate_framesComposed (slot : SlotId) (d : PageDef) (b : Nat) :
    (s.activate slot d b).stats.frames = s.stats.frames := by
  unfold State.activate
  dsimp only
  split
  · split
    · rw [endActivation_framesComposed]
      simp
    · simp
  · rfl

theorem navActEnd_framesComposed : s.navActEnd.stats.frames = s.stats.frames := by
  unfold State.navActEnd
  split
  · simp [endActivation_framesComposed]
  · simp

theorem navExpiry_framesComposed : s.navExpiry.stats.frames = s.stats.frames := by
  have ended (e : DigitEntry) : (s.endDigit e).1.stats.frames = s.stats.frames := by
    unfold State.endDigit
    dsimp only
    split
    · split
      · exact activate_framesComposed _ _ _ _
      · rfl
    · rfl
  unfold State.navExpiry
  split
  · simp [ended]
  · simp

theorem navFire_framesComposed : s.navFire.stats.frames = s.stats.frames := by
  have fired (slot : SlotId) (d : PageDef) : (s.fireTimeout slot d).stats.frames = s.stats.frames := by
    unfold State.fireTimeout
    split
    · split
      · exact activate_framesComposed _ _ _ _
      · exact submit_framesComposed _ _
    · exact submit_framesComposed _ _
  unfold State.navFire
  split
  · simp [fired]
  · simp

theorem jumpStep_framesComposed : s.jumpStep.stats.frames = s.stats.frames := by
  have applied (j : Jump) : (s.applyJump j).stats.frames = s.stats.frames := by
    unfold State.applyJump
    split
    · simp [submit_framesComposed]
    · simp only [submit_framesComposed]
      split <;> simp
  unfold State.jumpStep
  split
  · simp [applied]
  · simp

end

/-- A step of the work, from `s` to `t`: nothing, or one that leaves the composer's part and its count to the blocks that then
go on (R93). -/
def State.LeavesComposer (s t : State) : Prop :=
  t = s ∨ ∃ u : State, u.work.comp = s.work.comp ∧ u.stats.frames = s.stats.frames ∧ t = u.advanceWork

section
variable (s : State)

theorem switchStep_leaves : s.LeavesComposer s.switchStep := by
  unfold State.switchStep
  split
  · exact .inr ⟨_, by simp [State.viewTaken], by simp, rfl⟩
  · exact .inl rfl

theorem paletteStep_leaves : s.LeavesComposer s.paletteStep := by
  unfold State.paletteStep
  split
  · exact .inr ⟨_, by simp, by simp, rfl⟩
  · exact .inl rfl

theorem transStep_leaves (p : PlaneId) : s.LeavesComposer (s.transStep p) := by
  unfold State.transStep
  split
  · exact .inr ⟨_, (planeOps_comp _ p).trans (by simp), by simp, rfl⟩
  all_goals exact .inl rfl

theorem opStep_leaves (p : PlaneId) : s.LeavesComposer (s.opStep p) := by
  unfold State.opStep
  split
  · split
    · exact .inr ⟨_, (planeOps_comp _ p).trans (by simp), by simp, rfl⟩
    · exact .inr ⟨_, by cases p <;> rfl, by simp, rfl⟩
  all_goals exact .inl rfl

theorem jumpApplyStep_leaves : s.LeavesComposer s.jumpApplyStep := by
  have comp : s.jumpStep.work.comp = s.work.comp := by
    unfold State.jumpStep
    rw [planeAdvance_comp]
    split <;> simp
  unfold State.jumpApplyStep
  split
  · exact .inr ⟨_, comp, jumpStep_framesComposed s, rfl⟩
  all_goals exact .inl rfl

theorem actEndStep_leaves : s.LeavesComposer s.actEndStep := by
  have comp : s.navActEnd.work.comp = s.work.comp := by
    unfold State.navActEnd
    rw [navDigit_work]
    split <;> simp
  unfold State.actEndStep
  split
  · exact .inr ⟨_, comp, navActEnd_framesComposed s, rfl⟩
  all_goals exact .inl rfl

theorem expiryStep_leaves : s.LeavesComposer s.expiryStep := by
  have comp : s.navExpiry.work.comp = s.work.comp := by
    unfold State.navExpiry
    rw [navTimeout_work]
    split <;> simp
  unfold State.expiryStep
  split
  · exact .inr ⟨_, comp, navExpiry_framesComposed s, rfl⟩
  all_goals exact .inl rfl

theorem timeoutStep_leaves : s.LeavesComposer s.timeoutStep := by
  have comp : s.navFire.work.comp = s.work.comp := by
    unfold State.navFire
    rw [navPublish_work]
    split <;> simp
  unfold State.timeoutStep
  split
  · exact .inr ⟨_, comp, navFire_framesComposed s, rfl⟩
  all_goals exact .inl rfl

theorem workStep_leaves {c : Instr} (step : c ∈ workSteps) : ∃ t, exec c s = .next t ∧ s.LeavesComposer t := by
  simp only [workSteps, List.mem_cons, List.not_mem_nil, or_false] at step
  rcases step with rfl | rfl | rfl | rfl | rfl | rfl | rfl | rfl | rfl | rfl
  exacts [⟨_, rfl, switchStep_leaves s⟩, ⟨_, rfl, paletteStep_leaves s⟩, ⟨_, rfl, transStep_leaves s .slide⟩,
    ⟨_, rfl, opStep_leaves s .slide⟩, ⟨_, rfl, jumpApplyStep_leaves s⟩, ⟨_, rfl, transStep_leaves s .menu⟩,
    ⟨_, rfl, opStep_leaves s .menu⟩, ⟨_, rfl, actEndStep_leaves s⟩, ⟨_, rfl, expiryStep_leaves s⟩,
    ⟨_, rfl, timeoutStep_leaves s⟩]

end

/-- Once the composer's part is done, by FRAME_START or by the last step of the work, the frame is composed (R93, log 3). -/
theorem frame_composed {s : State} {c : Instr} {n : Nat}
    (h : (c = .frameStart n ∧ s.AcceptsFrame n) ∨ (c ∈ workSteps ∧ s.work.comp = true)) :
    ∃ t, exec c s = .next t ∧ (t.work.comp = false → t.ComposedAfter s.stats.frames) := by
  rcases h with ⟨rfl, accepts⟩ | ⟨step, due⟩
  · obtain ⟨-, -, -, -, -, -, -, -, -, -, comp⟩ := frameOpened_rest (s.passTicks n)
    refine ⟨_, frameStart_accepts s n accepts, fun done => ?_⟩
    have composed := advanceWork_composed comp done
    rwa [frameOpened_framesComposed, passTicks_framesComposed] at composed
  · obtain ⟨t, taken, stays | ⟨u, comp, frames, rfl⟩⟩ := workStep_leaves s step
    · exact ⟨t, taken, fun done => by simp [stays, due] at done⟩
    · exact ⟨_, taken, fun done => frames ▸ advanceWork_composed (comp.trans due) done⟩

/-! ### The statement (O51) -/

/-- The spans that cover a line are those dropped and then the last 16 (R99). -/
theorem covering_splits (l : List Span) (y : Nat) : ∃ pre kept, covering y l = pre ++ kept
    ∧ kept.length = min 16 (covering y l).length ∧ pre.length = (covering y l).length - 16
    ∧ lineBegun l y = { line := y, spans := kept.map (Span.fetch y), judged := false } := by
  refine ⟨_, _, (List.take_append_drop ((covering y l).length - 16) _).symm, ?_, ?_, rfl⟩
  · rw [List.length_drop]
    omega
  · rw [List.length_take]
    omega

/-- A burst comes for a line that waits for it (R101, R104, R105). -/
theorem lineFetch_joins {s : State} {f : Flight} {q : PlaneId} {y i : Nat} {pre post : List LineBuf} {b : LineBuf} {x : SpanFetch}
    (landing : s.LandingRead f (.line q y i)) (bufs : (s.raster q).bufs = pre ++ b :: post) (line : b.line = y)
    (unjudged : b.judged = false) (span : b.spans[i]? = some x) (others : ∀ c ∈ pre ++ post, c.line ≠ y) (err : Bool) :
    ∃ t, exec (.lineFetchBurstComplete err) s = .next t
      ∧ t.raster q = { s.raster q with bufs := pre ++ { b with spans := b.spans.set i (x.withBurst f err) } :: post }
      ∧ t.raster (otherPlane q) = s.raster (otherPlane q)
      ∧ t = { s.landed with composer := { s.composer with slide := t.composer.slide, menu := t.composer.menu } } := by
  have same (p : PlaneId) : s.landed.raster p = s.raster p := by cases p <;> rfl
  have own := mapSpan_raster (s := s.landed) ((congrArg Raster.bufs (same q)).trans bufs) others line unjudged span
    (SpanFetch.withBurst f err)
  have other := mapSpan_other s.landed q y i (SpanFetch.withBurst f err)
  rw [same] at own other
  refine ⟨_, exec_lineFetchBurstComplete landing err, own, other, ?_⟩
  cases q <;> rfl

/-- What a placement of a button draws (R95). -/
theorem drawnObject_cases {d : PageDef} {i : Nat} {b : Button} {w : PageView} {v : ButtonView} (p : Placement)
    (drawn : drawnObject d (some w) i p = if v.visible then some ((b.cycle v.vis)[v.pair]?.elim p.obj (·.1)) else none) :
    (v.visible = false → drawnObject d (some w) i p = none)
      ∧ (v.visible = true → b.cycle v.vis = [] → drawnObject d (some w) i p = some p.obj)
      ∧ ∀ x : Byte × Nat, v.visible = true → (b.cycle v.vis)[v.pair]? = some x → drawnObject d (some w) i p = some x.1 := by
  rw [drawn]
  exact ⟨fun hidden => by simp [hidden], fun visible empty => by simp [visible, empty],
    fun x visible current => by simp [visible, current]⟩

/-- Settles O51: the bursts that come, the lines begun, the request presented, the frame composed, and the spans of a table. -/
theorem linesFetchTheirLastSixteenSpans : Obligations.LinesFetchTheirLastSixteenSpans := by
  refine ⟨fun s err f q y i pre post b x landing bufs line unjudged span others =>
      lineFetch_joins landing bufs line unjudged span others err,
    ⟨fun s q line free => ?_, fun s q => beginLine_idle, fun y l => rfl, fun a w => burstsFor_covers⟩,
    fun s err f q y i landing unused => ?_, fun y x => ⟨fun blank => fetch_blank blank y, fun drawn => fetch_drawn drawn y⟩,
    fun s q => ⟨wants_iff s q, linesAhead_eq s q, fetchPlane_eq_none_iff s, fetchPlane_eq_some_iff s q, lfPresent_stays s⟩,
    fun s q pre post b pre' post' x idle plane bufs unjudged before spans full wants =>
      lfPresent_presents s idle plane bufs unjudged before spans full wants,
    urgent_iff, fun s c n h => frame_composed h, fun s i o k n => ⟨rfl, rfl, rfl, rfl, rfl⟩,
    fun s role x => ⟨fun d page => ?_, fun w live slot => slot ▸ buttonView_live live,
      fun w other frozen slot => slot ▸ buttonView_frozen (fun l live => slot ▸ other l live) frozen⟩,
    fun d pv i p => ⟨fun unused => drawnObject_unused unused pv p, fun j b w v button placed first shown view => ?_⟩,
    fun pw ph role p o v => ⟨spanOf_eq_none_iff pw ph role p o v, fun r span => ?_⟩⟩
  · obtain ⟨pre, kept, splits, few, dropped, begun⟩ := covering_splits (s.raster q).spans (s.raster q).next
    refine ⟨pre, kept, splits, few, begun, ?_⟩
    dsimp only
    rw [beginLine_begins line free, dropped]
    cases q <;> exact ⟨rfl, rfl, rfl⟩
  · rw [exec_lineFetchBurstComplete landing err, mapSpan_unused]
    cases q <;> exact unused
  · simp only [State.pageSpans, page, placementSpans_eq]
  · subst shown
    exact drawnObject_cases p (drawnObject_button button placed first view p)
  · obtain ⟨role_, obj, blank, pal, hidden, drawn⟩ := spanOf_source span
    exact ⟨role_, obj, blank, pal, spanOf_covers span, hidden, drawn⟩

end Sys2Proof.Machine

/-! ## BURST_GRANT (O53): R102, R115 to R126, R176, R178, R179, R190 -/

namespace Sys2Proof.Machine

/-! ### Which grant is made (R116, log 4, log 6) -/

/-- The host's writes that come with a grant are made (log 4). -/
def State.hostWrote (s : State) (host : List Host.Cell) : State := { s with mem := memHost s.mem host }

theorem arbitrate_grants {s : State} {r : Requester} {k : Tier} {b : Burst} (idle : s.port.flight = none)
    (chosen : s.choice = some (r, k)) (waiting : s.waitingReq r = some b) : s.arbitrate = s.grant r k b := by
  simp only [State.arbitrate, idle, chosen, waiting]

theorem arbitrate_waits {s : State} (h : s.port.flight ≠ none ∨ s.choice = none) : s.arbitrate = s := by
  unfold State.arbitrate
  split
  · next idle chosen => simp [idle, chosen] at h
  · rfl

theorem exec_burstGrant_grants {s : State} {r : Requester} {k : Tier} {b : Burst} (host : List Host.Cell)
    (idle : s.port.flight = none) (chosen : s.choice = some (r, k)) (waiting : s.waitingReq r = some b) :
    exec (.burstGrant host) s = .next ((s.hostWrote host).grant r k b) :=
  congrArg Host.Outcome.next (arbitrate_grants (s := s.hostWrote host) idle chosen waiting)

theorem exec_burstGrant_waits {s : State} (host : List Host.Cell) (h : s.port.flight ≠ none ∨ s.choice = none) :
    exec (.burstGrant host) s = .next (s.hostWrote host) :=
  congrArg Host.Outcome.next (arbitrate_waits (s := s.hostWrote host) h)

theorem carries_setup {b : Burst} {x : Bool} (setup : b.user = .setup x) (s : State) (r : Requester) : s.carries r b = true := by
  simp only [State.carries, setup]

/-! ### The port and the counters at a grant (R115, R118, R123, R126) -/

/-- The burst as it is granted: refused outside its aperture, and then it carries nothing (R115, R118). -/
def State.flightOf (s : State) (r : Requester) (b : Burst) : Flight :=
  { burst := b, data := if s.carries r b then memBytes s.mem b.block 64 else [], refused := !s.carries r b, dropped := false }

/-- A grant before its requester goes on (R115 to R126). -/
def State.taken (s : State) (r : Requester) (k : Tier) (b : Burst) : State :=
  { s with
    mem := b.written (s.carries r b) s.mem
    port := { s.port.take r with flight := some (s.flightOf r b), accounts := s.accountsAfter r, pointer := r }
    stats := s.stats.granted r k }

theorem grant_eq (s : State) (r : Requester) (k : Tier) (b : Burst) : s.grant r k b = (s.taken r k b).onGrant b.user := rfl

theorem take_requests (p : Port) (r : Requester) : p.take r = { p with
    lfReq := if r = .lineFetch then none else p.lfReq
    decReq := if r = .decoder then none else p.decReq
    compReq := if r = .compactor then none else p.compReq
    walkerQ := if r = .walker then p.walkerQ.tail else p.walkerQ } := by
  cases r <;> rfl

theorem upd_get {α : Type} (f : Four α) (r q : Requester) (v : α) : (f.upd r v).get q = if q = r then v else f.get q := by
  cases r <;> cases q <;> rfl

theorem granted_bursts (c : Stats) (r q : Requester) (k : Tier) :
    (c.granted r k).bursts.get q = if q = r then c.bursts.get r + 1 else c.bursts.get q := upd_get _ _ _ _

theorem accountsAfter_inactive {s : State} (inactive : s.active = false) (r : Requester) : s.accountsAfter r = s.port.accounts :=
  if_neg (by simp [inactive])

theorem accountsAfter_get {s : State} (active : s.active = true) (r q : Requester) : (s.accountsAfter r).get q =
    (if q = r then min (s.params q).clip (s.port.accounts.get q + (s.params q).r) else s.port.accounts.get q) - (s.params q).d := by
  rw [State.accountsAfter, if_pos active]
  cases q <;> rfl

theorem written_unselected {b : Burst} {carried : Bool} (h : carried = false ∨ b.sel = none) (m : Mem) :
    b.written carried m = m := by
  unfold Burst.written
  split
  · next sel => simp_all
  · rfl

theorem written_selected {b : Burst} {sel : List (Nat × Byte)} (h : b.sel = some sel) (m : Mem) :
    b.written true m = memWriteSel m b.block sel := by
  simp [Burst.written, h]

/-! ### What a grant sets going (R102, R176, R178, R179, R190) -/

section
variable {s : State} {u : User}

theorem onGrant_composer (h : ∀ q y i, u ≠ .line q y i) :
    (s.onGrant u).composer = s.composer ∧ (s.onGrant u).port.lfReq = s.port.lfReq := by
  cases u with
  | line q y i => exact absurd rfl (h q y i)
  | outcome => simp [State.onGrant]
  | _ => exact ⟨rfl, rfl⟩

theorem onGrant_notices (h : u ≠ .noticeLink) : (s.onGrant u).notices = s.notices := by
  cases u with
  | noticeLink => exact absurd rfl h
  | line | outcome => simp [State.onGrant]
  | _ => rfl

theorem onGrant_walkerQ (h : ∀ o res det, u ≠ .outcome o res det) : (s.onGrant u).port.walkerQ = s.port.walkerQ := by
  cases u with
  | outcome o res det => exact absurd rfl (h o res det)
  | line => simp [State.onGrant]
  | _ => rfl

theorem onGrant_walker (h : ∀ o res det, u ≠ .outcome o res det) (noLink : u ≠ .link) : (s.onGrant u).walker = s.walker := by
  cases u with
  | outcome o res det => exact absurd rfl (h o res det)
  | link => exact absurd rfl noLink
  | line => simp [State.onGrant]
  | _ => rfl

/-- What a grant sets going is at the port's requests, in the composer, the walker and the notice writer. -/
theorem onGrant_eq (s : State) (u : User) : s.onGrant u = { s with
    port := { s.port with lfReq := (s.onGrant u).port.lfReq, walkerQ := (s.onGrant u).port.walkerQ }
    composer := (s.onGrant u).composer, walker := (s.onGrant u).walker, notices := (s.onGrant u).notices } := by
  apply State.eq_of_fields <;> try simp
  apply Port.eq_of_fields <;> simp

end

section
variable {s : State}

/-- The next retirement's results burst is asked for (R179). -/
theorem popRetirement_next {x : Retirement} {rest : List Retirement} (next : s.walker.retiring.tail = x :: rest) :
    s.popRetirement = { s with
      walker := { s.walker with retiring := x :: rest }, port := { s.port with walkerQ := s.port.walkerQ ++ [x.burst] } } := by
  simp only [State.popRetirement, next]
  rfl

/-- The list is empty, and a walker that waits for it asks for its record (R178). -/
theorem popRetirement_reads {a : Word} (last : s.walker.retiring.tail = []) (reading : s.walker.st = .reading)
    (unasked : s.walker.asked = false) (cur : s.walker.cur = some a) : s.popRetirement = { s with
      walker := { s.walker with retiring := [], asked := true }
      port := { s.port with walkerQ := s.port.walkerQ ++ [{ user := .record, block := a.toNat, sel := none }] } } := by
  simp only [State.popRetirement, last, State.requestRecord, reading, unasked, cur]
  rfl

theorem popRetirement_last (last : s.walker.retiring.tail = [])
    (elsewhere : ¬ (s.walker.st = .reading ∧ s.walker.asked = false)) :
    s.popRetirement = { s with walker := { s.walker with retiring := [] } } := by
  simp only [State.popRetirement, last, State.requestRecord]
  split
  · next reading unasked _ _ => exact absurd ⟨reading, unasked⟩ elsewhere
  · rfl

theorem popRetirement_retiring (s : State) : s.popRetirement.walker.retiring = s.walker.retiring.tail := by
  unfold State.popRetirement
  dsimp only
  split
  · rfl
  · next last => simp [last]

end

/-! ### A grant (R102, R115 to R126) -/

/-- A span with one more of its bursts granted (R102). -/
def SpanFetch.oneMoreGranted (x : SpanFetch) : SpanFetch := { x with granted := x.granted + 1 }

section
variable {s : State} {r : Requester} {k : Tier} {b : Burst}

/-- What a grant leaves of the port's other state, of the counters and of memory. -/
theorem grant_port : (s.grant r k b).port.flight = some (s.flightOf r b) ∧ (s.grant r k b).port.pointer = r
    ∧ (s.grant r k b).port.accounts = s.accountsAfter r ∧ (s.grant r k b).stats = s.stats.granted r k
    ∧ (s.grant r k b).mem = b.written (s.carries r b) s.mem
    ∧ (s.grant r k b).port.decReq = (if r = .decoder then none else s.port.decReq)
    ∧ (s.grant r k b).port.compReq = (if r = .compactor then none else s.port.compReq) := by
  rw [grant_eq, onGrant_eq]
  simp only [State.taken, take_requests, and_self]

/-- A grant changes memory, the port, the counters and what it sets going in its requester. -/
theorem grant_frame : s.grant r k b = { s with
    mem := (s.grant r k b).mem, port := (s.grant r k b).port, stats := (s.grant r k b).stats
    composer := (s.grant r k b).composer, walker := (s.grant r k b).walker, notices := (s.grant r k b).notices } := by
  rw [grant_eq, onGrant_eq]
  rfl

theorem grant_walkerQ (h : ∀ o res det, b.user ≠ .outcome o res det) :
    (s.grant r k b).port.walkerQ = if r = .walker then s.port.walkerQ.tail else s.port.walkerQ := by
  rw [grant_eq, onGrant_walkerQ h]
  simp only [State.taken, take_requests]

theorem grant_walker (h : ∀ o res det, b.user ≠ .outcome o res det) (noLink : b.user ≠ .link) :
    (s.grant r k b).walker = s.walker := onGrant_walker h noLink

theorem grant_notices (h : b.user ≠ .noticeLink) : (s.grant r k b).notices = s.notices := onGrant_notices h

theorem grant_composer (h : ∀ q y i, b.user ≠ .line q y i) : (s.grant r k b).composer = s.composer
    ∧ (s.grant r k b).port.lfReq = if r = .lineFetch then none else s.port.lfReq := by
  obtain ⟨composer, request⟩ := onGrant_composer h (s := s.taken r k b)
  rw [grant_eq]
  refine ⟨composer, request.trans ?_⟩
  simp only [State.taken, take_requests]

theorem grant_link (user : b.user = .link) :
    (s.grant r k b).walker = { s.walker with reread := s.walker.reread.onGrant } := by
  rw [grant_eq, user]
  rfl

theorem grant_noticeLink (user : b.user = .noticeLink) :
    (s.grant r k b).notices = { s.notices with reread := s.notices.reread.onGrant } := by
  rw [grant_eq, user]
  rfl

/-- The outcome burst of a retirement, granted: what follows it in the list (R178, R179). -/
theorem grant_outcome {o : Retirement} {res : TaskOutcome} {det : Byte} (user : b.user = .outcome o res det) :
    s.grant r k b = (s.taken r k b).popRetirement := by
  rw [grant_eq, user]
  rfl

/-- A line-fetch burst, granted: it counts for its span, and the next request is presented (R102). -/
theorem grant_line {q : PlaneId} {y i : Nat} (user : b.user = .line q y i) : s.grant r k b =
    State.lfPresent ((s.taken r k b).mapSpan q y i SpanFetch.oneMoreGranted) := by
  rw [grant_eq, user]
  rfl

end


/-- The burst asked for next once an outcome burst has been granted (R178, R179). -/
theorem grant_outcome_next {s : State} {k : Tier} {b : Burst} {o : Retirement} {res : TaskOutcome} {det : Byte}
    (user : b.user = .outcome o res det) {t : State} (grant : t = s.grant .walker k b) :
    let reads := s.walker.st = .reading ∧ s.walker.asked = false
    (∀ x rest, s.walker.retiring.tail = x :: rest → t.walker = { s.walker with retiring := x :: rest }
        ∧ t.port.walkerQ = s.port.walkerQ.tail ++ [x.burst])
      ∧ (∀ a, s.walker.retiring.tail = [] → reads → s.walker.cur = some a →
          t.walker = { s.walker with retiring := [], asked := true }
          ∧ t.port.walkerQ = s.port.walkerQ.tail ++ [{ user := .record, block := a.toNat, sel := none }])
      ∧ (s.walker.retiring.tail = [] → ¬ reads →
          t.walker = { s.walker with retiring := [] } ∧ t.port.walkerQ = s.port.walkerQ.tail) := by
  rw [grant, grant_outcome user]
  refine ⟨fun x rest next => ?_, fun a last reads cur => ?_, fun last elsewhere => ?_⟩
  · rw [popRetirement_next (s := s.taken .walker k b) next]
    exact ⟨rfl, rfl⟩
  · rw [popRetirement_reads (s := s.taken .walker k b) last reads.1 reads.2 cur]
    exact ⟨rfl, rfl⟩
  · rw [popRetirement_last (s := s.taken .walker k b) last elsewhere]
    exact ⟨rfl, rfl⟩

/-- A granted line-fetch burst counts for its span, and line fetch presents its next request (R102; log 11). -/
theorem grant_line_counts {s : State} {k : Tier} {b : Burst} {q : PlaneId} {y i : Nat} (user : b.user = .line q y i) {t : State}
    (grant : t = s.grant .lineFetch k b) :
    t = State.lfPresent { t with
        port := { t.port with lfReq := none }, composer := { t.composer with lastPlane := s.composer.lastPlane } }
      ∧ t.raster (otherPlane q) = s.raster (otherPlane q) ∧ t.composer.line = s.composer.line
      ∧ t.composer.lineStarted = s.composer.lineStarted
      ∧ ∀ (pre post : List LineBuf) (l : LineBuf) (x : SpanFetch), (s.raster q).bufs = pre ++ l :: post →
          (∀ c ∈ pre ++ post, c.line ≠ y) → l.line = y → l.judged = false → l.spans[i]? = some x →
          (t.raster q).bufs = pre ++ { l with spans := l.spans.set i { x with granted := x.granted + 1 } } :: post := by
  rw [grant, grant_line user]
  have same (p : PlaneId) : (s.taken .lineFetch k b).raster p = s.raster p := by cases p <;> rfl
  have counted {pre post : List LineBuf} {l : LineBuf} {x : SpanFetch} (bufs : (s.raster q).bufs = pre ++ l :: post) :=
    mapSpan_raster (s := s.taken .lineFetch k b) (y := y) (i := i) (x := x) ((congrArg Raster.bufs (same q)).trans bufs)
  have other := mapSpan_other (s.taken .lineFetch k b) q y i SpanFetch.oneMoreGranted
  have composer := mapSpan_composer (s.taken .lineFetch k b) q y i SpanFetch.oneMoreGranted
  have withdrawn : ((s.taken .lineFetch k b).mapSpan q y i SpanFetch.oneMoreGranted).port.lfReq = none := by
    simp [State.taken, Port.take]
  refine ⟨?_, ?_, ?_, ?_, fun pre post l x bufs others line unjudged span => ?_⟩
  · have again := lfPresent_again ((s.taken .lineFetch k b).mapSpan q y i SpanFetch.oneMoreGranted)
    rwa [withdrawn, composer] at again
  · rw [lfPresent_raster, other, same]
  · rw [lfPresent_eq, composer]
    rfl
  · rw [lfPresent_eq, composer]
    rfl
  · rw [lfPresent_raster, counted bufs others line unjudged span]
    rfl

/-- Settles O53. -/
theorem grantCarriesTheChosenBurst : Obligations.GrantCarriesTheChosenBurst := by
  refine ⟨fun s host r k b idle chosen waiting => ?_, fun s host h => exec_burstGrant_waits host h,
    fun s r b x setup => carries_setup setup s r⟩
  obtain ⟨flight, pointer, accounts, stats, mem, decReq, compReq⟩ :=
    grant_port (s := s.hostWrote host) (r := r) (k := k) (b := b)
  have frame := grant_frame (s := s.hostWrote host) (r := r) (k := k) (b := b)
  have walkerQ := grant_walkerQ (s := s.hostWrote host) (r := r) (k := k) (b := b)
  have composer := grant_composer (s := s.hostWrote host) (r := r) (k := k) (b := b)
  refine ⟨_, _, exec_burstGrant_grants host idle chosen waiting, flight, rfl, rfl, rfl, pointer, ?_, fun q other => ?_, ?_, ?_,
    fun inactive => ?_, fun active q => ?_, fun carried => if_pos carried, fun unwritten => ?_,
    fun sel wf carried selects nodup x among => ?_, fun o res det user => ?_, fun o res det walker user => ?_,
    fun q y i line user => ?_, fun decoder => ?_, fun compactor => ?_, fun u walker user others => ?_,
    ⟨fun user => ?_, fun user => ?_⟩, fun user => ?_, fun noOutcome noLink => ?_, fun noOutcome other => ?_, fun noLine => composer noLine, fun other => ?_,
    fun other => ?_, ?_, ?_⟩
  · rw [stats, granted_bursts, if_pos rfl]
    rfl
  · rw [stats, granted_bursts, if_neg other]
    rfl
  · rw [stats]
    rfl
  · rw [stats]
    rfl
  · rw [accounts]
    exact accountsAfter_inactive (s := s.hostWrote host) inactive r
  · rw [accounts]
    exact accountsAfter_get (s := s.hostWrote host) active r q
  · rw [mem]
    exact written_unselected unwritten _
  · rw [mem, show (s.hostWrote host).carries r b = true from carried, written_selected selects]
    exact memRead_writeSel_self _ _ _ (memHost_wf _ host wf) nodup x among
  · rw [grant_outcome user, popRetirement_retiring]
    rfl
  · exact grant_outcome_next (s := s.hostWrote host) user (by rw [walker])
  · exact grant_line_counts (s := s.hostWrote host) user (by rw [line])
  · rw [decReq, if_pos decoder]
  · rw [compReq, if_pos compactor]
  · subst user
    rw [walkerQ others, if_pos walker]
    rfl
  · refine (grant_link user).trans (congrArg (fun x => ({ s.walker with reread := x } : Walker)) ?_)
    show s.walker.reread.onGrant = _
    cases s.walker.reread <;> rfl
  · refine (grant_noticeLink user).trans (congrArg (fun x => ({ s.notices with reread := x } : Notices)) ?_)
    show s.notices.reread.onGrant = _
    cases s.notices.reread <;> rfl
  · exact grant_notices user
  · exact grant_walker noOutcome noLink
  · rw [walkerQ noOutcome, if_neg other]
    rfl
  · rw [decReq, if_neg other]
    rfl
  · rw [compReq, if_neg other]
    rfl
  · rw [stats]
    rfl
  · exact frame

end Sys2Proof.Machine

/-! ## What a command does to shared memory (O5, O6): R115, R120, log 4, log 7 -/

namespace Sys2Proof.Machine

/-! ### The commands that complete a burst (R115, R120) -/

/-- The bursts that a command completes, by their users, and whether it brings an error response. -/
def completion : Instr → Option ((User → Bool) × Bool)
  | .startReadsComplete e => some (fun u => decide (u = .setup false), e)
  | .resumeReadsComplete e => some (fun u => decide (u = .setup true), e)
  | .lineFetchBurstComplete e => some (User.ofLine, e)
  | .recordReadComplete e => some (fun u => decide (u = .record), e)
  | .loadHeaderReadComplete e => some (fun u => decide (u = .loadHeader), e)
  | .paletteReadComplete e => some (fun u => decide (u = .palette), e)
  | .pageHeaderReadComplete e => some (fun u => decide (u = .pageHeader), e)
  | .pageReadComplete e => some (fun u => decide (u = .pageRest), e)
  | .linkReadComplete e => some (fun u => decide (u = .link), e)
  | .resultsBurstComplete e => some (User.isResults, e)
  | .outcomeBurstComplete e => some (User.isOutcome, e)
  | .decoderHeaderReadComplete e => some (fun u => decide (u = .decHeader), e)
  | .decoderReadComplete e => some (fun u => decide (u = .decCode), e)
  | .decoderWriteComplete e => some (fun u => decide (u = .decPixels), e)
  | .compactReadComplete e => some (fun u => decide (u = .compRead), e)
  | .compactWriteComplete e => some (fun u => decide (u = .compWrite), e)
  | .contentsBurstComplete e => some (fun u => decide (u = .contents), e)
  | .stateBurstComplete e => some (fun u => decide (u = .noticeState), e)
  | .noticeLinkReadComplete e => some (fun u => decide (u = .noticeLink), e)
  | _ => none

/-- What a requester does with a completed burst leaves shared memory alone. -/
theorem exec_completion_mem {c : Instr} {p : User → Bool} {e : Bool} (completes : completion c = some (p, e)) (s : State) :
    ∃ k, exec c s = .next (s.complete p e k) ∧ ∀ f x, (k f x).mem = x.mem := by
  cases c <;> cases completes
  case loadHeaderReadComplete =>
    refine ⟨_, rfl, fun f x => ?_⟩
    repeat' split
    all_goals simp
  case paletteReadComplete | pageHeaderReadComplete | pageReadComplete =>
    refine ⟨_, rfl, fun f x => ?_⟩
    dsimp only
    repeat' split
    all_goals simp
  all_goals exact ⟨_, rfl, fun f x => by simp⟩

/-- The completion of the write `f` under way, whose selected bytes memory has answered with an error response. -/
structure State.WriteFails (s : State) (c : Instr) (f : Flight) (sel : List (Nat × Byte)) : Prop where
  flight : s.port.flight = some f
  selects : f.burst.sel = some sel
  carried : f.refused = false
  completes : (c = .decoderWriteComplete true ∧ f.burst.user = .decPixels)
    ∨ (c = .compactWriteComplete true ∧ f.burst.user = .compWrite)
    ∨ (c = .resultsBurstComplete true ∧ ∃ r, f.burst.user = .results r)
    ∨ (c = .outcomeBurstComplete true ∧ ∃ r o k, f.burst.user = .outcome r o k)
    ∨ (c = .contentsBurstComplete true ∧ f.burst.user = .contents)
    ∨ (c = .stateBurstComplete true ∧ f.burst.user = .noticeState)

theorem writeFails_of_completion {s : State} {c : Instr} {p : User → Bool} {f : Flight} {sel : List (Nat × Byte)}
    (completes : completion c = some (p, true)) (accepts : p f.burst.user = true) (writes : f.burst.user.writes = true)
    (flight : s.port.flight = some f) (selects : f.burst.sel = some sel) (carried : f.refused = false) :
    s.WriteFails c f sel := by
  refine ⟨flight, selects, carried, ?_⟩
  generalize f.burst.user = u at accepts writes
  cases c <;> cases completes
  case decoderWriteComplete => exact .inl ⟨rfl, of_decide_eq_true accepts⟩
  case compactWriteComplete => exact .inr (.inl ⟨rfl, of_decide_eq_true accepts⟩)
  case resultsBurstComplete =>
    cases u <;> cases accepts
    exact .inr (.inr (.inl ⟨rfl, _, rfl⟩))
  case outcomeBurstComplete =>
    cases u <;> cases accepts
    exact .inr (.inr (.inr (.inl ⟨rfl, _, _, _, rfl⟩)))
  case contentsBurstComplete => exact .inr (.inr (.inr (.inr (.inl ⟨rfl, of_decide_eq_true accepts⟩))))
  case stateBurstComplete => exact .inr (.inr (.inr (.inr (.inr ⟨rfl, of_decide_eq_true accepts⟩))))
  case lineFetchBurstComplete =>
    cases u <;> cases accepts
    cases writes
  all_goals
    rw [of_decide_eq_true accepts] at writes
    cases writes

/-- The end of a burst changes shared memory only where a write that the port carried ends in an error response (R120, log 7). -/
theorem land_mem (f : Flight) (e : Bool) (s : State) : (s.land f e).mem = s.mem
    ∨ ∃ sel, f.burst.sel = some sel ∧ f.burst.user.writes = true ∧ e = true ∧ f.refused = false
      ∧ (s.land f e).mem = memUnknown s.mem f.burst.block s.free sel := by
  simp only [State.land]
  split
  · next sel selects failed =>
    simp only [Bool.and_eq_true, Bool.not_eq_true'] at failed
    obtain ⟨writes, err, carried⟩ := failed
    exact .inr ⟨sel, selects, writes, err, carried, rfl⟩
  · exact .inl rfl
  · exact .inl rfl

/-! ### Every command -/

/-- What a command can leave of the shared memory of a state. -/
inductive State.MemAfter (s : State) (c : Instr) : Mem → Prop
  | kept : s.MemAfter c s.mem
  | hostWrote (host : List Host.Cell) : c = .burstGrant host → s.MemAfter c (memHost s.mem host)
  | granted (host : List Host.Cell) (r : Requester) (b : Burst) : c = .burstGrant host → s.waitingReq r = some b →
      s.MemAfter c (b.written (s.carries r b) (memHost s.mem host))
  | writeFailed (f : Flight) (sel : List (Nat × Byte)) : s.WriteFails c f sel →
      s.MemAfter c (memUnknown s.mem f.burst.block s.free sel)

theorem memAfter_of_completion {c : Instr} {p : User → Bool} {e : Bool} (completes : completion c = some (p, e)) (s : State) :
    ∃ t, exec c s = .next t ∧ s.MemAfter c t.mem := by
  obtain ⟨k, run, keeps⟩ := exec_completion_mem completes s
  refine ⟨_, run, ?_⟩
  unfold State.complete
  split
  · next f flight =>
    split
    · next accepts =>
      have after : (if f.dropped then s.land f e else k f (s.land f e)).mem = (s.land f e).mem := by
        split
        · rfl
        · exact keeps _ _
      rw [after]
      rcases land_mem f e s with same | ⟨sel, selects, writes, rfl, carried, failed⟩
      · rw [same]
        exact .kept
      · rw [failed]
        exact .writeFailed f sel (writeFails_of_completion completes accepts writes flight selects carried)
    · exact .kept
  · exact .kept

theorem memAfter_of_grant (host : List Host.Cell) (s : State) :
    ∃ t, exec (.burstGrant host) s = .next t ∧ s.MemAfter (.burstGrant host) t.mem := by
  refine ⟨(s.hostWrote host).arbitrate, rfl, ?_⟩
  rcases arbitrate_cases (s.hostWrote host) with same | ⟨r, k, b, -, -, waiting, granted⟩
  · rw [same]
    exact .hostWrote host rfl
  · obtain ⟨-, -, -, -, mem, -⟩ := grant_port (s := s.hostWrote host) (r := r) (k := k) (b := b)
    rw [granted, mem]
    exact .granted host r b rfl waiting

/-- A command that completes no burst and grants none leaves shared memory as it was. -/
theorem exec_mem_kept {c : Instr} (completes : completion c = none) (grants : ∀ host, c ≠ .burstGrant host) (s : State) :
    ∃ t, exec c s = .next t ∧ t.mem = s.mem := by
  cases c <;> try cases completes
  case burstGrant host => exact absurd rfl (grants host)
  all_goals refine ⟨_, rfl, ?_⟩
  case haltComplete | keyFrame | falseStart | startEdge | compactWaitEnd | compactScanStep =>
    repeat' split
    all_goals simp
  case registerWrite | syncLoss | lineStart | loadObject | freeObject | compactHeap | loadPalette | stagePage | discardPage
      | showPage | hidePlane | clearSchedule | setState | selectButton | injectKey | wait | snapshot => split <;> simp
  all_goals simp

/-- Every command leaves shared memory in one of those ways. -/
theorem exec_memAfter (c : Instr) (s : State) : ∃ t, exec c s = .next t ∧ s.MemAfter c t.mem := by
  cases completes : completion c with
  | some x => exact memAfter_of_completion completes s
  | none =>
    by_cases grants : ∃ host, c = .burstGrant host
    · obtain ⟨host, rfl⟩ := grants
      exact memAfter_of_grant host s
    · obtain ⟨t, run, same⟩ := exec_mem_kept completes (fun host h => grants ⟨host, h⟩) s
      exact ⟨t, run, same ▸ .kept⟩

/-- Settles O6: each way a command can leave shared memory keeps the canonical form, and a tick leaves it alone. -/
theorem memoryStaysCanonical : Obligations.MemoryStaysCanonical := by
  intro s t wf hstep
  unfold step at hstep
  split at hstep
  · next c rest _ =>
    obtain ⟨u, run, after⟩ := exec_memAfter c (s.withPending rest)
    rw [run] at hstep
    cases hstep
    generalize t.mem = m at after ⊢
    cases after with
    | kept => exact wf
    | hostWrote host => exact memHost_wf _ host wf
    | granted host r b => exact written_wf b _ _ (memHost_wf _ host wf)
    | writeFailed f sel => exact memUnknown_wf _ _ _ sel wf
  · cases hstep
    simpa using wf

/-! ### One byte (O5) -/

theorem memRead_host_ne {m : Mem} {host : List Host.Cell} {a : Nat} (h : memRead (memHost m host) a ≠ memRead m a) :
    a < 2 ^ 32 ∧ ∃ x ∈ host, x.1 = a := by
  by_contra absent
  exact h (memRead_host_other m a host fun x among small same => absent ⟨same ▸ small, x, among, same.symm⟩)

theorem memRead_written_ne {m : Mem} {b : Burst} {carried : Bool} {a : Nat}
    (h : memRead (b.written carried m) a ≠ memRead m a) : ∃ sel, b.sel = some sel ∧ ∃ x ∈ sel, a = b.block + x.1 := by
  cases selects : b.sel with
  | none => exact absurd (by rw [written_unselected (.inr selects)]) h
  | some sel =>
    cases carried with
    | false => exact absurd (by rw [written_unselected (.inl rfl)]) h
    | true =>
      rw [written_selected selects] at h
      by_contra absent
      exact h (memRead_writeSel_other m _ a sel fun x among same => absent ⟨sel, rfl, x, among, same⟩)

theorem memRead_unknown_ne {m : Mem} {block n a : Nat} {sel : List (Nat × Byte)}
    (h : memRead (memUnknown m block n sel) a ≠ memRead m a) : ∃ x ∈ sel, a = block + x.1 := by
  by_contra absent
  exact h (memRead_unknown_other m block a n sel fun x among same => absent ⟨x, among, same⟩)

/-- Settles O5: the byte that differs is one that the way the command leaves memory can change. -/
theorem memoryChangesOnlyAtGrantsAndErrors : Obligations.MemoryChangesOnlyAtGrantsAndErrors := by
  intro c s t a run differs
  obtain ⟨u, runs, after⟩ := exec_memAfter c s
  rw [run] at runs
  cases runs
  generalize t.mem = m at after differs
  cases after with
  | kept => exact absurd rfl differs
  | hostWrote host grant => exact .inl ⟨host, grant, .inl (memRead_host_ne differs)⟩
  | granted host r b grant waiting =>
    by_cases wrote : memRead (b.written (s.carries r b) (memHost s.mem host)) a = memRead (memHost s.mem host) a
    · rw [wrote] at differs
      exact .inl ⟨host, grant, .inl (memRead_host_ne differs)⟩
    · obtain ⟨sel, selects, among⟩ := memRead_written_ne wrote
      exact .inl ⟨host, grant, .inr ⟨r, b, sel, waiting, selects, among⟩⟩
  | writeFailed f sel fails =>
    exact .inr ⟨f, sel, fails.flight, fails.selects, fails.carried, memRead_unknown_ne differs, fails.completes⟩

end Sys2Proof.Machine

/-! ## Accounts and clips (O9): R121, R123 -/

namespace Sys2Proof.Machine

/-- Every account is at most its requester's clip while the part works. -/
def State.WithinClips (s : State) : Prop := s.active = true → ∀ r, s.port.accounts.get r ≤ (s.params r).clip

theorem accountsOk_iff (s : State) : s.accountsOk = true ↔ s.WithinClips := by
  unfold State.accountsOk State.WithinClips
  cases s.active
  · simp
  · simp only [Bool.not_true, Bool.false_or, List.all_eq_true, decide_eq_true_eq, forall_const]
    exact ⟨fun h r => h r (by cases r <;> simp), fun h r _ => h r⟩

/-- Accounts and clips that stand are within each other when they were before, the part having worked before if it works now. -/
theorem State.WithinClips.same {s t : State} (h : s.WithinClips) (active : t.active = true → s.active = true)
    (tun : t.run.tun = s.run.tun) (accounts : t.port.accounts = s.port.accounts) : t.WithinClips := by
  intro works r
  have within := h (active works) r
  unfold State.params at within ⊢
  rwa [tun, accounts]

theorem State.WithinClips.sameRun {s t : State} (h : s.WithinClips) (kept : t.run = s.run ∧ t.port.accounts = s.port.accounts) :
    t.WithinClips :=
  h.same (by simp [State.active, kept.1]) (by rw [kept.1]) kept.2

theorem withinClips_of_inactive {t : State} (stopped : t.active = false) : t.WithinClips := by
  intro works
  rw [stopped] at works
  cases works

theorem withinClips_of_zero {t : State} (zero : t.port.accounts = ⟨0, 0, 0, 0⟩) : t.WithinClips := by
  intro _ r
  rw [zero]
  cases r <;> exact Nat.zero_le _

/-- An accepted resume clips every account to its new clip (R121). -/
theorem resumed_withinClips (t : Tunables) (s : State) : (s.resumed t).WithinClips := by
  obtain ⟨-, -, -, run, accounts⟩ := resumed_rest t s
  intro _ r
  rw [accounts, clipAccounts_get, State.params, run]
  exact Nat.min_le_right _ _

section
variable {s : State} (h : s.WithinClips)
include h

/-- A grant raises the granted requester's account to its clip at most, and none is raised past it (R123). -/
theorem grant_withinClips (r k b) : (s.grant r k b).WithinClips := by
  obtain ⟨-, -, run, -, -, accounts⟩ := grant_rest r k b s
  intro works q
  have active : s.active = true := by simpa [State.active, run] using works
  have params : (s.grant r k b).params q = s.params q := by rw [State.params, State.params, run]
  have within := h active q
  rw [accounts, accountsAfter_get active, params]
  split <;> omega

theorem readSetup_withinClips (b g) : (s.readSetup b g).WithinClips := by
  obtain ⟨-, -, -, run, accounts⟩ := readSetup_rest b g s
  exact h.same (by simp [State.active]) (by rw [run]) accounts

/-- A START leaves a stopped part stopped or starting, and a halted one halted (R195, R198). -/
theorem startCommand_withinClips : s.startCommand.WithinClips := by
  unfold State.startCommand
  split
  · next stopped =>
    unfold State.beginStart
    dsimp only
    split
    · exact withinClips_of_inactive (by simp [State.active, stopped])
    · exact withinClips_of_inactive (by simp [State.active])
  · unfold State.beginResume
    dsimp only
    split
    · exact h.same id rfl rfl
    · exact readSetup_withinClips h _ _
  all_goals exact h

theorem haltCommand_withinClips : s.haltCommand.WithinClips := by
  unfold State.haltCommand
  split
  · next running => exact h.same (by simp [State.active, running]) (by simp) (by simp)
  all_goals exact h

theorem writeControl_withinClips (v) : (s.writeControl v).WithinClips := by
  have enabled : State.WithinClips { s with run := { s.run with attnEnable := ctlEnable v } } := h.same id rfl rfl
  unfold State.writeControl
  dsimp only
  split
  · exact h
  split
  · exact withinClips_of_inactive rfl
  split
  · exact startCommand_withinClips enabled
  split
  · exact haltCommand_withinClips enabled
  · exact enabled

theorem startRead_withinClips (e f) : (s.startRead e f).WithinClips := by
  unfold State.startRead
  dsimp only
  split
  · split
    · exact withinClips_of_inactive rfl
    split
    · exact readSetup_withinClips h _ _
    · unfold State.judgeStart
      split
      · exact withinClips_of_inactive rfl
      · exact withinClips_of_zero (by simp)
  · exact h

theorem resumeRead_withinClips (e f) : (s.resumeRead e f).WithinClips := by
  unfold State.resumeRead
  dsimp only
  split
  · split
    · exact h.same id rfl rfl
    split
    · exact readSetup_withinClips h _ _
    · unfold State.judgeResume
      split
      · exact h.same id rfl rfl
      · exact resumed_withinClips _ s
  · exact h

theorem writeRegister_withinClips (r v) : (s.writeRegister r v).WithinClips := by
  cases r with
  | control => exact writeControl_withinClips h v
  | setupAddress =>
    dsimp only [State.writeRegister, State.writeSetup]
    split
    · exact h
    · exact h.same id rfl rfl
  | chainPoke => exact h.sameRun (by simp [State.writeRegister])
  | attention => exact h.sameRun (by simp [State.writeRegister])
  | resetCause =>
    dsimp only [State.writeRegister, State.writeCause]
    split
    · exact h
    · exact h.same id rfl rfl
  | status | noticeCount | frameStamp => exact h

theorem haltComplete_withinClips :
    ∃ t, exec .haltComplete s = .next t ∧ t.WithinClips := by
  refine ⟨_, rfl, ?_⟩
  split
  · next halting =>
    split
    · exact h.same (by simp [State.active, halting]) rfl rfl
    · exact h
  all_goals exact h

theorem complete_withinClips (p e k) (part : ∀ f x, x.WithinClips → (k f x).WithinClips) : (s.complete p e k).WithinClips :=
  complete_keeps p e k s h (fun f => h.sameRun (by simp)) part

end

/-- The commands of run control, of time and of the arbiter keep the accounts within their clips. -/
theorem exec_outer_withinClips {s : State} (h : s.WithinClips) {c : Instr} (outer : Outer c = true) :
    ∃ t, exec c s = .next t ∧ t.WithinClips := by
  cases c <;> try cases outer
  case haltComplete => exact haltComplete_withinClips h
  all_goals refine ⟨_, rfl, ?_⟩
  case powerOnReset | resetPin => exact withinClips_of_inactive rfl
  case resetPinRelease => exact h.same id rfl rfl
  case softReset v | start v | halt v => exact writeControl_withinClips h v
  case startReadsComplete e => exact complete_withinClips h _ e _ fun f _ hx => startRead_withinClips hx e f
  case resumeReadsComplete e => exact complete_withinClips h _ e _ fun f _ hx => resumeRead_withinClips hx e f
  case attentionWrite v => exact writeRegister_withinClips h .attention v
  case resetCauseWrite v => exact writeRegister_withinClips h .resetCause v
  case registerWrite r n v =>
    split
    · exact writeRegister_withinClips h r v
    · exact h
  case frameStart n => exact h.sameRun (by simp)
  case syncLoss n => split <;> exact h.sameRun (by simp)
  case keyFrame | falseStart =>
    repeat' split
    all_goals exact h.sameRun (by simp)
  case burstGrant host =>
    have written : (s.hostWrote host).WithinClips := h
    change (s.hostWrote host).arbitrate.WithinClips
    rcases arbitrate_cases (s.hostWrote host) with same | ⟨r, k, b, -, -, -, granted⟩
    · rwa [same]
    · rw [granted]
      exact grant_withinClips written r k b

/-- Every command keeps the accounts within their clips. -/
theorem exec_withinClips {s : State} (h : s.WithinClips) (c : Instr) : ∃ t, exec c s = .next t ∧ t.WithinClips := by
  cases outer : Outer c with
  | true => exact exec_outer_withinClips h outer
  | false =>
    obtain ⟨t, run, -, kept, -, accounts⟩ := exec_quiet c s outer
    exact ⟨t, run, h.sameRun ⟨kept, accounts⟩⟩

/-- Settles O9: a step is a command or a tick; grants keep each account within its clip, starts and resumes set it there. -/
theorem accountsStayWithinTheirClips : Obligations.AccountsStayWithinTheirClips := by
  intro s t ok hstep
  rw [accountsOk_iff] at ok ⊢
  unfold step at hstep
  split at hstep
  · next c rest _ =>
    have front : (s.withPending rest).WithinClips := ok
    obtain ⟨u, run, kept⟩ := exec_withinClips front c
    rw [run] at hstep
    cases hstep
    exact kept
  · cases hstep
    exact ok.sameRun (by simp)

end Sys2Proof.Machine

/-! ## The arbiter's choice and the apertures (O52): R117, R119, R122 -/

namespace Sys2Proof.Machine

/-! ### Contenders in round-robin order (R122) -/

theorem mem_orderAfter (p r : Requester) : r ∈ orderAfter p := by
  cases p <;> cases r <;> decide

theorem mem_contenders (s : State) (r : Requester) : r ∈ s.contenders ↔ (s.waitingReq r).isSome = true := by
  simp [State.contenders, mem_orderAfter]

/-- The first contender that passes a test stands in the order behind requesters that do not wait or do not pass it. -/
theorem find_contenders {s : State} {p : Requester → Bool} {r : Requester} (found : s.contenders.find? p = some r) :
    (s.waitingReq r).isSome = true ∧ p r = true
      ∧ ∃ pre post, orderAfter s.port.pointer = pre ++ r :: post
        ∧ ∀ q ∈ pre, (s.waitingReq q).isSome = true → p q = false := by
  rw [State.contenders, List.find?_filter, List.find?_eq_some_iff_append] at found
  obtain ⟨passes, pre, post, order, before⟩ := found
  simp only [decide_eq_true_eq] at passes
  refine ⟨passes.1, passes.2, pre, post, order, fun q among waits => ?_⟩
  simpa [waits] using before q among

theorem head_contenders {s : State} {r : Requester} (first : s.contenders.head? = some r) :
    (s.waitingReq r).isSome = true
      ∧ ∃ pre post, orderAfter s.port.pointer = pre ++ r :: post ∧ ∀ q ∈ pre, s.waitingReq q = none := by
  have found : s.contenders.find? (fun _ => true) = some r := by
    rw [← first]
    cases s.contenders <;> rfl
  obtain ⟨waits, -, pre, post, order, before⟩ := find_contenders found
  exact ⟨waits, pre, post, order, fun q among => Option.not_isSome_iff_eq_none.mp fun w => Bool.noConfusion (before q among w)⟩

/-! ### The choice by tiers (R119, R122) -/

/-- The three tiers of a part that works, and the choice without tiers, each with the condition under which it is taken. -/
inductive State.Chooses (s : State) : Requester → Tier → Prop
  | urgent : s.active = true → (s.waitingReq .lineFetch).isSome = true → s.urgent = true → s.Chooses .lineFetch .urgent
  | withinLimit (r : Requester) : s.active = true → ¬ ((s.waitingReq .lineFetch).isSome = true ∧ s.urgent = true) →
      s.contenders.find? s.underLimit = some r → s.Chooses r .under
  | pastLimit (r : Requester) : s.active = true → s.contenders.find? s.underLimit = none → s.contenders.head? = some r →
      s.Chooses r .over
  | untiered (r : Requester) : s.active = false → s.contenders.head? = some r → s.Chooses r .none

theorem chooses_of_choice {s : State} {r : Requester} {k : Tier} (chosen : s.choice = some (r, k)) : s.Chooses r k := by
  unfold State.choice at chosen
  split at chosen
  · next active =>
    split at chosen
    · next first =>
      obtain ⟨waits, urgent⟩ := first
      cases chosen
      exact .urgent active waits urgent
    · next calm =>
      split at chosen
      · next found =>
        cases chosen
        exact .withinLimit _ active calm found
      · next allPast =>
        obtain ⟨q, first, same⟩ := Option.map_eq_some_iff.mp chosen
        cases same
        exact .pastLimit _ active allPast first
  · next inactive =>
    obtain ⟨q, first, same⟩ := Option.map_eq_some_iff.mp chosen
    cases same
    exact .untiered _ (Bool.eq_false_iff.mpr inactive) first

theorem State.Chooses.waits {s : State} {r : Requester} {k : Tier} (chosen : s.Chooses r k) : (s.waitingReq r).isSome = true := by
  cases chosen with
  | urgent _ waits _ => exact waits
  | withinLimit _ _ _ found => exact (find_contenders found).1
  | pastLimit _ _ _ first => exact (head_contenders first).1
  | untiered _ _ first => exact (head_contenders first).1

/-- Something is chosen exactly when a request is waiting. -/
theorem choice_eq_none (s : State) : s.choice = none ↔ ∀ r, s.waitingReq r = none := by
  constructor
  · intro nothing r
    have empty : s.contenders = [] := by
      unfold State.choice at nothing
      split at nothing
      · split at nothing
        · cases nothing
        · split at nothing
          · cases nothing
          · simpa using nothing
      · simpa using nothing
    have idle := mem_contenders s r
    rw [empty] at idle
    simpa using idle
  · intro idle
    cases chosen : s.choice with
    | none => rfl
    | some x =>
      have waits := (chooses_of_choice (r := x.1) (k := x.2) chosen).waits
      rw [idle] at waits
      cases waits

theorem choice_urgent {s : State} (active : s.active = true) (urgent : s.urgent = true)
    (waits : (s.waitingReq .lineFetch).isSome = true) : s.choice = some (.lineFetch, .urgent) := by
  rw [State.choice, if_pos active, if_pos ⟨waits, urgent⟩]

/-! ### Apertures (R117) -/

/-- A burst that is no setup read is carried when its block lies in the aperture of its requester and direction. -/
theorem carries_checked {s : State} {b : Burst} {fx : Fixed} (fixed : s.run.fixed = some fx) (checked : ∀ x, b.user ≠ .setup x)
    (r : Requester) : s.carries r b =
      match r, b.sel with
      | .lineFetch, _ => fx.inHeap b.block 64
      | .decoder, none => fx.inChain b.block 64
      | .decoder, some _ => fx.inHeap b.block 64
      | .walker, _ => fx.inChain b.block 64
      | .compactor, _ => fx.inHeap b.block 64 := by
  unfold State.carries State.inChain
  rw [fixed]
  split
  · next x setup => exact absurd setup (checked x)
  all_goals rfl

/-- Settles O52: each tier comes with the condition under which it is chosen, and a first contender with what stands before it. -/
theorem arbiterChoosesByTiersAndApertures : Obligations.ArbiterChoosesByTiersAndApertures := by
  refine ⟨fun s => ⟨choice_eq_none s, fun r k chosen => (chooses_of_choice chosen).waits,
    fun active urgent waits => choice_urgent active urgent waits, fun r chosen => ?_, fun active r k chosen => ?_,
    fun r chosen => ?_, fun r chosen => ?_, fun inactive r k chosen => ?_⟩, fun s b fx fixed checked => ?_⟩
  · cases chooses_of_choice chosen with
    | urgent _ _ urgent => exact ⟨rfl, urgent⟩
  · cases chooses_of_choice chosen with
    | untiered _ inactive _ => rw [active] at inactive; cases inactive
    | _ => exact nofun
  · cases chooses_of_choice chosen with
    | withinLimit _ _ _ found => exact (find_contenders found).2
  · cases chooses_of_choice chosen with
    | pastLimit _ _ allPast first =>
      refine ⟨fun q waits => ?_, (head_contenders first).2⟩
      exact Bool.eq_false_iff.mpr (List.find?_eq_none.mp allPast q ((mem_contenders s q).mpr waits))
  · cases chooses_of_choice chosen with
    | untiered _ _ first => exact ⟨rfl, (head_contenders first).2⟩
    | urgent active | withinLimit _ active | pastLimit _ active => rw [inactive] at active; cases active
  · refine ⟨carries_checked fixed checked _, carries_checked fixed checked _, carries_checked fixed checked _,
      fun read => ?_, fun write => ?_⟩
    · rw [carries_checked fixed checked, read]
    · rw [carries_checked fixed checked]
      cases selects : b.sel with
      | none => exact absurd selects write
      | some sel => rfl

end Sys2Proof.Machine

/-! ## SNAPSHOT (O54): R128 to R130 -/

namespace Sys2Proof.Machine

theorem exec_snapshot {s : State} {task : Task} (hand : s.inHand 14 = some task) :
    exec .snapshot s = .next (s.judgeSnapshot task) := by
  simp only [exec, execSnapshot, hand]

theorem judgeSnapshot_badSet {s : State} {task : Task} (bad : 1 < task.p8 16) :
    s.judgeSnapshot task = s.endTask .badParameter 0 [] := if_pos bad

/-- The state whose counters of a set have been cleared, when the clear-after flag asks for it (R129). -/
def State.clearedAfter (s : State) (task : Task) (set1 : Bool) : State :=
  { s with stats := if task.pbit 17 0 then s.stats.cleared set1 else s.stats }

/-- A good set's words are sampled before its counters are cleared (R128, R129). -/
theorem judgeSnapshot_samples {s : State} {task : Task} {set1 : Bool} (set : task.p8 16 = if set1 then 1 else 0) :
    s.judgeSnapshot task = (s.clearedAfter task set1).endTask .done 0 (selFrom 16 ((s.sample set1).flatMap le32)) := by
  have good : ¬ 1 < task.p8 16 := by rw [set]; cases set1 <;> decide
  have number : decide (task.p8 16 = 1) = set1 := by rw [set]; cases set1 <;> rfl
  simp only [State.judgeSnapshot, if_neg good, number, State.clearedAfter]
  split <;> rfl

/-- A sampled set ends the task with its words; the counters are those the clearing leaves. -/
theorem judgeSnapshot_ends {s : State} {task : Task} {set1 : Bool} (current : s.walker.task = some task)
    (set : task.p8 16 = if set1 then 1 else 0) :
    s.Ends (s.judgeSnapshot task) task.ref .done 0 (selFrom 16 ((s.sample set1).flatMap le32))
      ∧ (s.judgeSnapshot task).stats = if task.pbit 17 0 then s.stats.cleared set1 else s.stats := by
  rw [judgeSnapshot_samples set]
  refine ⟨endTask_ends (s.clearedAfter task set1) .done 0 _ task current, ?_⟩
  rw [endTask_onlyWalker (s.clearedAfter task set1) .done 0 _]
  rfl

theorem onlyWalker_counters {s t : State} {c : Stats} (only : State.OnlyWalker { s with stats := c } t) : t = { s with
    stats := t.stats, walker := t.walker, port := { s.port with walkerQ := t.port.walkerQ } } := by
  have counters : t.stats = c := by rw [only]
  rw [counters]
  exact only

/-- SNAPSHOT changes the counters, the walker and its asks alone. -/
theorem judgeSnapshot_only (s : State) (task : Task) : s.judgeSnapshot task = { s with
    stats := (s.judgeSnapshot task).stats, walker := (s.judgeSnapshot task).walker
    port := { s.port with walkerQ := (s.judgeSnapshot task).port.walkerQ } } := by
  unfold State.judgeSnapshot
  dsimp only
  split
  · exact onlyWalker_counters (endTask_onlyWalker s _ _ _)
  split
  · exact onlyWalker_counters (endTask_onlyWalker { s with stats := s.stats.cleared _ } _ _ _)
  · exact onlyWalker_counters (endTask_onlyWalker s _ _ _)

/-- Settles O54: the task ends in the state whose counters are cleared, with the words sampled before. -/
theorem snapshotSamplesAndClears : Obligations.SnapshotSamplesAndClears := by
  intro s task hand
  obtain ⟨current, -, -, -⟩ := inHand_eq hand
  refine ⟨_, exec_snapshot hand, fun bad => ?_, fun set0 => ?_, fun set1 => ?_, judgeSnapshot_only s task⟩
  · rw [judgeSnapshot_badSet bad]
    exact endTask_refuses s .badParameter 0 task current
  · exact judgeSnapshot_ends (set1 := false) current set0
  · exact judgeSnapshot_ends (set1 := true) current set1

end Sys2Proof.Machine

/-! ## SET STATE (O41): R132, R142 -/

namespace Sys2Proof.Machine

/-- Maintenance moves the records as it moves the selection (R141, R142). -/
theorem maintain_records (s : State) (d : PageDef) : s.MovesRecords (s.maintain d) d (s.maintain d).nav.selected := by
  have moved : ∀ x, s.MovesRecords (s.moveSel d x) d (s.moveSel d x).nav.selected := fun x => by
    rw [moveSel_sel]
    exact moveSel_records s d x
  unfold State.maintain
  split
  · split
    · exact ⟨fun _ => rfl, fun other => absurd rfl other⟩
    · exact moved _
  · exact moved _

/-- SET STATE's word is written and the selection maintained, the task still in hand (R132). -/
def State.wordWritten (w : Word) (s : State) : State :=
  match s.navPage, s.nav.activation with
  | some d, none =>
    if w = s.nav.word then { s with nav := { s.nav with word := w } }
    else State.maintain d { s with nav := { s.nav with word := w } }
  | _, _ => { s with nav := { s.nav with word := w } }

theorem exec_setState {s : State} {task : Task} (hand : s.inHand 10 = some task) : exec .setState s = .next
    ((s.wordWritten (maskedWord s.nav.word (task.p32 16) (task.p32 20))).endTask .done 0
      (selFrom 24 (le32 (maskedWord s.nav.word (task.p32 16) (task.p32 20))))) := by
  simp only [exec, execSetState, hand]
  rfl

section
variable {s : State} {w : Word}

/-- The word is written, and nothing but the selection and the records can change with it. -/
theorem wordWritten_eq (s : State) (w : Word) : s.wordWritten w = { s with nav := { s.nav with
    word := w, selected := (s.wordWritten w).nav.selected, buttons := (s.wordWritten w).nav.buttons } } := by
  unfold State.wordWritten
  split
  · split
    · rfl
    · rw [maintain_eq]
  · rfl

theorem wordWritten_keeps (h : s.navSlot = none ∨ s.nav.activation ≠ none ∨ w = s.nav.word) :
    s.wordWritten w = { s with nav := { s.nav with word := w } } := by
  unfold State.wordWritten
  split
  · next page idle =>
    rcases h with inactive | active | same
    · simp [State.navPage, inactive] at page
    · exact absurd idle active
    · exact if_pos same
  · rfl

theorem wordWritten_maintains {d : PageDef} (page : s.navPage = some d) (idle : s.nav.activation = none)
    (changes : w ≠ s.nav.word) : s.wordWritten w = State.maintain d { s with nav := { s.nav with word := w } } := by
  simp only [State.wordWritten, page, idle, if_neg changes]

/-- Maintenance under the new word: a visible selection stands, and otherwise the entry choice is selected (R142). -/
theorem wordWritten_selection {d : PageDef} (page : s.navPage = some d) (idle : s.nav.activation = none)
    (changes : w ≠ s.nav.word) :
    (∀ b, s.nav.selected = some b → d.visible w b = true → (s.wordWritten w).nav.selected = some b)
      ∧ (∀ b, s.nav.selected = some b → d.visible w b = false → (s.wordWritten w).nav.selected = d.entryChoice w)
      ∧ (s.nav.selected = none → (s.wordWritten w).nav.selected = d.entryChoice w)
      ∧ s.MovesRecords (s.wordWritten w) d (s.wordWritten w).nav.selected := by
  rw [wordWritten_maintains page idle changes]
  have left := maintain_sel { s with nav := { s.nav with word := w } } d
  have records := maintain_records { s with nav := { s.nav with word := w } } d
  refine ⟨fun b sel vis => ?_, fun b sel hid => ?_, fun sel => ?_, records⟩
  · simpa only [sel, vis, if_true] using left
  · simpa only [sel, hid, Bool.false_eq_true, if_false] using left
  · simpa only [sel] using left

end

/-- Settles O41: the word is written and the selection maintained, and then the task ends. -/
theorem setStateWritesMaskedBits : Obligations.SetStateWritesMaskedBits := by
  intro s task hand
  obtain ⟨current, -, -, -⟩ := inHand_eq hand
  have execution := exec_setState hand
  have mask : maskedWord s.nav.word (task.p32 16) (task.p32 20)
    = (s.nav.word &&& ~~~(task.p32 16)) ||| (task.p32 20 &&& task.p32 16) := rfl
  rw [mask] at execution
  generalize (s.nav.word &&& ~~~(task.p32 16)) ||| (task.p32 20 &&& task.p32 16) = w at *
  have written := wordWritten_eq s w
  have keeps := wordWritten_keeps (s := s) (w := w)
  have selection := fun d => wordWritten_selection (s := s) (w := w) (d := d)
  generalize s.wordWritten w = u at *
  have currentThen : u.walker.task = some task := by rw [written]; exact current
  have ends := endTask_ends u .done 0 (selFrom 24 (le32 w)) task currentThen
  have only := endTask_onlyWalker u .done 0 (selFrom 24 (le32 w))
  have nav : (u.endTask .done 0 (selFrom 24 (le32 w))).nav = u.nav := by simp
  generalize u.endTask .done 0 (selFrom 24 (le32 w)) = t at *
  have word : t.nav.word = w := by rw [nav, written]
  refine ⟨t, execution, word, ?_, ?_, fun stays => ?_, fun d page idle changes => ?_⟩
  · rw [word]
    rw [written] at ends
    exact ends
  · rw [written] at only
    rw [nav, show u.nav.word = w from nav ▸ word]
    exact only
  · rw [word] at stays
    rw [nav, keeps stays]
    exact ⟨rfl, rfl⟩
  · rw [word] at changes
    obtain ⟨stands, moves, none, records⟩ := selection d page idle changes
    unfold State.MovesRecords at records ⊢
    rw [word, nav]
    exact ⟨stands, moves, none, records⟩

end Sys2Proof.Machine

/-! ## The buttons found (O42, O44): R133, R136, R139, R140, R158, R160 -/

namespace Sys2Proof.Machine

/-! ### The first button that meets a test -/

theorem firstFrom_eq (p : Button → Bool) : ∀ (i : Nat) (l : List Button), firstFrom p i l = (l.findIdx? p).map (i + ·)
  | i, [] => rfl
  | i, b :: bs => by
    rw [firstFrom, List.findIdx?_cons, firstFrom_eq p (i + 1) bs]
    split
    · rfl
    · cases bs.findIdx? p with
      | none => rfl
      | some j => exact congrArg some (Nat.add_right_comm i 1 j)

theorem firstFrom_zero_iff {p : Button → Bool} {l : List Button} {i : Nat} : firstFrom p 0 l = some i ↔
    (∃ b, l[i]? = some b ∧ p b = true) ∧ ∀ j b, j < i → l[j]? = some b → p b = false := by
  rw [firstFrom_eq]
  simp only [Nat.zero_add, Option.map_id', List.findIdx?_eq_some_iff_getElem]
  constructor
  · rintro ⟨inside, here, before⟩
    refine ⟨⟨_, List.getElem?_eq_getElem inside, here⟩, fun j b earlier at_j => ?_⟩
    obtain ⟨_, rfl⟩ := List.getElem?_eq_some_iff.mp at_j
    simpa using before j earlier
  · rintro ⟨⟨b, at_i, here⟩, before⟩
    obtain ⟨inside, rfl⟩ := List.getElem?_eq_some_iff.mp at_i
    exact ⟨inside, here, fun j earlier => by simp [before j _ earlier (List.getElem?_eq_getElem (earlier.trans inside))]⟩

theorem firstFrom_zero_none {p : Button → Bool} {l : List Button} : firstFrom p 0 l = none ↔ ∀ b ∈ l, p b = false := by
  simp [firstFrom_eq]

/-! ### Visible buttons and the entry choice (R133, R136) -/

section
variable {d : PageDef} {w : Word}

theorem visible_iff {i : Nat} : d.visible w i = true ↔ ∃ b, d.buttons[i]? = some b ∧ b.visible w = true := by
  unfold PageDef.visible
  cases d.buttons[i]? <;> simp

theorem firstVisible_iff {i : Nat} : firstFrom (Button.visible w) 0 d.buttons = some i ↔
    d.visible w i = true ∧ ∀ j, j < i → d.visible w j = false := by
  rw [firstFrom_zero_iff, visible_iff]
  refine and_congr_right fun _ => forall_congr' fun j => ?_
  cases at_j : d.buttons[j]? <;> simp [PageDef.visible, at_j]

theorem firstVisible_none : firstFrom (Button.visible w) 0 d.buttons = none ↔ ∀ i, d.visible w i = false := by
  simp only [firstFrom_zero_none, List.mem_iff_getElem?, forall_exists_index]
  constructor
  · intro hidden i
    cases at_i : d.buttons[i]? with
    | none => simp [PageDef.visible, at_i]
    | some b => rw [visible_some at_i, hidden b i at_i]
  · intro hidden b i at_i
    rw [← visible_some at_i, hidden i]

theorem entryChoice_default {i : Nat} (dflt : d.dflt = some i) (vis : d.visible w i = true) : d.entryChoice w = some i := by
  simp only [PageDef.entryChoice, dflt, if_pos vis]

/-- With no visible default the first visible button is chosen. -/
theorem entryChoice_other (h : ∀ i, d.dflt = some i → d.visible w i = false) :
    d.entryChoice w = firstFrom (Button.visible w) 0 d.buttons := by
  unfold PageDef.entryChoice
  split
  · next i dflt => exact if_neg (by simp [h i dflt])
  · rfl

/-- Either the default is visible and chosen, or the first visible button is looked for. -/
theorem entryChoice_cases (d : PageDef) (w : Word) : (∃ i, d.visible w i = true ∧ d.entryChoice w = some i)
    ∨ d.entryChoice w = firstFrom (Button.visible w) 0 d.buttons := by
  by_cases h : ∃ i, d.dflt = some i ∧ d.visible w i = true
  · obtain ⟨i, dflt, vis⟩ := h
    exact .inl ⟨i, vis, entryChoice_default dflt vis⟩
  · exact .inr (entryChoice_other fun i dflt => by simpa using fun vis => h ⟨i, dflt, vis⟩)

theorem entryChoice_visible {i : Nat} (h : d.entryChoice w = some i) : d.visible w i = true := by
  rcases entryChoice_cases d w with ⟨j, vis, chosen⟩ | first
  · rw [chosen] at h
    cases h
    exact vis
  · exact (firstVisible_iff.mp (first.symm.trans h)).1

theorem entryChoice_none : d.entryChoice w = none ↔ ∀ i, d.visible w i = false := by
  rcases entryChoice_cases d w with ⟨j, vis, chosen⟩ | first
  · simp only [chosen, reduceCtorEq, false_iff, not_forall]
    exact ⟨j, by simp [vis]⟩
  · rw [first, firstVisible_none]

end

/-! ### The direction search (R158) -/

/-- The button that a button's link in a direction names; 255 for a button that the page does not have. -/
def PageDef.link (d : PageDef) (dir : Button → Nat) (i : Nat) : Nat := (d.buttons[i]?.map dir).getD 255

/-- The link of 255 ends a search. -/
theorem searchLinks_end (d : PageDef) (w : Word) (dir : Button → Nat) (start : Nat) :
    ∀ n, searchLinks d w dir start n 255 = none
  | 0 => rfl
  | _ + 1 => if_pos (.inl rfl)

/-- One link of the search: it ends, finds the visible button it has come to, or goes on past a hidden one. -/
theorem searchLinks_succ (d : PageDef) (w : Word) (dir : Button → Nat) (start n l : Nat) :
    searchLinks d w dir start (n + 1) l =
      if l = 255 ∨ l = start then none else if d.visible w l then some l else searchLinks d w dir start n (d.link dir l) := by
  rw [searchLinks]
  cases at_l : d.buttons[l]? with
  | some b => simp [PageDef.visible, PageDef.link, at_l]
  | none => simp [PageDef.visible, PageDef.link, at_l, searchLinks_end]

/-- The button found is the first visible one among those that the links come to, and the start and 255 end the search. -/
theorem searchLinks_iff (d : PageDef) (w : Word) (dir : Button → Nat) (start t : Nat) : ∀ n l,
    searchLinks d w dir start n l = some t ↔
      ∃ k, k < n ∧ (d.link dir)^[k] l = t ∧ d.visible w t = true ∧ t ≠ 255 ∧ t ≠ start
        ∧ ∀ j, j < k → (d.link dir)^[j] l ≠ 255 ∧ (d.link dir)^[j] l ≠ start ∧ d.visible w ((d.link dir)^[j] l) = false
  | 0, l => by simp [searchLinks]
  | n + 1, l => by
    rw [searchLinks_succ]
    split
    · next ends =>
      simp only [reduceCtorEq, false_iff]
      rintro ⟨k, -, rfl, -, open1, open2, passed⟩
      cases k with
      | zero => exact ends.elim open1 open2
      | succ k => exact ends.elim (passed 0 k.succ_pos).1 (passed 0 k.succ_pos).2.1
    next goes =>
    obtain ⟨open1, open2⟩ := not_or.mp goes
    split
    · next vis =>
      rw [Option.some.injEq]
      constructor
      · rintro rfl
        exact ⟨0, n.succ_pos, rfl, vis, open1, open2, fun j h => absurd h j.not_lt_zero⟩
      · rintro ⟨k, -, rfl, -, -, -, passed⟩
        cases k with
        | zero => rfl
        | succ k => exact absurd vis (by simp [show d.visible w l = false from (passed 0 k.succ_pos).2.2])
    · next hidden =>
      rw [searchLinks_iff d w dir start t n]
      constructor
      · rintro ⟨k, inside, found, vis, h1, h2, passed⟩
        refine ⟨k + 1, Nat.succ_lt_succ inside, found, vis, h1, h2, fun j earlier => ?_⟩
        cases j with
        | zero => exact ⟨open1, open2, by simpa using hidden⟩
        | succ j => exact passed j (Nat.lt_of_succ_lt_succ earlier)
      · rintro ⟨k, inside, found, vis, h1, h2, passed⟩
        cases k with
        | zero => exact absurd (show d.visible w l = true from (show l = t from found) ▸ vis) hidden
        | succ k =>
          exact ⟨k, Nat.lt_of_succ_lt_succ inside, found, vis, h1, h2, fun j earlier => passed (j + 1) (Nat.succ_lt_succ earlier)⟩

theorem dirLink_other {c : Nat} (h : c < 0x40 ∨ 0x43 < c) : dirLink c = none := by
  unfold dirLink
  split
  case h_5 => rfl
  all_goals omega

/-! ### Buttons by number, and the digits (R157, R160) -/

section
variable {d : PageDef} {w : Word} {n : Nat}

/-- A number stands for the first visible button that has it. -/
theorem numbered_iff {i : Nat} : d.numbered w n = some i ↔
    n ≠ 0 ∧ (∃ b, d.buttons[i]? = some b ∧ b.number = n ∧ b.visible w = true)
      ∧ ∀ j b, j < i → d.buttons[j]? = some b → ¬ (b.number = n ∧ b.visible w = true) := by
  unfold PageDef.numbered
  by_cases zero : n = 0
  · simp [zero]
  · rw [if_neg zero, firstFrom_zero_iff]
    simp [zero, and_comm, imp_not_comm]

theorem numbered_button {i : Nat} (h : d.numbered w n = some i) : ∃ y, d.buttons[i]? = some y :=
  have ⟨y, at_i, _⟩ := (numbered_iff.mp h).2.1
  ⟨y, at_i⟩

theorem longer_iff : d.longer w n = true ↔
    ∃ b ∈ d.buttons, b.visible w = true ∧ b.number ≠ 0 ∧ 10 * n ≤ b.number ∧ b.number ≤ 10 * n + 9 := by
  simp [PageDef.longer]

end

theorem digitOf_iff {c : Byte} {n : Nat} : digitOf c = some n ↔ c.toNat = 0x30 + n ∧ n ≤ 9 := by
  unfold digitOf
  split
  · rw [Option.some.injEq]
    omega
  · simp only [reduceCtorEq, false_iff]
    omega

/-! ### Cycles and positions (R139, R140) -/

theorem livePairs_held (c : List (Byte × Nat)) : ∀ x ∈ livePairs c, x.2 ≠ 0 := fun x h => by
  simpa using List.mem_takeWhile_imp h

/-- What a cycle does not play begins with a hold of 0. -/
theorem livePairs_rest (c : List (Byte × Nat)) :
    ∃ rest, c = livePairs c ++ rest ∧ ∀ x, rest.head? = some x → x.2 = 0 := by
  refine ⟨c.dropWhile fun p => decide (p.2 ≠ 0), List.takeWhile_append_dropWhile.symm, fun x first => ?_⟩
  have stops := List.head?_dropWhile_not (fun p : Byte × Nat => decide (p.2 ≠ 0)) c
  rw [first] at stops
  simpa using stops

section
variable {y : Button} {r : ButtonRec}

theorem advance_still (h : r.pub = false ∨ y.cycle r.vis = []) : ButtonRec.advance y r = (r, false) := by
  rcases h with unpublished | empty
  · simp [ButtonRec.advance, unpublished]
  · simp [ButtonRec.advance, empty]

variable (published : r.pub = true) (plays : y.cycle r.vis ≠ [])
include published plays

theorem advance_holds (h : 1 < r.left) : ButtonRec.advance y r = ({ r with left := r.left - 1 }, false) := by
  simp [ButtonRec.advance, published, plays, h]

theorem advance_next {x : Byte × Nat} (h : r.left ≤ 1) (pair : (y.cycle r.vis)[r.pair + 1]? = some x) :
    ButtonRec.advance y r = ({ r with pair := r.pair + 1, left := x.2 }, false) := by
  obtain ⟨inside, rfl⟩ := List.getElem?_eq_some_iff.mp pair
  simp [ButtonRec.advance, published, plays, Nat.not_lt.mpr h, inside]

theorem advance_wraps {x : Byte × Nat} (h : r.left ≤ 1) (last : (y.cycle r.vis).length ≤ r.pair + 1)
    (other : r.vis ≠ .activating) (pair : (y.cycle r.vis).head? = some x) :
    ButtonRec.advance y r = ({ r with pair := 0, left := x.2 }, false) := by
  cases vis : r.vis with
  | activating => exact absurd vis other
  | normal =>
    rw [vis] at plays last pair
    simp [ButtonRec.advance, published, vis, plays, Nat.not_lt.mpr h, Nat.not_lt.mpr last, pair]
  | selected =>
    rw [vis] at plays last pair
    simp [ButtonRec.advance, published, vis, plays, Nat.not_lt.mpr h, Nat.not_lt.mpr last, pair]

theorem advance_ends (h : r.left ≤ 1) (last : (y.cycle r.vis).length ≤ r.pair + 1) (vis : r.vis = .activating) :
    ButtonRec.advance y r = ({ r with left := 0 }, true) := by
  rw [vis] at plays last
  simp [ButtonRec.advance, published, vis, plays, Nat.not_lt.mpr h, Nat.not_lt.mpr last]

end

end Sys2Proof.Machine

/-! ## Activations and moves seen from the command that makes them (O44, O46): R139, R141, R143 to R147 -/

namespace Sys2Proof.Machine

/-- What an activation in `x` reads besides the records and the selection stands there as in `s`. -/
structure SameGround (x s : State) : Prop where
  word : x.nav.word = s.nav.word
  jump : x.jump = s.jump
  slots : x.slots = s.slots
  notices : x.notices = s.notices
  timer : x.timer = s.timer

/-- What an activation leaves in `u` stands unchanged in `t`. -/
structure SameNavResult (t u : State) : Prop where
  word : t.nav.word = u.nav.word
  jump : t.jump = u.jump
  slots : t.slots = u.slots
  notices : t.notices = u.notices
  selected : t.nav.selected = u.nav.selected
  activation : t.nav.activation = u.nav.activation
  buttons : t.nav.buttons = u.nav.buttons

/-- An activation of a button, told of the state before its command and the state after it. -/
theorem Activates.across {s x t u : State} {slot : SlotId} {d : PageDef} {b : Nat} (h : x.Activates u slot d b false)
    (records : SameRecs x s d b) (ground : SameGround x s) (result : SameNavResult t u) : s.Activates t slot d b false :=
  Activates.of h records ground.word ground.jump ground.slots ground.notices ground.timer result.word result.jump result.slots
    result.notices result.selected result.activation result.buttons

theorem moveSel_ground (s : State) (d : PageDef) (x : Option Nat) : SameGround (s.moveSel d x) s := by
  rw [moveSel_eq]
  exact ⟨rfl, rfl, rfl, rfl, rfl⟩

/-- Actions leave every definition as it stands: a JUMP moves holds alone (R57, R147). -/
theorem act_page (s : State) (slot : SlotId) (b : Nat) (a : Action) (p : SlotId) : (s.act slot b a).page p = s.page p := by
  by_cases jump : a.isJump = true
  · cases a with
    | jump x => rw [State.page, (act_jump s slot b x).2 p, page_withHolds]; rfl
    | none => exact absurd jump Bool.false_ne_true
    | notify c => exact absurd jump Bool.false_ne_true
    | toggle m => exact absurd jump Bool.false_ne_true
  · rw [State.page, slot_congr (act_nojump s slot b a (by simpa using jump)).2]
    rfl

theorem page_congr {s t : State} (h : t.slots = s.slots) (p : SlotId) : t.page p = s.page p := by
  rw [State.page, slot_congr h]
  rfl

theorem endActivation_page (s : State) (slot : SlotId) (d : PageDef) (b : Nat) (p : SlotId) :
    (s.endActivation slot d b).page p = s.page p := by
  unfold State.endActivation
  split
  · next y _ =>
    rw [← act_page s slot b y.act1, ← act_page (s.act slot b y.act1) slot b y.act2]
    refine page_congr ?_ p
    dsimp only
    split <;> simp
  · rfl

theorem activate_page (s : State) (slot : SlotId) (d : PageDef) (b : Nat) (p : SlotId) :
    (s.activate slot d b).page p = s.page p := by
  unfold State.activate
  dsimp only
  split
  · split
    · rw [endActivation_page]
      exact page_congr (by simp) p
    · exact page_congr (by simp) p
  · rfl

end Sys2Proof.Machine

/-! ## Items taken (O44): R156 to R165 -/

namespace Sys2Proof.Machine

/-! ### What taking an item changes (R156) -/

theorem TakesItem.trans {s x t : State} {rest : List KeyItem} (first : s.TakesItem x rest)
    (next : x.TakesItem t x.nav.queue) : s.TakesItem t rest := by
  obtain ⟨nav, all⟩ := first
  obtain ⟨navThen, allThen⟩ := next
  constructor
  · rw [nav] at navThen
    exact navThen
  · rw [all] at allThen
    exact allThen

theorem popItem_takes (s : State) (rest : List KeyItem) : s.TakesItem (s.popItem rest) rest := ⟨rfl, rfl⟩

theorem takes_of_navOnly {s t : State} (h : NavOnly s t) : s.TakesItem t s.nav.queue :=
  ⟨by rw [h], by rw [h]⟩

theorem consumed_takes (s : State) (d : PageDef) (k : Key) : s.TakesItem (s.consumed d k) s.nav.queue :=
  ⟨by rw [consumed_eq], by rw [consumed_eq]⟩

theorem passed_takes (s : State) (k : Key) : s.TakesItem (s.passed k) s.nav.queue :=
  ⟨by rw [passed_eq], by rw [passed_eq]⟩

theorem retire_takes (s : State) (r : TaskRef) (o : TaskOutcome) (n : Nat) (l : List (Nat × Byte)) :
    s.TakesItem (s.retire r o n l) s.nav.queue :=
  ⟨by rw [retire_eq], by rw [retire_eq]⟩

theorem activate_takes (s : State) (slot : SlotId) (d : PageDef) (b : Nat) :
    s.TakesItem (s.activate slot d b) s.nav.queue := takes_of_navOnly (nav_activate s slot d b)

/-! ### Keys consumed (R157, R164, R165) -/

theorem consumed_consumes {s x : State} (walker : x.walker = s.walker) (timer : x.timer = s.timer) (d : PageDef) (k : Key) :
    s.Consumes (x.consumed d k) d k.task := by
  rw [State.Consumes, consumed_eq, walker]
  simp only [State.retirement, timer, and_self]

theorem consumed_nav (x : State) (d : PageDef) (k : Key) : (x.consumed d k).nav = { x.nav with timeout := d.timeout } := by
  rw [consumed_eq]

/-- Setting the timeout counter, and what retires with it, leaves what an activation or a move has done. -/
theorem consumed_result (x : State) (d : PageDef) (k : Key) : SameNavResult (x.consumed d k) x := by
  rw [consumed_eq]
  exact ⟨rfl, rfl, rfl, rfl, rfl, rfl, rfl⟩

theorem popItem_ground (s : State) (rest : List KeyItem) : SameGround (s.popItem rest) s := ⟨rfl, rfl, rfl, rfl, rfl⟩

theorem SameGround.trans {x y s : State} (h : SameGround x y) (k : SameGround y s) : SameGround x s :=
  ⟨h.word.trans k.word, h.jump.trans k.jump, h.slots.trans k.slots, h.notices.trans k.notices, h.timer.trans k.timer⟩

/-! ### The keys (R158 to R160) -/

/-- A move to a button, pressed when `press` (R158, R164). -/
def State.movedTo (slot : SlotId) (d : PageDef) (b : Nat) (press : Bool) (s : State) : State :=
  if press then (s.moveSel d (some b)).activate slot d b else s.moveSel d (some b)

theorem nav_movedTo (s : State) (slot : SlotId) (d : PageDef) (b : Nat) (press : Bool) :
    NavOnly s (s.movedTo slot d b press) := by
  unfold State.movedTo
  split
  · exact (nav_moveSel s d _).trans (nav_activate _ slot d b)
  · exact nav_moveSel s d _

theorem elim_link (d : PageDef) (dir : Button → Nat) (b : Nat) : d.buttons[b]?.elim 255 dir = d.link dir b := by
  unfold PageDef.link
  cases d.buttons[b]? <;> rfl

section
variable {s : State} {slot : SlotId} {d : PageDef} {k : Key}

theorem directionKey_unselected {dir : Button → Nat} (sel : s.nav.selected = none) :
    s.directionKey slot d dir k = s.passed k := by
  simp only [State.directionKey, sel]

theorem directionKey_lost {dir : Button → Nat} {b : Nat} (sel : s.nav.selected = some b)
    (lost : searchLinks d s.nav.word dir b 24 (d.link dir b) = none) : s.directionKey slot d dir k = s.consumed d k := by
  simp only [State.directionKey, sel, Config.maxLinks, elim_link, lost]

theorem directionKey_found {dir : Button → Nat} {b x : Nat} (sel : s.nav.selected = some b)
    (found : searchLinks d s.nav.word dir b 24 (d.link dir b) = some x) : s.directionKey slot d dir k =
      (s.movedTo slot d x (d.buttons[x]?.elim false (·.auto))).consumed d k := by
  simp only [State.directionKey, sel, Config.maxLinks, elim_link, found]
  rfl

theorem okKey_unselected (sel : s.nav.selected = none) : s.okKey slot d k = s.passed k := by
  simp only [State.okKey, sel]

theorem okKey_selected {b : Nat} (sel : s.nav.selected = some b) : s.okKey slot d k = (s.activate slot d b).consumed d k := by
  simp only [State.okKey, sel]

/-- The digit entry that a first digit opens (R160). -/
def State.opened (n left : Nat) (slot : SlotId) (s : State) : State :=
  { s with nav := { s.nav with digit := some { digit := n, left := left, slot := slot } } }

theorem digitKey_opens {n : Nat} (longer : d.longer s.nav.word n = true) : s.digitKey slot d n k =
    (s.opened n (s.run.tun.elim 1 (·.digitWindow)) slot).consumed d k := if_pos longer

theorem digitKey_presses {n b : Nat} (longer : d.longer s.nav.word n = false) (found : d.numbered s.nav.word n = some b) :
    s.digitKey slot d n k = (s.activate slot d b).consumed d k := by
  simp [State.digitKey, longer, found]

theorem digitKey_passes {n : Nat} (longer : d.longer s.nav.word n = false) (found : d.numbered s.nav.word n = none) :
    s.digitKey slot d n k = s.passed k := by
  simp [State.digitKey, longer, found]

variable (onSlot : s.navSlot = some slot) (onPage : s.navPage = some d)
include onSlot onPage

theorem handleKey_direction {dir : Button → Nat} (code : dirLink k.code.toNat = some dir) :
    s.handleKey k = s.directionKey slot d dir k := by
  simp only [State.handleKey, onSlot, onPage, code]

theorem handleKey_ok (code : k.code = 0x44) : s.handleKey k = s.okKey slot d k := by
  simp only [State.handleKey, onSlot, onPage, code]
  rfl

theorem handleKey_digit {n : Nat} (code : digitOf k.code = some n) : s.handleKey k = s.digitKey slot d n k := by
  have small := digitOf_iff.mp code
  have other : k.code.toNat ≠ 0x44 := by omega
  simp only [State.handleKey, onSlot, onPage, dirLink_other (c := k.code.toNat) (by omega), if_neg other, code]

theorem handleKey_other (direction : dirLink k.code.toNat = none) (ok : k.code ≠ 0x44) (digit : digitOf k.code = none) :
    s.handleKey k = s.passed k := by
  have other : k.code.toNat ≠ 0x44 := fun same => ok (BitVec.eq_of_toNat_eq same)
  simp only [State.handleKey, onSlot, onPage, direction, if_neg other, digit]

theorem handleSelect_visible {b : Nat} {act : Bool} {r : TaskRef} (vis : d.visible s.nav.word b = true) :
    s.handleSelect b act r = ((s.movedTo slot d b act).setTimeout d).retire r .done 0 [] := by
  simp only [State.handleSelect, onSlot, onPage, if_pos vis]
  rfl

theorem handleSelect_hidden {b : Nat} {act : Bool} {r : TaskRef} (hid : d.visible s.nav.word b = false) :
    s.handleSelect b act r = s.retire r .notSelectable 0 [] := by
  simp [State.handleSelect, onSlot, onPage, hid]

end

/-! ### The item at the head (R156, R161) -/

/-- An item taken with no digit entry pending changes what TAKE_ITEM may change. -/
theorem handleItem_takes (s : State) (i : KeyItem) : s.TakesItem (s.handleItem i) s.nav.queue := by
  have consumes : ∀ {x : State} (d : PageDef) (k : Key), s.TakesItem x s.nav.queue → s.TakesItem (x.consumed d k) s.nav.queue :=
    fun d k h => TakesItem.trans h (consumed_takes _ d k)
  have direction : ∀ slot d dir k, s.TakesItem (s.directionKey slot d dir k) s.nav.queue := by
    intro slot d dir k
    cases sel : s.nav.selected with
    | none => rw [directionKey_unselected sel]; exact passed_takes s k
    | some b =>
      cases found : searchLinks d s.nav.word dir b 24 (d.link dir b) with
      | none => rw [directionKey_lost sel found]; exact consumed_takes s d k
      | some x => rw [directionKey_found sel found]; exact consumes d k (takes_of_navOnly (nav_movedTo s slot d x _))
  have ok : ∀ slot d k, s.TakesItem (s.okKey slot d k) s.nav.queue := by
    intro slot d k
    cases sel : s.nav.selected with
    | none => rw [okKey_unselected sel]; exact passed_takes s k
    | some b => rw [okKey_selected sel]; exact consumes d k (activate_takes s slot d b)
  have digit : ∀ slot d n k, s.TakesItem (s.digitKey slot d n k) s.nav.queue := by
    intro slot d n k
    unfold State.digitKey
    split
    · exact consumes d k ⟨rfl, rfl⟩
    split
    · exact consumes d k (activate_takes s slot d _)
    · exact passed_takes s k
  cases i with
  | key code task =>
    show s.TakesItem (s.handleKey _) _
    unfold State.handleKey
    repeat' split
    · exact direction _ _ _ _
    · exact ok _ _ _
    · exact digit _ _ _ _
    all_goals exact passed_takes s _
  | select b act r =>
    show s.TakesItem (s.handleSelect b act r) _
    unfold State.handleSelect
    split
    · next slot d _ _ =>
      split
      · have timed : s.TakesItem ((s.movedTo slot d b act).setTimeout d) s.nav.queue :=
          TakesItem.trans (takes_of_navOnly (nav_movedTo s slot d b act)) ⟨rfl, rfl⟩
        exact TakesItem.trans timed (retire_takes _ r _ _ _)
      · exact retire_takes s r _ _ _
    · exact retire_takes s r _ _ _

section
variable {s : State} {i : KeyItem} {rest : List KeyItem}

theorem mayTake_iff (s : State) : s.mayTake = true ↔ s.nav.activation = none ∧ s.jump = none ∧ s.work.nav = .idle := by
  simp [State.mayTake, and_assoc]

variable (queue : s.nav.queue = i :: rest) (free : s.mayTake = true)
include queue free

theorem exec_takeItem (digit : s.nav.digit = none) :
    exec .takeItem s = .next (State.handleItem i (s.popItem rest)) := by
  simp only [exec, execTakeItem, State.takeItem, queue, if_pos free, digit]

/-- With an entry pending, any item but a second digit first ends it as on expiry (R161). -/
theorem exec_takeItem_ends {e : DigitEntry} (digit : s.nav.digit = some e)
    (noDigit : ∀ c src, i = .key c src → digitOf c = none) : exec .takeItem s =
      .next (if (s.endDigit e).2 then (s.endDigit e).1 else State.handleItem i ((s.endDigit e).1.popItem rest)) := by
  cases i with
  | key c src => simp only [exec, execTakeItem, State.takeItem, queue, if_pos free, digit, noDigit c src rfl]
  | select b act r => simp only [exec, execTakeItem, State.takeItem, queue, if_pos free, digit]

end

theorem exec_takeItem_second {s : State} {c : Byte} {src : Option TaskRef} {rest : List KeyItem} {e : DigitEntry} {n : Nat}
    (queue : s.nav.queue = .key c src :: rest) (free : s.mayTake = true) (digit : s.nav.digit = some e)
    (second : digitOf c = some n) :
    exec .takeItem s = .next (State.secondDigit e n { code := c, task := src } (s.popItem rest)) := by
  simp only [exec, execTakeItem, State.takeItem, queue, if_pos free, digit, second]

/-! ### What the commands leave of a press or a move (R141, R143) -/

section
variable {s t : State} {rest : List KeyItem} {slot : SlotId} {d : PageDef} {b : Nat}

theorem activates_of_popped (result : SameNavResult t ((s.popItem rest).activate slot d b)) : s.Activates t slot d b false :=
  Activates.across (activate_activates (s.popItem rest) slot d b) (SameRecs.of _ _ d b rfl rfl) (popItem_ground s rest) result

theorem activates_of_moved (result : SameNavResult t ((s.popItem rest).movedTo slot d b true)) :
    s.Activates t slot d b false :=
  Activates.across (activate_activates _ slot d b) (SameRecs.moved (s.popItem rest) d b)
    ((moveSel_ground _ d _).trans (popItem_ground s rest)) result

theorem selects_of_moved (result : SameNavResult t ((s.popItem rest).movedTo slot d b false)) : s.Selects t d b :=
  Selects.of (moveSel_selects (s.popItem rest) d b) rfl rfl rfl rfl rfl rfl rfl result.word result.jump result.slots
    result.notices result.selected result.activation result.buttons

theorem consumes_of_navOnly {x : State} (only : NavOnly (s.popItem rest) x) (d : PageDef) (k : Key) :
    s.Consumes (x.consumed d k) d k.task :=
  consumed_consumes (by rw [only]; rfl) (by rw [only]; rfl) d k

/-- A key that presses a button is consumed, and the press is the whole of what it does. -/
theorem press_consumed (s : State) (rest : List KeyItem) (slot : SlotId) (d : PageDef) (b : Nat) (k : Key) :
    s.Consumes (((s.popItem rest).activate slot d b).consumed d k) d k.task
      ∧ s.Activates (((s.popItem rest).activate slot d b).consumed d k) slot d b false :=
  ⟨consumes_of_navOnly (nav_activate _ slot d b) d k, activates_of_popped (consumed_result _ d k)⟩

end

/-! ### An item taken with no digit entry pending (R157 to R160, R164) -/

/-- Only a digit that begins a longer number opens a digit entry (R160). -/
theorem handleItem_digit {s : State} {i : KeyItem} {slot : SlotId} {d : PageDef} (onSlot : s.navSlot = some slot)
    (onPage : s.navPage = some d)
    (short : ∀ c src n, i = .key c src → digitOf c = some n → d.longer s.nav.word n = false) :
    (s.handleItem i).nav.digit = s.nav.digit := by
  cases i with
  | key c src =>
    show (s.handleKey _).nav.digit = _
    cases digit : digitOf c with
    | some n =>
      rw [handleKey_digit onSlot onPage digit]
      cases found : d.numbered s.nav.word n with
      | none => rw [digitKey_passes (short c src n rfl digit) found]; simp
      | some b => rw [digitKey_presses (short c src n rfl digit) found]; simp
    | none =>
      simp only [State.handleKey, onSlot, onPage, digit]
      repeat' split
      all_goals simp
  | select b act r =>
    show (s.handleSelect b act r).nav.digit = _
    cases vis : d.visible s.nav.word b with
    | true =>
      rw [handleSelect_visible onSlot onPage vis]
      have only := nav_movedTo s slot d b act
      rw [retire_eq, only]
      rfl
    | false => rw [handleSelect_hidden onSlot onPage vis]; simp

section
variable {s : State} {i : KeyItem} {rest : List KeyItem} {slot : SlotId} {d : PageDef} {c : Byte} {src : Option TaskRef}
  (queue : s.nav.queue = i :: rest) (onSlot : s.navSlot = some slot) (onPage : s.navPage = some d)

section
include queue onSlot onPage

/-- A direction key (R158). -/
theorem direction_taken {dir : Button → Nat} (code : dirLink c.toNat = some dir) :
    let t := (s.popItem rest).handleItem (.key c src)
    (s.nav.selected = none → s.Passes t c src)
      ∧ ∀ b, s.nav.selected = some b →
          let found := searchLinks d s.nav.word dir b 24 (d.link dir b)
          s.Consumes t d src
          ∧ (found = none → t.nav = { s.nav with queue := rest, timeout := d.timeout })
          ∧ (∀ x y, found = some x → d.buttons[x]? = some y → y.auto = false → s.Selects t d x)
          ∧ (∀ x y, found = some x → d.buttons[x]? = some y → y.auto = true → s.Activates t slot d x false) := by
  have taken : (s.popItem rest).handleItem (.key c src)
      = (s.popItem rest).directionKey slot d dir { code := c, task := src } :=
      handleKey_direction (s := s.popItem rest) (k := { code := c, task := src }) onSlot onPage code
  rw [taken]
  refine ⟨fun sel => ?_, fun b sel => ⟨?_, fun lost => ?_, fun x y found at_x manual => ?_, fun x y found at_x auto => ?_⟩⟩
  · rw [directionKey_unselected (s := s.popItem rest) sel]
    exact key_passes s i rest c src queue
  · cases found : searchLinks d s.nav.word dir b 24 (d.link dir b) with
    | none =>
      rw [directionKey_lost (s := s.popItem rest) sel found]
      exact consumed_consumes (x := s.popItem rest) rfl rfl d { code := c, task := src }
    | some x =>
      rw [directionKey_found (s := s.popItem rest) sel found]
      exact consumes_of_navOnly (nav_movedTo _ slot d x _) d { code := c, task := src }
  · rw [directionKey_lost (s := s.popItem rest) sel lost, consumed_nav]
    rfl
  · rw [directionKey_found (s := s.popItem rest) sel found, at_x, Option.elim_some, manual]
    exact selects_of_moved (consumed_result _ d _)
  · rw [directionKey_found (s := s.popItem rest) sel found, at_x, Option.elim_some, auto]
    exact activates_of_moved (consumed_result _ d _)

/-- OK (R159). -/
theorem ok_taken :
    let t := (s.popItem rest).handleItem (.key 0x44 src)
    (s.nav.selected = none → s.Passes t 0x44 src)
      ∧ ∀ b, s.nav.selected = some b → s.Consumes t d src ∧ s.Activates t slot d b false := by
  have taken : (s.popItem rest).handleItem (.key 0x44 src)
      = (s.popItem rest).okKey slot d { code := 0x44, task := src } :=
      handleKey_ok (s := s.popItem rest) (k := { code := 0x44, task := src }) onSlot onPage rfl
  rw [taken]
  refine ⟨fun sel => ?_, fun b sel => ?_⟩
  · rw [okKey_unselected (s := s.popItem rest) sel]
    exact key_passes s i rest 0x44 src queue
  · rw [okKey_selected (s := s.popItem rest) sel]
    exact press_consumed s rest slot d b { code := 0x44, task := src }

/-- A key of no meaning to the unit is passed (R157). -/
theorem other_taken (direction : dirLink c.toNat = none) (ok : c ≠ 0x44) (digit : digitOf c = none) :
    s.Passes ((s.popItem rest).handleItem (.key c src)) c src := by
  have taken : (s.popItem rest).handleItem (.key c src) = (s.popItem rest).passed { code := c, task := src } :=
    handleKey_other onSlot onPage direction ok digit
  rw [taken]
  exact key_passes s i rest c src queue

/-- A first digit (R160). -/
theorem digit_taken {n : Nat} {tn : Tunables} (digit : digitOf c = some n) (settings : s.run.tun = some tn) :
    let t := (s.popItem rest).handleItem (.key c src)
    (d.longer s.nav.word n = true → s.Consumes t d src
        ∧ t.nav = { s.nav with
            queue := rest, digit := some { digit := n, left := tn.digitWindow, slot := slot }, timeout := d.timeout })
      ∧ (d.longer s.nav.word n = false → d.numbered s.nav.word n = none → s.Passes t c src)
      ∧ (∀ x, d.longer s.nav.word n = false → d.numbered s.nav.word n = some x →
          s.Consumes t d src ∧ s.Activates t slot d x false) := by
  have taken : (s.popItem rest).handleItem (.key c src)
      = (s.popItem rest).digitKey slot d n { code := c, task := src } :=
      handleKey_digit (s := s.popItem rest) (k := { code := c, task := src }) onSlot onPage digit
  rw [taken]
  refine ⟨fun longer => ?_, fun short none => ?_, fun x short found => ?_⟩
  · have window : (s.popItem rest).run.tun.elim 1 (·.digitWindow) = tn.digitWindow := by simp [settings]
    rw [digitKey_opens (s := s.popItem rest) longer, window, consumed_nav]
    exact ⟨consumed_consumes rfl rfl d _, rfl⟩
  · rw [digitKey_passes (s := s.popItem rest) short none]
    exact key_passes s i rest c src queue
  · rw [digitKey_presses (s := s.popItem rest) short found]
    exact press_consumed s rest slot d x { code := c, task := src }

end

include onSlot onPage

/-- A SELECT item (R164). -/
theorem select_taken (x : Nat) (act : Bool) (r : TaskRef) :
    let t := (s.popItem rest).handleItem (.select x act r)
    (d.visible s.nav.word x = true → t.nav.timeout = d.timeout
        ∧ t.walker.retiring = s.walker.retiring ++ [s.retirement r .done 0 []]
        ∧ (act = false → s.Selects t d x) ∧ (act = true → s.Activates t slot d x false))
      ∧ (d.visible s.nav.word x = false → t.nav = { s.nav with queue := rest } ∧ t.jump = s.jump ∧ t.slots = s.slots
        ∧ t.walker.retiring = s.walker.retiring ++ [s.retirement r .notSelectable 0 []]) := by
  refine ⟨fun vis => ?_, fun hid => ?_⟩
  · have taken : (s.popItem rest).handleItem (.select x act r)
        = (((s.popItem rest).movedTo slot d x act).setTimeout d).retire r .done 0 [] :=
      handleSelect_visible (s := s.popItem rest) onSlot onPage vis
    have only := nav_movedTo (s.popItem rest) slot d x act
    have result : SameNavResult ((((s.popItem rest).movedTo slot d x act).setTimeout d).retire r .done 0 [])
        ((s.popItem rest).movedTo slot d x act) := by
      rw [retire_eq]
      exact ⟨rfl, rfl, rfl, rfl, rfl, rfl, rfl⟩
    rw [taken]
    refine ⟨?_, ?_, fun select => ?_, fun press => ?_⟩
    · rw [retire_eq]
      rfl
    · rw [retire_retiring, only]
      rfl
    · subst select
      exact selects_of_moved result
    · subst press
      exact activates_of_moved result
  · have taken : (s.popItem rest).handleItem (.select x act r) = (s.popItem rest).retire r .notSelectable 0 [] :=
      handleSelect_hidden (s := s.popItem rest) onSlot onPage hid
    rw [taken, retire_eq]
    exact ⟨rfl, rfl, rfl, rfl⟩

end

/-! ### An item taken with a digit entry pending (R161, R162) -/

/-- The digit entry is gone. -/
def State.entryEnded (s : State) : State := { s with nav := { s.nav with digit := none } }

section
variable {s : State} {slot : SlotId} {d : PageDef} {e : DigitEntry} (onSlot : s.navSlot = some slot) (onPage : s.navPage = some d)
include onSlot onPage

theorem endDigit_none (found : d.numbered s.nav.word e.digit = none) : s.endDigit e = (s.entryEnded, false) := by
  simp only [State.endDigit, onSlot, onPage, found]
  rfl

theorem endDigit_some {b : Nat} (found : d.numbered s.nav.word e.digit = some b) :
    s.endDigit e = (s.entryEnded.activate slot d b, true) := by
  simp only [State.endDigit, onSlot, onPage, found]
  rfl

theorem secondDigit_none {n : Nat} {k : Key} (found : d.numbered s.nav.word (10 * e.digit + n) = none) :
    s.secondDigit e n k = s.entryEnded.consumed d k := by
  simp only [State.secondDigit, onSlot, onPage, found]
  rfl

theorem secondDigit_some {n b : Nat} {k : Key} (found : d.numbered s.nav.word (10 * e.digit + n) = some b) :
    s.secondDigit e n k = (s.entryEnded.activate slot d b).consumed d k := by
  simp only [State.secondDigit, onSlot, onPage, found]
  rfl

end

theorem entryEnded_ground (s : State) : SameGround s.entryEnded s := ⟨rfl, rfl, rfl, rfl, rfl⟩

theorem SameNavResult.refl (t : State) : SameNavResult t t := ⟨rfl, rfl, rfl, rfl, rfl, rfl, rfl⟩

/-- A press that ends a digit entry is told of the state before. -/
theorem activates_of_entryEnded {s t : State} {slot : SlotId} {d : PageDef} {b : Nat}
    (result : SameNavResult t (s.entryEnded.activate slot d b)) : s.Activates t slot d b false :=
  Activates.across (activate_activates s.entryEnded slot d b) (SameRecs.of _ _ d b rfl rfl) (entryEnded_ground s) result

section
variable {s : State} {rest : List KeyItem} {slot : SlotId} {d : PageDef} {e : DigitEntry} (onSlot : s.navSlot = some slot)
  (onPage : s.navPage = some d)
include onSlot onPage

/-- A second digit (R161). -/
theorem second_taken (n : Nat) (k : Key) :
    let t := (s.popItem rest).secondDigit e n k
    s.TakesItem t rest ∧ t.nav.digit = none ∧ s.Consumes t d k.task
      ∧ (d.numbered s.nav.word (10 * e.digit + n) = none →
          t.nav = { s.nav with queue := rest, digit := none, timeout := d.timeout })
      ∧ ∀ b, d.numbered s.nav.word (10 * e.digit + n) = some b → s.Activates t slot d b false := by
  have ended : s.TakesItem (s.popItem rest).entryEnded rest := ⟨rfl, rfl⟩
  cases found : d.numbered s.nav.word (10 * e.digit + n) with
  | none =>
    rw [secondDigit_none (s := s.popItem rest) onSlot onPage found]
    refine ⟨TakesItem.trans ended (consumed_takes _ d k), ?_, consumed_consumes rfl rfl d k, fun _ => ?_,
      fun b absent => nomatch absent⟩
    all_goals rw [consumed_nav]
    all_goals rfl
  | some b =>
    rw [secondDigit_some (s := s.popItem rest) onSlot onPage found]
    have only := nav_activate (s.popItem rest).entryEnded slot d b
    refine ⟨TakesItem.trans (TakesItem.trans ended (activate_takes _ slot d b)) (consumed_takes _ d k), ?_,
      consumed_consumes (by rw [only]; rfl) (by rw [only]; rfl) d k, (fun absent => nomatch absent), fun b' same => ?_⟩
    · rw [consumed_nav, only]
      rfl
    · obtain rfl := Option.some.inj same
      exact Activates.across (activate_activates (s.popItem rest).entryEnded slot d b) (SameRecs.of _ _ d b rfl rfl)
        ((entryEnded_ground _).trans (popItem_ground s rest)) (consumed_result _ d k)

end

/-- Settles O44: the item at the head by what it is and by the button it finds, with an entry pending and without. -/
theorem keysAndSelectsMoveTheSelection : Obligations.KeysAndSelectsMoveTheSelection := by
  refine ⟨?_, ?_, ?_, fun d w n i => ⟨numbered_iff, longer_iff⟩, fun c n => digitOf_iff⟩
  · intro s i rest slot d queue active jump stage digit onSlot onPage
    have free := (mayTake_iff s).mpr ⟨active, jump, stage⟩
    refine ⟨_, exec_takeItem queue free digit, TakesItem.trans (popItem_takes s rest) (handleItem_takes _ i), fun short => ?_,
      ?_, ?_, ?_, ?_, ?_⟩
    · rw [handleItem_digit (s := s.popItem rest) onSlot onPage short]
      exact digit
    · rintro c src dir rfl code
      exact direction_taken queue onSlot onPage code
    · rintro src rfl
      exact ok_taken queue onSlot onPage
    · rintro c src rfl direction ok other
      exact other_taken queue onSlot onPage direction ok other
    · rintro x act r rfl
      exact select_taken onSlot onPage x act r
    · rintro c src n tn rfl code settings
      exact digit_taken queue onSlot onPage code settings
  · intro s c src rest slot d e n queue active jump stage digit onSlot onPage code
    have free := (mayTake_iff s).mpr ⟨active, jump, stage⟩
    exact ⟨_, exec_takeItem_second queue free digit code, second_taken onSlot onPage n { code := c, task := src }⟩
  · intro s i rest slot d e queue active jump stage digit onSlot onPage noDigit
    have free := (mayTake_iff s).mpr ⟨active, jump, stage⟩
    have execution := exec_takeItem_ends queue free digit noDigit
    refine ⟨fun found => ?_, fun b found => ?_⟩
    · rw [execution, endDigit_none onSlot onPage found]
      exact (exec_takeItem (s := s.entryEnded) queue free rfl).symm
    · rw [endDigit_some onSlot onPage found, if_pos rfl] at execution
      have only := nav_activate s.entryEnded slot d b
      refine ⟨_, execution, TakesItem.trans (x := s.entryEnded) ⟨rfl, rfl⟩ (activate_takes _ slot d b), ?_, ?_, ?_, ?_,
        activates_of_entryEnded (SameNavResult.refl _)⟩
      all_goals rw [only]
      all_goals rfl

end Sys2Proof.Machine

/-! ## DIGIT_WINDOW_EXPIRY and PAGE_TIMEOUT (O46): R138, R143, R144, R162 to R166 -/

namespace Sys2Proof.Machine

/-- Publishing is the last of the countdown (R138). -/
theorem Publishes.counted {x t : State} {slot : SlotId} {d : PageDef} (h : x.Publishes t slot d) :
    CountedDown x t slot d := by
  obtain ⟨nav, all, records, live, frozen⟩ := h
  have idle : t.work.nav = .idle := by rw [all]
  refine ⟨by rw [nav], by rw [all], ?_, ⟨fun _ => ⟨live, frozen⟩, fun waits => absurd idle waits⟩, .inl idle⟩
  rwa [idle]

/-- What the unit's frame-start work before the countdown may change of the unit (R162, R166). -/
def State.Pressed (s x : State) : Prop :=
  x.nav = { s.nav with word := x.nav.word, selected := x.nav.selected, buttons := x.nav.buttons,
                       activation := x.nav.activation, digit := x.nav.digit }

/-! ### After the countdown the blocks go on (R138, log 3) -/

section
variable {s x u : State} {slot : SlotId} {d : PageDef} (counted : CountedDown x u slot d)
include counted

theorem CountedDown.records : x.KeepsRecords u.advanceWork d (decide (u.advanceWork.work.nav = .idle)) := by
  obtain ⟨nav, stage⟩ := counted.goesOn
  simpa only [State.KeepsRecords, nav, stage] using counted.recs

/-- What the countdown leaves of a press or of none. -/
theorem CountedDown.result : u.advanceWork.nav.word = x.nav.word ∧ u.advanceWork.nav.activation = x.nav.activation
    ∧ u.advanceWork.nav.selected = x.nav.selected ∧ u.advanceWork.notices = x.notices ∧ u.advanceWork.jump = x.jump
    ∧ u.advanceWork.slots = x.slots := by
  have jump : u.advanceWork.jump = u.jump := by simp
  have slots : u.advanceWork.slots = u.slots := by simp
  have notices : u.advanceWork.notices = u.notices := by simp
  rw [counted.goesOn.1, jump, slots, notices, counted.nav, counted.all]
  exact ⟨rfl, rfl, rfl, rfl, rfl, rfl⟩

theorem CountedDown.activates {b : Nat} (press : s.Activates x slot d b false) :
    s.Activates u.advanceWork slot d b (decide (u.advanceWork.work.nav = .idle)) :=
  Activates.published s x _ slot d b press counted.result _ counted.records

theorem CountedDown.countsDown {pending : Option DigitEntry} {start : Nat} (counts : u.CountsDown pending start) :
    u.advanceWork.CountsDown pending start := by
  have jump : u.advanceWork.jump = u.jump := by simp
  simpa only [State.CountsDown, counted.goesOn.1, counted.goesOn.2, jump] using counts

variable (pressed : s.Pressed x)
include pressed

theorem CountedDown.keepsKeys : s.KeepsKeys u.advanceWork := by
  rw [State.KeepsKeys, counted.goesOn.1, counted.nav, pressed]

theorem CountedDown.publishesOrWaits : s.PublishesOrWaits u.advanceWork slot d := by
  obtain ⟨nav, stage⟩ := counted.goesOn
  have slots : u.advanceWork.slots = u.slots := by simp
  obtain ⟨publishes, waits⟩ := counted.pub
  rw [pressed] at publishes waits
  refine ⟨fun idle => ?_, fun waiting => ?_⟩
  · obtain ⟨live, frozen⟩ := publishes (stage ▸ idle)
    exact ⟨showsLive_congr nav live, fun v judged => showsFrozen_congr nav slots (frozen v judged)⟩
  · rw [nav]
    exact waits (stage ▸ waiting)

end

/-! ### The window runs out (R162, R163) -/

section
variable {s : State} {slot : SlotId} {d : PageDef} {e : DigitEntry}

theorem expiryStep_ends (stage : s.work.nav = .expiry) (digit : s.nav.digit = some e) :
    s.expiryStep = (s.endDigit e).1.navTimeout.advanceWork := by
  simp only [State.expiryStep, stage, State.navExpiry, digit]

variable (onSlot : s.navSlot = some slot) (onPage : s.navPage = some d)
include onSlot onPage

/-- Besides the entry's end, only what an activation changes can differ. -/
theorem endDigit_navOnly : NavOnly s.entryEnded (s.endDigit e).1 := by
  cases found : d.numbered s.nav.word e.digit with
  | none => rw [endDigit_none onSlot onPage found]; rfl
  | some b => rw [endDigit_some onSlot onPage found]; exact nav_activate _ slot d b

theorem endDigit_page (p : SlotId) : (s.endDigit e).1.page p = s.page p := by
  cases found : d.numbered s.nav.word e.digit with
  | none => rw [endDigit_none onSlot onPage found]; rfl
  | some b => rw [endDigit_some onSlot onPage found]; exact activate_page _ slot d b p

end

/-! ### The timeout fires (R166) -/

section
variable {s : State} {slot : SlotId} {d : PageDef}

theorem timeoutStep_fires (stage : s.work.nav = .timeout) (onSlot : s.navSlot = some slot) (onPage : s.navPage = some d) :
    s.timeoutStep = (s.fireTimeout slot d).navPublish.advanceWork := by
  simp only [State.timeoutStep, stage, State.navFire, onSlot, onPage]

theorem fireTimeout_presses {b : Nat} (dflt : d.dflt = some b) (vis : d.visible s.nav.word b = true) :
    s.fireTimeout slot d = s.activate slot d b := by
  simp only [State.fireTimeout, dflt, if_pos vis]

theorem fireTimeout_submits (h : ∀ b, d.dflt = some b → d.visible s.nav.word b = false) :
    s.fireTimeout slot d = s.submit (.pageTimeout slot s.nav.selected s.nav.word) := by
  unfold State.fireTimeout
  split
  · next b dflt => exact if_neg (by simp [h b dflt])
  · rfl

/-- A timeout presses the visible default, or submits PAGE_TIMEOUT. -/
theorem fireTimeout_cases (s : State) (slot : SlotId) (d : PageDef) :
    (∃ b, s.fireTimeout slot d = s.activate slot d b)
      ∨ s.fireTimeout slot d = s.submit (.pageTimeout slot s.nav.selected s.nav.word) := by
  by_cases press : ∃ b, d.dflt = some b ∧ d.visible s.nav.word b = true
  · obtain ⟨b, dflt, vis⟩ := press
    exact .inl ⟨b, fireTimeout_presses dflt vis⟩
  · exact .inr (fireTimeout_submits fun b dflt => by simpa using fun vis => press ⟨b, dflt, vis⟩)

theorem fireTimeout_navOnly (s : State) (slot : SlotId) (d : PageDef) : NavOnly s (s.fireTimeout slot d) := by
  rcases fireTimeout_cases s slot d with ⟨b, press⟩ | submits
  · rw [press]
    exact nav_activate s slot d b
  · rw [submits]
    exact nav_submit s _

theorem fireTimeout_page (s : State) (slot : SlotId) (d : PageDef) (p : SlotId) :
    (s.fireTimeout slot d).page p = s.page p := by
  rcases fireTimeout_cases s slot d with ⟨b, press⟩ | submits
  · rw [press]
    exact activate_page s slot d b p
  · rw [submits]
    exact page_congr (by simp) p

end

/-! ### The two commands -/

section
variable {s : State} {slot : SlotId} {d : PageDef} (onSlot : s.navSlot = some slot) (onPage : s.navPage = some d)
include onSlot onPage

theorem page_of_navPage : s.page slot = some d := by
  simpa [State.navPage, onSlot] using onPage

/-- The entry ended, the timeout counts down or the views are published (R163, R165, R166). -/
theorem endDigit_counts (e : DigitEntry) : s.Pressed (s.endDigit e).1
    ∧ CountedDown (s.endDigit e).1 (s.endDigit e).1.navTimeout slot d
    ∧ (s.endDigit e).1.navTimeout.CountsDown none s.nav.timeout := by
  have only := endDigit_navOnly (e := e) onSlot onPage
  have page : (s.endDigit e).1.page slot = some d :=
    (endDigit_page onSlot onPage slot).trans (page_of_navPage onSlot onPage)
  generalize (s.endDigit e).1 = x at *
  have there : x.navSlot = some slot := by
    rw [State.navSlot, only]
    exact onSlot
  have timeout : x.nav.timeout = s.nav.timeout := by rw [only]; rfl
  have spec := navTimeout_spec x slot d there page (by rw [only]; rfl)
  rw [timeout] at spec
  refine ⟨?_, spec⟩
  rw [State.Pressed, only]
  rfl

/-- The timeout fired, the views are published (R138, R166). -/
theorem fireTimeout_publishes : s.Pressed (s.fireTimeout slot d)
    ∧ CountedDown (s.fireTimeout slot d) (s.fireTimeout slot d).navPublish slot d
    ∧ (s.fireTimeout slot d).navPublish.work.nav = .idle
    ∧ (s.fireTimeout slot d).navPublish.nav.digit = s.nav.digit
    ∧ (s.fireTimeout slot d).navPublish.nav.timeout = s.nav.timeout := by
  have only := fireTimeout_navOnly s slot d
  have page := (fireTimeout_page s slot d slot).trans (page_of_navPage onSlot onPage)
  generalize s.fireTimeout slot d = x at *
  have there : x.navSlot = some slot := by
    rw [State.navSlot, only]
    exact onSlot
  have publishes := navPublish_publishes x slot d there page
  have nav := publishes.1
  refine ⟨?_, Publishes.counted publishes, by rw [navPublish_work], ?_, ?_⟩
  · rw [State.Pressed, only]
  all_goals rw [nav, only]

end

theorem expiryStep_rest (s : State) : s.expiryStep = { s with
    heap := { s.heap with view := s.expiryStep.heap.view }, slots := s.expiryStep.slots, slide := s.expiryStep.slide
    menu := s.expiryStep.menu, drawnViews := s.expiryStep.drawnViews, nav := s.expiryStep.nav
    composer := s.expiryStep.composer, stats := s.expiryStep.stats, work := s.expiryStep.work
    port := { s.port with lfReq := s.expiryStep.port.lfReq }
    jump := s.expiryStep.jump, attention := s.expiryStep.attention, notices := s.expiryStep.notices } :=
  eq_of_workFrame (t := s.expiryStep) (s := { s with
      jump := s.expiryStep.jump, attention := s.expiryStep.attention, notices := s.expiryStep.notices })
    (by simp [Kept]) (by simp) (by simp) (by simp)

theorem timeoutStep_rest (s : State) : s.timeoutStep = { s with
    heap := { s.heap with view := s.timeoutStep.heap.view }, slots := s.timeoutStep.slots, slide := s.timeoutStep.slide
    menu := s.timeoutStep.menu, drawnViews := s.timeoutStep.drawnViews, nav := s.timeoutStep.nav
    composer := s.timeoutStep.composer, stats := s.timeoutStep.stats, work := s.timeoutStep.work
    port := { s.port with lfReq := s.timeoutStep.port.lfReq }
    jump := s.timeoutStep.jump, attention := s.timeoutStep.attention, notices := s.timeoutStep.notices } :=
  eq_of_workFrame (t := s.timeoutStep) (s := { s with
      jump := s.timeoutStep.jump, attention := s.timeoutStep.attention, notices := s.timeoutStep.notices })
    (by simp [Kept]) (by simp) (by simp) (by simp)

/-- Settles O46: the press or its absence, and then the countdown and the publishing of R138. -/
theorem expiryAndTimeoutPressButtons : Obligations.ExpiryAndTimeoutPressButtons := by
  intro s slot d onSlot onPage idle
  refine ⟨fun e stage digit => ⟨s.expiryStep, rfl, expiryStep_rest s, ?_⟩,
    fun stage => ⟨s.timeoutStep, rfl, timeoutStep_rest s, ?_⟩⟩
  · rw [expiryStep_ends stage digit]
    obtain ⟨pressed, counted, counts⟩ := endDigit_counts onSlot onPage e
    refine ⟨counted.keepsKeys pressed, counted.countsDown counts, counted.publishesOrWaits pressed, fun found => ?_,
      fun b found => counted.activates ?_⟩
    · obtain ⟨word, active, selected, notices, jump, slots⟩ := counted.result
      have records := counted.records
      rw [endDigit_none onSlot onPage found] at *
      exact ⟨selected, word, active.trans idle, jump, slots, notices, records⟩
    · rw [endDigit_some onSlot onPage found]
      exact activates_of_entryEnded (SameNavResult.refl _)
  · rw [timeoutStep_fires stage onSlot onPage]
    obtain ⟨pressed, counted, published, pending, timeout⟩ := fireTimeout_publishes onSlot onPage
    obtain ⟨nav, stageThen⟩ := counted.goesOn
    have done := stageThen.trans published
    have pub : decide ((s.fireTimeout slot d).navPublish.advanceWork.work.nav = .idle) = true := decide_eq_true done
    refine ⟨counted.keepsKeys pressed, done, by rw [nav, pending], by rw [nav, timeout], counted.publishesOrWaits pressed,
      fun b dflt vis => ?_, fun hidden => ?_⟩
    · rw [← pub]
      refine counted.activates ?_
      rw [fireTimeout_presses dflt vis]
      exact activate_activates s slot d b
    · obtain ⟨word, active, selected, notices, jump, slots⟩ := counted.result
      have records := counted.records
      rw [pub] at records
      rw [fireTimeout_submits hidden] at *
      refine ⟨by rw [selected]; simp, by rw [word]; simp, by rw [active]; simpa using idle, by rw [jump]; simp,
        by rw [slots]; simp, KeepsRecords.of (by simp) records, fun room => ?_⟩
      rw [notices, submit_queue _ _ room]

end Sys2Proof.Machine

/-! ## The navigation unit judges a menu frame view (O42): R134 to R140, R163, R166 -/

namespace Sys2Proof.Machine

/-! ### Records of a page entry and of an advance (R136, R139, R140) -/

theorem entryRecs_length (sel : Option Nat) : ∀ (i : Nat) (l : List Button), (entryRecs sel i l).length = l.length
  | _, [] => rfl
  | i, _ :: bs => congrArg (· + 1) (entryRecs_length sel (i + 1) bs)

theorem advanceAll_past : ∀ (l : List Button) (rs : List ButtonRec) (k : Nat), l.length ≤ k →
    (advanceAll l rs).1[k]? = rs[k]?
  | [], _, _, _ => rfl
  | _ :: _, [], _, _ => rfl
  | _ :: bs, _ :: rs, k + 1, h => by
    simpa [advanceAll] using advanceAll_past bs rs k (Nat.le_of_succ_le_succ h)

/-- A record at its reset values (log 19). -/
theorem recVector_nil (i : Fin 24) : (recVector []).get i = { vis := .normal, pair := 0, left := 0, pub := false } := by
  rw [recVector_get]
  rfl

theorem entryRecs_button (sel : Option Nat) {l : List Button} {i : Fin 24} {y : Button} (at_i : l[i.val]? = some y) :
    (recVector (entryRecs sel 0 l)).get i = y.atStart (if sel = some i.val then .selected else .normal) := by
  rw [recVector_get, List.getD, entryRecs_get sel l 0 i.val y at_i, Nat.zero_add]
  rfl

theorem entryRecs_past (sel : Option Nat) {l : List Button} {i : Fin 24} (past : l[i.val]? = none) :
    (recVector (entryRecs sel 0 l)).get i = { vis := .normal, pair := 0, left := 0, pub := false } := by
  rw [recVector_get, List.getD, List.getElem?_eq_none]
  · rfl
  · rw [entryRecs_length]
    exact List.getElem?_eq_none_iff.mp past

section
variable (v : Vector ButtonRec 24) {l : List Button}

theorem advanceAll_button {i : Fin 24} {y : Button} (at_i : l[i.val]? = some y) :
    (recVector (advanceAll l v.toList).1).get i = (ButtonRec.advance y (v.get i)).1 := by
  rw [recVector_get, List.getD, advanceAll_get l v.toList i.val y (v.get i) at_i (toList_get v i)]
  rfl

theorem advanceAll_other {i : Fin 24} (past : l[i.val]? = none) : (recVector (advanceAll l v.toList).1).get i = v.get i := by
  rw [recVector_get, List.getD, advanceAll_past _ _ _ (List.getElem?_eq_none_iff.mp past), toList_get]
  rfl

/-- An ACTIVATED cycle among the page's buttons has ended (R140). -/
def cycleEnded (l : List Button) (v : Vector ButtonRec 24) : Prop :=
  ∃ (i : Fin 24) (y : Button), l[i.val]? = some y ∧ (ButtonRec.advance y (v.get i)).2 = true

theorem advanceAll_ended : (advanceAll l v.toList).2 = true ↔ cycleEnded l v := by
  rw [advanceAll_end]
  constructor
  · rintro ⟨k, y, r, at_k, record, ends⟩
    have small : k < 24 := by simpa using (List.getElem?_eq_some_iff.mp record).1
    rw [toList_get v ⟨k, small⟩, Option.some.injEq] at record
    exact ⟨⟨k, small⟩, y, at_k, record ▸ ends⟩
  · rintro ⟨i, y, at_i, ends⟩
    exact ⟨i.val, y, v.get i, at_i, toList_get v i, ends⟩

end

/-! ### What the work looks at (R138) -/

/-- Two states in which the navigation unit's work finds the same: the unit, the definitions staged and the pending jump. -/
structure SeenAlike (x y : State) : Prop where
  nav : x.nav = y.nav
  page : ∀ p, x.page p = y.page p
  jump : x.jump = y.jump

/-- The unit and where its work stands are the same. -/
abbrev SameUnit (x y : State) : Prop := x.nav = y.nav ∧ x.work.nav = y.work.nav

section
variable {x y : State}

theorem SeenAlike.withNav (h : SeenAlike x y) (n : Nav) : SeenAlike { x with nav := n } { y with nav := n } :=
  ⟨rfl, h.page, h.jump⟩

theorem SeenAlike.navSlot (h : SeenAlike x y) : x.navSlot = y.navSlot := by rw [State.navSlot, h.nav]; rfl

theorem SeenAlike.navPage (h : SeenAlike x y) : x.navPage = y.navPage := by
  rw [State.navPage, State.navPage, h.navSlot, show x.page = y.page from funext h.page]

theorem SeenAlike.publish (h : SeenAlike x y) : SameUnit x.navPublish y.navPublish := by
  have pages : x.page = y.page := funext h.page
  refine ⟨?_, by rw [navPublish_work, navPublish_work]⟩
  simp only [State.navPublish, State.frozenFor, State.liveView, State.setNavStage, h.nav, h.navSlot, h.navPage, pages]
  repeat' split
  all_goals rfl

theorem SeenAlike.timeout (h : SeenAlike x y) : SameUnit x.navTimeout y.navTimeout := by
  unfold State.navTimeout
  simp only [h.navSlot, h.jump, h.nav]
  split
  · split
    · exact ⟨rfl, rfl⟩
    · exact SeenAlike.publish ⟨rfl, h.page, rfl⟩
  · exact h.publish

theorem SeenAlike.digit (h : SeenAlike x y) : SameUnit x.navDigit y.navDigit := by
  unfold State.navDigit
  rw [h.nav]
  split
  · split
    · exact ⟨rfl, rfl⟩
    · exact (h.withNav _).timeout
  · exact h.timeout

theorem SeenAlike.advance (h : SeenAlike x y) (d : PageDef) : SameUnit (x.navAdvance d) (y.navAdvance d) := by
  unfold State.navAdvance
  simp only [h.nav]
  split
  · exact ⟨rfl, rfl⟩
  · exact (h.withNav _).digit

end

/-! ### The cases of R135 -/

/-- The view is judged: a page that ceases to be the navigation page is frozen as last drawn (R135, R137). -/
def State.viewed (v : FrameView) (s : State) : State :=
  { s with nav := { s.nav with
      judged := some v, frozen := if s.navSlot.isSome ∧ v.navSlot ≠ s.navSlot then s.nav.live else s.nav.frozen } }

section
variable {s : State} {v : FrameView} {p : SlotId} {d : PageDef}

theorem navJudge_leaves (inactive : v.navSlot = none) : s.navJudge v = (s.viewed v).leavePage.navPublish := by
  simp only [State.navJudge, inactive, State.viewed]
  cases before : s.navSlot <;> simp [State.freezePage]

theorem navJudge_unstaged (onSlot : v.navSlot = some p) (page : s.page p = none) :
    s.navJudge v = State.navPublish { s with nav := { s.nav with judged := some v } } := by
  simp only [State.navJudge, onSlot, page]

variable (onSlot : v.navSlot = some p) (page : s.page p = some d)
include onSlot page

theorem navJudge_enters (entry : v.mark = true ∨ s.navSlot ≠ some p) :
    s.navJudge v = ((s.viewed v).enterPage d).navDigit := by
  have made : s.entryMade v p = true := by simpa [State.entryMade] using entry
  simp only [State.navJudge, onSlot, page, made, if_true, State.viewed, ne_comm (a := some p)]
  split <;> rfl

theorem navJudge_continues (stays : ¬ (v.mark = true ∨ s.navSlot ≠ some p)) : s.navJudge v = (s.viewed v).navAdvance d := by
  have made : ¬ s.entryMade v p = true := by simpa [State.entryMade] using stays
  have same : s.navSlot = some p := by_contra fun other => stays (.inr other)
  simp only [State.navJudge, onSlot, page, if_neg made, State.viewed, same, ne_eq, not_true_eq_false, and_false, if_false]

end

/-- Judging a view changes the unit and where its work stands. -/
theorem navJudge_rest (s : State) (v : FrameView) : s.navJudge v = { s with
    nav := (s.navJudge v).nav, work := { s.work with nav := (s.navJudge v).work.nav } } := by
  apply State.eq_of_fields
  case h21 => exact navJudge_work s v
  all_goals simp

theorem navJudge_judged (s : State) (v : FrameView) : (s.navJudge v).nav.judged = some v := by
  cases onSlot : v.navSlot with
  | none => rw [navJudge_leaves onSlot]; simp [State.viewed]
  | some p =>
    cases page : s.page p with
    | none => rw [navJudge_unstaged onSlot page]; simp
    | some d =>
      by_cases entry : v.mark = true ∨ s.navSlot ≠ some p
      · rw [navJudge_enters onSlot page entry]; simp [State.viewed]
      · rw [navJudge_continues onSlot page entry]; simp [State.viewed]

/-- What the unit finds depends on itself, the definitions staged and the pending jump alone. -/
theorem SeenAlike.judge {x y : State} (h : SeenAlike x y) (v : FrameView) : SameUnit (x.navJudge v) (y.navJudge v) := by
  have viewed : SeenAlike (x.viewed v) (y.viewed v) := ⟨by simp only [State.viewed, h.nav, h.navSlot], h.page, h.jump⟩
  have nav := viewed.nav
  cases onSlot : v.navSlot with
  | none =>
    rw [navJudge_leaves onSlot, navJudge_leaves onSlot]
    exact SeenAlike.publish ⟨by simp only [State.leavePage, nav], h.page, h.jump⟩
  | some p =>
    cases page : y.page p with
    | none =>
      rw [navJudge_unstaged onSlot page, navJudge_unstaged onSlot ((h.page p).trans page), h.nav]
      exact (h.withNav _).publish
    | some d =>
      have pageBefore := (h.page p).trans page
      by_cases entry : v.mark = true ∨ y.navSlot ≠ some p
      · rw [navJudge_enters onSlot page entry, navJudge_enters onSlot pageBefore (h.navSlot ▸ entry)]
        exact SeenAlike.digit ⟨by simp only [State.enterPage, nav], h.page, h.jump⟩
      · rw [navJudge_continues onSlot page entry, navJudge_continues onSlot pageBefore (h.navSlot ▸ entry)]
        exact viewed.advance d

/-! ### The unit becomes inactive (R135, R165) -/

/-- Publishing with no navigation page (R137, R138). -/
theorem navPublish_inactive {x : State} {v : FrameView} (judged : x.nav.judged = some v) (inactive : v.navSlot = none) :
    x.navPublish = { x with
      nav := { x.nav with live := none, frozen := x.frozenFor v }, work := { x.work with nav := .idle } } := by
  have none : x.navSlot = none := by simp [State.navSlot, judged, inactive]
  simp only [State.navPublish, judged, none]
  rfl

section
variable {s : State} {v : FrameView}

theorem leaves_spec (inactive : v.navSlot = none) : s.navJudge v = { s with
    nav := { s.nav with
      judged := some v, selected := none, buttons := recVector [], activation := none, digit := none, timeout := 0
      live := none, frozen := (s.viewed v).leavePage.frozenFor v }
    work := { s.work with nav := .idle } } := by
  rw [navJudge_leaves inactive, navPublish_inactive (v := v) rfl inactive]
  rfl

variable {p : SlotId} {d : PageDef} (onSlot : v.navSlot = some p) (page : s.page p = some d)
include onSlot page

/-! ### A page entry (R136, R139, R148, R165) -/

/-- What a page entry leaves for the countdown, and what that leaves. -/
theorem enters_counts (entry : v.mark = true ∨ s.navSlot ≠ some p) :
    CountedDown ((s.viewed v).enterPage d) (s.navJudge v) p d ∧ (s.navJudge v).CountsDown none d.timeout := by
  rw [navJudge_enters onSlot page entry]
  exact navDigit_spec ((s.viewed v).enterPage d) p d onSlot page

omit onSlot page in
theorem entered_buttons : ((s.viewed v).enterPage d).nav.buttons =
    recVector (entryRecs (d.entryChoice s.nav.word) 0 d.buttons) := rfl

theorem enters_spec (entry : v.mark = true ∨ s.navSlot ≠ some p) :
    let t := s.navJudge v
    t.nav.selected = d.entryChoice s.nav.word ∧ t.nav.activation = none ∧ t.nav.digit = none
      ∧ (∀ (i : Fin 24) (y : Button), d.buttons[i.val]? = some y → t.nav.buttons.get i =
          (y.atStart (if t.nav.selected = some i.val then .selected else .normal)).published (decide (t.work.nav = .idle)))
      ∧ ∀ i : Fin 24, d.buttons[i.val]? = none →
          t.nav.buttons.get i = { vis := .normal, pair := 0, left := 0, pub := false } := by
  obtain ⟨counted, digit, -⟩ := enters_counts onSlot page entry
  have nav := counted.nav
  have records := counted.recs
  generalize s.navJudge v = t at *
  have selected : t.nav.selected = d.entryChoice s.nav.word := by rw [nav]; rfl
  refine ⟨selected, by rw [nav]; rfl, digit, fun i y at_i => ?_, fun i past => ?_⟩
  · have record := records i
    rw [at_i] at record
    rw [record, selected, entered_buttons, entryRecs_button _ at_i]
  · have record := records i
    rw [past] at record
    rw [record, entered_buttons, entryRecs_past _ past]

/-! ### The page continues (R140) -/

/-- The page's positions advanced by one frame (R140). -/
def State.stepped (d : PageDef) (s : State) : State :=
  { s with nav := { s.nav with buttons := recVector (advanceAll d.buttons s.nav.buttons.toList).1 } }

omit onSlot page in
theorem stepped_get (d : PageDef) (s : State) (i : Fin 24) : (s.stepped d).nav.buttons.get i =
    match d.buttons[i.val]? with
    | none => s.nav.buttons.get i
    | some y => (ButtonRec.advance y (s.nav.buttons.get i)).1 := by
  split
  · next past => exact advanceAll_other s.nav.buttons past
  · next y at_i => exact advanceAll_button s.nav.buttons at_i

variable (stays : ¬ (v.mark = true ∨ s.navSlot ≠ some p))
include stays

/-- An ACTIVATED cycle that ends is left for ACTIVATION_END. -/
theorem continues_ended (ended : cycleEnded d.buttons s.nav.buttons) :
    s.navJudge v = ((s.viewed v).stepped d).setNavStage .actEnd := by
  rw [navJudge_continues onSlot page stays]
  exact if_pos ((advanceAll_ended s.nav.buttons).mpr ended)

theorem continues_counts (goes : ¬ cycleEnded d.buttons s.nav.buttons) :
    CountedDown ((s.viewed v).stepped d) (s.navJudge v) p d ∧ (s.navJudge v).CountsDown s.nav.digit s.nav.timeout := by
  have counts : s.navJudge v = ((s.viewed v).stepped d).navDigit := by
    rw [navJudge_continues onSlot page stays]
    exact if_neg fun ends => goes ((advanceAll_ended s.nav.buttons).mp ends)
  rw [counts]
  exact navDigit_spec ((s.viewed v).stepped d) p d onSlot page

theorem continues_spec :
    let t := s.navJudge v
    t.nav.selected = s.nav.selected ∧ t.nav.activation = s.nav.activation
      ∧ (∀ (i : Fin 24) (y : Button), d.buttons[i.val]? = some y → t.nav.buttons.get i =
          (ButtonRec.advance y (s.nav.buttons.get i)).1.published (decide (t.work.nav = .idle)))
      ∧ (∀ i : Fin 24, d.buttons[i.val]? = none → t.nav.buttons.get i = s.nav.buttons.get i)
      ∧ (t.work.nav = .actEnd ↔ cycleEnded d.buttons s.nav.buttons)
      ∧ (cycleEnded d.buttons s.nav.buttons → t.nav.digit = s.nav.digit ∧ t.nav.timeout = s.nav.timeout) := by
  by_cases ended : cycleEnded d.buttons s.nav.buttons
  · rw [continues_ended onSlot page stays ended]
    refine ⟨rfl, rfl, fun i y at_i => ?_, fun i past => ?_, ⟨fun _ => ended, fun _ => rfl⟩, fun _ => ⟨rfl, rfl⟩⟩
    · have record := stepped_get d (s.viewed v) i
      rw [at_i] at record
      exact record.trans (ButtonRec.published_false _).symm
    · have record := stepped_get d (s.viewed v) i
      rw [past] at record
      exact record
  · obtain ⟨counted, -⟩ := continues_counts onSlot page stays ended
    have nav := counted.nav
    have records := counted.recs
    have stage := counted.stage
    generalize s.navJudge v = t at *
    refine ⟨by rw [nav]; rfl, by rw [nav]; rfl, fun i y at_i => ?_, fun i past => ?_,
      ⟨fun ends => ?_, fun ends => absurd ends ended⟩, fun ends => absurd ends ended⟩
    · have record := stepped_get d (s.viewed v) i
      have after := records i
      rw [at_i] at record after
      rw [after, record]
      rfl
    · have record := stepped_get d (s.viewed v) i
      have after := records i
      rw [past] at record after
      rw [after, record]
      rfl
    · simp [ends] at stage

end

/-! ### The views published (R137, R138) -/

section
variable {s : State} {v : FrameView}

/-- The work done, the live view is that of the navigation page, and the frozen copy the one R137 asks for. -/
theorem judged_publishes {p : SlotId} {d : PageDef} (onSlot : v.navSlot = some p) (page : s.page p = some d)
    (done : (s.navJudge v).work.nav = .idle) :
    (s.navJudge v).ShowsLive p d ∧ (s.navJudge v).ShowsFrozen v (s.viewed v).nav.frozen := by
  by_cases entry : v.mark = true ∨ s.navSlot ≠ some p
  · obtain ⟨live, frozen⟩ := (enters_counts onSlot page entry).1.pub.1 done
    exact ⟨live, frozen v rfl⟩
  by_cases ended : cycleEnded d.buttons s.nav.buttons
  · rw [continues_ended onSlot page entry ended] at done
    exact NavStage.noConfusion done
  · obtain ⟨live, frozen⟩ := (continues_counts onSlot page entry ended).1.pub.1 done
    exact ⟨live, frozen v rfl⟩

theorem judged_frozen (staged : ∀ p, v.navSlot = some p → (s.page p).isSome = true)
    (done : (s.navJudge v).work.nav = .idle) : (s.navJudge v).ShowsFrozen v (s.viewed v).nav.frozen := by
  cases onSlot : v.navSlot with
  | none =>
    rw [leaves_spec onSlot]
    exact frozenFor_shows (s.viewed v).leavePage _ v rfl rfl rfl
  | some p =>
    obtain ⟨d, page⟩ := Option.isSome_iff_exists.mp (staged p onSlot)
    exact (judged_publishes onSlot page done).2

end

/-! ### The view comes from the menu plane (R135, R138; log 3) -/

/-- The unit, the definitions staged and where the unit's work stands are left alone. -/
structure LeavesUnit (t s : State) : Prop where
  nav : t.nav = s.nav
  page : ∀ p, t.page p = s.page p
  stage : t.work.nav = s.work.nav

theorem LeavesUnit.trans {t u s : State} (h : LeavesUnit t u) (k : LeavesUnit u s) : LeavesUnit t s :=
  ⟨h.nav.trans k.nav, fun p => (h.page p).trans (k.page p), h.stage.trans k.stage⟩

theorem leavesUnit_of_slots {t s : State} (nav : t.nav = s.nav) (slots : t.slots = s.slots)
    (stage : t.work.nav = s.work.nav) : LeavesUnit t s := ⟨nav, page_congr slots, stage⟩

/-- Holds given up leave every definition as it stands (R57). -/
theorem leavesUnit_of_releases {t s : State} {l : List (Option SlotId)} (nav : t.nav = s.nav) (released : s.Releases t l)
    (stage : t.work.nav = s.work.nav) : LeavesUnit t s :=
  ⟨nav, fun p => by rw [State.page, released p, page_withHolds]; rfl, stage⟩

theorem setStage_navStage (s : State) (q : PlaneId) (g : PlaneStage) : (s.setStage q g).work.nav = s.work.nav := by
  cases q <;> rfl

theorem publish_leaves (s : State) (q : PlaneId) : LeavesUnit (s.publish q) s :=
  leavesUnit_of_slots (by simp) (by simp) (by rw [State.publish, setStage_navStage, setPlane_work])

theorem planeOps_leaves (s : State) (q : PlaneId) : LeavesUnit (s.planeOps q) s := by
  unfold State.planeOps
  split
  · exact leavesUnit_of_slots (by simp) (by simp) (setStage_navStage s q _)
  · exact publish_leaves s q

theorem planeAdvance_leaves (s : State) (q : PlaneId) : LeavesUnit (s.planeAdvance q) s := by
  have content : ∀ c, LeavesUnit (s.setContent q c) s := fun c => leavesUnit_of_slots (by simp) (by simp) (by simp)
  unfold State.planeAdvance
  dsimp only
  split
  · exact leavesUnit_of_slots (by simp) (by simp) (by rw [setStage_navStage, (content _).stage])
  · exact (planeOps_leaves _ q).trans (content _)

theorem planeRun_leaves (s : State) (q : PlaneId) : LeavesUnit (s.planeRun q) s := by
  have still : LeavesUnit s s := ⟨rfl, fun _ => rfl, rfl⟩
  unfold State.planeRun State.planeBegin
  split
  · exact still
  split
  · split
    · exact leavesUnit_of_slots rfl rfl rfl
    all_goals exact planeAdvance_leaves s _
  all_goals exact still

theorem viewTaken_leaves (s : State) : LeavesUnit s.viewTaken s := ⟨rfl, fun _ => rfl, rfl⟩

theorem heapRun_leaves (s : State) : LeavesUnit s.heapRun s := by
  unfold State.heapRun
  split
  · exact viewTaken_leaves s
  · exact ⟨rfl, fun _ => rfl, rfl⟩

theorem settle_leaves (s : State) (q : PlaneId) : LeavesUnit (s.settle q) s :=
  leavesUnit_of_releases (by simp) (settle_releases s q) (by simp)

theorem beginHead_leaves (s : State) (q : PlaneId) : LeavesUnit (s.beginHead q) s := by
  cases head : takeHead (s.plane q).schedule with
  | none =>
    simp only [State.beginHead, head]
    exact ⟨rfl, fun _ => rfl, rfl⟩
  | some x => exact leavesUnit_of_releases (by simp) (beginHead_spec head).2.1 (by simp)

theorem applyJump_leaves (s : State) (j : Jump) : LeavesUnit (s.applyJump j) s := by
  cases outcome : s.jumpFailure j with
  | none => exact leavesUnit_of_releases (by simp) (applyJump_applies outcome).2.1 (by simp)
  | some r => exact leavesUnit_of_releases (by simp) (applyJump_fails outcome).2.1 (by simp)

theorem jumpStep_leaves (s : State) : LeavesUnit s.jumpStep s := by
  unfold State.jumpStep
  split
  · exact (planeAdvance_leaves _ _).trans (applyJump_leaves s _)
  · exact planeAdvance_leaves s _

/-- A unit that awaits the menu plane's view judges it as the blocks go on to its publishing. -/
theorem advanceWork_judges {u : State} {v : FrameView} (awaits : u.work.nav = .await)
    (done : u.advanceWork.work.menu = .idle) (view : u.advanceWork.menu.view = some v) :
    SameUnit u.advanceWork (u.navJudge v) := by
  let x := (u.heapRun.planeRun .slide).planeRun .menu
  have came : LeavesUnit x u :=
    ((planeRun_leaves _ .menu).trans (planeRun_leaves _ .slide)).trans (heapRun_leaves u)
  have noted : LeavesUnit x.noteViews u :=
    LeavesUnit.trans (leavesUnit_of_slots (by simp) (by simp) (by simp)) came
  have alike : SeenAlike x.noteViews u := ⟨noted.nav, noted.page, by simp [x]⟩
  have split : u.advanceWork = x.noteViews.navRunIf.compRunIf := rfl
  rw [split] at done view ⊢
  generalize x.noteViews = w at *
  obtain ⟨⟨-, menuWork, -, menu⟩, stage⟩ := compRunIf_stages w.navRunIf
  obtain ⟨-, menuWorkBefore, -, menuBefore⟩ := navRunIf_stages w
  rw [menuWork, menuWorkBefore] at done
  rw [menu, menuBefore] at view
  have judges : w.navRunIf = w.navJudge v := by
    simp only [State.navRunIf, noted.stage, awaits, done, State.navRun, view]
  have nav : w.navRunIf.compRunIf.nav = w.navRunIf.nav := by simp
  rw [SameUnit, nav, stage, judges]
  exact alike.judge v

/-- A command that leads to the menu plane's publishing leads to the unit's judging of that view. -/
def State.JudgesView (s : State) (c : Instr) : Prop :=
  ∃ t, exec c s = .next t ∧ ∀ v, t.work.menu = .idle → t.menu.view = some v →
    SameUnit t (State.navJudge v { s with jump := t.jump })

section
variable {s u : State} {c : Instr}

theorem judgesView_of_advance (execution : exec c s = .next u.advanceWork) (awaits : u.work.nav = .await)
    (nav : u.nav = s.nav) (page : ∀ p, u.page p = s.page p) : s.JudgesView c := by
  refine ⟨_, execution, fun v done view => ?_⟩
  obtain ⟨unit, stage⟩ := advanceWork_judges awaits done view
  have alike : SeenAlike u { s with jump := u.advanceWork.jump } := ⟨nav, page, by simp⟩
  obtain ⟨same, sameStage⟩ := alike.judge v
  exact ⟨unit.trans same, stage.trans sameStage⟩

theorem judgesView_of_leaves (awaits : s.work.nav = .await) (leaves : LeavesUnit u s)
    (execution : exec c s = .next u.advanceWork) : s.JudgesView c :=
  judgesView_of_advance execution (leaves.stage.trans awaits) leaves.nav leaves.page

/-- A command whose step is not the menu plane's next changes nothing, and the view is not published (log 2). -/
theorem judgesView_of_still (busy : s.work.menu ≠ .idle) (execution : exec c s = .next s) : s.JudgesView c :=
  ⟨s, execution, fun _ done => absurd done busy⟩

theorem frameStart_judges {n : Nat} (accepts : s.AcceptsFrame n) : s.JudgesView (.frameStart n) := by
  obtain ⟨-, -, -, -, -, -, slots, -, nav, -, -⟩ := frameOpened_rest (s.passTicks n)
  refine judgesView_of_advance (u := (s.passTicks n).frameOpened) (frameStart_accepts s n accepts) rfl ?_
    (page_congr ?_)
  · simpa using nav
  · simpa using slots

variable (awaits : s.work.nav = .await) (busy : s.work.menu ≠ .idle)
include awaits busy

theorem offsetSwitch_judges : s.JudgesView .offsetSwitch := by
  by_cases due : s.work.heap = true ∧ s.compactor.phase = .switchPending
  · have leaves : LeavesUnit s.applySwitch.viewTaken s :=
      (viewTaken_leaves _).trans (leavesUnit_of_slots (by simp) (by simp) (by simp))
    exact judgesView_of_leaves awaits leaves (congrArg Host.Outcome.next (switchStep_eq due.1 due.2))
  · exact judgesView_of_still busy (congrArg Host.Outcome.next (if_neg due))

theorem transitionEnd_judges : s.JudgesView (.transitionEnd .menu) := by
  by_cases due : s.stage .menu = .transEnd
  · exact judgesView_of_leaves awaits ((planeOps_leaves _ _).trans (settle_leaves s _))
      (congrArg Host.Outcome.next (transStep_eq due))
  · refine judgesView_of_still busy (congrArg Host.Outcome.next ?_)
    unfold State.transStep
    split
    · next stage => exact absurd stage due
    all_goals rfl

theorem operationBegin_judges : s.JudgesView (.operationBegin .menu) := by
  by_cases due : s.stage .menu = .ops
  · by_cases begins : s.headBegins .menu = true
    · exact judgesView_of_leaves awaits ((planeOps_leaves _ _).trans (beginHead_leaves s _))
        (congrArg Host.Outcome.next (opStep_begins due begins))
    · exact judgesView_of_leaves awaits (publish_leaves s _) (congrArg Host.Outcome.next (opStep_publishes due begins))
  · refine judgesView_of_still busy (congrArg Host.Outcome.next ?_)
    unfold State.opStep
    split
    · next stage => exact absurd stage due
    all_goals rfl

theorem jumpApply_judges : s.JudgesView .jumpApply := by
  by_cases due : s.work.menu = .jump
  · refine judgesView_of_leaves awaits (jumpStep_leaves s) ?_
    simp only [exec, execJumpApply, State.jumpApplyStep, due]
  · refine judgesView_of_still busy (congrArg Host.Outcome.next ?_)
    unfold State.jumpApplyStep
    split
    · next stage => exact absurd stage due
    all_goals rfl

end

/-! ### The statement (O42) -/

theorem command_judges {s : State} {c : Instr} {n : Nat} (h : (c = .frameStart n ∧ s.AcceptsFrame n)
    ∨ (s.work.nav = .await ∧ s.work.menu ≠ .idle
      ∧ (c = .offsetSwitch ∨ c = .transitionEnd .menu ∨ c = .operationBegin .menu ∨ c = .jumpApply))) : s.JudgesView c := by
  rcases h with ⟨rfl, accepts⟩ | ⟨awaits, busy, rfl | rfl | rfl | rfl⟩
  · exact frameStart_judges accepts
  · exact offsetSwitch_judges awaits busy
  · exact transitionEnd_judges awaits busy
  · exact operationBegin_judges awaits busy
  · exact jumpApply_judges awaits busy

/-- Settles O42: the buttons found, the view judged when the menu plane has published it, and what each case of R135 leaves. -/
theorem entryChoiceAndSearchFindVisibleButtons : Obligations.EntryChoiceAndSearchFindVisibleButtons := by
  refine ⟨fun d w => ⟨fun i => entryChoice_default, fun i => entryChoice_visible, entryChoice_none, fun hidden i chosen => ?_,
      fun i => ?_⟩,
    fun d w dir start n l t => searchLinks_iff d w dir start t n l,
    ⟨rfl, rfl, rfl, rfl, fun c => dirLink_other⟩,
    fun s c n => command_judges,
    fun s v => ⟨navJudge_rest s v, navJudge_judged s v, by simp, by simp, fun inactive => ?_,
      fun p d onSlot page => ⟨fun entry => ?_, fun stays => ?_, fun counting => ?_, fun i past => ?_,
        fun done => (judged_publishes onSlot page done).1⟩⟩,
    fun s v => judged_frozen,
    ⟨fun _ _ => rfl, fun _ => ⟨rfl, rfl, rfl⟩, fun c => ⟨livePairs_held c, livePairs_rest c⟩⟩,
    fun y r => ⟨advance_still, fun published plays => ⟨advance_holds published plays, fun x => advance_next published plays,
      fun x => advance_wraps published plays, advance_ends published plays⟩⟩⟩
  · rw [entryChoice_other hidden] at chosen
    exact (firstVisible_iff.mp chosen).2
  · rw [visible_iff]
    simp [Button.visible]
  · rw [leaves_spec inactive]
    exact ⟨rfl, rfl, rfl, rfl, rfl, rfl, recVector_nil⟩
  · obtain ⟨selected, active, digit, records, -⟩ := enters_spec onSlot page entry
    exact ⟨selected, active, digit, records⟩
  · obtain ⟨selected, active, records, -, ends, kept⟩ := continues_spec onSlot page stays
    exact ⟨selected, active, records, ends, kept⟩
  · by_cases entry : v.mark = true ∨ s.navSlot ≠ some p
    · rw [if_pos entry, if_pos entry]
      exact (enters_counts onSlot page entry).2
    · rw [if_neg entry, if_neg entry]
      exact (continues_counts onSlot page entry (counting.resolve_left entry)).2
  · by_cases entry : v.mark = true ∨ s.navSlot ≠ some p
    · obtain ⟨-, -, -, -, other⟩ := enters_spec onSlot page entry
      exact (other i past).trans (if_pos entry).symm
    · obtain ⟨-, -, -, other, -⟩ := continues_spec onSlot page entry
      exact (other i past).trans (if_neg entry).symm

end Sys2Proof.Machine

/-! ## Items from tasks, and items that an inactive unit takes (O43): R155 to R157, R164 -/

namespace Sys2Proof.Machine

/-! ### Items that join the queue (R155) -/

/-- SELECT BUTTON and INJECT KEY each give the queue one item. -/
theorem exec_joinItem {s : State} {task : Task} {select : Bool} (hand : s.inHand (if select then 11 else 12) = some task) :
    exec (if select then .selectButton else .injectKey) s =
      .next (s.joinItem (if select then .select (task.p8 16) (task.pbit 17 0) task.ref
        else .key (BitVec.ofNat 8 (task.p8 16)) (some task.ref))) := by
  cases select with
  | true => exact exec_selectButton hand
  | false => exact exec_injectKey hand

theorem joinItem_of_full {s : State} (i : KeyItem) (full : Config.maxKeys ≤ s.nav.queue.length) : s.joinItem i = s.stall :=
  if_neg (Nat.not_lt.mpr full)

/-- An item that joins changes the queue, and then only the walker goes on. -/
theorem joinItem_eq_of_room {s : State} (i : KeyItem) (room : s.nav.queue.length < Config.maxKeys) :
    s.joinItem i = { s with
      nav := { s.nav with queue := s.nav.queue ++ [i] }
      walker := (s.joinItem i).walker
      port := { s.port with walkerQ := (s.joinItem i).port.walkerQ } } := by
  rw [State.joinItem, if_pos room, dealt_eq]

/-! ### Items taken (R156, R157, R164) -/

/-- While an activation runs, a jump pends or frame-start work is outstanding, the items wait (R156, log 3). -/
theorem exec_takeItem_waits {s : State} (busy : s.nav.activation ≠ none ∨ s.jump ≠ none ∨ s.work.nav ≠ .idle) :
    exec .takeItem s = .next s := by
  have held : ¬ s.mayTake = true := fun free => by
    obtain ⟨active, jump, stage⟩ := (mayTake_iff s).mp free
    exact busy.elim (· active) (·.elim (· jump) (· stage))
  simp only [exec, execTakeItem, State.takeItem]
  split
  · rfl
  · rw [if_neg held]

section
variable {s : State} (inactive : s.navSlot = none)
include inactive

theorem handleItem_key_inactive (c : Byte) (src : Option TaskRef) :
    s.handleItem (.key c src) = s.passed { code := c, task := src } := by
  simp only [State.handleItem, State.handleKey, inactive]

theorem handleItem_select_inactive (b : Nat) (act : Bool) (r : TaskRef) :
    s.handleItem (.select b act r) = s.retire r .notSelectable 0 [] := by
  simp only [State.handleItem, State.handleSelect, inactive]

/-- An inactive unit takes an item by a notice or a retirement alone. -/
theorem handleItem_inactive_frame (i : KeyItem) :
    let t := s.handleItem i
    t.nav = s.nav ∧ t = { s with
      nav := t.nav, attention := t.attention, notices := t.notices, stats := t.stats
      walker := { s.walker with retiring := t.walker.retiring }
      port := { s.port with walkerQ := t.port.walkerQ } } := by
  cases i with
  | key c src =>
    rw [handleItem_key_inactive inactive, passed_eq]
    exact ⟨rfl, rfl⟩
  | select b act r =>
    rw [handleItem_select_inactive inactive, retire_eq]
    exact ⟨rfl, rfl⟩

end

/-- Settles O43: the task's item joins or stalls by the room in the queue, and the head item waits, or is passed or retired. -/
theorem itemsJoinTheQueueAndAreTaken : Obligations.ItemsJoinTheQueueAndAreTaken := by
  refine ⟨fun s task select hand => ⟨_, exec_joinItem hand, fun full => ?_, fun room => ?_⟩,
    fun s i rest queue => ⟨exec_takeItem_waits, fun active jump stage digit inactive => ?_⟩⟩
  · rw [joinItem_of_full _ full]
    exact stall_stalls s
  · have changed := joinItem_eq_of_room (if select then KeyItem.select (task.p8 16) (task.pbit 17 0) task.ref
      else .key (BitVec.ofNat 8 (task.p8 16)) (some task.ref)) room
    have nav := congrArg State.nav changed
    refine ⟨(joinItem_of_room _ room).1, nav, ?_⟩
    rw [nav]
    exact changed
  · have free := (mayTake_iff s).mpr ⟨active, jump, stage⟩
    obtain ⟨nav, frame⟩ := handleItem_inactive_frame (s := s.popItem rest) inactive i
    refine ⟨_, exec_takeItem queue free digit, nav, frame, ?_, ?_, ?_, ?_⟩
    · rintro c src rfl room
      rw [handleItem_key_inactive (s := s.popItem rest) inactive]
      obtain ⟨-, -, -, notice, -⟩ := key_passes s _ rest c src queue
      rw [notice room, inactive]
    · rintro c r rfl
      rw [handleItem_key_inactive (s := s.popItem rest) inactive, passed_eq]
      rfl
    · rintro c rfl
      rw [handleItem_key_inactive (s := s.popItem rest) inactive, passed_eq]
      simp [State.popItem]
    · rintro b act r rfl
      rw [handleItem_select_inactive (s := s.popItem rest) inactive, retire_retiring]
      rfl

end Sys2Proof.Machine

/-! ## Faults of the walker (O55, O57, O58): R181, R184 -/

namespace Sys2Proof.Machine

/-! ### A fault's capture, flag and notice -/

theorem submit_walkerFault (s : State) (b : NoticeBody) : (s.submit b).attention.walkerFault = s.attention.walkerFault := by
  unfold State.submit
  split <;> rfl

/-- A fault changes the capture, the notices, the flags and the counters alone. -/
theorem walkerFault_eq (s : State) (c : Capture) : s.walkerFault c = { s with
    walker := { s.walker with capture := some c }
    attention := (s.walkerFault c).attention, notices := (s.walkerFault c).notices, stats := (s.walkerFault c).stats } := by
  simp only [State.walkerFault]
  rw [submit_eq]

/-- A fault with room in the queue submits its notice (R188). -/
theorem walkerFault_queue (s : State) (c : Capture) (room : s.notices.queue.length < 8) : (s.walkerFault c).notices.queue =
    s.notices.queue ++ [{ body := .walkerFault c, stamp := s.timer.stamp }] :=
  submit_queue { s with walker := { s.walker with capture := some c } } (.walkerFault c) room

/-- The walker FAULTED, before its fault is reported (R184). -/
def State.faulted (s : State) : State := { s with walker := { s.walker with
  st := .faulted, task := none, job := .judge, asked := false, reread := .none } }

theorem readFault_eq (s : State) (addr : Word) (holder : Option Word) :
    s.readFault addr holder = s.faulted.walkerFault { addr := addr, holder := holder, write := false } := rfl

/-- A read fault leaves the walker FAULTED with nothing in hand, and reports its capture (R184). -/
theorem readFault_faults (s : State) (addr : Word) (holder : Option Word) :
    let t := s.readFault addr holder
    let c : Capture := { addr := addr, holder := holder, write := false }
    t = { s with walker := t.walker, attention := t.attention, notices := t.notices, stats := t.stats }
      ∧ t.walker = { s.walker with
          st := .faulted, task := none, job := .judge, asked := false, reread := .none, capture := some c }
      ∧ t.attention.walkerFault = true
      ∧ (s.notices.queue.length < 8 →
          t.notices.queue = s.notices.queue ++ [{ body := .walkerFault c, stamp := s.timer.stamp }]) := by
  dsimp only
  rw [readFault_eq]
  refine ⟨?_, ?_, rfl, walkerFault_queue s.faulted _⟩
  all_goals
    rw [walkerFault_eq]
    rfl

/-- The same, field by field of the walker: it stays at the record, and its retirements go on (R184). -/
theorem readFault_leaves (s : State) (addr : Word) (holder : Option Word) :
    let t := s.readFault addr holder
    let c : Capture := { addr := addr, holder := holder, write := false }
    t = { s with walker := t.walker, attention := t.attention, notices := t.notices, stats := t.stats }
      ∧ t.walker.st = .faulted ∧ t.walker.task = none ∧ t.walker.cur = s.walker.cur ∧ t.walker.capture = some c
      ∧ t.attention.walkerFault = true ∧ t.walker.retiring = s.walker.retiring
      ∧ (s.notices.queue.length < 8 →
          t.notices.queue = s.notices.queue ++ [{ body := .walkerFault c, stamp := s.timer.stamp }]) := by
  obtain ⟨frame, walker, flag, notice⟩ := readFault_faults s addr holder
  refine ⟨frame, ?_, ?_, ?_, ?_, flag, ?_, notice⟩
  all_goals rw [walker]

end Sys2Proof.Machine

/-! ## The record's read (O55): R169, R172, R184, R186 -/

namespace Sys2Proof.Machine

/-- The walker takes a task to judge it (R169). -/
def State.takes (task : Task) (s : State) : State :=
  { s with walker := { s.walker with st := .working, asked := false, task := some task, job := .judge } }

theorem knownKind_iff (k : Nat) : knownKind k = true ↔ 1 ≤ k ∧ k ≤ 14 := decide_eq_true_iff

/-- What the record's read brings: a fault, a task to judge, or one of an unknown kind that ends at once. -/
theorem recordCame_eq {s : State} {a : Word} (reading : s.walker.st = .reading) (here : s.walker.cur = some a) (err : Bool)
    (f : Flight) : s.recordCame err f =
      if f.failed err then s.readFault a s.walker.holder
      else if knownKind (byteAt f.data 4).toNat then s.takes (taskOf a f.data)
      else (s.takes (taskOf a f.data)).endTask .badKind 0 [] := by
  simp only [State.recordCame, State.takes, reading, here]
  rfl

theorem exec_recordReadComplete {s : State} {f : Flight} (landing : s.LandingRead f .record) (err : Bool) :
    exec (.recordReadComplete err) s = .next (s.landed.recordCame err f) :=
  congrArg _ (landingRead_complete landing (fun u => decide (u = .record)) (decide_eq_true rfl) err _)

/-- Settles O55: the record's read by its response, then by the kind it brings. -/
theorem recordReadTakesTheTask : Obligations.RecordReadTakesTheTask := by
  intro s err f a landing reading here
  refine ⟨_, exec_recordReadComplete landing err, ?_⟩
  rw [recordCame_eq (s := s.landed) reading here]
  refine ⟨fun ok low high => ?_, fun ok unknown => ?_, fun bad => ?_⟩
  · rw [if_neg (by simp [failed_false ok]), if_pos ((knownKind_iff _).2 ⟨low, high⟩)]
    rfl
  · rw [if_neg (by simp [failed_false ok]), if_neg (by rw [knownKind_iff]; omega)]
    exact ⟨endTask_ends (s.landed.takes (taskOf a f.data)) .badKind 0 [] _ rfl,
      endTask_onlyWalker (s.landed.takes (taskOf a f.data)) .badKind 0 []⟩
  · rw [if_pos (failed_true bad)]
    obtain ⟨frame, st, task, cur, rest⟩ := readFault_leaves s.landed a s.landed.walker.holder
    exact ⟨frame, st, task, cur.trans here, rest⟩

end Sys2Proof.Machine

/-! ## Links and Chain Poke (O57): R175, R176, R177, R184, R185, R186, R190 -/

namespace Sys2Proof.Machine

section
variable {s : State}

/-! ### A link of 0 (R175, R176, R186) -/

theorem park_of_halting (halting : s.run.state = .halting) :
    s.park = { s with walker := { s.walker with st := .halted .parked, reread := .none } } := by
  simp only [State.park, halting]

theorem park_of_not_halting (working : s.run.state ≠ .halting) : s.park = s.parkAgain := by
  unfold State.park
  split
  · next halting => exact absurd halting working
  all_goals rfl

/-- No prompt has come since the grant: the walker stays PARKED (R176). -/
theorem parkAgain_of_unprompted (unprompted : s.walker.reread ≠ .granted true) :
    s.parkAgain = { s with walker := { s.walker with st := .parked, reread := .none } } := by
  cases reread : s.walker.reread with
  | granted again =>
    cases again with
    | true => exact absurd reread unprompted
    | false => simp [State.parkAgain, reread]
  | none => simp [State.parkAgain, reread]
  | asked => simp [State.parkAgain, reread]

/-- A prompt that came after the grant brings one more re-read (R176). -/
theorem parkAgain_of_prompted (prompted : s.walker.reread = .granted true) :
    s.parkAgain = State.askLink { s with walker := { s.walker with st := .parked, reread := .asked } } := by
  simp only [State.parkAgain, prompted, if_true]
  exact promptWalker_asks (s := { s with walker := { s.walker with st := .parked, reread := .none } }) rfl rfl

/-! ### A record to follow (R175, R178, R185, R186) -/

/-- The walker at its next record: the read is asked for unless a retirement is outstanding (R178). -/
theorem toReading_eq (s : State) (a : Word) (holder : Option Word) : s.toReading a holder = { s with
    walker := { s.walker with
      st := .reading, cur := some a, holder := holder, asked := decide (s.walker.retiring = []), task := none, job := .judge }
    port := { s.port with walkerQ := s.port.walkerQ
      ++ if s.walker.retiring = [] then [{ user := .record, block := a.toNat, sel := none }] else [] } } := by
  by_cases free : s.walker.retiring = []
  · rw [toReading_asks free, if_pos free, decide_eq_true free]
    rfl
  · rw [toReading_waits free, if_neg free, decide_eq_false free, List.append_nil]

theorem followLink_of_halting (halting : s.run.state = .halting) (l : Word) : s.followLink l = { s with
    walker := { s.walker with
      st := .halted .record, cur := some l, holder := s.walker.cur, asked := false, task := none, job := .judge
      reread := .none } } := by
  simp only [State.followLink, halting]

theorem followLink_of_not_halting (working : s.run.state ≠ .halting) (l : Word) :
    s.followLink l = State.toReading l s.walker.cur { s with walker := { s.walker with reread := .none } } := by
  unfold State.followLink
  dsimp only
  split
  · next halting => exact absurd halting working
  all_goals rfl

/-- A restart takes the walker to the record, or to that boundary in a halt, with an empty capture and no link holder (R185). -/
theorem restartWalker_restarts (s : State) (a : Word) :
    let t := s.restartWalker a
    s.OnlyWalker t ∧ t.walker.cur = some a ∧ t.walker.capture = none ∧ t.walker.holder = none
      ∧ t.walker.retiring = s.walker.retiring
      ∧ (s.run.state = .running → t.walker.st = .reading)
      ∧ (s.run.state = .halting ∨ s.run.state = .halted → t.walker.st = .halted .record) := by
  dsimp only [State.restartWalker]
  split
  case h_1 state | h_2 state =>
    exact ⟨rfl, rfl, rfl, rfl, rfl, fun running => absurd (state.symm.trans running) nofun, fun _ => rfl⟩
  case h_3 state | h_4 state | h_5 state =>
    rw [toReading_eq]
    refine ⟨rfl, rfl, rfl, rfl, rfl, fun _ => rfl, ?_⟩
    rw [state]
    exact (·.elim nofun nofun)

/-! ### The link's read -/

theorem judgeLink_zero {data : List Byte} (zero : word32 data 0 = 0) : s.judgeLink false data = s.park := by
  simp [State.judgeLink, zero]

theorem recordOk_ne_zero {l : Word} (valid : s.recordOk l = true) : l ≠ 0 := by
  rintro rfl
  unfold State.recordOk at valid
  cases fixed : s.run.fixed <;> simp [fixed, Fixed.recordOk] at valid

theorem judgeLink_valid {data : List Byte} (valid : s.recordOk (word32 data 0) = true) :
    s.judgeLink false data = s.followLink (word32 data 0) := by
  simp only [State.judgeLink, Bool.false_eq_true, recordOk_ne_zero valid, valid, if_true, if_false]

section
variable {a : Word} (here : s.walker.cur = some a) {data : List Byte}
include here

theorem judgeLink_failed : s.judgeLink true data = s.readFault a (some a) := by
  simp only [State.judgeLink, here, if_true, Option.getD_some]

theorem judgeLink_bad (other : word32 data 0 ≠ 0) (bad : s.recordOk (word32 data 0) = false) :
    s.judgeLink false data = s.readFault (word32 data 0) (some a) := by
  simp only [State.judgeLink, Bool.false_eq_true, other, bad, here, if_false]

end

/-- The link read of a LINKING walker and the re-read of a PARKED one are judged alike. -/
theorem exec_linkReadComplete {f : Flight} (landing : s.LandingRead f .link)
    (wanted : s.walker.st = .linking ∨ s.walker.st = .parked) (err : Bool) :
    exec (.linkReadComplete err) s = .next (s.landed.judgeLink (f.failed err) f.data) := by
  have lands := landingRead_complete landing (fun u => decide (u = .link)) (decide_eq_true rfl) err
  rcases wanted with st | st <;>
    simp only [exec, execLinkReadComplete, lands, State.linkCame, landed_fields, st]

/-! ### Chain Poke (R177, R185, R190) -/

theorem pokeWalker_parked (parked : s.walker.st = .parked) (v : Word) : s.pokeWalker v = s.promptWalker := by
  simp only [State.pokeWalker, parked]

theorem pokeWalker_restarts (faulted : s.walker.st = .faulted) {v : Word} (ok : s.recordOk v = true) :
    s.pokeWalker v = s.restartWalker v := by
  simp only [State.pokeWalker, faulted, ok, if_true]

theorem pokeWalker_ignored (faulted : s.walker.st = .faulted) {v : Word} (bad : s.recordOk v = false) : s.pokeWalker v = s := by
  simp [State.pokeWalker, faulted, bad]

theorem pokeWalker_other (parked : s.walker.st ≠ .parked) (faulted : s.walker.st ≠ .faulted) (v : Word) : s.pokeWalker v = s := by
  unfold State.pokeWalker
  split
  · next st => exact absurd st parked
  · next st => exact absurd st faulted
  all_goals rfl

theorem pokeWalker_onlyWalker (s : State) (v : Word) : s.OnlyWalker (s.pokeWalker v) := by
  refine State.eq_of_fields ?_ ?_ ?_ ?_ ?_ ?_ ?_ ?_ ?_ ?_ ?_ ?_ ?_ ?_ ?_ (Port.eq_of_fields ?_ ?_ ?_ rfl ?_ ?_ ?_) ?_ ?_ ?_ rfl ?_ ?_
  all_goals simp

theorem exec_chainPoke (released : s.run.pinHeld = false) (v : Word) :
    exec (.chainPoke v) s = .next (s.pokeWalker v).promptAnchor := by
  simp [exec, execChainPoke, State.poke, released]

theorem promptAnchor_away (away : ∀ a, s.notices.cursor ≠ .anchor a) : s.promptAnchor = s := by
  unfold State.promptAnchor
  split
  · next a anchor => exact absurd anchor (away a)
  all_goals rfl

theorem exec_chainPoke_away (released : s.run.pinHeld = false) (away : ∀ a, s.notices.cursor ≠ .anchor a) (v : Word) :
    exec (.chainPoke v) s = .next (s.pokeWalker v) := by
  rw [exec_chainPoke released, promptAnchor_away]
  rw [pokeWalker_onlyWalker s v]
  exact away

/-- What a prompt at the anchor asks for (R190). -/
theorem asksPrompted_anchor (r : Reread) (a : Word) : (Cursor.anchor a).asksPrompted r =
    if r = .none then [{ user := .noticeLink, block := a.toNat, sel := none }] else [] := by
  cases r <;> rfl

/-- At its anchor the notice writer is prompted after the walker (R190, log 21). -/
theorem exec_chainPoke_anchor (released : s.run.pinHeld = false) {a : Word} (anchor : s.notices.cursor = .anchor a) (v : Word) :
    exec (.chainPoke v) s = .next { s with
      notices := { s.notices with reread := s.notices.reread.prompted }
      walker := (s.pokeWalker v).walker
      port := { s.port with walkerQ := (s.pokeWalker v).port.walkerQ
        ++ if s.notices.reread = .none then [{ user := .noticeLink, block := a.toNat, sel := none }] else [] } } := by
  rw [exec_chainPoke released, promptAnchor_eq, pokeWalker_onlyWalker s v]
  simp only [anchor, asksPrompted_anchor, Cursor.rereadPrompted]

end

/-- Settles O57: the link's read by its response and what it holds, then Chain Poke by the walker's state. -/
theorem linksAndPokesMoveTheWalker : Obligations.LinksAndPokesMoveTheWalker := by
  refine ⟨fun s err f a landing linking here fresh running => ?_, fun s v released away => ?_,
    fun s err f a landing wanted here => ?_, fun s v a released anchor => ?_⟩
  · have working : s.landed.run.state ≠ .halting := fun halting => nomatch running.symm.trans halting
    refine ⟨_, exec_linkReadComplete landing (.inl linking) err, fun ok zero => ?_, fun ok valid => ?_, fun ok other bad => ?_,
      fun bad => ?_⟩
    · have unprompted : s.landed.walker.reread ≠ .granted true := fun prompted => nomatch fresh.symm.trans prompted
      rw [failed_false ok, judgeLink_zero zero, park_of_not_halting working, parkAgain_of_unprompted unprompted, ← fresh]
      rfl
    · rw [failed_false ok, judgeLink_valid (s := s.landed) valid, followLink_of_not_halting working, toReading_eq]
      exact ⟨rfl, rfl, here, rfl, fun free => congrArg _ (if_pos free)⟩
    · rw [failed_false ok, judgeLink_bad (s := s.landed) here other bad]
      obtain ⟨frame, st, -, cur, capture, flag, -, notice⟩ := readFault_leaves s.landed (word32 f.data 0) (some a)
      exact ⟨frame, st, cur.trans here, capture, flag, notice⟩
    · rw [failed_true bad, judgeLink_failed (s := s.landed) here]
      obtain ⟨frame, st, -, cur, capture, flag, -, notice⟩ := readFault_leaves s.landed a (some a)
      exact ⟨frame, st, cur.trans here, capture, flag, notice⟩
  · refine ⟨_, exec_chainPoke_away released away v, fun parked faulted => ?_, fun faulted bad => ?_, fun faulted valid => ?_,
      fun parked fresh => ?_, fun parked asked => ?_, fun again parked granted => ?_⟩
    · exact pokeWalker_other parked faulted v
    · exact pokeWalker_ignored faulted bad
    · rw [pokeWalker_restarts faulted valid]
      exact restartWalker_restarts s v
    · rw [pokeWalker_parked parked, promptWalker_asks parked fresh]
      exact ⟨rfl, rfl⟩
    · rw [pokeWalker_parked parked, promptWalker_asked parked asked]
    · rw [pokeWalker_parked parked, promptWalker_granted parked granted]
  · refine ⟨_, exec_linkReadComplete landing wanted err, fun ok zero halting => ?_, fun ok zero working unprompted => ?_,
      fun ok zero working prompted => ?_, fun ok valid halting => ?_, fun ok valid working => ?_, fun ok other bad => ?_,
      fun bad => ?_⟩
    · rw [failed_false ok, judgeLink_zero zero, park_of_halting (s := s.landed) halting]
      rfl
    · rw [failed_false ok, judgeLink_zero zero, park_of_not_halting (s := s.landed) working,
        parkAgain_of_unprompted (s := s.landed) unprompted]
      rfl
    · rw [failed_false ok, judgeLink_zero zero, park_of_not_halting (s := s.landed) working,
        parkAgain_of_prompted (s := s.landed) prompted]
      simp only [State.askLink, landed_fields, here]
      rfl
    · rw [failed_false ok, judgeLink_valid (s := s.landed) valid, followLink_of_halting (s := s.landed) halting, ← here]
      rfl
    · rw [failed_false ok, judgeLink_valid (s := s.landed) valid, followLink_of_not_halting (s := s.landed) working, toReading_eq]
      exact ⟨rfl, rfl, rfl, here, rfl, rfl, rfl, fun free => congrArg _ (if_pos free)⟩
    · rw [failed_false ok, judgeLink_bad (s := s.landed) here other bad]
      exact readFault_faults s.landed (word32 f.data 0) (some a)
    · rw [failed_true bad, judgeLink_failed (s := s.landed) here]
      exact readFault_faults s.landed a (some a)
  · refine ⟨_, exec_chainPoke_anchor released anchor v, rfl, fun fresh => ?_, fun again granted => ?_,
      fun parked faulted => ?_, fun faulted bad => ?_, fun faulted valid => ?_, fun parked fresh => ?_, fun parked asked => ?_,
      fun again parked granted => ?_⟩
    · rcases fresh with reread | reread <;> rw [reread] <;> rfl
    · rw [granted]
      rfl
    · rw [pokeWalker_other parked faulted]
      exact ⟨rfl, rfl⟩
    · rw [pokeWalker_ignored faulted bad]
      exact ⟨rfl, rfl⟩
    · obtain ⟨-, cur, capture, -⟩ := restartWalker_restarts s v
      rw [pokeWalker_restarts faulted valid]
      exact ⟨cur, capture⟩
    · rw [pokeWalker_parked parked, promptWalker_asks parked fresh]
      exact ⟨rfl, rfl⟩
    · rw [pokeWalker_parked parked, promptWalker_asked parked asked]
      exact ⟨rfl, rfl⟩
    · rw [pokeWalker_parked parked, promptWalker_granted parked granted]
      exact ⟨rfl, rfl⟩

end Sys2Proof.Machine

/-! ## Retirement writes (O58): R178, R179, R180, R181, R202 -/

namespace Sys2Proof.Machine

section
variable {s : State}

/-! ### A retirement joins the list (R178, R179) -/

theorem retire_of_empty (empty : s.walker.retiring = []) (task : TaskRef) (o : TaskOutcome) (k : Nat) (res : List (Nat × Byte)) :
    s.retire task o k res = { s with
      walker := { s.walker with retiring := [s.retirement task o (BitVec.ofNat 8 k) res] }
      port := { s.port with walkerQ := s.port.walkerQ ++ [(s.retirement task o (BitVec.ofNat 8 k) res).burst] } } := by
  rw [retire_eq, retire_walkerQ, State.asksAtRetire, if_pos empty, empty, List.nil_append]

theorem retire_of_waiting (waiting : s.walker.retiring ≠ []) (task : TaskRef) (o : TaskOutcome) (k : Nat)
    (res : List (Nat × Byte)) : s.retire task o k res = { s with
      walker := { s.walker with retiring := s.walker.retiring ++ [s.retirement task o (BitVec.ofNat 8 k) res] } } := by
  rw [retire_eq, retire_walkerQ, State.asksAtRetire, if_neg waiting, List.append_nil]

/-! ### Write faults (R181) -/

/-- The capture of a write fault: the record's address and no link holder. -/
def Retirement.capture (r : Retirement) : Capture := { addr := r.task.addr, holder := none, write := true }

theorem writeFault_eq (s : State) (r : Retirement) : s.writeFault r = { s with
    walker := { s.walker with capture := some r.capture }
    attention := (s.writeFault r).attention, notices := (s.writeFault r).notices, stats := (s.writeFault r).stats } :=
  walkerFault_eq s r.capture

theorem writeFault_queue (room : s.notices.queue.length < 8) (r : Retirement) : (s.writeFault r).notices.queue =
    s.notices.queue ++ [{ body := .walkerFault r.capture, stamp := s.timer.stamp }] :=
  walkerFault_queue s r.capture room

/-! ### The results burst (R179, R181) -/

section
variable {f : Flight} {r : Retirement} {err : Bool}

theorem resultsCame_failed (user : f.burst.user = .results r) (failed : f.failed err = true) :
    s.resultsCame err f = (s.writeFault r).askOutcome r .memoryError 6 := by
  simp only [State.resultsCame, user, failed, if_true]

theorem resultsCame_written (user : f.burst.user = .results r) (written : f.failed err = false) :
    s.resultsCame err f = s.askOutcome r r.outcome r.detail := by
  simp only [State.resultsCame, user, written, Bool.false_eq_true, if_false]

end

/-! ### The outcome burst (R180, R181) -/

/-- TASK_DONE is submitted when the task asks for it (R180). -/
def State.tellDone (r : Retirement) (o : TaskOutcome) (detail : Byte) (s : State) : State :=
  if r.task.notify then s.submit (.taskDone r.task.addr r.task.tag r.task.kind o detail) else s

section
variable {f : Flight} {r : Retirement} {err : Bool} {o : TaskOutcome} {detail : Byte}

theorem outcomeCame_failed (user : f.burst.user = .outcome r o detail) (failed : f.failed err = true) :
    s.outcomeCame err f = (s.writeFault r).tellDone r o detail := by
  simp only [State.outcomeCame, State.tellDone, user, failed, if_true]

theorem outcomeCame_written (user : f.burst.user = .outcome r o detail) (written : f.failed err = false) :
    s.outcomeCame err f = s.tellDone r o detail := by
  simp only [State.outcomeCame, State.tellDone, user, written, Bool.false_eq_true, if_false]

end

/-- TASK_DONE changes the notices, the flags and the counters alone. -/
theorem tellDone_eq (s : State) (r : Retirement) (o : TaskOutcome) (detail : Byte) : s.tellDone r o detail = { s with
    notices := (s.tellDone r o detail).notices, attention := (s.tellDone r o detail).attention
    stats := (s.tellDone r o detail).stats } := by
  unfold State.tellDone
  split
  · exact submit_eq s _
  · rfl

theorem tellDone_walkerFault (s : State) (r : Retirement) (o : TaskOutcome) (detail : Byte) :
    (s.tellDone r o detail).attention.walkerFault = s.attention.walkerFault := by
  unfold State.tellDone
  split
  · exact submit_walkerFault s _
  · rfl

theorem tellDone_queue (room : s.notices.queue.length < 8) (r : Retirement) (o : TaskOutcome) (detail : Byte) :
    (s.tellDone r o detail).notices.queue = s.notices.queue ++ if r.task.flags.getLsbD 0 = true then
      [{ body := .taskDone r.task.addr r.task.tag r.task.kind o detail, stamp := s.timer.stamp }] else [] := by
  unfold State.tellDone TaskRef.notify
  split
  · exact submit_queue s _ room
  · exact (List.append_nil _).symm

theorem tellDone_unasked {r : Retirement} (quiet : r.task.flags.getLsbD 0 = false) (o : TaskOutcome) (detail : Byte) :
    s.tellDone r o detail = s := by
  simp only [State.tellDone, TaskRef.notify, quiet, Bool.false_eq_true, if_false]

end

/-! ### The bursts' completions -/

/-- A burst has failed exactly when the port refused it or memory answered with an error (R118, R120). -/
theorem failed_iff {f : Flight} {err : Bool} : f.failed err = true ↔ f.refused = true ∨ err = true := Bool.or_eq_true_iff

theorem written_of_not_failed {f : Flight} {err : Bool} (fine : ¬ (f.refused = true ∨ err = true)) : f.failed err = false :=
  Bool.eq_false_iff.2 (mt failed_iff.1 fine)

section
variable {s : State} {f : Flight} {r : Retirement} (landing : s.Landing f)
include landing

theorem exec_resultsBurstComplete (user : f.burst.user = .results r) (err : Bool) :
    ∃ m n, exec (.resultsBurstComplete err) s = .next ((s.ended m n).resultsCame err f)
      ∧ (f.refused = true ∨ err = false → m = s.mem ∧ n = s.free) := by
  obtain ⟨m, n, came, known⟩ := complete_ended landing User.isResults (by rw [user]; rfl) err (State.resultsCame err)
  exact ⟨m, n, congrArg Host.Outcome.next came, known⟩

theorem exec_outcomeBurstComplete {o : TaskOutcome} {detail : Byte} (user : f.burst.user = .outcome r o detail) (err : Bool) :
    ∃ m n, exec (.outcomeBurstComplete err) s = .next ((s.ended m n).outcomeCame err f)
      ∧ (f.refused = true ∨ err = false → m = s.mem ∧ n = s.free) := by
  obtain ⟨m, n, came, known⟩ := complete_ended landing User.isOutcome (by rw [user]; rfl) err (State.outcomeCame err)
  exact ⟨m, n, congrArg Host.Outcome.next came, known⟩

end

/-- A write that does not fail leaves no byte of memory unknown (R120). -/
theorem ended_of_not_failed {s : State} {f : Flight} {err : Bool} {m : Mem} {n : Nat}
    (known : f.refused = true ∨ err = false → m = s.mem ∧ n = s.free) (fine : ¬ (f.refused = true ∨ err = true)) :
    s.ended m n = s.landed := by
  obtain ⟨rfl, rfl⟩ := known (.inr (Bool.eq_false_iff.2 (not_or.1 fine).2))
  rfl

/-- The notices of an outcome burst's completion: the fault, when there is one, before TASK_DONE (R180, R181). -/
theorem outcomeCame_queue {s : State} {f : Flight} {r : Retirement} {o : TaskOutcome} {detail : Byte}
    (user : f.burst.user = .outcome r o detail) (room : s.notices.queue.length + 2 ≤ 8) (err : Bool) :
    (s.outcomeCame err f).notices.queue = s.notices.queue
      ++ (if f.refused = true ∨ err = true then [{ body := .walkerFault r.capture, stamp := s.timer.stamp }] else [])
      ++ if r.task.flags.getLsbD 0 = true then
          [{ body := .taskDone r.task.addr r.task.tag r.task.kind o detail, stamp := s.timer.stamp }]
        else [] := by
  have first : s.notices.queue.length < 8 := by omega
  by_cases bad : f.refused = true ∨ err = true
  · have queue := writeFault_queue first r
    have second : (s.writeFault r).notices.queue.length < 8 := by
      rw [queue, List.length_append, List.length_singleton]
      omega
    have stamp : (s.writeFault r).timer.stamp = s.timer.stamp := by rw [writeFault_eq]
    rw [outcomeCame_failed user (failed_iff.2 bad), tellDone_queue second, queue, stamp, if_pos bad]
  · rw [outcomeCame_written user (written_of_not_failed bad), tellDone_queue first, if_neg bad, List.append_nil]

/-- Settles O58: a retirement by the list it joins, then each burst by whether it failed. -/
theorem retirementWritesAreFollowedThrough : Obligations.RetirementWritesAreFollowedThrough := by
  refine ⟨fun s task o k res => ⟨fun empty => retire_of_empty empty task o k res,
    fun waiting => retire_of_waiting waiting task o k res⟩, fun r => rfl, fun s err f r landing room => ?_⟩
  refine ⟨fun user => ?_, fun o detail user => ?_⟩
  · obtain ⟨m, n, run, known⟩ := exec_resultsBurstComplete landing user err
    refine ⟨_, run, ?_, fun fine => ?_, fun fine => ?_, fun bad => ?_⟩
    · simp [State.ended]
    · simpa [State.ended] using known (.inr fine)
    · rw [resultsCame_written user (written_of_not_failed fine), ended_of_not_failed known fine]
      rfl
    · rw [resultsCame_failed user (failed_iff.2 bad)]
      refine ⟨⟨?_, rfl, ?_⟩, writeFault_queue (s := s.ended m n) (Nat.lt_of_succ_lt room) r, ?_⟩
      all_goals
        rw [State.askOutcome, writeFault_eq]
        rfl
  · obtain ⟨m, n, run, known⟩ := exec_outcomeBurstComplete landing user err
    refine ⟨_, run, ?_, fun fine => ?_, fun bad => ?_, fun fine => ?_, outcomeCame_queue (s := s.ended m n) user room err,
      fun quiet fine => ?_⟩
    · simp [State.ended]
    · simpa [State.ended] using known (.inr fine)
    · rw [outcomeCame_failed user (failed_iff.2 bad)]
      refine ⟨?_, tellDone_walkerFault _ r o detail, ?_⟩
      all_goals
        rw [tellDone_eq, writeFault_eq]
        rfl
    · rw [outcomeCame_written user (written_of_not_failed fine)]
      refine ⟨?_, tellDone_walkerFault _ r o detail⟩
      rw [tellDone_eq]
      rfl
    · rw [outcomeCame_written user (written_of_not_failed fine), ended_of_not_failed known fine, tellDone_unasked quiet]

end Sys2Proof.Machine

/-! ## The setup held, and the reset pin (O8): R196, R199 -/

namespace Sys2Proof.Machine

/-- The setup is held exactly while the part works, and a held reset pin keeps it STOPPED. -/
structure State.SetupHeld (s : State) : Prop where
  fixed : s.run.fixed.isSome = s.active
  tun : s.run.tun.isSome = s.active
  pin : s.run.pinHeld = true → s.run.state = .stopped

theorem runOk_iff (s : State) : s.runOk = true ↔ s.SetupHeld := by
  unfold State.runOk
  rw [Bool.and_eq_true, Bool.and_eq_true, decide_eq_true_eq, decide_eq_true_eq, Bool.or_eq_true, Bool.not_eq_true',
    decide_eq_true_eq]
  constructor
  · rintro ⟨⟨fixed, tun⟩, free | stopped⟩
    · exact ⟨fixed, tun, fun held => nomatch free.symm.trans held⟩
    · exact ⟨fixed, tun, fun _ => stopped⟩
  · rintro ⟨fixed, tun, pin⟩
    refine ⟨⟨fixed, tun⟩, ?_⟩
    cases held : s.run.pinHeld with
    | false => exact .inl rfl
    | true => exact .inr (pin held)

/-- The reset pin is released in a part that is not STOPPED. -/
theorem State.SetupHeld.released {s : State} (h : s.SetupHeld) (on : s.run.state ≠ .stopped) : s.run.pinHeld = false :=
  Bool.eq_false_iff.2 fun held => on (h.pin held)

/-- A change of run control that keeps both sections, and the part working or not, keeps the setup held when the reset pin is
released. -/
theorem State.SetupHeld.moves {s t : State} (h : s.SetupHeld) (released : t.run.pinHeld = false)
    (active : t.active = s.active) (fixed : t.run.fixed = s.run.fixed) (tun : t.run.tun = s.run.tun) : t.SetupHeld :=
  ⟨by rw [fixed, active, h.fixed], by rw [tun, active, h.tun], fun held => nomatch released.symm.trans held⟩

theorem State.SetupHeld.same {s t : State} (h : s.SetupHeld) (state : t.run.state = s.run.state)
    (fixed : t.run.fixed = s.run.fixed) (tun : t.run.tun = s.run.tun) (pin : t.run.pinHeld = true → s.run.pinHeld = true) :
    t.SetupHeld := by
  have active : t.active = s.active := by simp only [State.active, state]
  exact ⟨by rw [fixed, active, h.fixed], by rw [tun, active, h.tun], fun held => state.trans (h.pin (pin held))⟩

theorem State.SetupHeld.sameRun {s t : State} (h : s.SetupHeld) (run : t.run = s.run) : t.SetupHeld :=
  h.same (by rw [run]) (by rw [run]) (by rw [run]) (by rw [run]; exact id)

/-- After a reset the part is STOPPED and holds no setup (R199). -/
theorem resetBlocks_setupHeld (cause : ResetCause) (pin : Bool) (s : State) : (s.resetBlocks cause pin).SetupHeld :=
  ⟨rfl, rfl, fun _ => rfl⟩

section
variable {s : State} (h : s.SetupHeld)
include h

theorem readSetup_setupHeld (b g) : (s.readSetup b g).SetupHeld := by
  obtain ⟨-, -, -, run, -⟩ := readSetup_rest b g s
  exact h.same (by rw [run]) (by rw [run]) (by rw [run]) (by rw [run]; exact id)

/-- A START makes a STOPPED part STARTING, and leaves every other one in its run state (R195, R198). -/
theorem startCommand_setupHeld (released : s.run.pinHeld = false) : s.startCommand.SetupHeld := by
  unfold State.startCommand
  split
  · next stopped =>
    unfold State.beginStart
    dsimp only
    split
    · exact h.same rfl rfl rfl id
    · have begun : State.SetupHeld { s with run := { s.run with state := .starting, refusal := 0 } } :=
        h.moves released (by simp [State.active, stopped]) rfl rfl
      exact readSetup_setupHeld begun _ _
  · unfold State.beginResume
    dsimp only
    split
    · exact h.same rfl rfl rfl id
    · exact readSetup_setupHeld h _ _
  all_goals exact h

/-- A HALT makes a RUNNING part HALTING, which keeps its setup (R197). -/
theorem haltCommand_setupHeld (released : s.run.pinHeld = false) : s.haltCommand.SetupHeld := by
  unfold State.haltCommand
  split
  · next running =>
    exact h.moves (by simp [released]) (by simp [State.active, running]) (by simp) (by simp)
  all_goals exact h

theorem writeControl_setupHeld (v) : (s.writeControl v).SetupHeld := by
  have enabled : State.SetupHeld { s with run := { s.run with attnEnable := ctlEnable v } } := h.same rfl rfl rfl id
  unfold State.writeControl
  dsimp only
  split
  · exact h
  next released =>
  have released : s.run.pinHeld = false := Bool.eq_false_iff.2 released
  split
  · exact resetBlocks_setupHeld _ _ s
  split
  · exact startCommand_setupHeld enabled released
  split
  · exact haltCommand_setupHeld enabled released
  · exact enabled

theorem writeRegister_setupHeld (r v) : (s.writeRegister r v).SetupHeld := by
  cases r with
  | control => exact writeControl_setupHeld h v
  | setupAddress =>
    dsimp only [State.writeRegister, State.writeSetup]
    split
    · exact h
    · exact h.same rfl rfl rfl id
  | chainPoke => exact h.sameRun (by simp [State.writeRegister])
  | attention => exact h.sameRun (by simp [State.writeRegister])
  | resetCause =>
    dsimp only [State.writeRegister, State.writeCause]
    split
    · exact h
    · exact h.same rfl rfl rfl id
  | status | noticeCount | frameStamp => exact h

omit h in
/-- A start takes both sections as the part becomes RUNNING (R196). -/
theorem started_setupHeld (released : s.run.pinHeld = false) (f t) : (s.started f t).SetupHeld := by
  obtain ⟨-, -, -, run, -⟩ := started_rest f t s
  have active : (s.started f t).active = true := by simp [State.active]
  exact ⟨by rw [active, run]; rfl, by rw [active, run]; rfl, fun held => by simp [released] at held⟩

/-- A resume takes the tunable section as the part becomes RUNNING again, and keeps the fixed one (R198). -/
theorem resumed_setupHeld (halted : s.run.state = .halted) (t) : (s.resumed t).SetupHeld := by
  obtain ⟨-, -, -, run, -⟩ := resumed_rest t s
  have active : (s.resumed t).active = true := by simp [State.active]
  have working : s.active = true := by simp [State.active, halted]
  have released := h.released (by rw [halted]; nofun)
  refine ⟨?_, by rw [active, run]; rfl, fun held => by simp [released] at held⟩
  rw [active, run, ← working]
  exact h.fixed

theorem startRead_setupHeld (e f) : (s.startRead e f).SetupHeld := by
  unfold State.startRead
  dsimp only
  split
  · next starting _ =>
    have idle : s.active = false := by simp [State.active, starting]
    have refused (n : Nat) : (s.refuseStart n).SetupHeld :=
      ⟨h.fixed.trans idle, h.tun.trans idle, fun _ => rfl⟩
    have released := h.released (by rw [starting]; nofun)
    split
    · exact refused 18
    split
    · exact readSetup_setupHeld h _ _
    · unfold State.judgeStart
      split
      · exact refused _
      · exact started_setupHeld released _ _
  · exact h

theorem resumeRead_setupHeld (e f) : (s.resumeRead e f).SetupHeld := by
  have refused (n : Nat) : (s.refuseResume n).SetupHeld := h.same rfl rfl rfl id
  unfold State.resumeRead
  dsimp only
  split
  · next halted _ =>
    split
    · exact refused 18
    split
    · exact readSetup_setupHeld h _ _
    · unfold State.judgeResume
      split
      · exact refused _
      · exact resumed_setupHeld h halted _
  · exact h

/-- HALTING and HALTED both keep the setup (R197). -/
theorem haltComplete_setupHeld : ∃ t, exec .haltComplete s = .next t ∧ t.SetupHeld := by
  refine ⟨_, rfl, ?_⟩
  split
  · next halting =>
    split
    · exact h.moves (h.released (by rw [halting]; nofun)) (by simp [State.active, halting]) rfl rfl
    · exact h
  all_goals exact h

theorem complete_setupHeld (p e k) (part : ∀ f x, x.SetupHeld → (k f x).SetupHeld) : (s.complete p e k).SetupHeld :=
  complete_keeps p e k s h (fun f => h.sameRun (by simp)) part

end

/-- The commands of run control, of time and of the arbiter keep the setup held as it must be. -/
theorem exec_outer_setupHeld {s : State} (h : s.SetupHeld) {c : Instr} (outer : Outer c = true) :
    ∃ t, exec c s = .next t ∧ t.SetupHeld := by
  cases c <;> try cases outer
  case haltComplete => exact haltComplete_setupHeld h
  all_goals refine ⟨_, rfl, ?_⟩
  case powerOnReset | resetPin => exact resetBlocks_setupHeld _ _ s
  case resetPinRelease => exact h.same rfl rfl rfl nofun
  case softReset v | start v | halt v => exact writeControl_setupHeld h v
  case startReadsComplete e => exact complete_setupHeld h _ e _ fun f _ hx => startRead_setupHeld hx e f
  case resumeReadsComplete e => exact complete_setupHeld h _ e _ fun f _ hx => resumeRead_setupHeld hx e f
  case attentionWrite v => exact writeRegister_setupHeld h .attention v
  case resetCauseWrite v => exact writeRegister_setupHeld h .resetCause v
  case registerWrite r n v =>
    split
    · exact writeRegister_setupHeld h r v
    · exact h
  case frameStart n => exact h.sameRun (by simp)
  case syncLoss n => split <;> exact h.sameRun (by simp)
  case keyFrame | falseStart =>
    repeat' split
    all_goals exact h.sameRun (by simp)
  case burstGrant host =>
    have written : (s.hostWrote host).SetupHeld := ⟨h.fixed, h.tun, h.pin⟩
    change (s.hostWrote host).arbitrate.SetupHeld
    rcases arbitrate_cases (s.hostWrote host) with same | ⟨r, k, b, -, -, -, granted⟩
    · rwa [same]
    · rw [granted]
      exact written.sameRun (by simp)

/-- Every command keeps the setup held as it must be. -/
theorem exec_setupHeld {s : State} (h : s.SetupHeld) (c : Instr) : ∃ t, exec c s = .next t ∧ t.SetupHeld := by
  cases outer : Outer c with
  | true => exact exec_outer_setupHeld h outer
  | false =>
    obtain ⟨t, run, -, kept, -, -⟩ := exec_quiet c s outer
    exact ⟨t, run, h.sameRun kept⟩

/-- Settles O8: a step is a command or a tick; starts and resets alone change whether the part works, and take or drop the setup. -/
theorem setupIsHeldExactlyWhileActive : Obligations.SetupIsHeldExactlyWhileActive := by
  intro s t ok hstep
  rw [runOk_iff] at ok ⊢
  unfold step at hstep
  split at hstep
  · next c rest _ =>
    have front : (s.withPending rest).SetupHeld := ⟨ok.fixed, ok.tun, ok.pin⟩
    obtain ⟨u, run, kept⟩ := exec_setupHeld front c
    rw [run] at hstep
    cases hstep
    exact kept
  · cases hstep
    exact ok.sameRun (by simp)

end Sys2Proof.Machine

/-! ## Resets (O12): R115, R125, R199 -/

namespace Sys2Proof.Machine

/-- A reset returns every block to its reset values, whatever the cause it records (R199). -/
theorem resetBlocks_eq (cause : ResetCause) (pin : Bool) (s : State) : s.resetBlocks cause pin = { State.reset with
    pending := s.pending, mem := s.mem, free := s.free
    run := { State.reset.run with cause := cause, pinHeld := pin }
    port := { State.reset.port with flight := s.port.flight.map fun f => { f with dropped := true } } } := rfl

/-- A Control write whose SOFT RESET position is set resets the part, whatever else it sets (R194, R199). -/
theorem writeControl_soft {s : State} {v : Word} (released : s.run.pinHeld = false) (soft : v.getLsbD 2 = true) :
    s.writeControl v = s.resetBlocks { s.run.cause with soft := true } false := by
  simp [State.writeControl, State.softReset, ctlSoft, released, soft]

/-- Settles O12: each reset is one `resetBlocks`, with the cause that it records. -/
theorem resetsReturnEveryBlock : Obligations.ResetsReturnEveryBlock := by
  rintro c s (rfl | rfl | ⟨v, rfl, soft, released⟩)
  · exact ⟨_, rfl, resetBlocks_eq _ _ s, rfl, fun _ => ⟨rfl, rfl⟩, nofun, nofun⟩
  · exact ⟨_, rfl, resetBlocks_eq _ _ s, rfl, nofun, fun _ => ⟨rfl, rfl⟩, nofun⟩
  · exact ⟨_, congrArg Host.Outcome.next (writeControl_soft released soft), resetBlocks_eq _ _ s, rfl, nofun, nofun,
      fun _ _ => ⟨rfl, rfl⟩⟩

end Sys2Proof.Machine

/-! ## The register window (O13): R70, R193, R194, R199, R200, 12.1 -/

namespace Sys2Proof.Machine

/-! ### Writes (R193, R194, R199, R200) -/

section
variable {s : State}

/-- Every register write is ignored while the reset pin is held (R199). -/
theorem writeRegister_held (held : s.run.pinHeld = true) (r : Reg) (v : Word) : s.writeRegister r v = s := by
  cases r <;> simp [State.writeRegister, State.writeControl, State.writeSetup, State.poke, State.writeAttention,
    State.writeCause, held]

theorem exec_registerWrite_whole (s : State) (r : Reg) (v : Word) :
    exec (.registerWrite r 4 v) s = .next (s.writeRegister r v) := rfl

/-- A write of fewer bytes than the word is ignored (R200). -/
theorem exec_registerWrite_part {n : Nat} (part : n ≠ 4) (r : Reg) (v : Word) : exec (.registerWrite r n v) s = .next s :=
  congrArg Host.Outcome.next (if_neg part)

/-- A write of any size and of any register is ignored while the reset pin is held (R199). -/
theorem exec_registerWrite_held (held : s.run.pinHeld = true) (r : Reg) (n : Nat) (v : Word) :
    exec (.registerWrite r n v) s = .next s := by
  by_cases whole : n = 4
  · rw [whole, exec_registerWrite_whole, writeRegister_held held]
  · exact exec_registerWrite_part whole r v

/-- The commands that are register writes are ignored while the reset pin is held (R199). -/
theorem exec_write_held (held : s.run.pinHeld = true) {v : Word} {c : Instr}
    (write : c = .softReset v ∨ c = .start v ∨ c = .halt v ∨ c = .attentionWrite v ∨ c = .resetCauseWrite v ∨ c = .chainPoke v
      ∨ ∃ r n, c = .registerWrite r n v) : exec c s = .next s := by
  have ignored (r : Reg) : Host.Outcome.next (s.writeRegister r v) = (.next s : Out) :=
    congrArg Host.Outcome.next (writeRegister_held held r v)
  rcases write with rfl | rfl | rfl | rfl | rfl | rfl | ⟨r, n, rfl⟩
  · exact ignored .control
  · exact ignored .control
  · exact ignored .control
  · exact ignored .attention
  · exact ignored .resetCause
  · exact ignored .chainPoke
  · exact exec_registerWrite_held held r n v

/-- The part with a Control write's attention enable stored (R194). -/
def State.enabled (v : Word) (s : State) : State := { s with run := { s.run with attnEnable := v.getLsbD 8 } }

section
variable (released : s.run.pinHeld = false)
include released

/-- A Control write that does not reset stores the attention enable, and then START alone or HALT alone acts (R194). -/
theorem writeControl_acts {v : Word} (hard : v.getLsbD 2 = false) : s.writeControl v =
    if v.getLsbD 0 && !v.getLsbD 1 then (s.enabled v).startCommand
    else if v.getLsbD 1 && !v.getLsbD 0 then (s.enabled v).haltCommand
    else s.enabled v := by
  simp only [State.writeControl, State.enabled, ctlSoft, ctlStart, ctlHalt, ctlEnable, released, hard, Bool.false_eq_true,
    if_false]

/-- START and HALT together, or neither, store the attention enable alone (R194). -/
theorem writeControl_enables {v : Word} (hard : v.getLsbD 2 = false) (both : v.getLsbD 0 = v.getLsbD 1) :
    s.writeControl v = s.enabled v := by
  rw [writeControl_acts released hard, both]
  cases v.getLsbD 1 <;> rfl

theorem writeSetup_released (v : Word) : s.writeSetup v = { s with run := { s.run with setupAddr := v } } := by
  simp only [State.writeSetup, released, Bool.false_eq_true, if_false]

/-- Every flag but SYNC_LOST clears for a 1 written; SYNC_LOST clears, with the latch, only in IN_SYNC (R193, R70). -/
theorem writeAttention_released (v : Word) : s.writeAttention v = { s with
    attention := { s.attention.clear v with syncLost := s.attention.syncLost && !(v.getLsbD 3 && !s.timer.lost) }
    timer := { s.timer with latch := s.timer.latch && !(v.getLsbD 3 && !s.timer.lost) } } := by
  simp only [State.writeAttention, released, Bool.false_eq_true, if_false]

theorem writeCause_released (v : Word) : s.writeCause v = { s with run := { s.run with cause := s.run.cause.clear v } } := by
  simp only [State.writeCause, released, Bool.false_eq_true, if_false]

end

end

/-! ### The bit places of 12.1 -/

theorem getLsbD_bitAt (flag : Bool) {n : Nat} (place : n < 32) (i : Nat) :
    (bitAt flag n).getLsbD i = (flag && decide (i = n)) := by
  cases flag with
  | false => simp [bitAt]
  | true =>
    simp only [bitAt, if_true, BitVec.getLsbD_ofNat, Nat.testBit_two_pow, Bool.true_and]
    by_cases here : i = n
    · simp [here, place]
    · simp [here, Ne.symm here]

/-- The five flags of Attention, each at its place (R193, 12.1). -/
theorem attentionWord_bit (a : Attention) (i : Nat) : a.word.getLsbD i =
    ((a.notice && decide (i = 0)) || (a.noBlanks && decide (i = 1)) || (a.walkerFault && decide (i = 2))
      || (a.syncLost && decide (i = 3)) || (a.blankFault && decide (i = 4))) := by
  simp only [Attention.word, BitVec.getLsbD_or]
  rw [getLsbD_bitAt _ (by decide), getLsbD_bitAt _ (by decide), getLsbD_bitAt _ (by decide), getLsbD_bitAt _ (by decide),
    getLsbD_bitAt _ (by decide)]

/-- The three flags of Reset Cause, each at its place (R199, 12.1). -/
theorem resetCauseWord_bit (c : ResetCause) (i : Nat) : c.word.getLsbD i =
    ((c.power && decide (i = 0)) || (c.pin && decide (i = 1)) || (c.soft && decide (i = 2))) := by
  simp only [ResetCause.word, BitVec.getLsbD_or]
  rw [getLsbD_bitAt _ (by decide), getLsbD_bitAt _ (by decide), getLsbD_bitAt _ (by decide)]

/-- Attention reads as nonzero exactly when one of its flags is set (R193). -/
theorem attentionWord_ne_zero (a : Attention) : a.word ≠ 0 ↔ a.any = true := by
  constructor
  · intro nonzero
    by_contra none_set
    simp only [Attention.any, Bool.or_eq_true, not_or, Bool.not_eq_true] at none_set
    obtain ⟨⟨⟨⟨notice, noBlanks⟩, walkerFault⟩, syncLost⟩, blankFault⟩ := none_set
    refine nonzero (BitVec.eq_of_getLsbD_eq fun i _ => ?_)
    rw [attentionWord_bit, notice, noBlanks, walkerFault, syncLost, blankFault]
    simp
  · intro set zero
    have clear (i : Nat) : a.word.getLsbD i = false := by simp [zero]
    have bits := And.intro (clear 0) (And.intro (clear 1) (And.intro (clear 2) (And.intro (clear 3) (clear 4))))
    simp only [attentionWord_bit] at bits
    simp_all [Attention.any]

theorem toNat_ofNat_of_lt {n : Nat} (small : n < 2 ^ 32) : (BitVec.ofNat 32 n).toNat = n := by
  rw [BitVec.toNat_ofNat, Nat.mod_eq_of_lt small]

theorem bitAt_toNat (flag : Bool) {n : Nat} (place : n < 32) : (bitAt flag n).toNat = if flag then 2 ^ n else 0 := by
  cases flag with
  | false => rfl
  | true => exact toNat_ofNat_of_lt (Nat.pow_lt_pow_right Nat.one_lt_two place)

/-- A field above the bits of another is joined to it as it is added. -/
theorem toNat_or_of_above {x y : Word} {low high m : Nat} (k : Nat) (unit : 2 ^ k = m) (x_eq : x.toNat = low)
    (y_eq : y.toNat = high) (small : low < m) (above : m ∣ high) : (x ||| y).toNat = low + high := by
  obtain ⟨q, rfl⟩ := above
  rw [BitVec.toNat_or, x_eq, y_eq, ← unit, Nat.or_comm, ← Nat.two_pow_add_eq_or_of_lt (unit ▸ small), Nat.add_comm]

/-- The notice writer stands at an anchor (R190). -/
def Cursor.isAnchor : Cursor → Bool
  | .anchor _ => true
  | .none | .blank _ => false

theorem isAnchor_iff (c : Cursor) : c.isAnchor = true ↔ ∃ a, c = .anchor a := by
  cases c <;> simp [Cursor.isAnchor]

theorem statusWord_eq (s : State) : s.statusWord =
    BitVec.ofNat 32 s.run.state.code ||| BitVec.ofNat 32 (s.run.refusal * 256) ||| bitAt (decide (s.walker.st = .faulted)) 16
      ||| bitAt s.notices.cursor.isAnchor 17 ||| BitVec.ofNat 32 (s.notices.queue.length * 1048576) := rfl

/-- Status by its fields: run state, refusal code, WALKER FAULTED, AT ANCHOR and the notices queued (R194, 12.1). -/
theorem statusWord_toNat {s : State} (refusal : s.run.refusal ≤ 18) (queue : s.notices.queue.length ≤ 8) :
    s.statusWord.toNat = s.run.state.code + 256 * s.run.refusal + (if s.walker.st = .faulted then 65536 else 0)
      + (if ∃ a, s.notices.cursor = .anchor a then 131072 else 0) + 1048576 * s.notices.queue.length := by
  have code : s.run.state.code ≤ 4 := by cases s.run.state <;> decide
  have fault : (bitAt (decide (s.walker.st = .faulted)) 16).toNat = if s.walker.st = .faulted then 65536 else 0 := by
    rw [bitAt_toNat _ (by decide)]
    simp
  have anchor : (bitAt s.notices.cursor.isAnchor 17).toNat = if ∃ a, s.notices.cursor = .anchor a then 131072 else 0 := by
    rw [bitAt_toNat _ (by decide)]
    simp [isAnchor_iff]
  have faultUnit : 65536 ∣ if s.walker.st = .faulted then 65536 else 0 := by
    split
    exacts [dvd_rfl, dvd_zero _]
  have anchorUnit : 131072 ∣ if ∃ a, s.notices.cursor = .anchor a then 131072 else 0 := by
    split
    exacts [dvd_rfl, dvd_zero _]
  have fault_le : (if s.walker.st = .faulted then 65536 else 0) ≤ 65536 := by split <;> omega
  have anchor_le : (if ∃ a, s.notices.cursor = .anchor a then 131072 else 0) ≤ 131072 := by split <;> omega
  generalize (if s.walker.st = .faulted then 65536 else 0) = faultField at *
  generalize (if ∃ a, s.notices.cursor = .anchor a then 131072 else 0) = anchorField at *
  have toRefusal := toNat_or_of_above 8 (m := 256) (by norm_num)
    (toNat_ofNat_of_lt (n := s.run.state.code) (by omega))
    (toNat_ofNat_of_lt (n := s.run.refusal * 256) (by omega)) (by omega) (Nat.dvd_mul_left _ _)
  have toFault := toNat_or_of_above 16 (m := 65536) (by norm_num) toRefusal fault (by omega) faultUnit
  have toAnchor := toNat_or_of_above 17 (m := 131072) (by norm_num) toFault anchor (by omega) anchorUnit
  have toQueue := toNat_or_of_above 20 (m := 1048576) (by norm_num) toAnchor
    (toNat_ofNat_of_lt (n := s.notices.queue.length * 1048576) (by omega)) (by omega) (Nat.dvd_mul_left _ _)
  rw [statusWord_eq, toQueue]
  omega

theorem byteOf_toNat (w : Word) (i : Nat) : (w.extractLsb' (8 * i) 8).toNat = w.toNat / 256 ^ i % 256 := by
  rw [BitVec.extractLsb'_toNat, Nat.shiftRight_eq_div_pow, Nat.pow_mul]

/-- Settles O13: a write by the register and by the pin, a read by the bit places of its flags and fields. -/
theorem registersReadAndWriteByTheWindow : Obligations.RegistersReadAndWriteByTheWindow := by
  refine ⟨fun s v => ⟨fun held c write => exec_write_held held write, rfl⟩, fun s n v released => ?_, fun s v released => ?_,
    fun s refusal queue => ?_⟩
  · refine ⟨fun r part => exec_registerWrite_part part r v, ?_, ?_, fun hard both => ?_, rfl, rfl, rfl, rfl, rfl, rfl⟩
    · rintro r (rfl | rfl | rfl) <;> rfl
    · exact congrArg Host.Outcome.next (writeSetup_released released v)
    · exact congrArg Host.Outcome.next (writeControl_enables released hard both)
  · exact ⟨congrArg Host.Outcome.next (writeAttention_released released v),
      congrArg Host.Outcome.next (writeCause_released released v)⟩
  · refine ⟨statusWord_toNat refusal queue, bitAt_toNat _ (by decide), rfl, rfl, rfl, rfl, attentionWord_bit _,
      resetCauseWord_bit _, fun r i _ => byteOf_toNat _ i, ?_⟩
    rw [State.attentionLow, Bool.and_eq_true, ← attentionWord_ne_zero]
    rfl

end Sys2Proof.Machine

/-! ## START and HALT (O14, O17): R39, R186, R194, R195, R197, R198 -/

namespace Sys2Proof.Machine

/-! ### START (R194, R195, R198) -/

/-- The block of a setup read at a multiple of 64 stands at that address, modulo 2^32 (log 9). -/
theorem block_of_aligned {a : Nat} (aligned : a % 64 = 0) (g : Gather) (at_ : g.addr = a) : g.setupBlock = a % 2 ^ 32 := by
  rw [Gather.setupBlock, Gather.block, at_, Nat.div_mul_cancel (Nat.dvd_of_mod_eq_zero aligned)]

section
variable {s : State}

/-- A Setup Address that is no multiple of 64 is refused, in STOPPED and in HALTED (R195, R198). -/
theorem beginStart_refused (odd : s.run.setupAddr.toNat % 64 ≠ 0) :
    s.beginStart = { s with run := { s.run with refusal := 17 } } := if_pos odd

theorem beginResume_refused (odd : s.run.setupAddr.toNat % 64 ≠ 0) :
    s.beginResume = { s with run := { s.run with refusal := 17 } } := if_pos odd

/-- A start asks for the first of its two blocks (R195). -/
theorem beginStart_reads (aligned : s.run.setupAddr.toNat % 64 = 0) : s.beginStart =
    let r : SetupRead := { resume := false, gather := { addr := s.run.setupAddr.toNat, left := 128, got := [] } }
    let b : Burst := { user := .setup false, block := s.run.setupAddr.toNat, sel := none }
    { s with
      run := { s.run with state := .starting, refusal := 0, reading := some r }
      port := { s.port with walkerQ := s.port.walkerQ ++ [b] } } := by
  have block := block_of_aligned aligned { addr := s.run.setupAddr.toNat, left := 128 } rfl
  rw [Nat.mod_eq_of_lt s.run.setupAddr.isLt] at block
  rw [State.beginStart]
  dsimp only
  rw [if_neg (not_not_intro aligned), State.readSetup, block]
  rfl

/-- A resume asks for the block of the tunable section (R198, log 9). -/
theorem beginResume_reads (aligned : s.run.setupAddr.toNat % 64 = 0) : s.beginResume =
    let r : SetupRead := { resume := true, gather := { addr := s.run.setupAddr.toNat + 64, left := 64, got := [] } }
    let b : Burst := { user := .setup true, block := (s.run.setupAddr.toNat + 64) % 2 ^ 32, sel := none }
    { s with
      run := { s.run with reading := some r }
      port := { s.port with walkerQ := s.port.walkerQ ++ [b] } } := by
  have block := block_of_aligned (a := s.run.setupAddr.toNat + 64) (by omega)
    { addr := s.run.setupAddr.toNat + 64, left := 64 } rfl
  rw [State.beginResume]
  dsimp only
  rw [if_neg (not_not_intro aligned), State.readSetup, block]
  rfl

theorem startCommand_stopped (stopped : s.run.state = .stopped) : s.startCommand = s.beginStart := by
  simp only [State.startCommand, stopped]

theorem startCommand_halted (halted : s.run.state = .halted) (idle : s.run.reading = none) :
    s.startCommand = s.beginResume := by
  simp only [State.startCommand, halted, idle]

/-- A START does not act in STARTING, RUNNING and HALTING, nor while a resume's reads are under way (R194). -/
theorem startCommand_ignored (busy : s.run.state = .starting ∨ s.run.state = .running ∨ s.run.state = .halting
    ∨ (s.run.state = .halted ∧ s.run.reading ≠ none)) : s.startCommand = s := by
  unfold State.startCommand
  split
  · next stopped => simp [stopped] at busy
  · next halted idle => simp [halted, idle] at busy
  all_goals rfl

/-- START alone stores the attention enable and acts (R194). -/
theorem exec_start_alone {v : Word} (released : s.run.pinHeld = false) (start : v.getLsbD 0 = true) (halt : v.getLsbD 1 = false)
    (hard : v.getLsbD 2 = false) :
    exec (.start v) s = .next (s.enabled v).startCommand := by
  refine congrArg Host.Outcome.next ((writeControl_acts released hard).trans ?_)
  rw [start, halt]
  rfl

end

/-- Settles O14: the run state decides whether a START acts, and the Setup Address whether it is refused. -/
theorem startBeginsTheSetupReads : Obligations.StartBeginsTheSetupReads := by
  intro s v released start halt hard
  refine ⟨_, exec_start_alone released start halt hard, fun stopped odd => ?_, fun stopped aligned => ?_,
    fun halted idle odd => ?_, fun halted idle aligned => ?_, fun busy => ?_⟩
  · rw [startCommand_stopped (s := s.enabled v) stopped]
    exact beginStart_refused odd
  · rw [startCommand_stopped (s := s.enabled v) stopped]
    exact beginStart_reads aligned
  · rw [startCommand_halted (s := s.enabled v) halted idle]
    exact beginResume_refused odd
  · rw [startCommand_halted (s := s.enabled v) halted idle]
    exact beginResume_reads aligned
  · exact startCommand_ignored busy

/-! ### HALT (R39, R186, R197) -/

/-- HALT pauses a WAITING or SCANNING compactor, which remembers which it was (R39). -/
theorem compactorHalted_eq (c : Compactor) : c.halted =
    if c.phase = .waiting then { c with phase := .paused, wasWaiting := true }
    else if c.phase = .scanning then { c with phase := .paused, wasWaiting := false }
    else c := by
  unfold Compactor.halted
  cases c.phase <;> rfl

/-- The state that HALT leaves a walker in: STALLED, WAITING and PARKED stop at once (R186). -/
def WalkerState.halts (st : WalkerState) : WalkerState :=
  if st = .stalled then .halted .handover
  else if st = .waiting then .halted .wait
  else if st = .parked then .halted .parked
  else st

theorem haltWalker_st (s : State) : s.haltWalker.walker.st = s.walker.st.halts := by
  unfold State.haltWalker
  split
  all_goals next st => simp [WalkerState.halts, st]

theorem haltWalker_eq (s : State) : s.haltWalker = { s with walker := { s.walker with st := s.walker.st.halts } } := by
  have walker : s.haltWalker.walker = { s.walker with st := s.walker.st.halts } := by
    refine Walker.eq_of_fields (haltWalker_st s) ?_ ?_ ?_ ?_ ?_ ?_ ?_ ?_
    all_goals simp
  refine State.eq_of_fields ?_ ?_ ?_ ?_ ?_ ?_ ?_ ?_ ?_ ?_ ?_ ?_ ?_ ?_ ?_ ?_ ?_ ?_ ?_ walker ?_ ?_
  all_goals simp

section
variable {s : State}

theorem haltCommand_running (running : s.run.state = .running) : s.haltCommand =
    State.haltWalker { s with run := { s.run with state := .halting }, compactor := s.compactor.halted } := by
  simp only [State.haltCommand, running]

theorem haltCommand_ignored (other : s.run.state ≠ .running) : s.haltCommand = s := by
  unfold State.haltCommand
  split
  · next running => exact absurd running other
  all_goals rfl

/-- A Control write with HALT set stores the attention enable; HALT acts when START is not beside it (R194). -/
theorem exec_halt_set {v : Word} (released : s.run.pinHeld = false) (halt : v.getLsbD 1 = true) (hard : v.getLsbD 2 = false) :
    exec (.halt v) s = .next (if v.getLsbD 0 = true then s.enabled v else (s.enabled v).haltCommand) := by
  refine congrArg Host.Outcome.next ((writeControl_acts released hard).trans ?_)
  rw [halt]
  cases v.getLsbD 0 <;> rfl

theorem walkerStopped_iff (w : Walker) : w.stopped = true ↔ (∃ rp, w.st = .halted rp) ∨ w.st = .faulted := by
  unfold Walker.stopped
  cases w.st <;> simp

/-- The three blocks have stopped (R197). -/
theorem allStopped_iff (s : State) : s.allStopped = true ↔
    ((∃ rp, s.walker.st = .halted rp) ∨ s.walker.st = .faulted) ∧ s.heap.decode = none
      ∧ (s.compactor.phase = .idle ∨ s.compactor.phase = .paused) := by
  rw [State.allStopped, Bool.and_eq_true, Bool.and_eq_true, walkerStopped_iff, Option.isNone_iff_eq_none, Compactor.isStopped,
    Bool.or_eq_true, decide_eq_true_eq, decide_eq_true_eq, and_assoc]

theorem exec_haltComplete (halting : s.run.state = .halting) : exec .haltComplete s =
    .next (if s.allStopped then { s with run := { s.run with state := .halted } } else s) := by
  simp only [exec, execHaltComplete, halting]

end

/-- Settles O17: HALT by what is written beside it and by the run state, its completion by whether the blocks have stopped. -/
theorem haltStopsTheBlocksAndCompletes : Obligations.HaltStopsTheBlocksAndCompletes := by
  refine ⟨fun s v released halt hard => ?_, fun s halting => ⟨fun stopped => ?_, fun going => ?_⟩⟩
  · refine ⟨_, exec_halt_set released halt hard, fun idle => ?_, fun alone running => ?_⟩
    · split
      · rfl
      · next alone => exact haltCommand_ignored (idle.resolve_left alone)
    · rw [if_neg (Bool.eq_false_iff.1 alone), haltCommand_running (s := s.enabled v) running, haltWalker_eq]
      exact ⟨rfl, compactorHalted_eq _, rfl⟩
  · rw [exec_haltComplete halting, if_pos ((allStopped_iff s).2 stopped)]
  · rw [exec_haltComplete halting, if_neg (mt (allStopped_iff s).1 going)]

end Sys2Proof.Machine

/-! ## The reads of a start (O15): R1, R62, R121, R171, R195, R196, 11.5, 12.4 -/

namespace Sys2Proof.Machine

/-! ### The blocks that come (R195, R196) -/

/-- The blocks of a part whose start succeeds, before the walker goes to its first record (R196). -/
def State.takesSetup (f : Fixed) (t : Tunables) (s : State) : State := { s with
  run := { s.run with state := .running, fixed := some f, tun := some t, reading := none }
  heap := { s.heap with extents := [{ start := 0, len := f.heapSize / 64 }] }
  timer := { s.timer with tick := 0, firstFrame := true, armed := true, lost := false, latch := false }
  port := { s.port with accounts := ⟨0, 0, 0, 0⟩, pointer := .lineFetch }
  notices := { s.notices with cursor := .blank f.firstBlank } }

theorem started_eq (f : Fixed) (t : Tunables) (s : State) : s.started f t = (s.takesSetup f t).toReading f.firstTask none := rfl

section
variable {s : State} {b : List Byte}

theorem judgeStart_refused {n : Nat} (fails : firstFailure (fixedChecks (b.take 64) ++ tunableChecks (b.drop 64)) = some n) :
    s.judgeStart b = s.refuseStart n := by
  simp only [State.judgeStart, fails]

theorem judgeStart_accepted (passes : firstFailure (fixedChecks (b.take 64) ++ tunableChecks (b.drop 64)) = none) :
    s.judgeStart b = s.started (fixedOf (b.take 64)) (tunablesOf (b.drop 64)) := by
  simp only [State.judgeStart, passes]

/-- The completion of a setup block's read in a STARTING part. -/
theorem exec_startReadsComplete {f : Flight} {r : SetupRead} (landing : s.LandingRead f (.setup false))
    (starting : s.run.state = .starting) (reading : s.run.reading = some r) (err : Bool) :
    exec (.startReadsComplete err) s = .next
      (if f.failed err then s.landed.refuseStart 18
       else if 0 < (r.gather.feed f.data).left then s.landed.readSetup false (r.gather.feed f.data)
       else s.landed.judgeStart (r.gather.feed f.data).got) := by
  have lands := landingRead_complete landing (fun u => decide (u = .setup false)) (decide_eq_true rfl) err
  simp [exec, execStartReadsComplete, lands, State.startRead, starting, reading]

end

/-! ### The first field that fails (R195) -/

/-- Of checks numbered in order, the first that fails is the least number whose requirement is not met. -/
theorem firstFailure_spec {obeys : Nat → Prop} : ∀ {l : List (Nat × Bool)} {first : Nat},
    l.map (·.1) = List.range' first l.length → (∀ c ∈ l, c.2 = true ↔ obeys c.1) →
    (firstFailure l = none ↔ ∀ k, first ≤ k → k < first + l.length → obeys k)
      ∧ ∀ n, firstFailure l = some n ↔
          first ≤ n ∧ n < first + l.length ∧ ¬ obeys n ∧ ∀ k, first ≤ k → k < n → obeys k
  | [], first, _, _ => by
    simp only [firstFailure, List.find?_nil, Option.map_none, List.length_nil, Nat.add_zero, true_iff]
    exact ⟨fun k low high => absurd low (Nat.not_le.2 high),
      fun n => ⟨nofun, fun ⟨low, high, _⟩ => absurd low (Nat.not_le.2 high)⟩⟩
  | (i, passed) :: rest, first, numbered, checks => by
    rw [List.map_cons, List.length_cons, List.range'_succ, List.cons.injEq] at numbered
    obtain ⟨rfl, numbered⟩ := numbered
    have here := checks _ List.mem_cons_self
    obtain ⟨none_, some_⟩ := firstFailure_spec numbered fun c mem => checks c (List.mem_cons_of_mem _ mem)
    have bound : i + (rest.length + 1) = i + 1 + rest.length := by omega
    rw [List.length_cons, bound]
    cases passed with
    | true =>
      have later : firstFailure ((i, true) :: rest) = firstFailure rest := rfl
      have ok : obeys i := here.1 rfl
      have fromNext (m : Nat) : (∀ k, i ≤ k → k < m → obeys k) ↔ ∀ k, i + 1 ≤ k → k < m → obeys k :=
        ⟨fun h k low => h k (Nat.le_of_succ_le low), fun h k low high => (Nat.eq_or_lt_of_le low).elim (· ▸ ok) (h k · high)⟩
      rw [later]
      refine ⟨none_.trans (fromNext _).symm, fun n => (some_ n).trans ?_⟩
      rw [fromNext]
      constructor <;> rintro ⟨low, high, bad, before⟩
      · exact ⟨Nat.le_of_succ_le low, high, bad, before⟩
      · exact ⟨Nat.lt_of_le_of_ne low fun same => bad (same ▸ ok), high, bad, before⟩
    | false =>
      have now : firstFailure ((i, false) :: rest) = some i := rfl
      have bad : ¬ obeys i := fun ok => nomatch here.2 ok
      rw [now]
      refine ⟨⟨nofun, fun h => absurd (h i le_rfl (by omega)) bad⟩, fun n => ⟨?_, fun ⟨low, _, _, before⟩ => ?_⟩⟩
      · rintro ⟨⟩
        exact ⟨le_rfl, by omega, bad, fun k low high => absurd low (Nat.not_le.2 high)⟩
      · rcases Nat.eq_or_lt_of_le low with rfl | after
        · rfl
        · exact absurd (before i le_rfl after) bad

/-! ### The requirements of 11.5 in the bytes of 12.4 -/

theorem nat8_lt (l : List Byte) (i : Nat) : nat8 l i < 256 := (byteAt l i).isLt

theorem nat32_lt (l : List Byte) (i : Nat) : nat32 l i < 2 ^ 32 := by
  have b0 := nat8_lt l i
  have b1 := nat8_lt l (i + 1)
  have b2 := nat8_lt l (i + 2)
  have b3 := nat8_lt l (i + 2 + 1)
  unfold nat32 nat16
  omega

theorem word32_toNat (l : List Byte) (i : Nat) : (word32 l i).toNat = nat32 l i := toNat_ofNat_of_lt (nat32_lt l i)

/-- Two regions overlap exactly when they share a byte. -/
theorem overlaps_iff (a la b lb : Nat) : overlaps a la b lb = true ↔ ∃ x, (a ≤ x ∧ x < a + la) ∧ b ≤ x ∧ x < b + lb := by
  rw [overlaps, decide_eq_true_eq]
  constructor
  · rintro ⟨some_a, some_b, left, right⟩
    exact ⟨max a b, by omega⟩
  · rintro ⟨x, inside⟩
    omega

/-- The check of field 5 or 6: a record's address, a multiple of 64 within the chain aperture. -/
theorem recordCheck_iff (cb cs a : Nat) : (decide (a % 64 = 0) && inRange cb cs a 64) = true ↔
    a % 64 = 0 ∧ cb ≤ a ∧ a + 64 ≤ cb + cs := by
  rw [inRange, Bool.and_eq_true, decide_eq_true_eq, decide_eq_true_eq]

theorem heapBaseCheck_iff (cb cs hb hs : Nat) : (decide (hb % 4096 = 0) && !overlaps cb cs hb hs) = true ↔
    hb % 4096 = 0 ∧ ¬ ∃ a, (cb ≤ a ∧ a < cb + cs) ∧ hb ≤ a ∧ a < hb + hs := by
  rw [Bool.and_eq_true, decide_eq_true_eq, Bool.not_eq_true', ← overlaps_iff, Bool.not_eq_true]

theorem planeFormatCheck_iff (n : Nat) : (planeFormatOf n).isSome = true ↔ n ≤ 3 := by
  match n with
  | 0 | 1 | 2 | 3 => decide
  | n + 4 => simp [planeFormatOf]

/-- The lowest bit of a byte is set exactly when its value is odd. -/
theorem lowBit_iff (l : List Byte) (i : Nat) : (byteAt l i).getLsbD 0 = true ↔ nat8 l i % 2 = 1 := by
  rw [nat8, BitVec.getLsbD, Nat.testBit_zero, decide_eq_true_eq]

/-- The check of field 15: the key line's address and divider, when it is enabled. -/
theorem keyLineCheck_iff (c : List Byte) :
    (!(byteAt c 40).getLsbD 0
      || decide (1 ≤ nat8 c 41 ∧ nat8 c 41 ≤ 127 ∧ 8 ≤ nat16 c 42 ∧ nat16 c 42 ≤ 4095)) = true ↔
      (nat8 c 40 % 2 = 1 → 1 ≤ nat8 c 41 ∧ nat8 c 41 ≤ 127 ∧ 8 ≤ nat16 c 42 ∧ nat16 c 42 ≤ 4095) := by
  rw [← lowBit_iff, Bool.or_eq_true, Bool.not_eq_true', decide_eq_true_eq]
  cases (byteAt c 40).getLsbD 0 <;> simp

/-- The requirement of each field, by the table of 11.5, on the bytes of the fixed section `b` and the tunable section `c`. -/
def fieldObeys (b c : List Byte) : Nat → Prop
  | 1 => nat32 b 0 % 4096 = 0
  | 2 => nat32 b 4 ≠ 0 ∧ nat32 b 4 % 4096 = 0 ∧ nat32 b 0 + nat32 b 4 ≤ 2 ^ 32
  | 3 => nat32 b 8 % 4096 = 0
      ∧ ¬ ∃ a, (nat32 b 0 ≤ a ∧ a < nat32 b 0 + nat32 b 4) ∧ nat32 b 8 ≤ a ∧ a < nat32 b 8 + nat32 b 12
  | 4 => nat32 b 12 % 65536 = 0 ∧ 2 ^ 20 ≤ nat32 b 12 ∧ nat32 b 12 ≤ 2 ^ 26 ∧ nat32 b 8 + nat32 b 12 ≤ 2 ^ 32
  | 5 => nat32 b 16 % 64 = 0 ∧ nat32 b 0 ≤ nat32 b 16 ∧ nat32 b 16 + 64 ≤ nat32 b 0 + nat32 b 4
  | 6 => nat32 b 20 % 64 = 0 ∧ nat32 b 0 ≤ nat32 b 20 ∧ nat32 b 20 + 64 ≤ nat32 b 0 + nat32 b 4
  | 7 => nat8 b 24 ≤ 3
  | 8 => 400000 ≤ nat32 b 28 ∧ nat32 b 28 ≤ 1200000
  | 9 => nat16 c 2 ≤ nat16 c 4
  | 10 => nat16 c 10 ≤ nat16 c 12
  | 11 => nat16 c 18 ≤ nat16 c 20
  | 12 => nat16 c 26 ≤ nat16 c 28
  | 13 => nat8 c 32 = 2
  | 15 => nat8 c 40 % 2 = 1 → 1 ≤ nat8 c 41 ∧ nat8 c 41 ≤ 127 ∧ 8 ≤ nat16 c 42 ∧ nat16 c 42 ≤ 4095
  | 16 => 1 ≤ nat8 c 44
  | _ => True

theorem fixedChecks_iff (b c : List Byte) : ∀ x ∈ fixedChecks b, x.2 = true ↔ fieldObeys b c x.1 := by
  simp only [fixedChecks, List.forall_mem_cons, List.not_mem_nil, false_implies, implies_true, and_true]
  exact ⟨decide_eq_true_iff, decide_eq_true_iff, heapBaseCheck_iff _ _ _ _,
    decide_eq_true_iff, recordCheck_iff _ _ _,
    recordCheck_iff _ _ _, planeFormatCheck_iff _, decide_eq_true_iff⟩

theorem tunableChecks_iff (b c : List Byte) : ∀ x ∈ tunableChecks c, x.2 = true ↔ fieldObeys b c x.1 := by
  simp only [tunableChecks, List.forall_mem_cons, List.not_mem_nil, false_implies, implies_true, and_true]
  exact ⟨decide_eq_true_iff, decide_eq_true_iff, decide_eq_true_iff, decide_eq_true_iff, decide_eq_true_iff,
    iff_of_true trivial trivial, keyLineCheck_iff c, decide_eq_true_iff⟩

/-- The setup block is accepted when all sixteen fields meet their requirements, and refused by the first that does not (R195). -/
theorem setupFailure_spec (b c : List Byte) :
    (firstFailure (fixedChecks b ++ tunableChecks c) = none ↔ ∀ k, 1 ≤ k → k ≤ 16 → fieldObeys b c k)
      ∧ ∀ n, firstFailure (fixedChecks b ++ tunableChecks c) = some n ↔
          1 ≤ n ∧ n ≤ 16 ∧ ¬ fieldObeys b c n ∧ ∀ k, 1 ≤ k → k < n → fieldObeys b c k := by
  have checks : ∀ x ∈ fixedChecks b ++ tunableChecks c, x.2 = true ↔ fieldObeys b c x.1 := by
    intro x mem
    exact (List.mem_append.1 mem).elim (fixedChecks_iff b c x) (tunableChecks_iff b c x)
  obtain ⟨none_, some_⟩ := firstFailure_spec (first := 1) rfl checks
  have upTo (k : Nat) : k < 1 + (fixedChecks b ++ tunableChecks c).length ↔ k ≤ 16 := Nat.lt_succ_iff
  exact ⟨none_.trans (by simp only [upTo]), fun n => (some_ n).trans (by simp only [upTo])⟩

/-! ### What the blocks take (R196, 12.4) -/

theorem fixedOf_format {b : List Byte} {format : PlaneFormat} (code : planeFormatOf (nat8 b 24) = some format) :
    (fixedOf b).format = format := by
  simp [fixedOf, code]

section
variable {b c : List Byte}

/-- The heap aperture stands on one side of the chain aperture (R1). -/
theorem apertures_apart (obeys : fieldObeys b c 3) (someHeap : nat32 b 12 ≠ 0) (someChain : nat32 b 4 ≠ 0) :
    nat32 b 8 + nat32 b 12 ≤ nat32 b 0 ∨ nat32 b 0 + nat32 b 4 ≤ nat32 b 8 := by
  by_contra meet
  exact obeys.2 ⟨max (nat32 b 0) (nat32 b 8), by omega⟩

/-- A first record that meets its requirement is a record of the chain aperture (R171). -/
theorem firstRecord_inChain {i : Nat}
    (obeys : nat32 b i % 64 = 0 ∧ nat32 b 0 ≤ nat32 b i ∧ nat32 b i + 64 ≤ nat32 b 0 + nat32 b 4) :
    (word32 b i).toNat % 64 = 0 ∧ (fixedOf b).inChain (word32 b i).toNat 64 = true := by
  rw [word32_toNat]
  exact ⟨obeys.1, decide_eq_true obeys.2⟩

theorem format_known (obeys : fieldObeys b c 7) : planeFormatOf (nat8 b 24) = some (fixedOf b).format := by
  obtain ⟨format, known⟩ := Option.isSome_iff_exists.1 ((planeFormatCheck_iff _).2 obeys)
  rw [fixedOf_format known, known]

/-- Every requester's limit is within its clip (R121). -/
theorem limits_within_clips (obeys : ∀ k, 9 ≤ k → k ≤ 12 → fieldObeys b c k) (r : Requester) :
    ((tunablesOf c).arb.get r).limit ≤ ((tunablesOf c).arb.get r).clip := by
  cases r with
  | lineFetch => exact obeys 9 (by decide) (by decide)
  | decoder => exact obeys 10 (by decide) (by decide)
  | walker => exact obeys 11 (by decide) (by decide)
  | compactor => exact obeys 12 (by decide) (by decide)

end

/-- Settles O15: each block that comes by its response and what is still wanted, and the sixteen fields by the table of 11.5. -/
theorem startReadsDecideTheStart : Obligations.StartReadsDecideTheStart := by
  refine ⟨fun s err f r landing starting reading => ?_, fun b c => ?_, fun b c accepted => ?_, fun b c => setupFailure_spec b c⟩
  · refine ⟨_, exec_startReadsComplete landing starting reading err, fun bad => ?_, fun good more => ?_,
      fun good whole n fails => ?_, fun good whole passes => ?_⟩
    · rw [if_pos (failed_true bad)]
      rfl
    all_goals rw [if_neg (by simp [failed_false good])]
    · rw [if_pos more]
      rfl
    · rw [if_neg (Nat.not_lt.mpr whole.le), judgeStart_refused fails]
      rfl
    · rw [if_neg (Nat.not_lt.mpr whole.le), judgeStart_accepted passes, started_eq, toReading_eq]
      exact ⟨rfl, rfl, rfl, rfl, rfl, fun free => congrArg _ (if_pos free)⟩
  · exact ⟨rfl, rfl, rfl, rfl, rfl, rfl, rfl, fun code => fixedOf_format (by rw [code]; rfl),
      fun code => fixedOf_format (by rw [code]; rfl), fun code => fixedOf_format (by rw [code]; rfl),
      fun code => fixedOf_format (by rw [code]; rfl), ⟨rfl, rfl, rfl, rfl⟩, ⟨rfl, rfl, rfl, rfl⟩, ⟨rfl, rfl, rfl, rfl⟩,
      ⟨rfl, rfl, rfl, rfl⟩, rfl, rfl, lowBit_iff c 40, rfl, rfl, rfl⟩
  · have obeys := (setupFailure_spec b c).1.1 accepted
    have field (k : Nat) (low : 1 ≤ k := by decide) (high : k ≤ 16 := by decide) : fieldObeys b c k := obeys k low high
    obtain ⟨someChain, chainUnit, chainEnd⟩ : fieldObeys b c 2 := field 2
    obtain ⟨heapUnit, heapLeast, heapMost, heapEnd⟩ : fieldObeys b c 4 := field 4
    obtain ⟨intervalLeast, intervalMost⟩ : fieldObeys b c 8 := field 8
    have keyLine : fieldObeys b c 15 := field 15
    have someHeap : nat32 b 12 ≠ 0 := by omega
    obtain ⟨taskUnit, taskIn⟩ := firstRecord_inChain (field 5)
    obtain ⟨blankUnit, blankIn⟩ := firstRecord_inChain (field 6)
    exact ⟨rfl, field 1, rfl, someChain, chainUnit, chainEnd, rfl, (field 3).1, apertures_apart (field 3) someHeap someChain,
      rfl, heapUnit, heapLeast, heapMost, heapEnd, taskUnit, taskIn, blankUnit, blankIn, format_known (field 7), rfl,
      intervalLeast, intervalMost, limits_within_clips fun k low high => obeys k (by omega) (by omega), field 13,
      fun enabled => keyLine ((lowBit_iff c 40).1 enabled), field 16⟩

end Sys2Proof.Machine

/-! ## Notices (O59, O60): R188 to R193, R202, 12.3 -/

namespace Sys2Proof.Machine

/-! ### A notice is submitted (R188) -/

section
variable {s : State}

/-- A notice that finds room joins the tail, and sets NO_BLANKS at the anchor. -/
theorem submit_joins (room : s.notices.queue.length < 8) (b : NoticeBody) : s.submit b = { s with
    notices := { s.notices with queue := s.notices.queue ++ [{ body := b, stamp := s.timer.stamp }] }
    attention := { s.attention with noBlanks := s.attention.noBlanks || s.notices.cursor.isAnchor } } := by
  have branch : s.submit b = _ := if_pos (show s.notices.queue.length < Config.maxNotices from room)
  exact branch

/-- A notice that finds no room is dropped and counted, up to 65535. -/
theorem submit_drops (full : 8 ≤ s.notices.queue.length) (b : NoticeBody) : s.submit b = { s with
    notices := { s.notices with lost := min 65535 (s.notices.lost + 1) }
    stats := { s.stats with noticesLost := s.stats.noticesLost + 1 } } :=
  if_neg (show ¬ s.notices.queue.length < Config.maxNotices from Nat.not_lt.2 full)

end

/-- Settles O59: the notice joins or is dropped by the room in the queue. -/
theorem submittedNoticeJoinsOrIsCounted : Obligations.SubmittedNoticeJoinsOrIsCounted := by
  refine fun s b => ⟨fun room => ?_, fun full => submit_drops full b⟩
  dsimp only
  rw [submit_joins room]
  exact ⟨rfl, by rw [Bool.or_eq_true, isAnchor_iff]⟩

/-! ### A notice is numbered and written (R189, R191) -/

section
variable {s : State} {a : Word}

/-- NOTICE_TAKE numbers the head notice and asks for its contents burst. -/
theorem takeNotice_takes (blank : s.notices.cursor = .blank a) (free : s.notices.writing = none) {n : Notice}
    {rest : List Notice} (queue : s.notices.queue = n :: rest) : s.takeNotice =
    State.ask .contents a.toNat (some (contentsSel n (s.notices.seq + 1) s.notices.lost)) { s with
      notices := { s.notices with
        queue := rest, lost := 0
        writing := some { notice := n, seq := s.notices.seq + 1, lost := s.notices.lost, phase := .contents } } } := by
  simp only [State.takeNotice, blank, free, queue]

section
variable {f : Flight} {w : Writing} {err : Bool}

theorem contentsCame_failed (writing : s.notices.writing = some w) (failed : f.failed err = true) :
    s.contentsCame err f = s.dropNotice w := by
  simp only [State.contentsCame, writing, failed, if_true]

/-- The contents burst written, the state burst follows (R189). -/
theorem contentsCame_written (writing : s.notices.writing = some w) (blank : s.notices.cursor = .blank a)
    (written : f.failed err = false) : s.contentsCame err f =
    State.ask .noticeState a.toNat (some stateSel)
      { s with notices := { s.notices with writing := some { w with phase := .state } } } := by
  simp only [State.contentsCame, writing, written, blank, Cursor.addr, Bool.false_eq_true, if_false]

/-- The state burst come, whether or not it failed, the number is used, NOTICE is set for a kind selected, and the link's read
follows (R189, R191). -/
theorem stateCame_eq (writing : s.notices.writing = some w) (blank : s.notices.cursor = .blank a) {tn : Tunables}
    (settings : s.run.tun = some tn) : s.stateCame err f =
    State.ask .noticeLink a.toNat none { s with
      notices := { s.notices with seq := w.seq, writing := some { w with phase := .link } }
      attention := { s.attention with
        notice := s.attention.notice || tn.attnMask.getLsbD w.notice.body.code
        blankFault := s.attention.blankFault || f.failed err } } := by
  have mask : s.selected w.notice.body = tn.attnMask.getLsbD w.notice.body.code := by
    simp only [State.selected, settings, Option.elim_some]
  simp only [State.stateCame, writing, blank, Cursor.addr, mask]
  cases f.failed err with
  | false => simp only [Bool.false_eq_true, if_false, Bool.or_false]
  | true =>
    simp only [if_true, Bool.or_true]
    rfl

end

theorem exec_contentsBurstComplete {f : Flight} (landing : s.Landing f) (user : f.burst.user = .contents) (err : Bool) :
    ∃ m n, exec (.contentsBurstComplete err) s = .next ((s.ended m n).contentsCame err f)
      ∧ (f.refused = true ∨ err = false → m = s.mem ∧ n = s.free) := by
  obtain ⟨m, n, came, known⟩ := complete_ended landing (fun u => decide (u = .contents)) (decide_eq_true user) err
    (State.contentsCame err)
  exact ⟨m, n, congrArg Host.Outcome.next came, known⟩

theorem exec_stateBurstComplete {f : Flight} (landing : s.Landing f) (user : f.burst.user = .noticeState) (err : Bool) :
    ∃ m n, exec (.stateBurstComplete err) s = .next ((s.ended m n).stateCame err f)
      ∧ (f.refused = true ∨ err = false → m = s.mem ∧ n = s.free) := by
  obtain ⟨m, n, came, known⟩ := complete_ended landing (fun u => decide (u = .noticeState)) (decide_eq_true user) err
    (State.stateCame err)
  exact ⟨m, n, congrArg Host.Outcome.next came, known⟩

end

/-! ### The link of the notice chain (R190) -/

section
variable {s : State} {f : Flight} {a : Word} {err : Bool}

/-- The part once the link of the notice chain has given the next cursor, and whether with a blank fault (R190). -/
def State.cursorMoved (s : State) (next : Cursor) (fault : Bool) : State := { s with
  notices := { s.notices with cursor := next, writing := none, reread := .none }
  attention := { s.attention with blankFault := s.attention.blankFault || fault } }

theorem cursorMoved_clean (s : State) (next : Cursor) : s.cursorMoved next false =
    { s with notices := { s.notices with cursor := next, writing := none, reread := .none } } := by
  simp only [State.cursorMoved, Bool.or_false]

theorem cursorMoved_faulted (s : State) (next : Cursor) : s.cursorMoved next true = { s with
    notices := { s.notices with cursor := next, writing := none, reread := .none }
    attention := { s.attention with blankFault := true } } := by
  simp only [State.cursorMoved, Bool.or_true]

theorem noticeLinkCame_eq (s : State) (err : Bool) (f : Flight) : s.noticeLinkCame err f =
    let next := s.nextCursor (f.failed err) f.data
    if s.notices.reread.again then (s.cursorMoved next.1 next.2).promptAnchor else s.cursorMoved next.1 next.2 := by
  unfold State.noticeLinkCame State.cursorMoved
  dsimp only
  cases (s.nextCursor (f.failed err) f.data).2 with
  | false => simp only [Bool.false_eq_true, if_false, Bool.or_false]
  | true =>
    simp only [if_true, Bool.or_true]
    rfl

section
variable (here : s.notices.cursor = .blank a ∨ s.notices.cursor = .anchor a)
include here

theorem cursor_addr : s.notices.cursor.addr = a := by
  rcases here with cursor | cursor <;> rw [cursor] <;> rfl

theorem nextCursor_zero (data : List Byte) (zero : word32 data 0 = 0) : s.nextCursor false data = (.anchor a, false) := by
  simp only [State.nextCursor, cursor_addr here, zero, Bool.false_eq_true, if_false, if_true]

omit here in
theorem nextCursor_valid (data : List Byte) (some_ : word32 data 0 ≠ 0) (valid : s.recordOk (word32 data 0) = true) :
    s.nextCursor false data = (.blank (word32 data 0), false) := by
  simp only [State.nextCursor, some_, valid, Bool.false_eq_true, if_false, if_true]

theorem nextCursor_bad (failed : Bool) (data : List Byte)
    (bad : failed = true ∨ (word32 data 0 ≠ 0 ∧ s.recordOk (word32 data 0) = false)) :
    s.nextCursor failed data = (.anchor a, true) := by
  cases failed with
  | true => simp only [State.nextCursor, cursor_addr here, if_true]
  | false =>
    obtain ⟨some_, invalid⟩ := bad.resolve_left nofun
    simp only [State.nextCursor, cursor_addr here, some_, invalid, Bool.false_eq_true, if_false]

end

/-- A read of the notice chain's link that completes. -/
theorem exec_noticeLinkReadComplete (landing : s.LandingRead f .noticeLink) (err : Bool) :
    exec (.noticeLinkReadComplete err) s = .next (s.landed.noticeLinkCame err f) :=
  congrArg _ (landingRead_complete landing (fun u => decide (u = .noticeLink)) (decide_eq_true rfl) err _)

theorem again_iff (r : Reread) : r.again = true ↔ r = .granted true := by
  unfold Reread.again
  split <;> simp_all

end

section
variable {s : State} {f : Flight} {err : Bool}

theorem noticeLinkCame_unprompted (unprompted : s.notices.reread ≠ .granted true) : s.noticeLinkCame err f =
    s.cursorMoved (s.nextCursor (f.failed err) f.data).1 (s.nextCursor (f.failed err) f.data).2 := by
  rw [noticeLinkCame_eq]
  exact if_neg (mt (again_iff _).1 unprompted)

/-- A prompt that came after the grant of the read brings one more re-read, when the cursor is then at the anchor. -/
theorem noticeLinkCame_prompted (prompted : s.notices.reread = .granted true) : s.noticeLinkCame err f =
    (s.cursorMoved (s.nextCursor (f.failed err) f.data).1 (s.nextCursor (f.failed err) f.data).2).promptAnchor := by
  rw [noticeLinkCame_eq]
  exact if_pos ((again_iff _).2 prompted)

/-- The re-read of a prompted anchor is asked for once it has been reached. -/
theorem cursorMoved_prompted (s : State) (a : Word) (fault : Bool) : (s.cursorMoved (.anchor a) fault).promptAnchor = { s with
    notices := { s.notices with cursor := .anchor a, writing := none, reread := .asked }
    attention := { s.attention with blankFault := s.attention.blankFault || fault }
    port := { s.port with walkerQ := s.port.walkerQ ++ [{ user := .noticeLink, block := a.toNat, sel := none }] } } := rfl

end

/-! ### The bytes of a notice record (R202, 12.3) -/

theorem selFrom_offsets (o : Nat) (l : List Byte) : (selFrom o l).map (·.1) = (List.range l.length).map (o + ·) := by
  induction l generalizing o with
  | nil => rfl
  | cons b l ih =>
    rw [selFrom, List.map_cons, ih, List.length_cons, List.range_succ_eq_map, List.map_cons, List.map_map]
    congr 2
    funext i
    exact Nat.succ_add_eq_add_succ o i

theorem selFrom_bytes (o : Nat) (l : List Byte) : (selFrom o l).map (·.2) = l := by
  induction l generalizing o with
  | nil => rfl
  | cons b l ih => rw [selFrom, List.map_cons, ih]

theorem padTo_length (n : Nat) (l : List Byte) : (padTo n l).length = n := by
  simp [padTo]

/-- The contents burst carries the 59 bytes from offset 5 (R189). -/
theorem contentsSel_offsets (n : Notice) (seq : Word) (lost : Nat) :
    (contentsSel n seq lost).map (·.1) = (List.range 59).map (5 + ·) := by
  rw [contentsSel, selFrom_offsets]
  simp only [List.length_cons, List.length_append, padTo_length, le16, le32, List.length_nil, Nat.zero_add, Nat.reduceAdd]

theorem contentsSel_bytes (n : Notice) (seq : Word) (lost : Nat) : (contentsSel n seq lost).map (·.2) =
    [BitVec.ofNat 8 n.body.code] ++ le16 (BitVec.ofNat 16 lost) ++ le32 seq ++ le32 n.stamp
      ++ (n.body.bytes ++ List.replicate 48 0).take 48 :=
  selFrom_bytes 5 _

/-- Settles O60: each burst of the notice writer by its response, the link by what it holds, and the bytes of a record by 12.3. -/
theorem noticesAreWrittenAndTheCursorMoves : Obligations.NoticesAreWrittenAndTheCursorMoves := by
  refine ⟨fun s a blank => ⟨fun n rest free queue => ?_, fun err f w landing user writing => ?_,
      fun err f w tn landing user writing settings => ?_⟩,
    fun s err f a landing here unprompted => ?_, fun s err f a landing here prompted => ?_,
    fun n seq lost => ⟨contentsSel_offsets n seq lost, contentsSel_bytes n seq lost⟩,
    ⟨fun _ => rfl, fun _ => rfl, rfl⟩, ?_⟩
  · exact ⟨_, congrArg Host.Outcome.next (takeNotice_takes blank free queue), rfl⟩
  · obtain ⟨m, n, run, known⟩ := exec_contentsBurstComplete landing user err
    refine ⟨_, run, fun granted fine => ?_, fun bad => ?_⟩
    · rw [contentsCame_written (s := s.ended m n) writing blank (failed_false ⟨granted, fine⟩)]
      obtain ⟨rfl, rfl⟩ := known (.inr fine)
      rfl
    · rw [contentsCame_failed (s := s.ended m n) writing (failed_iff.2 bad)]
      exact ⟨rfl, rfl, rfl, rfl⟩
  · obtain ⟨m, n, run, known⟩ := exec_stateBurstComplete landing user err
    refine ⟨_, run, ?_⟩
    rw [stateCame_eq (s := s.ended m n) writing blank settings]
    exact ⟨rfl, rfl, fun fine => known (.inr fine), rfl, rfl⟩
  · refine ⟨_, exec_noticeLinkReadComplete landing err, fun ok zero => ?_, fun ok some_ valid => ?_, fun bad => ?_⟩
    all_goals rw [noticeLinkCame_unprompted (s := s.landed) unprompted]
    · rw [failed_false ok, nextCursor_zero (s := s.landed) here _ zero, cursorMoved_clean]
      rfl
    · rw [failed_false ok, nextCursor_valid (s := s.landed) _ some_ valid, cursorMoved_clean]
      rfl
    · rw [nextCursor_bad (s := s.landed) here _ _ (bad.imp_left failed_true), cursorMoved_faulted]
      rfl
  · refine ⟨_, exec_noticeLinkReadComplete landing err, fun ok zero => ?_, fun ok some_ valid => ?_, fun bad => ?_⟩
    all_goals rw [noticeLinkCame_prompted (s := s.landed) prompted]
    · rw [failed_false ok, nextCursor_zero (s := s.landed) here _ zero, cursorMoved_prompted, Bool.or_false]
      rfl
    · rw [failed_false ok, nextCursor_valid (s := s.landed) _ some_ valid, cursorMoved_clean]
      rfl
    · rw [nextCursor_bad (s := s.landed) here _ _ (bad.imp_left failed_true), cursorMoved_prompted, Bool.or_true]
      rfl
  · refine ⟨fun _ _ _ _ _ => ⟨rfl, rfl⟩, fun _ _ _ _ => ⟨rfl, rfl⟩, fun _ _ _ _ => ⟨rfl, rfl⟩,
      fun failure _ before _ _ => ⟨rfl, ?_⟩, fun _ _ page => ⟨rfl, ?_⟩, fun _ _ _ => ⟨rfl, rfl⟩, fun _ _ _ => ⟨rfl, rfl⟩,
      fun capture => ⟨rfl, ?_⟩, fun _ _ => ⟨rfl, rfl⟩⟩
    · rcases failure with _ | _ | _ | _ | _ <;> cases before <;> rfl
    · cases page <;> rfl
    · obtain ⟨_, holder, _⟩ := capture
      cases holder <;> rfl

end Sys2Proof.Machine

/-! ## The queue of commands (O1, O3): log 2 -/

namespace Sys2Proof.Machine

theorem step_front {s : State} {c : Instr} {rest : List Instr} (front : s.pending = c :: rest) :
    step s = exec c (s.withPending rest) := by
  rw [step, front]

/-- Settles O1: the step takes the front command and leaves the rest as the queue. -/
theorem stepRunsFrontCommand : Obligations.StepRunsFrontCommand := fun c q s =>
  step_front (s := { s with pending := c :: q }) rfl

/-- A completion keeps the queue when what it goes on with does. -/
theorem complete_pending (p : User → Bool) (e : Bool) (k : Flight → State → State) (s : State)
    (part : ∀ f x, (k f x).pending = x.pending) : (s.complete p e k).pending = s.pending :=
  complete_keeps (P := fun x => x.pending = s.pending) p e k s rfl (fun f => (land_fields f e s).1)
    fun f x kept => (part f x).trans kept

theorem arbitrate_pending (s : State) : s.arbitrate.pending = s.pending := by
  rcases arbitrate_cases s with same | ⟨r, k, b, -, -, -, granted⟩
  · rw [same]
  · rw [granted]
    exact (grant_rest r k b s).1

/-- The commands of run control, of time and of the arbiter keep the queue; so do the resets, which return every block (R199). -/
theorem exec_outer_pending (s : State) {c : Instr} (outer : Outer c = true) :
    ∃ t, exec c s = .next t ∧ t.pending = s.pending := by
  cases c <;> try cases outer
  all_goals refine ⟨_, rfl, ?_⟩
  case powerOnReset | resetPin => exact (resetBlocks_rest _ _ s).1
  case resetPinRelease => rfl
  case softReset v | start v | halt v => exact (writeControl_rest v s).1
  case startReadsComplete e => exact complete_pending _ e _ s fun f x => (startRead_rest e f x).1
  case resumeReadsComplete e => exact complete_pending _ e _ s fun f x => (resumeRead_rest e f x).1
  case haltComplete =>
    split
    · split <;> rfl
    all_goals rfl
  case attentionWrite v => exact (writeAttention_rest v s).1
  case resetCauseWrite v => exact (writeCause_rest v s).1
  case registerWrite r n v =>
    split
    · exact (writeRegister_rest r v s).1
    · rfl
  case frameStart n => simp
  case syncLoss n => split <;> simp
  case keyFrame | falseStart =>
    repeat' split
    all_goals simp
  case burstGrant host => exact arbitrate_pending (s.hostWrote host)

/-- Settles O3: the commands of run control, of time and of the arbiter one by one, every other command by what it leaves alone. -/
theorem everyCommandAnswersNextState : Obligations.EveryCommandAnswersNextState := by
  intro c s
  cases outer : Outer c with
  | true => exact exec_outer_pending s outer
  | false =>
    obtain ⟨t, run, kept, -⟩ := exec_quiet c s outer
    exact ⟨t, run, kept⟩

end Sys2Proof.Machine
